-- ==== Sys2Proof/Word.lean ====
section
/-!
DEFINITION. The words the X9 computes with and the numbers of its units (00_scope R5 to R8, 01_architecture R18).
-/
namespace Sys2Proof

/-- A 64-bit scalar value (R84). -/
abbrev Word := BitVec 64
/-- One byte of memory or scratchpad (R6). -/
abbrev Byte := BitVec 8
/-- One 96-bit instruction word, parcel 0 in bits 31 to 0 (R6, R107). -/
abbrev IWord := BitVec 96
/-- One 1,024-bit vector register or data-queue entry (R7, R86). -/
abbrev VWord := BitVec 1024
/-- One ACC48 value (R41). -/
abbrev Acc := BitVec 48
/-- A physical core, 0 to 63 (R18). -/
abbrev CoreId := Fin 64
/-- A sequencer of a core, SQA to SQD (R8). -/
abbrev SeqId := Fin 4
/-- A die of the package (R18). -/
abbrev DieId := Fin 4
/-- A copy queue CQ0 to CQ7 of a core (R161). -/
abbrev CqId := Fin 8

/-- The two streams of a group (R65). -/
inductive Strm where
  | a | c
  deriving DecidableEq, Repr

/-- The other stream of the same group. -/
def Strm.sibling : Strm → Strm
  | .a => .c
  | .c => .a

/-- A context is named by its slice and its number in the slice (R25). -/
structure CtxId where
  slice : Fin 32
  ctx : Fin 8
  deriving DecidableEq, Repr

/-- A context as one number, the order of R220 and R221. -/
def CtxId.idx (k : CtxId) : Nat := k.slice.val * 8 + k.ctx.val

/-- A function of a host port: 0 is the physical function, n + 1 the virtual function of slice n (R25). -/
structure FnId where
  port : Fin 2
  fn : Fin 33
  deriving DecidableEq, Repr

/-- The die of a core (R8). -/
def dieOfCore (c : CoreId) : DieId := ⟨c.val / 16, by omega⟩

end Sys2Proof
end

