-- ==== Sys2Proof/Machine/Bits.lean ====
section
/-!
DEFINITION. Bit fields, sign extension, byte order and bit counting (00_scope R5 to R7 and R15), on natural numbers and
on words.
-/
namespace Sys2Proof.Machine

/-- Bits hi down to lo of a natural number (R5). -/
def bitsOf (x hi lo : Nat) : Nat := (x >>> lo) % 2 ^ (hi + 1 - lo)

/-- Bit n of a natural number. -/
def bitOf (x n : Nat) : Bool := x.testBit n

/-- 1 for true, 0 for false. -/
def b2n (b : Bool) : Nat := if b then 1 else 0

/-- A value of w bits read in two's complement. -/
def signedOf (w x : Nat) : Int := if x < 2 ^ (w - 1) then Int.ofNat x else Int.ofNat x - Int.ofNat (2 ^ w)

/-- An integer taken modulo 2^w. -/
def wrapInt (w : Nat) (i : Int) : Nat := (i % Int.ofNat (2 ^ w)).toNat

/-- sext of R15, from w bits to 64. -/
def sext64 (w x : Nat) : Word := BitVec.ofInt 64 (signedOf w x)

/-- The n bytes of a value, least significant first (R6). -/
def toBytes : Nat → Nat → List Byte
  | 0, _ => []
  | n + 1, v => BitVec.ofNat 8 v :: toBytes n (v / 256)

/-- The value of bytes stored least significant first (R6). -/
def ofBytes : List Byte → Nat
  | [] => 0
  | b :: bs => b.toNat + 256 * ofBytes bs

/-- Number of 1 bits among the low n bits. -/
def popCount : Nat → Nat → Nat
  | 0, _ => 0
  | n + 1, x => b2n (x.testBit n) + popCount n x

/-- Number of significant bits: 0 for 0. -/
def bitLen (x : Nat) : Nat := if x = 0 then 0 else x.log2 + 1

/-- The place of the lowest 1 bit among the low n bits, counted from i; i + n when there is none. -/
def lowestBit : Nat → Nat → Nat → Nat
  | 0, _, i => i
  | n + 1, x, i => if x.testBit i then i else lowestBit n x (i + 1)

/-- Replace bits lo to lo + w - 1 of x. -/
def setBits (x lo w v : Nat) : Nat :=
  x - (((x >>> lo) % 2 ^ w) <<< lo) + ((v % 2 ^ w) <<< lo)

/-- The element at place j of width w in a value (R7). -/
def elemOf (w j x : Nat) : Nat := (x >>> (w * j)) % 2 ^ w

/-- The value whose elements of width w are listed lowest first (R7). -/
def packElems (w : Nat) : List Nat → Nat
  | [] => 0
  | e :: es => e % 2 ^ w + 2 ^ w * packElems w es

/-- The n elements of width w of a value, lowest first (R7). -/
def elems (w : Nat) : Nat → Nat → List Nat
  | 0, _ => []
  | n + 1, x => x % 2 ^ w :: elems w n (x / 2 ^ w)

/-- Ceiling of a quotient. -/
def ceilDiv (a b : Nat) : Nat := if b = 0 then 0 else (a + b - 1) / b

/-- Round up to a multiple. -/
def roundUp (a m : Nat) : Nat := ceilDiv a m * m

/-- The greatest natural number whose square is at most x, found bit by bit from bit n - 1 down. -/
def isqrtFrom : Nat → Nat → Nat → Nat
  | 0, _, r => r
  | n + 1, x, r => let t := r + 2 ^ n; if t * t ≤ x then isqrtFrom n x t else isqrtFrom n x r

/-- Integer square root. -/
def isqrt (x : Nat) : Nat := isqrtFrom (bitLen x / 2 + 1) x 0

/-- Saturating counter of w bits. -/
def satAdd (w a b : Nat) : Nat := min (a + b) (2 ^ w - 1)

end Sys2Proof.Machine
end

