-- ==== Sys2Proof/Syntax.lean ====
section
/-!
DEFINITION. The syntax of the X9: operands, the 150 instruction words (06_encoding R107 to R119), the sixteen queue-script
instructions (12_submission R223), and the operations and events of the opcode table, one constructor of Instr per row.
-/
namespace Sys2Proof

/-- A scalar field of R85. Direction rules (R66) are in WellFormed. -/
inductive SOp where
  | x (n : Fin 64) | bq (n : Fin 4) | fq | xz
  deriving DecidableEq, Repr

/-- A scalar field that accepts only X0 to X63 and XZ (R85). -/
inductive XReg where
  | x (n : Fin 64) | xz
  deriving DecidableEq, Repr

/-- A vector field of R86. -/
inductive VOp where
  | v (n : Fin 640) | dq (n : Fin 8)
  deriving DecidableEq, Repr

/-- An architectural queue named by IMM16 (R118, R342). -/
inductive QCode where
  | bq (n : Fin 4) | fq | dq (n : Fin 8)
  deriving DecidableEq, Repr

/-- The wait slot of R78. -/
inductive Wait where
  | none
  | filled (n : Fin 64) | free (n : Fin 64) | reached (n : Fin 64)
  | openBA (n : Fin 16) | openDB (n : Fin 16)
  | idle (n : Fin 32) | drained (n : CqId) | fed (n : Fin 64)
  deriving DecidableEq, Repr

/-- A core or die barrier (R93). -/
inductive Bar where
  | ba (n : Fin 16) | db (n : Fin 16)
  deriving DecidableEq, Repr

/-- Vector element types (R87). -/
inductive ET where
  | f32 | bf16 | f16 | e4m3 | e5m2 | i32 | i16 | i8 | n32 | n16 | n8
  deriving DecidableEq, Repr

/-- Element formats (R32). -/
inductive Fmt where
  | e4m3 | e5m2 | e2m3 | e3m2 | e2m1 | bf16 | f16 | i8 | n8 | i4 | bx8 | bx6 | bx4
  deriving DecidableEq, Repr

/-- The rounding codes without random bits (R50). -/
inductive RMode where
  | rne | rtz | rup | rdn | rna | rnes
  deriving DecidableEq, Repr

/-- A rounding operand: a fixed mode, or stochastic with its random register and SRN (R53). -/
inductive Rnd where
  | fixed (m : RMode)
  | sr (sat : Bool) (v : VOp) (srn : BitVec 5)
  deriving DecidableEq, Repr

/-- Scopes of R180. -/
inductive Scope where
  | s | c | d | p | f
  deriving DecidableEq, Repr

/-- ORD of R185. -/
inductive Ord4 where
  | plain | acq | rel | ar
  deriving DecidableEq, Repr

/-- Scalar access sizes of R100. -/
inductive Size where
  | b | h | w | d | sb | sh | sw
  deriving DecidableEq, Repr

/-- Branch conditions of R111. -/
inductive BCond where
  | eq | ne | lt | ge | ltu | geu
  deriving DecidableEq, Repr

/-- Integer conditions of R111. -/
inductive ICond where
  | eq | ne | lt | le | ltu | leu
  deriving DecidableEq, Repr

/-- Floating conditions of R111. -/
inductive FCond where
  | eq | ne | lt | le | uno | ord
  deriving DecidableEq, Repr

/-- Branch hints (R109). -/
inductive Hint where
  | none | lk | un
  deriving DecidableEq, Repr

/-- Forms of IMULH (R112). -/
inductive MulHigh where
  | ss | uu | su
  deriving DecidableEq, Repr

/-- Types of MRD and MWR (R116). -/
inductive MType where
  | f32 | bf16 | f16 | e4m3 | e5m2 | i32 | acc
  deriving DecidableEq, Repr

/-- Destination operations of XACC (R117). -/
inductive AOp where
  | add | fadd | min | max | and | or | xor
  deriving DecidableEq, Repr

/-- Block-scale encodings (R39). -/
inductive Scl where
  | none | e8m0 | e4m3 | e5m2
  deriving DecidableEq, Repr

/-- Operations of VRED (R396). -/
inductive RedOp where
  | add | min | max
  deriving DecidableEq, Repr

/-! Operand groups, one structure for each shape of R112 to R119. -/

/-- Scalar, one source. -/
structure Sc2 where
  (w : Wait) (xd xa : SOp)
  deriving DecidableEq, Repr
/-- Scalar, two sources. -/
structure Sc3 where
  (w : Wait) (xd xa xb : SOp)
  deriving DecidableEq, Repr
/-- Scalar, three sources. -/
structure Sc4 where
  (w : Wait) (xd xa xb xc : SOp)
  deriving DecidableEq, Repr
/-- Scalar with an immediate. -/
structure ScI where
  (w : Wait) (xd xa : SOp) (imm : BitVec 32)
  deriving DecidableEq, Repr
/-- Branch on two registers. -/
structure BrA where
  (w : Wait) (xa xb : XReg) (cnd : BCond) (hint : Hint) (off : BitVec 32)
  deriving DecidableEq, Repr
/-- Scalar memory access (R90, R323). -/
structure MemA where
  (w : Wait) (d : SOp) (base idx : XReg) (off : BitVec 20) (size : Size) (ord : Ord4) (scope : Scope)
  deriving DecidableEq, Repr
/-- Vector memory access (R383). -/
structure VMemA where
  (w : Wait) (d : VOp) (base idx : XReg) (off : BitVec 20) (et : ET) (ord : Ord4) (scope : Scope) (km : Fin 16)
  deriving DecidableEq, Repr
/-- Gather or scatter; the pair is V2p and V2p+1 (R379). -/
structure GatA where
  (w : Wait) (pair : Fin 320) (base : XReg) (off : BitVec 20) (et : ET) (km : Fin 16)
  deriving DecidableEq, Repr
/-- Vector, one source. -/
structure V1 where
  (w : Wait) (vd : Fin 640) (va : VOp) (km : Fin 16) (et : ET)
  deriving DecidableEq, Repr
/-- Vector, two sources. -/
structure V2 where
  (w : Wait) (vd : Fin 640) (va vb : VOp) (km : Fin 16) (et : ET)
  deriving DecidableEq, Repr
/-- Vector, three sources. -/
structure V3 where
  (w : Wait) (vd : Fin 640) (va vb vc : VOp) (km : Fin 16) (et : ET)
  deriving DecidableEq, Repr
/-- Vector with a 16-bit immediate. -/
structure VI where
  (w : Wait) (vd : Fin 640) (va : VOp) (imm : BitVec 16) (km : Fin 16) (et : ET)
  deriving DecidableEq, Repr
/-- Vector compare into a mask. -/
structure VK2 where
  (w : Wait) (kd : Fin 16) (va vb : VOp) (km : Fin 16) (et : ET)
  deriving DecidableEq, Repr
/-- Vector compare with an immediate into a mask. -/
structure VKI where
  (w : Wait) (kd : Fin 16) (va : VOp) (imm : BitVec 16) (km : Fin 16) (et : ET)
  deriving DecidableEq, Repr
/-- Tile with one scalar operand (MWR, MSAVE, MLOAD) or none. -/
structure TileA where
  (w : Wait) (atd : Fin 32) (xa : XReg)
  deriving DecidableEq, Repr
/-- Tile command (R333). -/
structure MmaA where
  (w : Wait) (atd : Fin 32) (xa xb : XReg) (kb : BitVec 8) (z : Bool)
  deriving DecidableEq, Repr
/-- Copy command; ac = none is NOAC (R117). -/
structure CopyA where
  (w : Wait) (cq : CqId) (dst src len : XReg) (ac : Option (Fin 64))
  deriving DecidableEq, Repr
/-- Ring instruction with one register. -/
structure RingA where
  (w : Wait) (n : Fin 64) (x : XReg)
  deriving DecidableEq, Repr
/-- Mask forms of R321. -/
structure KA where
  (w : Wait) (kd ka kb : Fin 16)
  deriving DecidableEq, Repr
/-- Queue-script word with three registers (R223). -/
structure ScrR where
  (d a b : Fin 8)
  deriving DecidableEq, Repr

/-! Operands of the host's commands and of the events: the unit that acts and what the environment or Bridle's
firmware supplies. -/

/-- Table entries that Bridle's firmware writes: device physical address and value (R199, R200). -/
abbrev TabWrites := List (Nat × BitVec 64)

end Sys2Proof

namespace Sys2Proof.Machine

/-! Parts of the state that move with a context from package to package (R251). -/

/-- Why an agent is parked (R207, R209); the number is 0 until the tick ends in which it parked, and stays 0 in a context that has
trapped (R214). -/
structure Park where
  fid : BitVec 32
  cause : Nat
  addr : Nat
  gpa : Nat
  deriving DecidableEq, Repr

/-- A fault descriptor held by a core until it is written; its number is 0 until the tick ends in which it was raised; `sent` names
the write of its entry once that is made, before WIDX rises (R209, R210). -/
structure Desc where
  ctx : CtxId
  lcore : Nat
  agent : Nat
  addr : Nat
  sechdr : Word
  word : Nat
  cause : Nat
  write : Bool
  exec : Bool
  straddle : Bool
  window : Bool
  gpa : Nat
  fid : BitVec 32
  offset : Nat
  sent : Option Nat
  deriving DecidableEq, Repr

/-- A pending QFENCE (R190): which agents it names and what it waits for. -/
structure QFence where
  id : Nat
  queues : BitVec 8
  mtx : Option Nat
  self : Option (SeqId × Strm)
  deriving DecidableEq, Repr

/-- What Bridle keeps of a saved logical core beside its save area: its die at Q, the highest PRIO of its groups, the pop counts of its groups (R236), the
reasons its agents are parked by agent, the parked agents that have been resumed since, its QFENCEs with their marks by queue and
place, and the streams that wait for one; and of each tile command in its slots, front first, what R48 and R140 let it go on with: the
bytes it reads old, what its tile held at its acceptance, and whether a read may have returned its result. -/
structure SavedCore where
  lcore : Nat
  die : DieId
  prio : Nat
  popg : Vector Nat 4
  parks : List (Nat × Park)
  resumed : List Nat
  fences : List QFence
  marks : List (Nat × Nat × Nat)
  waits : List (Nat × Nat)
  slots : List (List (Nat × Byte) × List (Nat × Acc) × Bool)
  deriving DecidableEq, Repr

/-- A save area of a context (R241): its address, S, REASON, the logical cores in it in ascending order, the dies whose barriers
were switched out with it, and for a context that came from another package the difference of the Girth counts, the ticks that
had passed since S, and the count at which it came (R252). -/
structure Saved where
  pa : Nat
  s : Nat
  reason : Nat
  cores : List SavedCore
  out : BitVec 4
  moved : Option (Int × Nat × Nat)
  deriving DecidableEq, Repr

/-- A launch queue (R217): descriptor address, verified script, the index RIDX that registration took and the front end has raised
since, whether its front end is to run (R220), and performed writes (place, length) of which it is not yet known whether they touch
its DOORBELL, since a line of a table may not be read yet. -/
structure LaunchQ where
  desc : Word
  script : List (BitVec 32)
  ridx : Nat
  run : Bool
  rung : List (Nat × Nat)
  deriving DecidableEq, Repr

/-- A feed queue as its feed unit holds it (R231, R343): its descriptor and the die that homes it, BASE, M, FWIDX, FRIDX. -/
structure Feed where
  desc : Word
  die : DieId
  base : Nat
  m : Nat
  fw : Nat
  fr : Nat
  deriving DecidableEq, Repr

/-- What goes with a logical core when it leaves a physical one (R26): the die and the margin class of that core, its MARGIN and the limits that
Bridle has set for the slice. -/
structure LCore where
  die : DieId
  mclass : Fin 4
  margin : Nat
  leaseLim : Nat
  paceLim : Vector Nat 4
  deriving DecidableEq, Repr

/-- Status of a credit (R228). -/
inductive CStat where
  | ok | late | fatal | canc | killed | none
  deriving DecidableEq, Repr

/-- A continuation record (R61): its eight words, and its address, 0 for none (R425). -/
structure Rec where
  w : Vector Word 8
  addr : Word
  deriving DecidableEq, Repr

/-- A queue-script run of one packet on one die (R221, R222). -/
structure Run where
  t : Nat
  queue : Fin 16
  slot : Nat
  len : Nat
  body : List Word
  script : List (BitVec 32)
  s : Vector Word 8
  buf : Vector Word 8
  pc : Nat
  /-- Running loop: first word of the body, its length, n, iteration. -/
  loop : Option (Nat × Nat × Nat × Nat)
  steps : Nat
  emits : Nat
  started : Bool
  /-- Writes that must be performed before the run goes on: its counter's PEND, and the records it wrote. -/
  outs : List Nat
  deriving DecidableEq, Repr

/-- Work of a completion engine (R228): a step on a counter, a wake of a waiting record, the step of a SPAWN (R354), a push
of a record read. -/
inductive CJob where
  | step (c : Word) (st : CStat) (resid : Bool) (inc : Bool)
  | wake (r : Word)
  | spawn (r : Word)
  | push (r : Rec)
  deriving DecidableEq, Repr

end Sys2Proof.Machine

namespace Sys2Proof

/-- What Bridle's firmware picks for a new or restored slice (R26, R287): physical cores in logical order, the key slot,
the frames of the partition, the calendar positions of each core (R175), on every channel that `onChan` gives no others for, the ways on
each die, the stage-2 tables, the ranges of guest physical addresses that it grants (R207), base and size, and for a move onto a fresh key
where the frames of the old partition go (R261). -/
structure Grant where
  cores : List CoreId
  keyId : Nat
  frames : List Nat
  positions : List (CoreId × List Nat)
  onChan : List (Nat × List (CoreId × List Nat))
  ways : List (DieId × BitVec 16)
  s2root : Nat
  tables : TabWrites
  gpas : List (Nat × Nat)
  moves : List (Nat × Nat)
  deriving DecidableEq, Repr

/-- A change of stage-2 entries by Bridle: the entries, and the frames whose place it changes with them, each with its new one (R282
step 2). -/
structure Stage2Change where
  (tab : TabWrites) (moves : List (Nat × Nat))
  deriving DecidableEq, Repr

/-- One context of a slice that moves to another package (R251): what CTXCREATE gave it, its counters, its launch queues with their
verified scripts and indexes, its feed queues as their units hold them, its save areas and Keeper log with the addresses at which they stand, the ring records
of its cores, its ready lists by die and priority, its script runs and completion work by die, each with the bytes that a step already
performed found, and the fault descriptors that still wait. The target adds the ticks that have passed since the stop and the difference of the two Girth counts (R252). -/
structure CtxImage where
  ctx : Fin 8
  root : BitVec 64
  saddlebag : BitVec 64
  faultHdr : BitVec 64
  faultLog2 : Nat
  ways : Nat
  nextFid : BitVec 32
  goff : Int
  rr : Nat
  hold : Bool
  lqs : List (Fin 16 × Machine.LaunchQ)
  fds : List (Fin 64 × Machine.Feed)
  saved : List Machine.Saved
  klogPa : Nat
  rings : List (Nat × List (Nat × Nat × Nat × Nat))
  ready : List (DieId × Nat × List Machine.Rec)
  runs : List (DieId × List Machine.Run)
  jobs : List (DieId × List (Machine.CJob × Option (List Byte)))
  descs : List Machine.Desc
  elapsed : Nat
  girthDelta : Int
  deriving DecidableEq, Repr

/-- A migration that reaches this package as its target (R251): the slice, the argument words of its SLICEMAKE, what the
firmware grants, what goes with each logical core from the source, the contexts, and the bytes received at device physical addresses. -/
structure Incoming where
  port : Fin 2
  slice : Fin 32
  args : Vector (BitVec 64) 5
  grant : Grant
  src : List Machine.LCore
  ctxs : List CtxImage
  bytes : List (Nat × Byte)
  deriving DecidableEq, Repr

/-- Which unit is named by a fault descriptor or a walk: a stream or a copy queue of a core (R209). -/
inductive Agent where
  | strm (q : SeqId) (st : Strm)
  | queue (n : CqId)
  deriving DecidableEq, Repr

/-- Registers of Bridle that no other row writes (R12, R172, R173, R175, R178, R254, R273, R276, R279, R281, R96). -/
inductive BridleReg where
  | dcway (die : DieId) (slice : Fin 32)
  | dctb (die : DieId) (port : Fin 8) (k : CtxId)
  | hcal (stack : Fin 8) (ch : Fin 32) (pos : Fin 64)
  | actcfg (stack : Fin 8) (ch : Fin 32)
  | fabsh (port : Fin 24) (slice : Fin 32)
  | replim (core : CoreId)
  | droopth (core : CoreId)
  | vote (die : DieId) (slice : Fin 32)
  | therm (die : DieId)
  | leaseLimit (core : CoreId)
  | paceLimit (core : CoreId) (n : Fin 4)
  | dirtyMax
  deriving DecidableEq, Repr

/-- A peer package that asks something of this one, and the epoch it gives this package (R206). -/
structure Asker where
  (peer : BitVec 8) (epoch : BitVec 16)
  deriving DecidableEq, Repr

/-- A firmware image as it is offered to Thefort, with its XMSS signature, and the step of bring-up that then fails, if any: 0 is step 2
of R290 (R290, R291). -/
structure FwOffer where
  (image sig : List Byte) (fails : Option (Fin 5))
  deriving DecidableEq, Repr

/-- What PLDM reads of a core or of its die (R292): a monitor, the last temperature (R281), the rail (R279), and what the monitors have
recorded of the die: thermal warnings and falls stopped (R280, R281). -/
inductive Sensor where
  | monitor (m : Fin 8)
  | temperature | rail | warnings | stopped
  deriving DecidableEq, Repr

/-- What a peer package asks of this one (R196, R164). -/
inductive FabReq where
  | read (addr : Nat) (n : Nat)
  | write (addr : Nat) (bytes : List Byte)
  | atomic (addr : Nat) (op : AOp) (et : ET) (bytes : List Byte)
  | swap (addr : Nat) (et : ET) (cmp : Option (List Byte)) (bytes : List Byte)
  deriving DecidableEq, Repr

/-- The X9's operations and events, one constructor per row of the opcode table. -/
inductive Instr where
  -- scalar (R112)
  | iadd (a : Sc3) | isub (a : Sc3) | iaddi (a : ScI) | imul (a : Sc3) | imulh (a : Sc3) (k : MulHigh)
  | idiv (a : Sc3) (u : Bool) | irem (a : Sc3) (u : Bool)
  | and (a : Sc3) | andn (a : Sc3) | andi (a : ScI) | or (a : Sc3) | ori (a : ScI) | xor (a : Sc3) | xori (a : ScI)
  | shl (a : Sc3) | shr (a : Sc3) | shra (a : Sc3) | rot (a : Sc3) | popc (a : Sc2) | clz (a : Sc2)
  | min (a : Sc3) (u : Bool) | max (a : Sc3) (u : Bool) | sel (a : Sc4)
  | icmp (a : Sc3) (c : ICond) | icmpi (a : ScI) (c : ICond) | mov (a : Sc2)
  | bfx (a : Sc4) (sx : Bool) | bfi (w : Wait) (xd : XReg) (xa xb xc : SOp)
  | li (w : Wait) (xd : SOp) (imm : BitVec 32) | liHi (w : Wait) (xd : XReg) (imm : BitVec 32)
  -- control (R113)
  | b (a : BrA) | bq (w : Wait) (n : Fin 4) (xb : XReg) (cnd : BCond) (hint : Hint) (off : BitVec 32)
  | loop (w : Wait) (xa : Fin 64) (hint : Hint) (off : BitVec 32)
  | j (w : Wait) (xa : XReg) (off : BitVec 32) | jal (w : Wait) (xa xb : XReg) (off : BitVec 32)
  | halt (w : Wait) | trap (w : Wait) (n : BitVec 32)
  -- memory (R114)
  | ld (a : MemA) | st (a : MemA) | probe (w : Wait) (d : SOp) (base idx : XReg) (off : BitVec 20)
  | vld (a : VMemA) | vst (a : VMemA) | vldp (a : VMemA) | vgather (a : GatA) | vscatter (a : GatA)
  -- vector floating point (R115)
  | vfadd (a : V2) (r : Rnd) | vfsub (a : V2) (r : Rnd) | vfmul (a : V2) (r : Rnd)
  | vfaddI (a : VI) (r : RMode) | vfmulI (a : VI) (r : RMode)
  | vfma (a : V3) (r : RMode) | vfms (a : V3) (r : RMode) | vfmaI (a : VI) (r : RMode)
  | vfmin (a : V2) (num : Bool) | vfmax (a : V2) (num : Bool) | vfminI (a : VI) (num : Bool) | vfmaxI (a : VI) (num : Bool)
  | vfabs (a : V1) | vfneg (a : V1) | vfnabs (a : V1)
  | vfrcp (a : V1) (r : Rnd) | vfrsq (a : V1) (r : Rnd) | vfexp2 (a : V1) (r : Rnd) | vflog2 (a : V1) (r : Rnd)
  | vfcmp (a : VK2) (c : FCond) | vfcmpI (a : VKI) (c : FCond)
  | vfcvt (a : V1) (src : ET) (r : Rnd) | vfscl (a : V2) (r : Rnd)
  | vdot (a : V2) (vc : Option VOp) (blk : Fin 3) (scl : Scl) (r : RMode)
  | vred (a : V1) (op : RedOp) (r : Rnd)
  -- vector integer and permute (R115)
  | viadd (a : V2) (sat : Bool) | visub (a : V2) (sat : Bool) | vimul (a : V2) (hi : Bool) | vimad (a : V3) (sat : Bool)
  | vimin (a : V2) | vimax (a : V2) | vshl (a : V2) | vshr (a : V2)
  | viaddI (a : VI) (sat : Bool) | vshlI (a : VI) | vshrI (a : VI)
  | vand (a : V2) | vor (a : V2) | vxor (a : V2) | vandI (a : VI)
  | vicmp (a : VK2) (c : ICond) | vicmpI (a : VKI) (c : ICond)
  | vsel (a : V3) | vperm (a : V2) | vrot (a : V1) (n : Fin 32) | vbcast (a : V1) (lane : Fin 32)
  | vmov (a : V1) | vmovI (w : Wait) (vd : Fin 640) (imm : BitVec 16) (km : Fin 16) (et : ET)
  | vminmax (w : Wait) (pair : Fin 320) (va vb : VOp) (km : Fin 16) (et : ET)
  | vcmpr (a : V1) (cnt : BitVec 6) | vexpd (a : V1) | vpopc (a : V1)
  | vpack (w : Wait) (vd : Fin 640) (va vb : VOp) (et : ET) (fmt : Fmt) (r : Rnd)
  | vunpk (w : Wait) (vd : Fin 640) (va : VOp) (et : ET) (fmt : Fmt)
  | vplane (w : Wait) (vd : Fin 640) (va : VOp) (fmt : Fmt) | vunpl (w : Wait) (vd : Fin 640) (va : VOp) (fmt : Fmt)
  -- matrix (R116)
  | cinch (w : Wait) | uncinch (w : Wait) | mma (a : MmaA) | mmas (a : MmaA) (xs : XReg)
  | mzero (w : Wait) (atd : Fin 32) | mwait (w : Wait) (atd : Fin 32)
  | mrd (a : TileA) (xb : XReg) (ty : MType) (r : RMode) | mwr (a : TileA) (ty : MType)
  | msave (a : TileA) | mload (a : TileA) | fqpush (w : Wait) (xa : XReg)
  -- copy engines (R117)
  | xcopy (a : CopyA) | xcopyStr (a : CopyA) (desc : XReg) | xfill (a : CopyA)
  | xacc (a : CopyA) (op : AOp) (et : ET) | xswap (a : CopyA) (et : ET) | xcas (a : CopyA) (desc : XReg) (et : ET)
  | xplane (a : CopyA) (desc : XReg)
  -- synchronisation (R118)
  | qpush (w : Wait) (q : QCode) (xa : XReg) | qpop (w : Wait) (q : QCode) (xd : XReg) | qcnt (w : Wait) (q : QCode) (xd : XReg)
  | qpushFd (w : Wait) (n : Fin 64) (xa : XReg) | qpopFd (w : Wait) (n : Fin 64) (xd : Fin 57)
  | qcntFd (w : Wait) (n : Fin 64) (xd : XReg)
  | qfence (w : Wait) (cqs : BitVec 8) (mtx self : Bool)
  | rclaim (a : RingA) | rfill (a : RingA) | rtake (a : RingA) | rfree (a : RingA)
  | acset (w : Wait) (n : Fin 64) (xa xb : XReg)
  | barr (w : Wait) (b : Bar) | barrCfg (w : Wait) (b : Bar) (xa : XReg) | bwait (w : Wait) (b : Bar)
  | tlook (w : Wait) (xd : SOp) (xa : XReg) | tins (w : Wait) (xa xb : XReg) | tevc (w : Wait) (xd : SOp) (xa : XReg)
  | tinv (w : Wait) (xa : XReg) | tinvAll (w : Wait)
  | kset (w : Wait) (kd : Fin 16) (xa : XReg) | kand (a : KA) | kor (a : KA) | kxor (a : KA) | kandn (a : KA)
  | knot (w : Wait) (kd ka : Fin 16) | kpopc (w : Wait) (xd : SOp) (ka : Fin 16) | kfirst (w : Wait) (xd : SOp) (ka : Fin 16)
  | fence (w : Wait) (sc : Scope) | wait (w : Wait)
  -- system (R119)
  | mfs (w : Wait) (xd : SOp) (spr : BitVec 12) | mts (w : Wait) (xa : SOp) (spr : BitVec 12)
  | tsr (w : Wait) (xg xc : XReg) | spawn (w : Wait) (xa : XReg) | join (w : Wait) (xd : SOp) (xa : XReg)
  | cancel (w : Wait) (xa : XReg) (level : Fin 4) | dlchk (w : Wait) (xd : SOp) | nop (w : Wait)
  -- queue scripts (R223)
  | scriptEnd | scriptLdp (d : Fin 8) (w : BitVec 6) | scriptLdi (d : Fin 8) (i : BitVec 19) | scriptLde (d : Fin 8) (e : Fin 8)
  | scriptAdd (r : ScrR) | scriptAddi (d a : Fin 8) (i : BitVec 19) | scriptMul (r : ScrR)
  | scriptShl (d a : Fin 8) (n : BitVec 6) | scriptShr (d a : Fin 8) (n : BitVec 6)
  | scriptAnd (r : ScrR) | scriptMinu (r : ScrR) | scriptRset (f : Fin 8) (a : Fin 8)
  | scriptJfw (a b : Fin 8) (c : BitVec 3) (off : BitVec 8) | scriptLoop (n : BitVec 7) (len : BitVec 8)
  | scriptEmit (a b : Fin 8) | scriptRclr
  -- host commands and accesses (R284 to R288)
  | ctxcreate (f : FnId) | ctxkill (f : FnId) | lqreg (f : FnId) | fdreg (f : FnId) | inval (f : FnId) | resume (f : FnId)
  | hostCancel (f : FnId) | thaw (f : FnId) | slicemake (f : FnId) (g : Grant) | slicefree (f : FnId) | migrate (f : FnId)
  | functionRegisterWrite (f : FnId) (off : BitVec 16) (n : Fin 9) (v : BitVec 64)
  | bootGo (f : FnId) (l : Fin 64)
  | hostWindowWrite (f : FnId) (off : BitVec 32) (bytes : List Byte) | hostWindowRead (f : FnId) (off : BitVec 32) (n : Nat)
  | pcieAtomicFetchadd (f : FnId) (off : BitVec 32) (v : BitVec 64) | functionLevelReset (f : FnId)
  -- bring-up and side-band (R290 to R292)
  | powerOn (sigIndex : Nat) (version : Nat) (fw : FwOffer) | pldmFirmwareUpdate (sigIndex : Nat) (version : Nat) (fw : FwOffer)
  | spdmRequest (index : Nat) | pldmSensorRequest (core : CoreId) (m : Sensor)
  -- submission and scheduling
  | frontEndRun (k : CtxId) (q : Fin 16) | frontEndPoll (d : DieId) | feedPacket (k : CtxId) (q : Fin 16)
  | scriptRun (d : DieId) (k : CtxId) | readyPush (d : DieId) (k : CtxId) | completionStep (d : DieId) (k : CtxId)
  | groupPop (c : CoreId) (q : SeqId) | groupStart (c : CoreId) (q : SeqId) | groupRetire (c : CoreId) (q : SeqId)
  | sectionEnter (c : CoreId) (q : SeqId) (st : Strm) | sectionFetch (c : CoreId) (q : SeqId) (st : Strm)
  -- held effects, replay and margin
  | heldEffectCommit (c : CoreId) (q : SeqId) | replay (c : CoreId) (q : SeqId) (n : Nat) | replayWindowEnd (c : CoreId)
  | quarantineInput (c : CoreId) | mcrWrite (c : CoreId) (v : BitVec 64) | biasSettle (c : CoreId)
  | droopTrigger (c : CoreId) (mv : BitVec 8) | droopStretchEnd (c : CoreId) | halvedIssueEnd (c : CoreId)
  | railStep (d : DieId) | railHoldEnd (d : DieId) | biasRaiseForFall (d : DieId)
  | thermalReading (d : DieId) (celsius : BitVec 8) | dieReturn (d : DieId)
  -- matrix engine and copy engines
  | cinchGrant (c : CoreId) | cinchIdleExpiry (c : CoreId) | tileComplete (c : CoreId)
  | copyUnit (c : CoreId) (q : CqId) | copyComplete (c : CoreId) (q : CqId)
  -- die cache and HBM4
  | tokenBucketRefill (d : DieId) (port : Fin 8) | hbmSlot (stack : Fin 8) (ch : Fin 32)
  | refreshManagement (stack : Fin 8) (ch : Fin 32) | hbmRefresh (stack : Fin 8) (ch : Fin 32)
  | dataReturn (c : CoreId) (q : SeqId) (st : Strm) (n : Nat)
  | writeApplyHome (src home : DieId) | writeApplyRemote (home d : DieId)
  -- translation and faults
  | translationWalk (c : CoreId) (va : BitVec 64) (wr : Bool) | pageWindowFill (c : CoreId) (q : SeqId) (port : Fin 4)
  | faultDescriptorWrite (k : CtxId) | faultQueueRetry (k : CtxId)
  | stage2FaultResolve (c : CoreId) (a : Agent) (fatal : Bool) (tab : TabWrites)
  | bridleStage2Inval (slice : Fin 32) (gpa : BitVec 52) (pages : Nat) (tab : Stage2Change)
  -- the package's own events of the last groups, before those that only Bridle's firmware and the world outside bring
  | contextFreeze (k : CtxId) | stop (k : CtxId) | clearedFrameFill (frame : Fin 8388608) | matrixBeat (c : CoreId)
  | fabricFlitSlot (port : Fin 24) | dieFault (d : DieId) | fabricLinkTimeout (req : Nat)
  | staleEpochReply (req : Nat) | noTargetReply (req : Nat)
  | fabricRequest (slice : Fin 32) (p : Asker) (r : FabReq)
  -- Bridle
  | preemptDecision (k : CtxId) (cores : BitVec 64) (deadline : BitVec 64) (estimate : BitVec 32) (tokens prio : BitVec 8)
  | quiescenceSave (k : CtxId) (pa klog : Nat) | restore (k : CtxId) (g : Grant)
  | allocTableWrite (frame : Fin 8388608) (v : BitVec 32) | scrubBurst (frame : Fin 8388608) (burst : Fin 128)
  | bridleRegisterWrite (r : BridleReg) (v : BitVec 64)
  | hostReadCompletion (req : Nat) (data : Option (List Byte)) | pcieCompletionTimeout (req : Nat)
  | fabricReply (req : Nat) (data : List Byte) | incomingMigration (m : Incoming)
  deriving DecidableEq, Repr

end Sys2Proof
end

