-- ==== Sys2Proof/WellFormed.lean ====
section
/-!
DEFINITION. Which instructions a stream may hold: the direction rules of R66 and R85, the field rules of R53, R100 and
R109 to R119, and the wait slot of R78. A well-formed instruction is one that decoding can answer.
-/
namespace Sys2Proof

/-- A scalar field read as a source (R66, R85). -/
def SOp.srcOk (st : Strm) : SOp → Bool
  | .x _ => true
  | .xz => true
  | .bq _ => st = .a
  | .fq => false

/-- A scalar field written as a destination (R66, R85). -/
def SOp.dstOk (st : Strm) : SOp → Bool
  | .x _ => true
  | .xz => true
  | .bq _ => st = .c
  | .fq => true

/-- The wait slot: WK 7 needs the RESIDENT flag of the record (R78). -/
def Wait.ok (resident : Bool) : Wait → Bool
  | .fed _ => resident
  | _ => true

/-- Floating element types, ET 0x0 to 0x4 (R87). -/
def ET.isFloat : ET → Bool
  | .f32 | .bf16 | .f16 | .e4m3 | .e5m2 => true
  | _ => false

/-- Integer element types, ET 0x5 to 0xA (R87). -/
def ET.isInt (e : ET) : Bool := !e.isFloat

/-- Element types of VDOT (R366). -/
def ET.isDot : ET → Bool
  | .bf16 | .f16 | .e4m3 | .e5m2 => true
  | _ => false

/-- Elements per lane (R87). -/
def ET.perLane : ET → Nat
  | .f32 | .i32 | .n32 => 1
  | .bf16 | .f16 | .i16 | .n16 => 2
  | .e4m3 | .e5m2 | .i8 | .n8 => 4

/-- A rounding operand of a form that may round stochastically (R53). -/
def Rnd.ok : Rnd → Bool
  | .fixed _ => true
  | .sr _ _ n => decide (1 ≤ n.toNat ∧ n.toNat ≤ 23)

/-- ORD 0 needs SCOPE 0 (R100). -/
def ordScopeOk (o : Ord4) (s : Scope) : Bool := decide (o = .plain → s = .s)

/-- A queue named by QPUSH (R342, R66). -/
def QCode.pushOk (st : Strm) : QCode → Bool
  | .bq _ => st = .c
  | .fq => true
  | .dq _ => st = .a

/-- A queue named by QPOP (R342, R66). -/
def QCode.popOk (st : Strm) : QCode → Bool
  | .bq _ => st = .a
  | .fq => false
  | .dq _ => st = .c

/-- Element types an AOP accepts (R117). -/
def AOp.etOk : AOp → ET → Bool
  | .fadd, e => e.isFloat
  | .min, _ => true
  | .max, _ => true
  | _, e => e.isInt

/-- SPR numbers of R94. -/
def sprListed (n : Nat) : Bool :=
  decide (n ≤ 0x00C) || (decide (0x010 ≤ n) && decide (n ≤ 0x014)) || (decide (0x020 ≤ n) && decide (n ≤ 0x02F))

namespace Instr

/-- Scalar operand groups. -/
def sc2Ok (st : Strm) (r : Bool) (a : Sc2) : Bool := a.w.ok r && a.xd.dstOk st && a.xa.srcOk st
def sc3Ok (st : Strm) (r : Bool) (a : Sc3) : Bool := a.w.ok r && a.xd.dstOk st && a.xa.srcOk st && a.xb.srcOk st
def sc4Ok (st : Strm) (r : Bool) (a : Sc4) : Bool :=
  a.w.ok r && a.xd.dstOk st && a.xa.srcOk st && a.xb.srcOk st && a.xc.srcOk st
def scIOk (st : Strm) (r : Bool) (a : ScI) : Bool := a.w.ok r && a.xd.dstOk st && a.xa.srcOk st

/-- An integer condition is a SUB of ICMP; VICMP has no unsigned codes of its own (R111). -/
def vcondOk : ICond → Bool
  | .ltu | .leu => false
  | _ => true

/-- A vector load's destination: DQ with KM 0 in the A-stream, V in the C-stream (R66, R383). -/
def vloadOk (st : Strm) (a : VMemA) : Bool :=
  match st, a.d with
  | .a, .dq _ => decide (a.km = 0)
  | .c, .v _ => true
  | _, _ => false

/-- C-stream only. -/
def isC (st : Strm) : Bool := st = .c

/-- Vector shapes: stream, wait slot and element type. -/
def vOk (st : Strm) (r : Bool) (w : Wait) (p : Bool) : Bool := st = .c && w.ok r && p

/-- VDOT's SUB: 3 is no block size (R366); VC stands exactly when a scale is named. -/
def dotOk (vc : Option VOp) (scl : Scl) : Bool := vc.isSome == !decide (scl = .none)

/-- Well-formed in a stream of a group whose RESIDENT flag is given; every operation and event is well-formed. -/
def wf (st : Strm) (r : Bool) : Instr → Bool
  | .iadd a | .isub a | .imul a | .imulh a _ | .idiv a _ | .irem a _ | .and a | .andn a | .or a | .xor a
  | .shl a | .shr a | .shra a | .rot a | .min a _ | .max a _ | .icmp a _ => sc3Ok st r a
  | .iaddi a | .andi a | .ori a | .xori a | .icmpi a _ => scIOk st r a
  | .popc a | .clz a | .mov a => sc2Ok st r a
  | .sel a | .bfx a _ => sc4Ok st r a
  | .bfi w _ xa xb xc => w.ok r && xa.srcOk st && xb.srcOk st && xc.srcOk st
  | .li w xd _ => w.ok r && xd.dstOk st
  | .liHi w _ _ => w.ok r
  | .b a => a.w.ok r
  | .bq w _ _ _ _ _ => decide (st = .a) && w.ok r
  | .loop w _ _ _ | .j w _ _ | .jal w _ _ _ | .halt w | .trap w _ => w.ok r
  | .ld a => a.w.ok r && a.d.dstOk st && ordScopeOk a.ord a.scope && !decide (a.ord = .rel)
  | .st a => a.w.ok r && a.d.srcOk st && ordScopeOk a.ord a.scope && !decide (a.ord = .acq)
      && !decide (a.size = .sb) && !decide (a.size = .sh) && !decide (a.size = .sw)
  | .probe w d _ _ _ => w.ok r && d.dstOk st
  | .vld a | .vldp a => a.w.ok r && vloadOk st a && ordScopeOk a.ord a.scope && (decide (a.ord = .plain) || decide (a.ord = .acq))
  | .vst a => vOk st r a.w (ordScopeOk a.ord a.scope && (decide (a.ord = .plain) || decide (a.ord = .rel)))
  | .vgather a | .vscatter a => vOk st r a.w true
  | .vfadd a n | .vfsub a n | .vfmul a n | .vfscl a n => vOk st r a.w (a.et.isFloat && n.ok)
  | .vfaddI a _ | .vfmulI a _ | .vfmaI a _ => vOk st r a.w a.et.isFloat
  | .vfma a _ | .vfms a _ => vOk st r a.w a.et.isFloat
  | .vfmin a _ | .vfmax a _ => vOk st r a.w a.et.isFloat
  | .vfminI a _ | .vfmaxI a _ => vOk st r a.w a.et.isFloat
  | .vfabs a | .vfneg a | .vfnabs a => vOk st r a.w a.et.isFloat
  | .vfrcp a n | .vfrsq a n | .vfexp2 a n | .vflog2 a n => vOk st r a.w (a.et.isFloat && n.ok)
  | .vfcmp a _ => vOk st r a.w (a.et.isFloat && !decide (a.kd = 0))
  | .vfcmpI a _ => vOk st r a.w (a.et.isFloat && !decide (a.kd = 0))
  | .vfcvt a s n => vOk st r a.w ((a.et.isFloat || s.isFloat) && n.ok)
  | .vdot a vc _ scl _ => vOk st r a.w (a.et.isDot && dotOk vc scl)
  | .vred a op n => vOk st r a.w (a.et.isFloat && (if op = .add then n.ok else decide (n = .fixed .rne)))
  | .viadd a _ | .visub a _ | .vimul a _ => vOk st r a.w a.et.isInt
  | .vimad a _ => vOk st r a.w a.et.isInt
  | .vimin a | .vimax a | .vshl a | .vshr a => vOk st r a.w a.et.isInt
  | .viaddI a _ => vOk st r a.w a.et.isInt
  | .vshlI a | .vshrI a => vOk st r a.w a.et.isInt
  | .vand a | .vor a | .vxor a | .vperm a => vOk st r a.w true
  | .vandI a => vOk st r a.w true
  | .vicmp a c => vOk st r a.w (a.et.isInt && vcondOk c && !decide (a.kd = 0))
  | .vicmpI a c => vOk st r a.w (a.et.isInt && vcondOk c && !decide (a.kd = 0))
  | .vsel a => vOk st r a.w true
  | .vrot a _ | .vbcast a _ => vOk st r a.w true
  | .vmov a | .vexpd a => vOk st r a.w true
  | .vmovI w _ _ _ _ => vOk st r w true
  | .vminmax w _ _ _ _ _ => vOk st r w true
  | .vcmpr a n => vOk st r a.w (decide (n.toNat ≤ 32 * a.et.perLane))
  | .vpopc a => vOk st r a.w a.et.isInt
  | .vpack w _ _ _ _ _ n => vOk st r w n.ok
  | .vunpk w _ _ _ _ => vOk st r w true
  | .vplane w _ _ _ | .vunpl w _ _ _ => vOk st r w true
  | .cinch w | .uncinch w => vOk st r w true
  | .mma a | .mmas a _ => vOk st r a.w (!decide (a.kb = 0))
  | .mzero w _ | .mwait w _ => vOk st r w true
  | .mrd a _ _ _ | .mwr a _ | .msave a | .mload a => vOk st r a.w true
  | .fqpush w _ => w.ok r
  | .xcopy a | .xcopyStr a _ | .xfill a | .xplane a _ => a.w.ok r
  | .xacc a op et => a.w.ok r && op.etOk et
  | .xswap a et | .xcas a _ et => a.w.ok r && et.isInt
  | .qpush w q _ => w.ok r && q.pushOk st
  | .qpop w q _ => w.ok r && q.popOk st
  | .qcnt w _ _ | .qpushFd w _ _ | .qpopFd w _ _ | .qcntFd w _ _ => w.ok r
  | .qfence w qs m s => w.ok r && (!decide (qs = 0) || m || s)
  | .rclaim a | .rfill a | .rtake a | .rfree a => a.w.ok r
  | .acset w _ _ _ | .barr w _ | .barrCfg w _ _ | .bwait w _ => w.ok r
  | .tlook w xd _ | .tevc w xd _ => w.ok r && xd.dstOk st
  | .tins w _ _ | .tinv w _ | .tinvAll w => w.ok r
  | .kset w kd _ => vOk st r w (!decide (kd = 0))
  | .kand a | .kor a | .kxor a | .kandn a => vOk st r a.w (!decide (a.kd = 0))
  | .knot w kd _ => vOk st r w (!decide (kd = 0))
  | .kpopc w xd _ | .kfirst w xd _ => vOk st r w (xd.dstOk st)
  | .fence w _ | .wait w => w.ok r
  | .mfs w xd spr => w.ok r && xd.dstOk st && sprListed spr.toNat
  | .mts w xa spr => w.ok r && xa.srcOk st && sprListed spr.toNat
  | .tsr w xg xc => w.ok r && (!decide (xg = xc) || decide (xg = .xz))
  | .spawn w _ => w.ok r
  | .join w xd _ => w.ok r && xd.dstOk st
  | .cancel w _ _ => w.ok r
  | .dlchk w xd => w.ok r && xd.dstOk st
  | .nop w => w.ok r
  | _ => true

/-- The instruction is a word of a stream: neither a word of a script (R223) nor a command or an event of the rest of the machine. -/
def inStream : Instr → Bool
  | .scriptEnd | .scriptLdp _ _ | .scriptLdi _ _ | .scriptLde _ _ | .scriptAdd _ | .scriptAddi _ _ _ | .scriptMul _ | .scriptShl _ _ _
  | .scriptShr _ _ _ | .scriptAnd _ | .scriptMinu _ | .scriptRset _ _ | .scriptJfw _ _ _ _ | .scriptLoop _ _ | .scriptEmit _ _
  | .scriptRclr | .ctxcreate _ | .ctxkill _ | .lqreg _ | .fdreg _ | .inval _ | .resume _ | .hostCancel _ | .thaw _ | .slicemake _ _
  | .slicefree _ | .migrate _ | .functionRegisterWrite _ _ _ _ | .bootGo _ _ | .hostWindowWrite _ _ _ | .hostWindowRead _ _ _
  | .pcieAtomicFetchadd _ _ _ | .functionLevelReset _ | .powerOn _ _ _ | .pldmFirmwareUpdate _ _ _ | .spdmRequest _
  | .pldmSensorRequest _ _ | .frontEndRun _ _ | .frontEndPoll _ | .feedPacket _ _ | .scriptRun _ _ | .readyPush _ _ | .completionStep _ _
  | .groupPop _ _ | .groupStart _ _ | .groupRetire _ _ | .sectionEnter _ _ _ | .sectionFetch _ _ _ | .heldEffectCommit _ _ | .replay _ _ _
  | .replayWindowEnd _ | .quarantineInput _ | .mcrWrite _ _ | .biasSettle _ | .droopTrigger _ _ | .droopStretchEnd _ | .halvedIssueEnd _
  | .railStep _ | .railHoldEnd _ | .biasRaiseForFall _ | .thermalReading _ _ | .dieReturn _ | .cinchGrant _ | .cinchIdleExpiry _
  | .tileComplete _ | .copyUnit _ _ | .copyComplete _ _ | .tokenBucketRefill _ _ | .hbmSlot _ _ | .refreshManagement _ _ | .hbmRefresh _ _
  | .dataReturn _ _ _ _ | .writeApplyHome _ _ | .writeApplyRemote _ _ | .translationWalk _ _ _ | .pageWindowFill _ _ _
  | .faultDescriptorWrite _ | .faultQueueRetry _ | .stage2FaultResolve _ _ _ _ | .bridleStage2Inval _ _ _ _ | .contextFreeze _ | .stop _
  | .clearedFrameFill _ | .matrixBeat _ | .fabricFlitSlot _ | .dieFault _ | .fabricLinkTimeout _ | .staleEpochReply _ | .noTargetReply _
  | .fabricRequest _ _ _ | .preemptDecision _ _ _ _ _ _ | .quiescenceSave _ _ _ | .restore _ _ | .allocTableWrite _ _ | .scrubBurst _ _
  | .bridleRegisterWrite _ _ | .hostReadCompletion _ _ | .pcieCompletionTimeout _ | .fabricReply _ _ | .incomingMigration _ => false
  | _ => true

end Instr
end Sys2Proof
end

