-- ==== Sys2Proof/Decode.lean ====
section
/-!
DEFINITION. Decoding a 96-bit word in the order of R121 (the cause codes 1 to 8), decoding a queue-script word (R223), and
the encoder, both written from R107 to R119. A word is handled as a natural number; bit 0 is the lowest.
-/
namespace Sys2Proof

open Machine

/-- A check of R121: when it fails, decoding ends with its cause. -/
def chk {α : Type} (cause : Nat) (ok : Bool) (k : Except Nat α) : Except Nat α := if ok then k else .error cause

/-- A field that must read as something: when it does not, decoding ends with the cause. -/
def need {α β : Type} (cause : Nat) (o : Option α) (k : α → Except Nat β) : Except Nat β :=
  match o with
  | some a => k a
  | none => .error cause

/-- What decoding a word depends on: the stream, the record's RESIDENT flag and the word's bits. -/
structure DecCtx where
  (st : Strm) (res : Bool) (w : Nat)

/-! Operand codes. -/

/-- A scalar code of R85. -/
def sopOf (n : Nat) : Option SOp :=
  if h : n < 64 then some (.x ⟨n, h⟩)
  else if h : n - 64 < 4 then some (.bq ⟨n - 64, h⟩)
  else if n = 72 then some .fq else if n = 127 then some .xz else none

def SOp.code : SOp → Nat
  | .x n => n.val
  | .bq n => 64 + n.val
  | .fq => 72
  | .xz => 127

/-- A code that accepts only X0 to X63 and XZ (R85). -/
def xregOf (n : Nat) : Option XReg :=
  if h : n < 64 then some (.x ⟨n, h⟩) else if n = 127 then some .xz else none

def XReg.code : XReg → Nat
  | .x n => n.val
  | .xz => 127

/-- A scalar source of a stream (R66, R85). -/
def srcOf (st : Strm) (n : Nat) : Option SOp := (sopOf n).filter (·.srcOk st)

/-- A scalar destination of a stream (R66, R85). -/
def dstOf (st : Strm) (n : Nat) : Option SOp := (sopOf n).filter (·.dstOk st)

/-- A vector code of R86. -/
def vopOf (n : Nat) : Option VOp :=
  if h : n < 640 then some (.v ⟨n, h⟩) else if h : n - 640 < 8 then some (.dq ⟨n - 640, h⟩) else none

def VOp.code : VOp → Nat
  | .v n => n.val
  | .dq n => 640 + n.val

/-- A number below a bound. -/
def finOf (k n : Nat) : Option (Fin k) := if h : n < k then some ⟨n, h⟩ else none

/-- A destination mask K1 to K15 (R88, R109). -/
def kdstOf (n : Nat) : Option (Fin 16) := if n = 0 then none else finOf 16 n

/-- A vector pair V2p, V2p+1 (R109). -/
def pairOf (n : Nat) : Option (Fin 320) := if n % 2 = 0 then finOf 320 (n / 2) else none

/-- A queue code of R342. -/
def qcodeOf (n : Nat) : Option QCode :=
  if 64 ≤ n then
    if h : n - 64 < 4 then some (.bq ⟨n - 64, h⟩)
    else if n = 72 then some .fq
    else if 640 ≤ n then (if h : n - 640 < 8 then some (.dq ⟨n - 640, h⟩) else none) else none
  else none

def QCode.code : QCode → Nat
  | .bq n => 64 + n.val
  | .fq => 72
  | .dq n => 640 + n.val

/-- The wait slot (R78). -/
def waitOf (res : Bool) (wk wo : Nat) : Option Wait :=
  match wk with
  | 0 => if wo = 0 then some .none else none
  | 1 => (finOf 64 wo).map .filled
  | 2 => (finOf 64 wo).map .free
  | 3 => (finOf 64 wo).map .reached
  | 4 => if wo < 16 then (finOf 16 wo).map .openBA else (finOf 16 (wo - 16)).map .openDB
  | 5 => (finOf 32 wo).map .idle
  | 6 => (finOf 8 wo).map .drained
  | 7 => if res then (finOf 64 wo).map .fed else none
  | _ => none

def Wait.wk : Wait → Nat
  | .none => 0
  | .filled _ => 1
  | .free _ => 2
  | .reached _ => 3
  | .openBA _ => 4
  | .openDB _ => 4
  | .idle _ => 5
  | .drained _ => 6
  | .fed _ => 7

def Wait.wo : Wait → Nat
  | .none => 0
  | .filled n => n.val
  | .free n => n.val
  | .reached n => n.val
  | .openBA n => n.val
  | .openDB n => 16 + n.val
  | .idle n => n.val
  | .drained n => n.val
  | .fed n => n.val

/-- A barrier's OBJ code (R93). -/
def barOf (n : Nat) : Option Bar :=
  if 0x80 ≤ n then
    (if n < 0x90 then (finOf 16 (n - 0x80)).map .ba else (finOf 16 (n - 0x90)).map .db)
  else none

def Bar.code : Bar → Nat
  | .ba n => 0x80 + n.val
  | .db n => 0x90 + n.val

/-! Field values. -/

def etOf : Nat → Option ET
  | 0 => some .f32 | 1 => some .bf16 | 2 => some .f16 | 3 => some .e4m3 | 4 => some .e5m2 | 5 => some .i32
  | 6 => some .i16 | 7 => some .i8 | 8 => some .n32 | 9 => some .n16 | 10 => some .n8 | _ => none

def ET.code : ET → Nat
  | .f32 => 0 | .bf16 => 1 | .f16 => 2 | .e4m3 => 3 | .e5m2 => 4 | .i32 => 5
  | .i16 => 6 | .i8 => 7 | .n32 => 8 | .n16 => 9 | .n8 => 10

def fmtOf : Nat → Option Fmt
  | 0 => some .e4m3 | 1 => some .e5m2 | 2 => some .e2m3 | 3 => some .e3m2 | 4 => some .e2m1 | 5 => some .bf16
  | 6 => some .f16 | 7 => some .i8 | 8 => some .n8 | 9 => some .i4 | 10 => some .bx8 | 11 => some .bx6
  | 12 => some .bx4 | _ => none

def Fmt.code : Fmt → Nat
  | .e4m3 => 0 | .e5m2 => 1 | .e2m3 => 2 | .e3m2 => 3 | .e2m1 => 4 | .bf16 => 5 | .f16 => 6 | .i8 => 7 | .n8 => 8
  | .i4 => 9 | .bx8 => 10 | .bx6 => 11 | .bx4 => 12

def rmodeOf : Nat → Option RMode
  | 0 => some .rne | 1 => some .rtz | 2 => some .rup | 3 => some .rdn | 4 => some .rna | 6 => some .rnes | _ => none

def RMode.code : RMode → Nat
  | .rne => 0 | .rtz => 1 | .rup => 2 | .rdn => 3 | .rna => 4 | .rnes => 6

def scopeOf : Nat → Option Scope
  | 0 => some .s | 1 => some .c | 2 => some .d | 3 => some .p | 4 => some .f | _ => none

def Scope.code : Scope → Nat
  | .s => 0 | .c => 1 | .d => 2 | .p => 3 | .f => 4

def ordOf : Nat → Option Ord4
  | 0 => some .plain | 1 => some .acq | 2 => some .rel | 3 => some .ar | _ => none

def Ord4.code : Ord4 → Nat
  | .plain => 0 | .acq => 1 | .rel => 2 | .ar => 3

def sizeOf : Nat → Option Size
  | 0 => some .b | 1 => some .h | 2 => some .w | 3 => some .d | 4 => some .sb | 5 => some .sh | 6 => some .sw | _ => none

def Size.code : Size → Nat
  | .b => 0 | .h => 1 | .w => 2 | .d => 3 | .sb => 4 | .sh => 5 | .sw => 6

def bcondOf : Nat → Option BCond
  | 0 => some .eq | 1 => some .ne | 2 => some .lt | 3 => some .ge | 4 => some .ltu | 5 => some .geu | _ => none

def BCond.code : BCond → Nat
  | .eq => 0 | .ne => 1 | .lt => 2 | .ge => 3 | .ltu => 4 | .geu => 5

def icondOf : Nat → Option ICond
  | 0 => some .eq | 1 => some .ne | 2 => some .lt | 3 => some .le | 4 => some .ltu | 5 => some .leu | _ => none

def ICond.code : ICond → Nat
  | .eq => 0 | .ne => 1 | .lt => 2 | .le => 3 | .ltu => 4 | .leu => 5

/-- VICMP takes conditions 0 to 3 (R111). -/
def vcondOf (n : Nat) : Option ICond := (icondOf n).filter Instr.vcondOk

def fcondOf : Nat → Option FCond
  | 0 => some .eq | 1 => some .ne | 2 => some .lt | 3 => some .le | 4 => some .uno | 5 => some .ord | _ => none

def FCond.code : FCond → Nat
  | .eq => 0 | .ne => 1 | .lt => 2 | .le => 3 | .uno => 4 | .ord => 5

def hintOf : Nat → Option Hint
  | 0 => some .none | 1 => some .lk | 2 => some .un | _ => none

def Hint.code : Hint → Nat
  | .none => 0 | .lk => 1 | .un => 2

def mulHighOf : Nat → Option MulHigh
  | 0 => some .ss | 1 => some .uu | 2 => some .su | _ => none

def MulHigh.code : MulHigh → Nat
  | .ss => 0 | .uu => 1 | .su => 2

def mtypeOf : Nat → Option MType
  | 0 => some .f32 | 1 => some .bf16 | 2 => some .f16 | 3 => some .e4m3 | 4 => some .e5m2 | 5 => some .i32
  | 7 => some .acc | _ => none

def MType.code : MType → Nat
  | .f32 => 0 | .bf16 => 1 | .f16 => 2 | .e4m3 => 3 | .e5m2 => 4 | .i32 => 5 | .acc => 7

def aopOf : Nat → Option AOp
  | 0 => some .add | 1 => some .fadd | 2 => some .min | 3 => some .max | 4 => some .and | 5 => some .or
  | 6 => some .xor | _ => none

def AOp.code : AOp → Nat
  | .add => 0 | .fadd => 1 | .min => 2 | .max => 3 | .and => 4 | .or => 5 | .xor => 6

def sclOf : Nat → Option Scl
  | 0 => some .none | 1 => some .e8m0 | 2 => some .e4m3 | 3 => some .e5m2 | _ => none

def Scl.code : Scl → Nat
  | .none => 0 | .e8m0 => 1 | .e4m3 => 2 | .e5m2 => 3

def redOf : Nat → Option RedOp
  | 0 => some .add | 1 => some .min | 2 => some .max | _ => none

def RedOp.code : RedOp → Nat
  | .add => 0 | .min => 1 | .max => 2

/-- A SUB of 0 or 1 read as a flag. -/
def flagOf : Nat → Option Bool
  | 0 => some false | 1 => some true | _ => none

/-- ORD with SCOPE, among the ORD values a form accepts (R100, R114). -/
def ordScopeOf (ok : Ord4 → Bool) (o s : Nat) : Option (Ord4 × Scope) :=
  match ordOf o, scopeOf s with
  | some o, some s => if ok o && ordScopeOk o s then some (o, s) else none
  | _, _ => none

namespace DecCtx

/-- Bits hi to lo of the word. -/
def f (c : DecCtx) (hi lo : Nat) : Nat := bitsOf c.w hi lo

/-- All bits hi to lo are 0. -/
def z (c : DecCtx) (hi lo : Nat) : Bool := decide (bitsOf c.w hi lo = 0)

/-- The last check of R121, then the instruction. -/
def fin (c : DecCtx) (k : Wait → Instr) : Except Nat Instr :=
  need 8 (waitOf c.res (c.f 95 93) (c.f 92 84)) fun w => .ok (k w)

/-! S and SI formats. -/

def sc2 (c : DecCtx) (k : Sc2 → Instr) : Except Nat Instr :=
  chk 5 (c.z 59 46 && c.z 39 0) <|
  need 6 (dstOf c.st (c.f 73 67)) fun xd => need 6 (srcOf c.st (c.f 66 60)) fun xa =>
  c.fin fun w => k ⟨w, xd, xa⟩

def sc3 (c : DecCtx) (k : Sc3 → Instr) : Except Nat Instr :=
  chk 5 (c.z 52 46 && c.z 39 0) <|
  need 6 (dstOf c.st (c.f 73 67)) fun xd => need 6 (srcOf c.st (c.f 66 60)) fun xa =>
  need 6 (srcOf c.st (c.f 59 53)) fun xb => c.fin fun w => k ⟨w, xd, xa, xb⟩

def sc4 (c : DecCtx) (k : Sc4 → Instr) : Except Nat Instr :=
  chk 5 (c.z 39 0) <|
  need 6 (dstOf c.st (c.f 73 67)) fun xd => need 6 (srcOf c.st (c.f 66 60)) fun xa =>
  need 6 (srcOf c.st (c.f 59 53)) fun xb => need 6 (srcOf c.st (c.f 52 46)) fun xc =>
  c.fin fun w => k ⟨w, xd, xa, xb, xc⟩

def scI (c : DecCtx) (k : ScI → Instr) : Except Nat Instr :=
  chk 5 (c.z 21 0) <|
  need 6 (dstOf c.st (c.f 73 67)) fun xd => need 6 (srcOf c.st (c.f 66 60)) fun xa =>
  c.fin fun w => k ⟨w, xd, xa, BitVec.ofNat 32 (c.f 59 28)⟩

/-- SUB of the S format must be 0. -/
def s0 (c : DecCtx) (k : Except Nat Instr) : Except Nat Instr := chk 4 (c.z 45 40) k

/-- SUB of the S format names a variant. -/
def sSub {α : Type} (c : DecCtx) (g : Nat → Option α) (k : α → Except Nat Instr) : Except Nat Instr := need 4 (g (c.f 45 40)) k

def bfiD (c : DecCtx) : Except Nat Instr :=
  chk 5 (c.z 39 0) <|
  need 6 (xregOf (c.f 73 67)) fun xd => need 6 (srcOf c.st (c.f 66 60)) fun xa =>
  need 6 (srcOf c.st (c.f 59 53)) fun xb => need 6 (srcOf c.st (c.f 52 46)) fun xc =>
  c.fin fun w => .bfi w xd xa xb xc

def liD (c : DecCtx) (hi : Bool) : Except Nat Instr :=
  chk 5 (c.z 66 60 && c.z 21 0) <|
  if hi then need 6 (xregOf (c.f 73 67)) fun xd => c.fin fun w => .liHi w xd (BitVec.ofNat 32 (c.f 59 28))
  else need 6 (dstOf c.st (c.f 73 67)) fun xd => c.fin fun w => .li w xd (BitVec.ofNat 32 (c.f 59 28))

/-! B format. -/

def off32 (c : DecCtx) : BitVec 32 := BitVec.ofNat 32 (c.f 53 22)

def bD (c : DecCtx) : Except Nat Instr :=
  chk 5 (c.z 21 0) <|
  need 6 (xregOf (c.f 73 67)) fun xa => need 6 (xregOf (c.f 66 60)) fun xb =>
  need 7 (bcondOf (c.f 59 56)) fun cnd => need 7 (hintOf (c.f 55 54)) fun h =>
  c.fin fun w => .b ⟨w, xa, xb, cnd, h, c.off32⟩

def bqD (c : DecCtx) : Except Nat Instr :=
  chk 3 (c.st = .a) <| chk 5 (c.z 21 0) <|
  need 6 (if 64 ≤ c.f 73 67 then finOf 4 (c.f 73 67 - 64) else none) fun n => need 6 (xregOf (c.f 66 60)) fun xb =>
  need 7 (bcondOf (c.f 59 56)) fun cnd => need 7 (hintOf (c.f 55 54)) fun h =>
  c.fin fun w => .bq w n xb cnd h c.off32

def loopD (c : DecCtx) : Except Nat Instr :=
  chk 5 (c.z 66 56 && c.z 21 0) <|
  need 6 (finOf 64 (c.f 73 67)) fun xa => need 7 (hintOf (c.f 55 54)) fun h => c.fin fun w => .loop w xa h c.off32

def jD (c : DecCtx) : Except Nat Instr :=
  chk 5 (c.z 66 54 && c.z 21 0) <| need 6 (xregOf (c.f 73 67)) fun xa => c.fin fun w => .j w xa c.off32

def jalD (c : DecCtx) : Except Nat Instr :=
  chk 5 (c.z 59 54 && c.z 21 0) <|
  need 6 (xregOf (c.f 73 67)) fun xa => need 6 (xregOf (c.f 66 60)) fun xb => c.fin fun w => .jal w xa xb c.off32

def haltD (c : DecCtx) : Except Nat Instr := chk 5 (c.z 73 0) <| c.fin .halt

def trapD (c : DecCtx) : Except Nat Instr := chk 5 (c.z 73 54 && c.z 21 0) <| c.fin fun w => .trap w c.off32

/-! M format. -/

/-- SUB of the M format must be 0. -/
def m0 (c : DecCtx) (k : Except Nat Instr) : Except Nat Instr := chk 4 (c.z 15 10) k

def off20 (c : DecCtx) : BitVec 20 := BitVec.ofNat 20 (c.f 49 30)

def memD (c : DecCtx) (dst : Bool) (ordOk : Ord4 → Bool) (szOk : Size → Bool) (k : MemA → Instr) : Except Nat Instr :=
  c.m0 <| chk 5 (c.z 73 71 && c.z 19 16 && c.z 9 0) <|
  need 6 (if dst then dstOf c.st (c.f 70 64) else srcOf c.st (c.f 70 64)) fun d =>
  need 6 (xregOf (c.f 63 57)) fun b => need 6 (xregOf (c.f 56 50)) fun i =>
  need 7 ((sizeOf (c.f 29 26)).filter szOk) fun sz => need 7 (ordScopeOf ordOk (c.f 25 23) (c.f 22 20)) fun os =>
  c.fin fun w => k ⟨w, d, b, i, c.off20, sz, os.1, os.2⟩

def probeD (c : DecCtx) : Except Nat Instr :=
  c.m0 <| chk 5 (c.z 73 71 && c.z 29 16 && c.z 9 0) <|
  need 6 (dstOf c.st (c.f 70 64)) fun d =>
  need 6 (xregOf (c.f 63 57)) fun b => need 6 (xregOf (c.f 56 50)) fun i => c.fin fun w => .probe w d b i c.off20

/-- A vector load's destination: DQ in the A-stream, V in the C-stream (R66, R383). -/
def vloadDst (st : Strm) (n : Nat) : Option VOp :=
  (vopOf n).filter fun v => match st, v with
    | .a, .dq _ => true
    | .c, .v _ => true
    | _, _ => false

def vmemD (c : DecCtx) (load : Bool) (ordOk : Ord4 → Bool) (k : VMemA → Instr) : Except Nat Instr :=
  c.m0 <| chk 5 (c.z 9 0) <|
  need 6 (if load then vloadDst c.st (c.f 73 64) else vopOf (c.f 73 64)) fun d =>
  need 6 (xregOf (c.f 63 57)) fun b => need 6 (xregOf (c.f 56 50)) fun i =>
  chk 6 (c.st = .c || c.z 19 16) <|
  need 7 (etOf (c.f 29 26)) fun et => need 7 (ordScopeOf ordOk (c.f 25 23) (c.f 22 20)) fun os =>
  c.fin fun w => k ⟨w, d, b, i, c.off20, et, os.1, os.2, Fin.ofNat 16 (c.f 19 16)⟩

def gatD (c : DecCtx) (k : GatA → Instr) : Except Nat Instr :=
  chk 3 (c.st = .c) <| c.m0 <| chk 5 (c.z 56 50 && c.z 25 20 && c.z 9 0) <|
  need 6 (pairOf (c.f 73 64)) fun p => need 6 (xregOf (c.f 63 57)) fun b =>
  need 7 (etOf (c.f 29 26)) fun et => c.fin fun w => k ⟨w, p, b, c.off20, et, Fin.ofNat 16 (c.f 19 16)⟩

/-! V and VI formats. -/

def km (c : DecCtx) : Fin 16 := Fin.ofNat 16 (c.f 33 30)

/-- ET among the types a form accepts (R87). -/
def et (c : DecCtx) (p : ET → Bool) : Option ET := (etOf (c.f 29 26)).filter p

/-- RND and SRN of a form that does not round (R350). -/
def noRnd (c : DecCtx) : Bool := c.z 25 23 && c.z 22 18

/-- RND of a form whose VC carries data (R53). -/
def rmode (c : DecCtx) : Option RMode := if c.z 22 18 then rmodeOf (c.f 25 23) else none

/-- RND 5 or 7. -/
def stoch (c : DecCtx) : Bool := decide (c.f 25 23 = 5) || decide (c.f 25 23 = 7)

/-- VC of a form that rounds: unused unless RND is 5 or 7 (R115). -/
def vcUnused (c : DecCtx) : Bool := c.stoch || decide (c.f 43 34 = 1023)

/-- VC as a random register is a vector code; 1023 fails later, under cause 7 (R53, R86). -/
def vcCode (c : DecCtx) : Bool := !c.stoch || decide (c.f 43 34 = 1023) || (vopOf (c.f 43 34)).isSome

/-- The cause under which VC as a data operand fails: RND 5 or 7 with VC 1023 is a check of RND (R53, R86). -/
def vcCause (c : DecCtx) : Nat := if c.stoch && decide (c.f 43 34 = 1023) then 7 else 6

/-- The rounding operand (R53). -/
def rnd (c : DecCtx) : Option Rnd :=
  if c.stoch then
    match vopOf (c.f 43 34) with
    | some v =>
      if decide (1 ≤ c.f 22 18) && decide (c.f 22 18 ≤ 23) then some (.sr (decide (c.f 25 23 = 7)) v (BitVec.ofNat 5 (c.f 22 18)))
      else none
    | none => none
  else c.rmode.map .fixed

/-- Field VB unused, VC unused. -/
def ub (c : DecCtx) : Bool := decide (c.f 53 44 = 1023)
def uc (c : DecCtx) : Bool := decide (c.f 43 34 = 1023)

def v1 (c : DecCtx) (p : ET → Bool) (k : V1 → Instr) : Except Nat Instr :=
  chk 5 (c.ub && c.uc && c.z 11 0) <|
  need 6 (finOf 640 (c.f 73 64)) fun vd => need 6 (vopOf (c.f 63 54)) fun va =>
  need 7 (c.et p) fun et => chk 7 c.noRnd <| c.fin fun w => k ⟨w, vd, va, c.km, et⟩

def v1R (c : DecCtx) (p : ET → Bool) (k : V1 → Rnd → Instr) : Except Nat Instr :=
  chk 5 (c.ub && c.vcUnused && c.z 11 0) <|
  need 6 (finOf 640 (c.f 73 64)) fun vd => need 6 (vopOf (c.f 63 54)) fun va => chk 6 c.vcCode <|
  need 7 (c.et p) fun et => need 7 c.rnd fun r => c.fin fun w => k ⟨w, vd, va, c.km, et⟩ r

def v2 (c : DecCtx) (p : ET → Bool) (k : V2 → Instr) : Except Nat Instr :=
  chk 5 (c.uc && c.z 11 0) <|
  need 6 (finOf 640 (c.f 73 64)) fun vd => need 6 (vopOf (c.f 63 54)) fun va => need 6 (vopOf (c.f 53 44)) fun vb =>
  need 7 (c.et p) fun et => chk 7 c.noRnd <| c.fin fun w => k ⟨w, vd, va, vb, c.km, et⟩

def v2R (c : DecCtx) (p : ET → Bool) (k : V2 → Rnd → Instr) : Except Nat Instr :=
  chk 5 (c.vcUnused && c.z 11 0) <|
  need 6 (finOf 640 (c.f 73 64)) fun vd => need 6 (vopOf (c.f 63 54)) fun va => need 6 (vopOf (c.f 53 44)) fun vb =>
  chk 6 c.vcCode <|
  need 7 (c.et p) fun et => need 7 c.rnd fun r => c.fin fun w => k ⟨w, vd, va, vb, c.km, et⟩ r

def v3 (c : DecCtx) (p : ET → Bool) (k : V3 → Instr) : Except Nat Instr :=
  chk 5 (c.z 11 0) <|
  need 6 (finOf 640 (c.f 73 64)) fun vd => need 6 (vopOf (c.f 63 54)) fun va => need 6 (vopOf (c.f 53 44)) fun vb =>
  need c.vcCause (vopOf (c.f 43 34)) fun vc =>
  need 7 (c.et p) fun et => chk 7 c.noRnd <| c.fin fun w => k ⟨w, vd, va, vb, vc, c.km, et⟩

def v3R (c : DecCtx) (p : ET → Bool) (k : V3 → RMode → Instr) : Except Nat Instr :=
  chk 5 (c.z 11 0) <|
  need 6 (finOf 640 (c.f 73 64)) fun vd => need 6 (vopOf (c.f 63 54)) fun va => need 6 (vopOf (c.f 53 44)) fun vb =>
  need c.vcCause (vopOf (c.f 43 34)) fun vc =>
  need 7 (c.et p) fun et => need 7 c.rmode fun r => c.fin fun w => k ⟨w, vd, va, vb, vc, c.km, et⟩ r

def vk2 (c : DecCtx) (p : ET → Bool) (k : VK2 → Instr) : Except Nat Instr :=
  chk 5 (c.uc && c.z 11 0) <|
  need 6 (kdstOf (c.f 73 64)) fun kd => need 6 (vopOf (c.f 63 54)) fun va => need 6 (vopOf (c.f 53 44)) fun vb =>
  need 7 (c.et p) fun et => chk 7 c.noRnd <| c.fin fun w => k ⟨w, kd, va, vb, c.km, et⟩

/-- SUB of the V format must be 0. -/
def v0 (c : DecCtx) (k : Except Nat Instr) : Except Nat Instr := chk 3 (c.st = .c) <| chk 4 (c.z 17 12) k

/-- SUB of the V format names a variant. -/
def vSub {α : Type} (c : DecCtx) (g : Nat → Option α) (k : α → Except Nat Instr) : Except Nat Instr :=
  chk 3 (c.st = .c) <| need 4 (g (c.f 17 12)) k

def imm16v (c : DecCtx) : BitVec 16 := BitVec.ofNat 16 (c.f 53 38)

/-- Must-be-zero bits of the VI format. -/
def viZ (c : DecCtx) : Bool := c.z 37 34 && c.z 16 0

def vi (c : DecCtx) (p : ET → Bool) (k : VI → Instr) : Except Nat Instr :=
  chk 5 c.viZ <|
  need 6 (finOf 640 (c.f 73 64)) fun vd => need 6 (vopOf (c.f 63 54)) fun va =>
  need 7 (c.et p) fun et => chk 7 (c.z 25 23) <| c.fin fun w => k ⟨w, vd, va, c.imm16v, c.km, et⟩

def viR (c : DecCtx) (p : ET → Bool) (k : VI → RMode → Instr) : Except Nat Instr :=
  chk 5 c.viZ <|
  need 6 (finOf 640 (c.f 73 64)) fun vd => need 6 (vopOf (c.f 63 54)) fun va =>
  need 7 (c.et p) fun et => need 7 (rmodeOf (c.f 25 23)) fun r => c.fin fun w => k ⟨w, vd, va, c.imm16v, c.km, et⟩ r

def vki (c : DecCtx) (p : ET → Bool) (k : VKI → Instr) : Except Nat Instr :=
  chk 5 c.viZ <|
  need 6 (kdstOf (c.f 73 64)) fun kd => need 6 (vopOf (c.f 63 54)) fun va =>
  need 7 (c.et p) fun et => chk 7 (c.z 25 23) <| c.fin fun w => k ⟨w, kd, va, c.imm16v, c.km, et⟩

def vmovID (c : DecCtx) : Except Nat Instr :=
  chk 5 (decide (c.f 63 54 = 1023) && c.viZ) <|
  need 6 (finOf 640 (c.f 73 64)) fun vd => need 7 (c.et fun _ => true) fun et => chk 7 (c.z 25 23) <|
  c.fin fun w => .vmovI w vd c.imm16v c.km et

/-- SUB of the VI format must be 0. -/
def vi0 (c : DecCtx) (k : Except Nat Instr) : Except Nat Instr := chk 3 (c.st = .c) <| chk 4 (c.z 22 17) k

/-- SUB of the VI format names a variant. -/
def viSub {α : Type} (c : DecCtx) (g : Nat → Option α) (k : α → Except Nat Instr) : Except Nat Instr :=
  chk 3 (c.st = .c) <| need 4 (g (c.f 22 17)) k

/-- SUB[5:4] of VFCVT, VPACK, VUNPK, VPLANE, VUNPL and VDOT must be 0. -/
def vHi (c : DecCtx) (k : Except Nat Instr) : Except Nat Instr := chk 3 (c.st = .c) <| chk 4 (c.z 17 16) k

def vfcvtD (c : DecCtx) : Except Nat Instr :=
  c.vHi <| chk 5 (c.ub && c.vcUnused && c.z 11 0) <|
  need 6 (finOf 640 (c.f 73 64)) fun vd => need 6 (vopOf (c.f 63 54)) fun va => chk 6 c.vcCode <|
  need 7 (etOf (c.f 15 12)) fun s => need 7 (c.et fun d => d.isFloat || s.isFloat) fun et =>
  need 7 c.rnd fun r => c.fin fun w => .vfcvt ⟨w, vd, va, c.km, et⟩ s r

/-- VDOT. VC 1023 with a scale named, and another VC with none, fail under cause 5, as R366 says of them; R86 and R121 would give the
first cause 6 (DEDUCED, assumption log 95). Under RND 5 or 7 its check is that of RND (R86, R121). -/
def vdotD (c : DecCtx) : Except Nat Instr :=
  c.vHi <| chk 5 ((if c.z 15 14 then c.uc else c.stoch || !c.uc) && c.z 11 0) <|
  need 6 (finOf 640 (c.f 73 64)) fun vd => need 6 (vopOf (c.f 63 54)) fun va => need 6 (vopOf (c.f 53 44)) fun vb =>
  need c.vcCause (if c.z 15 14 then some none else (vopOf (c.f 43 34)).map some) fun vc =>
  need 7 (finOf 3 (c.f 13 12)) fun blk => need 7 (sclOf (c.f 15 14)) fun scl =>
  need 7 (c.et ET.isDot) fun et => need 7 c.rmode fun r =>
  c.fin fun w => .vdot ⟨w, vd, va, vb, c.km, et⟩ vc blk scl r

/-- VRED: .min and .max do not round, so their VC is an unused field and any code but 1023 fails under cause 5 even where RND
holds 5 or 7 (DEDUCED, assumption log 77). -/
def vredD (c : DecCtx) : Except Nat Instr :=
  c.vSub redOf fun op =>
  if op = .add then c.v1R ET.isFloat fun a r => .vred a op r
  else c.v1 ET.isFloat fun a => .vred a op (.fixed .rne)

def vminmaxD (c : DecCtx) : Except Nat Instr :=
  c.v0 <| chk 5 (c.uc && c.z 11 0) <|
  need 6 (pairOf (c.f 73 64)) fun p => need 6 (vopOf (c.f 63 54)) fun va => need 6 (vopOf (c.f 53 44)) fun vb =>
  need 7 (c.et fun _ => true) fun et => chk 7 c.noRnd <| c.fin fun w => .vminmax w p va vb c.km et

def vcmprD (c : DecCtx) : Except Nat Instr :=
  chk 3 (c.st = .c) <| c.v1 (fun e => decide (c.f 17 12 ≤ 32 * e.perLane)) fun a => .vcmpr a (BitVec.ofNat 6 (c.f 17 12))

def vpackD (c : DecCtx) : Except Nat Instr :=
  c.vHi <| chk 5 (c.vcUnused && c.z 33 30 && c.z 11 0) <|
  need 6 (finOf 640 (c.f 73 64)) fun vd => need 6 (vopOf (c.f 63 54)) fun va => need 6 (vopOf (c.f 53 44)) fun vb =>
  chk 6 c.vcCode <|
  need 7 (fmtOf (c.f 15 12)) fun fm => need 7 (c.et fun _ => true) fun et => need 7 c.rnd fun r =>
  c.fin fun w => .vpack w vd va vb et fm r

def vunpkD (c : DecCtx) : Except Nat Instr :=
  c.vHi <| chk 5 (c.ub && c.uc && c.z 33 30 && c.z 11 0) <|
  need 6 (finOf 640 (c.f 73 64)) fun vd => need 6 (vopOf (c.f 63 54)) fun va =>
  need 7 (fmtOf (c.f 15 12)) fun fm => need 7 (c.et fun _ => true) fun et => chk 7 c.noRnd <|
  c.fin fun w => .vunpk w vd va et fm

/-- VPLANE and VUNPL: KM, RND and SRN fail under cause 5, ET under cause 7 (R394). -/
def vplaneD (c : DecCtx) (k : Wait → Fin 640 → VOp → Fmt → Instr) : Except Nat Instr :=
  c.vHi <| chk 5 (c.ub && c.uc && c.z 33 30 && c.z 25 18 && c.z 11 0) <|
  need 6 (finOf 640 (c.f 73 64)) fun vd => need 6 (vopOf (c.f 63 54)) fun va =>
  need 7 (fmtOf (c.f 15 12)) fun fm => chk 7 (c.z 29 26) <| c.fin fun w => k w vd va fm

/-! T format. -/

/-- SUB of the T format must be 0, in a C-stream. -/
def t0 (c : DecCtx) (k : Except Nat Instr) : Except Nat Instr := chk 3 (c.st = .c) <| chk 4 (c.z 39 34) k

def atd (c : DecCtx) : Fin 32 := Fin.ofNat 32 (c.f 73 69)

def tNone (c : DecCtx) (k : Wait → Instr) : Except Nat Instr := c.t0 <| chk 5 (c.z 73 40 && c.z 33 0) <| c.fin k

def tTile (c : DecCtx) (k : Wait → Fin 32 → Instr) : Except Nat Instr :=
  c.t0 <| chk 5 (c.z 68 40 && c.z 33 0) <| c.fin fun w => k w c.atd

def mmaD (c : DecCtx) : Except Nat Instr :=
  chk 3 (c.st = .c) <| need 4 (flagOf (c.f 39 34)) fun zf => chk 5 (c.z 54 48 && c.z 33 0) <|
  need 6 (xregOf (c.f 68 62)) fun xa => need 6 (xregOf (c.f 61 55)) fun xb =>
  chk 7 (!c.z 47 40) <| c.fin fun w => .mma ⟨w, c.atd, xa, xb, BitVec.ofNat 8 (c.f 47 40), zf⟩

def mmasD (c : DecCtx) : Except Nat Instr :=
  chk 3 (c.st = .c) <| need 4 (flagOf (c.f 39 34)) fun zf => chk 5 (c.z 33 0) <|
  need 6 (xregOf (c.f 68 62)) fun xa => need 6 (xregOf (c.f 61 55)) fun xb => need 6 (xregOf (c.f 54 48)) fun xs =>
  chk 7 (!c.z 47 40) <| c.fin fun w => .mmas ⟨w, c.atd, xa, xb, BitVec.ofNat 8 (c.f 47 40), zf⟩ xs

def mrdD (c : DecCtx) : Except Nat Instr :=
  chk 3 (c.st = .c) <| chk 5 (c.z 54 40 && c.z 33 0) <|
  need 6 (xregOf (c.f 68 62)) fun xa => need 6 (xregOf (c.f 61 55)) fun xb =>
  need 7 (mtypeOf (c.f 36 34)) fun ty => need 7 (rmodeOf (c.f 39 37)) fun r =>
  c.fin fun w => .mrd ⟨w, c.atd, xa⟩ xb ty r

def mwrD (c : DecCtx) : Except Nat Instr :=
  chk 3 (c.st = .c) <| chk 4 (c.z 39 37) <| chk 5 (c.z 61 40 && c.z 33 0) <|
  need 6 (xregOf (c.f 68 62)) fun xa => need 7 (mtypeOf (c.f 36 34)) fun ty => c.fin fun w => .mwr ⟨w, c.atd, xa⟩ ty

def tA (c : DecCtx) (k : TileA → Instr) : Except Nat Instr :=
  c.t0 <| chk 5 (c.z 61 40 && c.z 33 0) <| need 6 (xregOf (c.f 68 62)) fun xa => c.fin fun w => k ⟨w, c.atd, xa⟩

def fqpushD (c : DecCtx) : Except Nat Instr :=
  chk 4 (c.z 39 34) <| chk 5 (c.z 73 69 && c.z 61 40 && c.z 33 0) <|
  need 6 (xregOf (c.f 68 62)) fun xa => c.fin fun w => .fqpush w xa

/-! E format. -/

/-- Cause 5 of a copy form: the zero bits, AC under NOAC, and the fields the form does not use (R117, R400). -/
def eZ (c : DecCtx) (desc aop et : Bool) : Bool :=
  c.z 22 0 && (c.z 28 28 || c.z 42 37) && (desc || c.z 49 43) && (aop || c.z 36 33) && (et || c.z 32 29)

def copyA (c : DecCtx) (k : CopyA → Except Nat Instr) : Except Nat Instr :=
  need 6 (xregOf (c.f 70 64)) fun d => need 6 (xregOf (c.f 63 57)) fun s => need 6 (xregOf (c.f 56 50)) fun n =>
  need 8 (waitOf c.res (c.f 95 93) (c.f 92 84)) fun w =>
  k ⟨w, Fin.ofNat 8 (c.f 73 71), d, s, n, if c.z 28 28 then some (Fin.ofNat 64 (c.f 42 37)) else none⟩

/-- Operand checks of a copy form, the descriptor's among them, before its field values. -/
def eOps (c : DecCtx) (k : Except Nat Instr) : Except Nat Instr :=
  need 6 (xregOf (c.f 70 64)) fun _ => need 6 (xregOf (c.f 63 57)) fun _ => need 6 (xregOf (c.f 56 50)) fun _ => k

def xcopyD (c : DecCtx) : Except Nat Instr :=
  need 4 (flagOf (c.f 27 23)) fun str => chk 5 (c.eZ str false false) <|
  if str then c.eOps <| need 6 (xregOf (c.f 49 43)) fun x => c.copyA fun a => .ok (.xcopyStr a x)
  else c.copyA fun a => .ok (.xcopy a)

/-- SUB[4:0] of the other copy forms must be 0. -/
def e0 (c : DecCtx) (k : Except Nat Instr) : Except Nat Instr := chk 4 (c.z 27 23) k

def xaccD (c : DecCtx) : Except Nat Instr :=
  c.e0 <| chk 5 (c.eZ false true true) <| c.eOps <|
  need 7 (aopOf (c.f 36 33)) fun op => need 7 ((etOf (c.f 32 29)).filter op.etOk) fun et =>
  c.copyA fun a => .ok (.xacc a op et)

def xswapD (c : DecCtx) : Except Nat Instr :=
  c.e0 <| chk 5 (c.eZ false false true) <| c.eOps <|
  need 7 ((etOf (c.f 32 29)).filter ET.isInt) fun et => c.copyA fun a => .ok (.xswap a et)

def xcasD (c : DecCtx) : Except Nat Instr :=
  c.e0 <| chk 5 (c.eZ true false true) <| c.eOps <| need 6 (xregOf (c.f 49 43)) fun x =>
  need 7 ((etOf (c.f 32 29)).filter ET.isInt) fun et => c.copyA fun a => .ok (.xcas a x et)

def xfillD (c : DecCtx) : Except Nat Instr :=
  c.e0 <| chk 5 (c.eZ false false false) <| c.copyA fun a => .ok (.xfill a)

def xplaneD (c : DecCtx) : Except Nat Instr :=
  c.e0 <| chk 5 (c.eZ true false false) <| c.eOps <| need 6 (xregOf (c.f 49 43)) fun x =>
  c.copyA fun a => .ok (.xplane a x)

/-! Y format. -/

/-- SUB of the Y format must be 0. -/
def y0 (c : DecCtx) (k : Except Nat Instr) : Except Nat Instr := chk 4 (c.z 28 23) k

/-- Zero fields of the Y format: OBJ, XD, XA, XB and IMM16, each zero unless the form uses it. -/
def yZ (c : DecCtx) (obj xd xa xb imm : Bool) : Bool :=
  c.z 22 0 && (obj || c.z 73 66) && (xd || c.z 65 59) && (xa || c.z 58 52) && (xb || c.z 51 45) && (imm || c.z 44 29)

def obj (c : DecCtx) : Nat := c.f 73 66
def yXd (c : DecCtx) : Nat := c.f 65 59
def yXa (c : DecCtx) : Nat := c.f 58 52
def yXb (c : DecCtx) : Nat := c.f 51 45
def yImm (c : DecCtx) : Nat := c.f 44 29

/-- A feed queue's OBJ code (R93). -/
def fd (c : DecCtx) : Option (Fin 64) := if 0xC0 ≤ c.obj then finOf 64 (c.obj - 0xC0) else none

def qpushD (c : DecCtx) : Except Nat Instr :=
  need 4 (flagOf (c.f 28 23)) fun isFd =>
  if isFd then
    chk 5 (c.yZ true false true false false) <| need 6 c.fd fun n => need 6 (xregOf c.yXa) fun xa =>
    c.fin fun w => .qpushFd w n xa
  else
    chk 5 (c.yZ false false true false true) <|
    need 6 ((qcodeOf c.yImm).filter (·.pushOk c.st)) fun q => need 6 (xregOf c.yXa) fun xa => c.fin fun w => .qpush w q xa

def qpopD (c : DecCtx) : Except Nat Instr :=
  need 4 (flagOf (c.f 28 23)) fun isFd =>
  if isFd then
    chk 5 (c.yZ true true false false false) <| need 6 c.fd fun n => need 6 (finOf 57 c.yXd) fun xd =>
    c.fin fun w => .qpopFd w n xd
  else
    chk 5 (c.yZ false true false false true) <|
    need 6 ((qcodeOf c.yImm).filter (·.popOk c.st)) fun q => need 6 (xregOf c.yXd) fun xd => c.fin fun w => .qpop w q xd

def qcntD (c : DecCtx) : Except Nat Instr :=
  need 4 (flagOf (c.f 28 23)) fun isFd =>
  if isFd then
    chk 5 (c.yZ true true false false false) <| need 6 c.fd fun n => need 6 (xregOf c.yXd) fun xd =>
    c.fin fun w => .qcntFd w n xd
  else
    chk 5 (c.yZ false true false false true) <|
    need 6 (qcodeOf c.yImm) fun q => need 6 (xregOf c.yXd) fun xd => c.fin fun w => .qcnt w q xd

def qfenceD (c : DecCtx) : Except Nat Instr :=
  c.y0 <| chk 5 (c.yZ false false false false true) <|
  chk 7 (!c.z 44 29 && c.z 44 39) <|
  c.fin fun w => .qfence w (BitVec.ofNat 8 (c.f 36 29)) (!c.z 37 37) (!c.z 38 38)

def ringD (c : DecCtx) (dst : Bool) (k : RingA → Instr) : Except Nat Instr :=
  c.y0 <| chk 5 (c.yZ true dst (!dst) false false) <|
  need 6 (finOf 64 c.obj) fun n => need 6 (xregOf (if dst then c.yXd else c.yXa)) fun x => c.fin fun w => k ⟨w, n, x⟩

def acsetD (c : DecCtx) : Except Nat Instr :=
  c.y0 <| chk 5 (c.yZ true false true true false) <|
  need 6 (if 0x40 ≤ c.obj then finOf 64 (c.obj - 0x40) else none) fun n =>
  need 6 (xregOf c.yXa) fun xa => need 6 (xregOf c.yXb) fun xb => c.fin fun w => .acset w n xa xb

def barrD (c : DecCtx) : Except Nat Instr :=
  need 4 (flagOf (c.f 28 23)) fun cfg => chk 5 (c.yZ true false cfg false false) <|
  need 6 (barOf c.obj) fun b =>
  if cfg then need 6 (xregOf c.yXa) fun xa => c.fin fun w => .barrCfg w b xa else c.fin fun w => .barr w b

def bwaitD (c : DecCtx) : Except Nat Instr :=
  c.y0 <| chk 5 (c.yZ true false false false false) <| need 6 (barOf c.obj) fun b => c.fin fun w => .bwait w b

def tagDst (c : DecCtx) (k : Wait → SOp → XReg → Instr) : Except Nat Instr :=
  c.y0 <| chk 5 (c.yZ false true true false false) <|
  need 6 (dstOf c.st c.yXd) fun xd => need 6 (xregOf c.yXa) fun xa => c.fin fun w => k w xd xa

def tinsD (c : DecCtx) : Except Nat Instr :=
  c.y0 <| chk 5 (c.yZ false false true true false) <|
  need 6 (xregOf c.yXa) fun xa => need 6 (xregOf c.yXb) fun xb => c.fin fun w => .tins w xa xb

def tinvD (c : DecCtx) : Except Nat Instr :=
  need 4 (flagOf (c.f 28 23)) fun all => chk 5 (c.yZ false false (!all) false false) <|
  if all then c.fin .tinvAll else need 6 (xregOf c.yXa) fun xa => c.fin fun w => .tinv w xa

/-- Nibbles of the mask IMM16 (R109): Kd [3:0], Ka [7:4], Kb [11:8]. -/
def kd (c : DecCtx) : Nat := c.f 32 29
def ka (c : DecCtx) : Fin 16 := Fin.ofNat 16 (c.f 36 33)
def kb (c : DecCtx) : Fin 16 := Fin.ofNat 16 (c.f 40 37)

def ksetD (c : DecCtx) : Except Nat Instr :=
  chk 3 (c.st = .c) <| c.y0 <| chk 5 (c.yZ false false true false true && c.z 44 33) <|
  need 6 (kdstOf c.kd) fun kd => need 6 (xregOf c.yXa) fun xa => c.fin fun w => .kset w kd xa

def kandD (c : DecCtx) : Except Nat Instr :=
  chk 3 (c.st = .c) <| chk 4 (decide (c.f 28 23 < 4)) <| chk 5 (c.yZ false false false false true && c.z 44 41) <|
  need 6 (kdstOf c.kd) fun kd => c.fin fun w =>
  match c.f 28 23 with
  | 0 => .kand ⟨w, kd, c.ka, c.kb⟩
  | 1 => .kor ⟨w, kd, c.ka, c.kb⟩
  | 2 => .kxor ⟨w, kd, c.ka, c.kb⟩
  | _ => .kandn ⟨w, kd, c.ka, c.kb⟩

def knotD (c : DecCtx) : Except Nat Instr :=
  chk 3 (c.st = .c) <| c.y0 <| chk 5 (c.yZ false false false false true && c.z 44 37) <|
  need 6 (kdstOf c.kd) fun kd => c.fin fun w => .knot w kd c.ka

def kcountD (c : DecCtx) (k : Wait → SOp → Fin 16 → Instr) : Except Nat Instr :=
  chk 3 (c.st = .c) <| c.y0 <| chk 5 (c.yZ false true false false true && c.z 44 37 && c.z 32 29) <|
  need 6 (dstOf c.st c.yXd) fun xd => c.fin fun w => k w xd c.ka

def fenceD (c : DecCtx) : Except Nat Instr :=
  c.y0 <| chk 5 (c.yZ false false false false true && c.z 44 32) <|
  need 7 (scopeOf (c.f 31 29)) fun s => c.fin fun w => .fence w s

def waitD (c : DecCtx) : Except Nat Instr := c.y0 <| chk 5 (c.yZ false false false false false) <| c.fin .wait

/-! Z format. -/

/-- SUB of the Z format must be 0; the fields XD, XA, SPR and IMM16 are zero unless the form uses them. -/
def zZ (c : DecCtx) (xd xa spr imm : Bool) (k : Except Nat Instr) : Except Nat Instr :=
  chk 4 (c.z 31 26) <|
  chk 5 (c.z 25 0 && (xd || c.z 73 67) && (xa || c.z 66 60) && (spr || c.z 59 48) && (imm || c.z 47 32)) k

def spr (c : DecCtx) : Option (BitVec 12) := if sprListed (c.f 59 48) then some (BitVec.ofNat 12 (c.f 59 48)) else none

def mfsD (c : DecCtx) : Except Nat Instr :=
  c.zZ true false true false <| need 6 (dstOf c.st (c.f 73 67)) fun xd => need 7 c.spr fun s => c.fin fun w => .mfs w xd s

def mtsD (c : DecCtx) : Except Nat Instr :=
  c.zZ false true true false <| need 6 (srcOf c.st (c.f 66 60)) fun xa => need 7 c.spr fun s => c.fin fun w => .mts w xa s

def tsrD (c : DecCtx) : Except Nat Instr :=
  c.zZ true true false false <|
  need 6 (xregOf (c.f 73 67)) fun xg => need 6 (xregOf (c.f 66 60)) fun xc =>
  chk 6 (!decide (xg = xc) || decide (xg = .xz)) <| c.fin fun w => .tsr w xg xc

def spawnD (c : DecCtx) : Except Nat Instr :=
  c.zZ false true false false <| need 6 (xregOf (c.f 66 60)) fun xa => c.fin fun w => .spawn w xa

def joinD (c : DecCtx) : Except Nat Instr :=
  c.zZ true true false false <|
  need 6 (dstOf c.st (c.f 73 67)) fun xd => need 6 (xregOf (c.f 66 60)) fun xa => c.fin fun w => .join w xd xa

/-- CANCEL's level 1 to 4, held as level - 1. -/
def cancelD (c : DecCtx) : Except Nat Instr :=
  c.zZ false true false true <| need 6 (xregOf (c.f 66 60)) fun xa =>
  need 7 (if c.z 47 32 then none else finOf 4 (c.f 47 32 - 1)) fun l => c.fin fun w => .cancel w xa l

def dlchkD (c : DecCtx) : Except Nat Instr :=
  c.zZ true false false false <| need 6 (dstOf c.st (c.f 73 67)) fun xd => c.fin fun w => .dlchk w xd

def nopD (c : DecCtx) : Except Nat Instr := c.zZ false false false false <| c.fin .nop

end DecCtx

open DecCtx in
/-- The scalar, control and scalar-memory classes (R112 to R114). -/
def decodeScalar (c : DecCtx) (opc : Nat) : Except Nat Instr :=
  match opc with
  | 0x000 => c.s0 (c.sc3 .iadd) | 0x001 => c.s0 (c.sc3 .isub) | 0x002 => c.s0 (c.sc3 .imul)
  | 0x003 => c.sSub mulHighOf fun k => c.sc3 (.imulh · k)
  | 0x004 => c.sSub flagOf fun u => c.sc3 (.idiv · u) | 0x005 => c.sSub flagOf fun u => c.sc3 (.irem · u)
  | 0x006 => c.s0 (c.sc3 .and) | 0x007 => c.s0 (c.sc3 .andn) | 0x008 => c.s0 (c.sc3 .or) | 0x009 => c.s0 (c.sc3 .xor)
  | 0x00A => c.s0 (c.sc3 .shl) | 0x00B => c.s0 (c.sc3 .shr) | 0x00C => c.s0 (c.sc3 .shra) | 0x00D => c.s0 (c.sc3 .rot)
  | 0x00E => c.s0 (c.sc2 .popc) | 0x00F => c.s0 (c.sc2 .clz)
  | 0x010 => c.sSub flagOf fun u => c.sc3 (.min · u) | 0x011 => c.sSub flagOf fun u => c.sc3 (.max · u)
  | 0x012 => c.s0 (c.sc4 .sel) | 0x013 => c.sSub icondOf fun k => c.sc3 (.icmp · k)
  | 0x014 => c.s0 (c.sc2 .mov) | 0x015 => c.sSub flagOf fun x => c.sc4 (.bfx · x) | 0x016 => c.s0 c.bfiD
  | 0x040 => chk 4 (c.z 27 22) (c.scI .iaddi) | 0x041 => need 4 (flagOf (c.f 27 22)) c.liD
  | 0x042 => need 4 (icondOf (c.f 27 22)) fun k => c.scI (.icmpi · k)
  | 0x043 => chk 4 (c.z 27 22) (c.scI .andi) | 0x044 => chk 4 (c.z 27 22) (c.scI .ori)
  | 0x045 => chk 4 (c.z 27 22) (c.scI .xori)
  | 0x080 => c.bD | 0x081 => c.bqD | 0x082 => c.loopD | 0x083 => c.jD | 0x084 => c.jalD | 0x086 => c.haltD | 0x087 => c.trapD
  | 0x0C0 => c.memD true (fun o => !decide (o = .rel)) (fun _ => true) .ld
  | 0x0C1 => c.memD false (fun o => !decide (o = .acq))
      (fun s => !decide (s = .sb) && !decide (s = .sh) && !decide (s = .sw)) .st
  | 0x0C2 => c.probeD
  | 0x100 => c.vmemD true (fun o => decide (o = .plain) || decide (o = .acq)) .vld
  | 0x101 => chk 3 (c.st = .c) (c.vmemD false (fun o => decide (o = .plain) || decide (o = .rel)) .vst)
  | 0x102 => c.vmemD true (fun o => decide (o = .plain) || decide (o = .acq)) .vldp
  | 0x103 => c.gatD .vgather | 0x104 => c.gatD .vscatter
  | _ => .error 2

/-- The vector classes (R115). -/
def decodeVector (c : DecCtx) (opc : Nat) : Except Nat Instr :=
  match opc with
  | 0x140 => c.v0 (c.v2R ET.isFloat .vfadd) | 0x141 => c.v0 (c.v2R ET.isFloat .vfsub)
  | 0x142 => c.v0 (c.v2R ET.isFloat .vfmul)
  | 0x143 => c.v0 (c.v3R ET.isFloat .vfma) | 0x144 => c.v0 (c.v3R ET.isFloat .vfms)
  | 0x145 => c.vSub flagOf fun n => c.v2 ET.isFloat (.vfmin · n)
  | 0x146 => c.vSub flagOf fun n => c.v2 ET.isFloat (.vfmax · n)
  | 0x147 => c.vSub redOf fun k => c.v1 ET.isFloat (match k with | .add => .vfabs | .min => .vfneg | .max => .vfnabs)
  | 0x148 => c.v0 (c.v1R ET.isFloat .vfrcp) | 0x149 => c.v0 (c.v1R ET.isFloat .vfrsq)
  | 0x14A => c.v0 (c.v1R ET.isFloat .vfexp2) | 0x14B => c.v0 (c.v1R ET.isFloat .vflog2)
  | 0x14C => c.vSub fcondOf fun k => c.vk2 ET.isFloat (.vfcmp · k)
  | 0x14D => c.vfcvtD | 0x14E => c.v0 (c.v2R ET.isFloat .vfscl) | 0x14F => c.vdotD | 0x150 => c.vredD
  | 0x180 => c.vSub flagOf fun s => c.v2 ET.isInt (.viadd · s) | 0x181 => c.vSub flagOf fun s => c.v2 ET.isInt (.visub · s)
  | 0x182 => c.vSub flagOf fun h => c.v2 ET.isInt (.vimul · h) | 0x183 => c.vSub flagOf fun s => c.v3 ET.isInt (.vimad · s)
  | 0x184 => c.v0 (c.v2 ET.isInt .vimin) | 0x185 => c.v0 (c.v2 ET.isInt .vimax)
  | 0x186 => c.v0 (c.v2 (fun _ => true) .vand) | 0x187 => c.v0 (c.v2 (fun _ => true) .vor)
  | 0x188 => c.v0 (c.v2 (fun _ => true) .vxor)
  | 0x189 => c.v0 (c.v2 ET.isInt .vshl) | 0x18A => c.v0 (c.v2 ET.isInt .vshr)
  | 0x18B => c.vSub vcondOf fun k => c.vk2 ET.isInt (.vicmp · k)
  | 0x18C => c.v0 (c.v3 (fun _ => true) .vsel) | 0x18D => c.v0 (c.v2 (fun _ => true) .vperm)
  | 0x18E => c.vSub (finOf 32) fun n => c.v1 (fun _ => true) (.vrot · n)
  | 0x18F => c.vSub (finOf 32) fun n => c.v1 (fun _ => true) (.vbcast · n)
  | 0x190 => c.v0 (c.v1 (fun _ => true) .vmov) | 0x191 => c.vminmaxD | 0x192 => c.vcmprD
  | 0x193 => c.v0 (c.v1 (fun _ => true) .vexpd) | 0x194 => c.v0 (c.v1 ET.isInt .vpopc)
  | 0x195 => c.vpackD | 0x196 => c.vunpkD | 0x197 => c.vplaneD .vplane | 0x198 => c.vplaneD .vunpl
  | 0x1C0 => c.vi0 (c.viR ET.isFloat .vfaddI) | 0x1C1 => c.vi0 (c.viR ET.isFloat .vfmulI)
  | 0x1C2 => c.vi0 (c.viR ET.isFloat .vfmaI)
  | 0x1C3 => c.viSub flagOf fun n => c.vi ET.isFloat (.vfmaxI · n)
  | 0x1C4 => c.viSub flagOf fun n => c.vi ET.isFloat (.vfminI · n)
  | 0x1C5 => c.viSub fcondOf fun k => c.vki ET.isFloat (.vfcmpI · k)
  | 0x1C6 => c.viSub flagOf fun s => c.vi ET.isInt (.viaddI · s)
  | 0x1C7 => c.viSub vcondOf fun k => c.vki ET.isInt (.vicmpI · k)
  | 0x1C8 => c.vi0 c.vmovID | 0x1C9 => c.vi0 (c.vi (fun _ => true) .vandI)
  | 0x1CA => c.vi0 (c.vi ET.isInt .vshlI) | 0x1CB => c.vi0 (c.vi ET.isInt .vshrI)
  | _ => .error 2

/-- The matrix, copy-engine, synchronisation and system classes (R116 to R119). -/
def decodeUnit (c : DecCtx) (opc : Nat) : Except Nat Instr :=
  match opc with
  | 0x200 => c.tNone .cinch | 0x201 => c.tNone .uncinch | 0x202 => c.mmaD | 0x203 => c.mmasD
  | 0x204 => c.tTile .mzero | 0x205 => c.tTile .mwait | 0x206 => c.mrdD | 0x207 => c.mwrD
  | 0x208 => c.tA .msave | 0x209 => c.tA .mload | 0x20A => c.fqpushD
  | 0x240 => c.xcopyD | 0x241 => c.xaccD | 0x242 => c.xswapD | 0x243 => c.xcasD | 0x244 => c.xfillD | 0x245 => c.xplaneD
  | 0x280 => c.qpushD | 0x281 => c.qpopD | 0x282 => c.qcntD | 0x283 => c.qfenceD
  | 0x284 => c.ringD true .rclaim | 0x285 => c.ringD false .rfill | 0x286 => c.ringD true .rtake
  | 0x287 => c.ringD false .rfree | 0x288 => c.acsetD | 0x289 => c.barrD | 0x28A => c.bwaitD
  | 0x28B => c.tagDst .tlook | 0x28C => c.tinsD | 0x28D => c.tagDst .tevc | 0x28E => c.tinvD | 0x28F => c.ksetD
  | 0x290 => c.kandD | 0x291 => c.knotD | 0x292 => c.kcountD .kpopc | 0x293 => c.kcountD .kfirst
  | 0x294 => c.fenceD | 0x295 => c.waitD
  | 0x2C0 => c.mfsD | 0x2C1 => c.mtsD | 0x2C2 => c.tsrD | 0x2C3 => c.spawnD | 0x2C4 => c.joinD | 0x2C5 => c.cancelD
  | 0x2C6 => c.dlchkD | 0x2C7 => c.nopD
  | _ => .error 2

/-- Decode a word that a stream reaches: the checks of R121 in order, with the cause of the first that fails. -/
def decode (st : Strm) (resident : Bool) (w : IWord) : Except Nat Instr :=
  let c : DecCtx := ⟨st, resident, w.toNat⟩
  let opc := c.f 83 74
  chk 1 (decide (opc < 0x300)) <|
  if opc < 0x140 then decodeScalar c opc else if opc < 0x200 then decodeVector c opc else decodeUnit c opc

/-! Queue-script words (R223). -/

/-- Decode a queue-script word: OP [31:28], D [27:25], A [24:22], B [21:19], IMM [18:0]; fields a row does not use are 0. -/
def decodeScript (w : BitVec 32) : Option Instr :=
  let n := w.toNat
  let d : Fin 8 := Fin.ofNat 8 (bitsOf n 27 25)
  let a : Fin 8 := Fin.ofNat 8 (bitsOf n 24 22)
  let b : Fin 8 := Fin.ofNat 8 (bitsOf n 21 19)
  let imm : BitVec 19 := BitVec.ofNat 19 n
  let n6 : BitVec 6 := BitVec.ofNat 6 n
  let z (hi lo : Nat) : Bool := decide (bitsOf n hi lo = 0)
  let when (ok : Bool) (i : Instr) : Option Instr := if ok then some i else none
  match bitsOf n 31 28 with
  | 0x0 => when (z 27 0) .scriptEnd
  | 0x1 => when (z 24 6) (.scriptLdp d n6)
  | 0x2 => when (z 24 19) (.scriptLdi d imm)
  | 0x3 => when (z 24 3) (.scriptLde d (Fin.ofNat 8 (bitsOf n 2 0)))
  | 0x4 => when (z 18 0) (.scriptAdd ⟨d, a, b⟩)
  | 0x5 => when (z 21 19) (.scriptAddi d a imm)
  | 0x6 => when (z 18 0) (.scriptMul ⟨d, a, b⟩)
  | 0x7 => when (z 21 6) (.scriptShl d a n6)
  | 0x8 => when (z 21 6) (.scriptShr d a n6)
  | 0x9 => when (z 18 0) (.scriptAnd ⟨d, a, b⟩)
  | 0xA => when (z 18 0) (.scriptMinu ⟨d, a, b⟩)
  | 0xB => when (z 27 25 && z 21 3) (.scriptRset (Fin.ofNat 8 (bitsOf n 2 0)) a)
  | 0xC => when (z 27 25 && z 15 8) (.scriptJfw a b (BitVec.ofNat 3 (bitsOf n 18 16)) (BitVec.ofNat 8 n))
  | 0xD => when (z 27 19 && z 11 8) (.scriptLoop (BitVec.ofNat 7 (bitsOf n 18 12)) (BitVec.ofNat 8 n))
  | 0xE => when (z 27 25 && z 18 0) (.scriptEmit a b)
  | _ => when (z 27 0) .scriptRclr

/-! The encoder. -/

/-- The wait slot and the opcode (R107). -/
def encHead (w : Wait) (opc : Nat) : Nat := w.wk * 2 ^ 93 + w.wo * 2 ^ 84 + opc * 2 ^ 74

def encS (w : Wait) (opc xd xa xb xc sub : Nat) : Nat :=
  encHead w opc + xd * 2 ^ 67 + xa * 2 ^ 60 + xb * 2 ^ 53 + xc * 2 ^ 46 + sub * 2 ^ 40

def encSI (w : Wait) (opc xd xa imm sub : Nat) : Nat :=
  encHead w opc + xd * 2 ^ 67 + xa * 2 ^ 60 + imm * 2 ^ 28 + sub * 2 ^ 22

def encB (w : Wait) (opc xa xb cnd hint off : Nat) : Nat :=
  encHead w opc + xa * 2 ^ 67 + xb * 2 ^ 60 + cnd * 2 ^ 56 + hint * 2 ^ 54 + off * 2 ^ 22

def encM (w : Wait) (opc d base idx off et ord scope km : Nat) : Nat :=
  encHead w opc + d * 2 ^ 64 + base * 2 ^ 57 + idx * 2 ^ 50 + off * 2 ^ 30 + et * 2 ^ 26 + ord * 2 ^ 23 + scope * 2 ^ 20
    + km * 2 ^ 16

def encV (w : Wait) (opc vd va vb vc km et rnd srn sub : Nat) : Nat :=
  encHead w opc + vd * 2 ^ 64 + va * 2 ^ 54 + vb * 2 ^ 44 + vc * 2 ^ 34 + km * 2 ^ 30 + et * 2 ^ 26 + rnd * 2 ^ 23
    + srn * 2 ^ 18 + sub * 2 ^ 12

def encVI (w : Wait) (opc vd va imm km et rnd sub : Nat) : Nat :=
  encHead w opc + vd * 2 ^ 64 + va * 2 ^ 54 + imm * 2 ^ 38 + km * 2 ^ 30 + et * 2 ^ 26 + rnd * 2 ^ 23 + sub * 2 ^ 17

def encT (w : Wait) (opc atd xa xb xs kb sub : Nat) : Nat :=
  encHead w opc + atd * 2 ^ 69 + xa * 2 ^ 62 + xb * 2 ^ 55 + xs * 2 ^ 48 + kb * 2 ^ 40 + sub * 2 ^ 34

def encE (w : Wait) (opc cq dst src len desc ac aop et sub : Nat) : Nat :=
  encHead w opc + cq * 2 ^ 71 + dst * 2 ^ 64 + src * 2 ^ 57 + len * 2 ^ 50 + desc * 2 ^ 43 + ac * 2 ^ 37 + aop * 2 ^ 33
    + et * 2 ^ 29 + sub * 2 ^ 23

def encY (w : Wait) (opc obj xd xa xb imm sub : Nat) : Nat :=
  encHead w opc + obj * 2 ^ 66 + xd * 2 ^ 59 + xa * 2 ^ 52 + xb * 2 ^ 45 + imm * 2 ^ 29 + sub * 2 ^ 23

def encZ (w : Wait) (opc xd xa spr imm sub : Nat) : Nat :=
  encHead w opc + xd * 2 ^ 67 + xa * 2 ^ 60 + spr * 2 ^ 48 + imm * 2 ^ 32 + sub * 2 ^ 26

/-- RND, SRN and VC of a rounding operand. -/
def Rnd.rndCode : Rnd → Nat
  | .fixed m => m.code
  | .sr sat _ _ => if sat then 7 else 5
def Rnd.srnCode : Rnd → Nat
  | .fixed _ => 0
  | .sr _ _ n => n.toNat
def Rnd.vcCode : Rnd → Nat
  | .fixed _ => 1023
  | .sr _ v _ => v.code

/-- Shapes of R112 to R119 as words. -/
def Sc2.enc (opc : Nat) (a : Sc2) : Nat := encS a.w opc a.xd.code a.xa.code 0 0 0
def Sc3.enc (opc sub : Nat) (a : Sc3) : Nat := encS a.w opc a.xd.code a.xa.code a.xb.code 0 sub
def Sc4.enc (opc sub : Nat) (a : Sc4) : Nat := encS a.w opc a.xd.code a.xa.code a.xb.code a.xc.code sub
def ScI.enc (opc sub : Nat) (a : ScI) : Nat := encSI a.w opc a.xd.code a.xa.code a.imm.toNat sub
def MemA.enc (opc : Nat) (a : MemA) : Nat :=
  encM a.w opc a.d.code a.base.code a.idx.code a.off.toNat a.size.code a.ord.code a.scope.code 0
def VMemA.enc (opc : Nat) (a : VMemA) : Nat :=
  encM a.w opc a.d.code a.base.code a.idx.code a.off.toNat a.et.code a.ord.code a.scope.code a.km.val
def GatA.enc (opc : Nat) (a : GatA) : Nat := encM a.w opc (2 * a.pair.val) a.base.code 0 a.off.toNat a.et.code 0 0 a.km.val
def V1.enc (opc sub : Nat) (a : V1) : Nat := encV a.w opc a.vd.val a.va.code 1023 1023 a.km.val a.et.code 0 0 sub
def V1.encR (opc sub : Nat) (r : Rnd) (a : V1) : Nat :=
  encV a.w opc a.vd.val a.va.code 1023 r.vcCode a.km.val a.et.code r.rndCode r.srnCode sub
def V2.enc (opc sub : Nat) (a : V2) : Nat := encV a.w opc a.vd.val a.va.code a.vb.code 1023 a.km.val a.et.code 0 0 sub
def V2.encR (opc : Nat) (r : Rnd) (a : V2) : Nat :=
  encV a.w opc a.vd.val a.va.code a.vb.code r.vcCode a.km.val a.et.code r.rndCode r.srnCode 0
def V3.enc (opc rnd sub : Nat) (a : V3) : Nat :=
  encV a.w opc a.vd.val a.va.code a.vb.code a.vc.code a.km.val a.et.code rnd 0 sub
def VK2.enc (opc sub : Nat) (a : VK2) : Nat := encV a.w opc a.kd.val a.va.code a.vb.code 1023 a.km.val a.et.code 0 0 sub
def VI.enc (opc rnd sub : Nat) (a : VI) : Nat := encVI a.w opc a.vd.val a.va.code a.imm.toNat a.km.val a.et.code rnd sub
def VKI.enc (opc sub : Nat) (a : VKI) : Nat := encVI a.w opc a.kd.val a.va.code a.imm.toNat a.km.val a.et.code 0 sub
def TileA.enc (opc xb sub : Nat) (a : TileA) : Nat := encT a.w opc a.atd.val a.xa.code xb 0 0 sub
def MmaA.enc (opc xs : Nat) (a : MmaA) : Nat := encT a.w opc a.atd.val a.xa.code a.xb.code xs a.kb.toNat (b2n a.z)
def CopyA.enc (opc desc aop et sub : Nat) (a : CopyA) : Nat :=
  encE a.w opc a.cq.val a.dst.code a.src.code a.len.code desc (a.ac.elim 0 (·.val)) aop et (sub + if a.ac.isSome then 0 else 32)
def RingA.encD (opc : Nat) (a : RingA) : Nat := encY a.w opc a.n.val a.x.code 0 0 0 0
def RingA.encS (opc : Nat) (a : RingA) : Nat := encY a.w opc a.n.val 0 a.x.code 0 0 0
def KA.enc (sub : Nat) (a : KA) : Nat := encY a.w 0x290 0 0 0 0 (a.kd.val + 16 * a.ka.val + 256 * a.kb.val) sub

/-- A script word (R223). -/
def encScript (op d a b imm : Nat) : Nat := op * 2 ^ 28 + d * 2 ^ 25 + a * 2 ^ 22 + b * 2 ^ 19 + imm
def ScrR.enc (op : Nat) (r : ScrR) : Nat := encScript op r.d.val r.a.val r.b.val 0

/-- The number of a word instruction's 96 bits; none for what is no word (a queue-script instruction, an operation or an
event). -/
def encodeNat : Instr → Option Nat
  | .iadd a => some (a.enc 0x000 0) | .isub a => some (a.enc 0x001 0) | .imul a => some (a.enc 0x002 0)
  | .imulh a k => some (a.enc 0x003 k.code) | .idiv a u => some (a.enc 0x004 (b2n u)) | .irem a u => some (a.enc 0x005 (b2n u))
  | .and a => some (a.enc 0x006 0) | .andn a => some (a.enc 0x007 0) | .or a => some (a.enc 0x008 0) | .xor a => some (a.enc 0x009 0)
  | .shl a => some (a.enc 0x00A 0) | .shr a => some (a.enc 0x00B 0) | .shra a => some (a.enc 0x00C 0) | .rot a => some (a.enc 0x00D 0)
  | .popc a => some (a.enc 0x00E) | .clz a => some (a.enc 0x00F)
  | .min a u => some (a.enc 0x010 (b2n u)) | .max a u => some (a.enc 0x011 (b2n u))
  | .sel a => some (a.enc 0x012 0) | .icmp a c => some (a.enc 0x013 c.code) | .mov a => some (a.enc 0x014)
  | .bfx a x => some (a.enc 0x015 (b2n x)) | .bfi w xd xa xb xc => some (encS w 0x016 xd.code xa.code xb.code xc.code 0)
  | .iaddi a => some (a.enc 0x040 0) | .li w xd i => some (encSI w 0x041 xd.code 0 i.toNat 0)
  | .liHi w xd i => some (encSI w 0x041 xd.code 0 i.toNat 1) | .icmpi a c => some (a.enc 0x042 c.code)
  | .andi a => some (a.enc 0x043 0) | .ori a => some (a.enc 0x044 0) | .xori a => some (a.enc 0x045 0)
  | .b a => some (encB a.w 0x080 a.xa.code a.xb.code a.cnd.code a.hint.code a.off.toNat)
  | .bq w n xb c h o => some (encB w 0x081 (64 + n.val) xb.code c.code h.code o.toNat)
  | .loop w xa h o => some (encB w 0x082 xa.val 0 0 h.code o.toNat)
  | .j w xa o => some (encB w 0x083 xa.code 0 0 0 o.toNat) | .jal w xa xb o => some (encB w 0x084 xa.code xb.code 0 0 o.toNat)
  | .halt w => some (encB w 0x086 0 0 0 0 0) | .trap w n => some (encB w 0x087 0 0 0 0 n.toNat)
  | .ld a => some (a.enc 0x0C0) | .st a => some (a.enc 0x0C1)
  | .probe w d b i o => some (encM w 0x0C2 d.code b.code i.code o.toNat 0 0 0 0)
  | .vld a => some (a.enc 0x100) | .vst a => some (a.enc 0x101) | .vldp a => some (a.enc 0x102)
  | .vgather a => some (a.enc 0x103) | .vscatter a => some (a.enc 0x104)
  | .vfadd a r => some (a.encR 0x140 r) | .vfsub a r => some (a.encR 0x141 r) | .vfmul a r => some (a.encR 0x142 r)
  | .vfma a r => some (a.enc 0x143 r.code 0) | .vfms a r => some (a.enc 0x144 r.code 0)
  | .vfmin a n => some (a.enc 0x145 (b2n n)) | .vfmax a n => some (a.enc 0x146 (b2n n))
  | .vfabs a => some (a.enc 0x147 0) | .vfneg a => some (a.enc 0x147 1) | .vfnabs a => some (a.enc 0x147 2)
  | .vfrcp a r => some (a.encR 0x148 0 r) | .vfrsq a r => some (a.encR 0x149 0 r)
  | .vfexp2 a r => some (a.encR 0x14A 0 r) | .vflog2 a r => some (a.encR 0x14B 0 r)
  | .vfcmp a c => some (a.enc 0x14C c.code) | .vfcvt a s r => some (a.encR 0x14D s.code r) | .vfscl a r => some (a.encR 0x14E r)
  | .vdot a vc blk scl r => some (encV a.w 0x14F a.vd.val a.va.code a.vb.code (vc.elim 1023 (·.code)) a.km.val a.et.code r.code 0
      (blk.val + 4 * scl.code))
  | .vred a op r => some (a.encR 0x150 op.code r)
  | .viadd a s => some (a.enc 0x180 (b2n s)) | .visub a s => some (a.enc 0x181 (b2n s)) | .vimul a h => some (a.enc 0x182 (b2n h))
  | .vimad a s => some (a.enc 0x183 0 (b2n s)) | .vimin a => some (a.enc 0x184 0) | .vimax a => some (a.enc 0x185 0)
  | .vand a => some (a.enc 0x186 0) | .vor a => some (a.enc 0x187 0) | .vxor a => some (a.enc 0x188 0)
  | .vshl a => some (a.enc 0x189 0) | .vshr a => some (a.enc 0x18A 0) | .vicmp a c => some (a.enc 0x18B c.code)
  | .vsel a => some (a.enc 0x18C 0 0) | .vperm a => some (a.enc 0x18D 0) | .vrot a n => some (a.enc 0x18E n.val)
  | .vbcast a n => some (a.enc 0x18F n.val) | .vmov a => some (a.enc 0x190 0)
  | .vminmax w p va vb km et => some (encV w 0x191 (2 * p.val) va.code vb.code 1023 km.val et.code 0 0 0)
  | .vcmpr a n => some (a.enc 0x192 n.toNat) | .vexpd a => some (a.enc 0x193 0) | .vpopc a => some (a.enc 0x194 0)
  | .vpack w vd va vb et fm r => some (encV w 0x195 vd.val va.code vb.code r.vcCode 0 et.code r.rndCode r.srnCode fm.code)
  | .vunpk w vd va et fm => some (encV w 0x196 vd.val va.code 1023 1023 0 et.code 0 0 fm.code)
  | .vplane w vd va fm => some (encV w 0x197 vd.val va.code 1023 1023 0 0 0 0 fm.code)
  | .vunpl w vd va fm => some (encV w 0x198 vd.val va.code 1023 1023 0 0 0 0 fm.code)
  | .vfaddI a r => some (a.enc 0x1C0 r.code 0) | .vfmulI a r => some (a.enc 0x1C1 r.code 0) | .vfmaI a r => some (a.enc 0x1C2 r.code 0)
  | .vfmaxI a n => some (a.enc 0x1C3 0 (b2n n)) | .vfminI a n => some (a.enc 0x1C4 0 (b2n n)) | .vfcmpI a c => some (a.enc 0x1C5 c.code)
  | .viaddI a s => some (a.enc 0x1C6 0 (b2n s)) | .vicmpI a c => some (a.enc 0x1C7 c.code)
  | .vmovI w vd i km et => some (encVI w 0x1C8 vd.val 1023 i.toNat km.val et.code 0 0)
  | .vandI a => some (a.enc 0x1C9 0 0) | .vshlI a => some (a.enc 0x1CA 0 0) | .vshrI a => some (a.enc 0x1CB 0 0)
  | .cinch w => some (encT w 0x200 0 0 0 0 0 0) | .uncinch w => some (encT w 0x201 0 0 0 0 0 0)
  | .mma a => some (a.enc 0x202 0) | .mmas a x => some (a.enc 0x203 x.code)
  | .mzero w t => some (encT w 0x204 t.val 0 0 0 0 0) | .mwait w t => some (encT w 0x205 t.val 0 0 0 0 0)
  | .mrd a xb ty r => some (a.enc 0x206 xb.code (ty.code + 8 * r.code)) | .mwr a ty => some (a.enc 0x207 0 ty.code)
  | .msave a => some (a.enc 0x208 0 0) | .mload a => some (a.enc 0x209 0 0) | .fqpush w xa => some (encT w 0x20A 0 xa.code 0 0 0 0)
  | .xcopy a => some (a.enc 0x240 0 0 0 0) | .xcopyStr a x => some (a.enc 0x240 x.code 0 0 1)
  | .xacc a op et => some (a.enc 0x241 0 op.code et.code 0) | .xswap a et => some (a.enc 0x242 0 0 et.code 0)
  | .xcas a x et => some (a.enc 0x243 x.code 0 et.code 0) | .xfill a => some (a.enc 0x244 0 0 0 0)
  | .xplane a x => some (a.enc 0x245 x.code 0 0 0)
  | .qpush w q xa => some (encY w 0x280 0 0 xa.code 0 q.code 0) | .qpop w q xd => some (encY w 0x281 0 xd.code 0 0 q.code 0)
  | .qcnt w q xd => some (encY w 0x282 0 xd.code 0 0 q.code 0)
  | .qpushFd w n xa => some (encY w 0x280 (0xC0 + n.val) 0 xa.code 0 0 1) | .qpopFd w n xd => some (encY w 0x281 (0xC0 + n.val) xd.val 0 0 0 1)
  | .qcntFd w n xd => some (encY w 0x282 (0xC0 + n.val) xd.code 0 0 0 1)
  | .qfence w qs m s => some (encY w 0x283 0 0 0 0 (qs.toNat + 256 * b2n m + 512 * b2n s) 0)
  | .rclaim a => some (a.encD 0x284) | .rfill a => some (a.encS 0x285) | .rtake a => some (a.encD 0x286) | .rfree a => some (a.encS 0x287)
  | .acset w n xa xb => some (encY w 0x288 (0x40 + n.val) 0 xa.code xb.code 0 0)
  | .barr w b => some (encY w 0x289 b.code 0 0 0 0 0) | .barrCfg w b xa => some (encY w 0x289 b.code 0 xa.code 0 0 1)
  | .bwait w b => some (encY w 0x28A b.code 0 0 0 0 0)
  | .tlook w xd xa => some (encY w 0x28B 0 xd.code xa.code 0 0 0) | .tins w xa xb => some (encY w 0x28C 0 0 xa.code xb.code 0 0)
  | .tevc w xd xa => some (encY w 0x28D 0 xd.code xa.code 0 0 0) | .tinv w xa => some (encY w 0x28E 0 0 xa.code 0 0 0)
  | .tinvAll w => some (encY w 0x28E 0 0 0 0 0 1) | .kset w kd xa => some (encY w 0x28F 0 0 xa.code 0 kd.val 0)
  | .kand a => some (a.enc 0) | .kor a => some (a.enc 1) | .kxor a => some (a.enc 2) | .kandn a => some (a.enc 3)
  | .knot w kd ka => some (encY w 0x291 0 0 0 0 (kd.val + 16 * ka.val) 0)
  | .kpopc w xd ka => some (encY w 0x292 0 xd.code 0 0 (16 * ka.val) 0) | .kfirst w xd ka => some (encY w 0x293 0 xd.code 0 0 (16 * ka.val) 0)
  | .fence w s => some (encY w 0x294 0 0 0 0 s.code 0) | .wait w => some (encY w 0x295 0 0 0 0 0 0)
  | .mfs w xd s => some (encZ w 0x2C0 xd.code 0 s.toNat 0 0) | .mts w xa s => some (encZ w 0x2C1 0 xa.code s.toNat 0 0)
  | .tsr w xg xc => some (encZ w 0x2C2 xg.code xc.code 0 0 0) | .spawn w xa => some (encZ w 0x2C3 0 xa.code 0 0 0)
  | .join w xd xa => some (encZ w 0x2C4 xd.code xa.code 0 0 0) | .cancel w xa l => some (encZ w 0x2C5 0 xa.code 0 (l.val + 1) 0)
  | .dlchk w xd => some (encZ w 0x2C6 xd.code 0 0 0 0) | .nop w => some (encZ w 0x2C7 0 0 0 0 0)
  | _ => none

/-- The 96-bit word of a word instruction. -/
def encode (i : Instr) : Option IWord := (encodeNat i).map (BitVec.ofNat 96)

/-- The number of a queue-script instruction's 32 bits (R223). -/
def encodeScriptNat : Instr → Option Nat
  | .scriptEnd => some 0
  | .scriptLdp d w => some (encScript 1 d.val 0 0 w.toNat) | .scriptLdi d i => some (encScript 2 d.val 0 0 i.toNat)
  | .scriptLde d e => some (encScript 3 d.val 0 0 e.val) | .scriptAdd r => some (r.enc 4)
  | .scriptAddi d a i => some (encScript 5 d.val a.val 0 i.toNat) | .scriptMul r => some (r.enc 6)
  | .scriptShl d a n => some (encScript 7 d.val a.val 0 n.toNat) | .scriptShr d a n => some (encScript 8 d.val a.val 0 n.toNat)
  | .scriptAnd r => some (r.enc 9) | .scriptMinu r => some (r.enc 10) | .scriptRset f a => some (encScript 11 0 a.val 0 f.val)
  | .scriptJfw a b c o => some (encScript 12 0 a.val b.val (c.toNat * 2 ^ 16 + o.toNat))
  | .scriptLoop n l => some (encScript 13 0 0 0 (n.toNat * 2 ^ 12 + l.toNat))
  | .scriptEmit a b => some (encScript 14 0 a.val b.val 0) | .scriptRclr => some (encScript 15 0 0 0 0)
  | _ => none

/-- The 32-bit word of a queue-script instruction. -/
def encodeScript (i : Instr) : Option (BitVec 32) := (encodeScriptNat i).map (BitVec.ofNat 32)

/-- What the decoder reads from bits numbered as the opcode table numbers them: 32 bits or fewer are a queue-script word;
more are a 96-bit word of a resident group's C-stream, or of its A-stream where the C-stream may not hold it. -/
def decodeTableWord (nbits w : Nat) : Option Instr :=
  if nbits ≤ 32 then decodeScript (BitVec.ofNat 32 w)
  else
    match decode .c true (BitVec.ofNat 96 w) with
    | .ok i => some i
    | .error _ => (decode .a true (BitVec.ofNat 96 w)).toOption

end Sys2Proof
end

