-- ==== Sys2Proof/Machine/Tbl.lean ====
section
/-!
DEFINITION. Sparse tables: lists of key and value in one canonical form (keys strictly rising, no entry equal to what
an unlisted key reads as), and keyed lists whose absent keys hold nothing. Memory, scratchpad, accumulator tiles and the
large register files are held this way.
-/
namespace Sys2Proof.Machine

variable {α : Type}

/-- The value at key i; a key that is not listed reads as d. -/
def tblGet (d : α) : List (Nat × α) → Nat → α
  | [], _ => d
  | (k, v) :: t, i => if i = k then v else if i < k then d else tblGet d t i

/-- Write v at key i, keeping the canonical form: writing d removes the entry. -/
def tblSet [DecidableEq α] (d : α) : List (Nat × α) → Nat → α → List (Nat × α)
  | [], i, v => if v = d then [] else [(i, v)]
  | (k, w) :: t, i, v =>
    if i < k then (if v = d then (k, w) :: t else (i, v) :: (k, w) :: t)
    else if i = k then (if v = d then t else (k, v) :: t)
    else (k, w) :: tblSet d t i v

/-- The canonical form from key lo upward. -/
def tblWfFrom [DecidableEq α] (d : α) (lo : Nat) : List (Nat × α) → Bool
  | [] => true
  | (k, v) :: t => decide (lo ≤ k) && (!decide (v = d)) && tblWfFrom d (k + 1) t

/-- The canonical form. -/
def tblWf [DecidableEq α] (d : α) (t : List (Nat × α)) : Bool := tblWfFrom d 0 t

/-- Write a run of values at consecutive keys. -/
def tblSetRun [DecidableEq α] (d : α) (t : List (Nat × α)) (i : Nat) : List α → List (Nat × α)
  | [] => t
  | v :: vs => tblSetRun d (tblSet d t i v) (i + 1) vs

/-- n values at consecutive keys. -/
def tblGetRun (d : α) (t : List (Nat × α)) (i : Nat) : Nat → List α
  | 0 => []
  | n + 1 => tblGet d t i :: tblGetRun d t (i + 1) n

/-- Drop every entry with a key in lo to hi - 1: those keys read as the default again. -/
def tblClear (t : List (Nat × α)) (lo hi : Nat) : List (Nat × α) :=
  t.filter fun p => decide (p.1 < lo) || decide (hi ≤ p.1)

/-- The entries with a key in lo to hi - 1, with their keys counted from lo. -/
def tblSlice (t : List (Nat × α)) (lo hi : Nat) : List (Nat × α) :=
  (t.filter fun p => decide (lo ≤ p.1) && decide (p.1 < hi)).map fun p => (p.1 - lo, p.2)

/-- Replace the keys base to base + len - 1 by the listed entries of a slice whose keys count from 0. -/
def tblPaste [DecidableEq α] (d : α) (t : List (Nat × α)) (base len : Nat) (cells : List (Nat × α)) :
    List (Nat × α) :=
  (cells.filter fun p => decide (p.1 < len)).foldl (fun m p => tblSet d m (base + p.1) p.2)
    (tblClear t base (base + len))

/-- The value at a key that may be absent. -/
def mapGet : List (Nat × α) → Nat → Option α
  | [], _ => none
  | (k, v) :: t, i => if i = k then some v else mapGet t i

/-- Put a value at a key, keeping keys in rising order. -/
def mapPut : List (Nat × α) → Nat → α → List (Nat × α)
  | [], i, v => [(i, v)]
  | (k, w) :: t, i, v =>
    if i < k then (i, v) :: (k, w) :: t else if i = k then (k, v) :: t else (k, w) :: mapPut t i v

/-- Remove a key. -/
def mapDel (t : List (Nat × α)) (i : Nat) : List (Nat × α) := t.filter fun p => !decide (p.1 = i)

/-- Change the value at a key, if it is present. -/
def mapModify (t : List (Nat × α)) (i : Nat) (f : α → α) : List (Nat × α) :=
  t.map fun p => if p.1 = i then (p.1, f p.2) else p

/-- Replace element i of a list, if there is one. -/
def listSet : List α → Nat → α → List α
  | [], _, _ => []
  | _ :: t, 0, v => v :: t
  | x :: t, n + 1, v => x :: listSet t n v

/-- The first element that satisfies p, with its place. -/
def findAt (p : α → Bool) : List α → Nat → Option (Nat × α)
  | [], _ => none
  | x :: t, n => if p x then some (n, x) else findAt p t (n + 1)

end Sys2Proof.Machine
end

