-- ==== Sys2Proof/Machine/State.lean ====
section
/-!
DEFINITION. The state of the X9 package as plain data, the faults and refusals of a step, and the state after reset.
Sparse tables (Machine/Tbl) hold memories and the large register files in one canonical form; an address or number that
is not listed reads as the stated default. Values in ticks and cycles are natural numbers where software sees no word.
-/
namespace Sys2Proof.Machine

/-- A model fault. `badInput` is raised by an event whose operands the environment cannot supply: a PCI Express completion
or a fabric reply that does not carry exactly the bytes asked for (HOST_READ_COMPLETION, FABRIC_REPLY). Safe: such an
event is no event of the hardware. -/
inductive Fault where
  | badInput
  deriving DecidableEq, Repr

/-- A refusal. `notModelled` is raised by an arm of exec whose instruction has no meaning yet. Safe. -/
inductive Refusal where
  | notModelled (mnemonic : String)
  deriving DecidableEq, Repr

/-- Memory: bytes by address, canonical, an unlisted byte reads 0. -/
abbrev Memory := List Host.Cell

/-- The canonical form of a memory. -/
abbrev Memory.wf (m : Memory) : Bool := tblWf (0 : Byte) m

/-! ## Acts: which agent moves next (the model's own, assumption log 2) -/

/-- One act of the package. -/
inductive Act where
  /-- The sequencer takes one issue cycle (R65). -/
  | issue (c : CoreId) (q : SeqId)
  /-- The script engine of a die runs one word of the current packet of a context (R222). -/
  | script (d : DieId) (k : CtxId)
  /-- An operation or event of the opcode table. -/
  | ev (i : Instr)
  /-- One tick passes (R1 to R3). -/
  | tick
  deriving DecidableEq, Repr

/-- The agent on whose behalf exec runs: a stream of a sequencer for a word, a die's script engine for a script word. -/
structure Cur where
  core : CoreId
  seq : SeqId
  strm : Strm
  die : DieId
  ctx : CtxId
  deriving DecidableEq, Repr

/-! ## Translation -/

/-- Kind of a page (R200). -/
inductive PageKind where
  | dev | host | fab
  deriving DecidableEq, Repr

/-- One combined translation of a 64 KiB page: output page, permissions of both stages, peer and epoch for a fabric page,
the KEYID copied from the allocation table, and whether the stage-2 D bit is known to be set (R200, R202, R259). -/
structure Trans where
  kind : PageKind
  page : Nat
  r : Bool
  w : Bool
  x : Bool
  peer : Nat
  epoch : Nat
  keyId : Nat
  d : Bool
  deriving DecidableEq, Repr

/-- A TLB entry: one aligned 2 MiB span of one context with its validity mask and the pages
whose D bit is known to be set; page n of the span is `base` plus n times 64 KiB (R202, R203). -/
structure TlbEntry where
  ctx : CtxId
  span : Nat
  mask : BitVec 32
  dmask : BitVec 32
  base : Trans
  deriving DecidableEq, Repr

/-- A page-window register (R205). -/
inductive WinReg where
  | empty
  | ok (page : Nat) (t : Trans)
  | bad (page : Nat) (cause : Nat)
  deriving DecidableEq, Repr

/-- An access port of an A-stream (R205): current and next page, the direction of its last change of page, and the page an
access has asked to be filled ahead; `last` the page of its last access. -/
structure Port where
  cur : WinReg
  nxt : WinReg
  up : Bool
  want : Option Nat
  last : Option Nat
  deriving DecidableEq, Repr

/-! ## Memory system -/

/-- Vector clock (R182). -/
abbrev VClock := Vector Nat 4

/-- An atomic step on memory at the home of its bytes (R24, R168, R169, R194, R200, R219, R228, R305, R320, R354). -/
inductive AtomOp where
  | acc (op : AOp) (et : ET) (src : List Byte)
  | swap (src : List Byte)
  | cas (cmp src : List Byte)
  | pendInc
  | credit (st : CStat) (resid : Bool)
  | joinDec
  | setCancelled
  | setD
  | fetchAdd (v : BitVec 64)
  deriving DecidableEq, Repr

/-- What a write does at its home: bytes to store, or a step on n bytes. -/
inductive Payload where
  | bytes (bs : List (Option Byte))
  | atom (n : Nat) (op : AtomOp)
  deriving DecidableEq, Repr

/-- Where the old values of a step go: nowhere; nowhere, of the write by which a stream raises FWIDX or FRIDX of a feed queue; a
credit of n bytes when the issuing die has applied it (R148); a scratchpad
of the issuing core (R169), and, once the home has applied the step, the bytes on their way there; or an engine that waits. -/
inductive OldTo where
  | drop
  | credit (c : CoreId) (ac : Fin 64) (n : Nat)
  | spad (c : CoreId) (off : Nat) (ac : Option (Fin 64))
  | feed (fd : Fin 64) (push : Bool)
  | back (c : CoreId) (off : Nat) (ac : Option (Fin 64)) (bs : List Byte)
  | reply
  deriving DecidableEq, Repr

/-- A write to device memory that has not been applied in all four views (R182). `grp` is the first of the writes that are one
write of a stream, which a freeze discards whole or not at all (R197); `waits` names the loads that must be
bound before it leaves its die (R184); `eng` says that an engine of the die made it and no stream or queue; `entered` that it
has entered the die's cache, so that the die shows it; `dep` is the clock it carries once it has left; `stamp` its clock once its home has
applied it; `seen` the dies that have applied it; `torn` that another write of its group has left the die. -/
structure WriteRec where
  id : Nat
  grp : Nat
  ctx : CtxId
  core : CoreId
  src : DieId
  home : DieId
  pa : Nat
  gen : Nat
  pay : Payload
  waits : List Nat
  eng : Bool
  entered : Bool
  dep : Option VClock
  stamp : Option VClock
  seen : BitVec 4
  old : OldTo
  torn : Bool
  deriving DecidableEq, Repr

/-- A line held by a die cache: its number pa / 128, the KEYID, dirty or clean, the way (R171, R172). -/
structure CLine where
  line : Nat
  keyId : Nat
  dirty : Bool
  way : Fin 16
  deriving DecidableEq, Repr

/-- A request bound to a calendar slot of a channel (R176). `first` is the start of the slot to which it was bound first, `start` that
of the slot to which it is bound now, `backed` that it has spent the rotation of a back-off (R178); `reach` the tick at which it
reaches the channel, none while it waits for a token. -/
structure HReq where
  id : Nat
  core : CoreId
  ctx : CtxId
  bank : Nat
  row : Nat
  write : Bool
  bridle : Bool
  due : Nat
  first : Nat
  start : Nat
  backed : Bool
  reach : Option Nat
  deriving DecidableEq, Repr

/-- Refresh management owed in the next slots of an owner: a core, or 127 for Bridle's own positions (R178). -/
structure Rfm where
  owner : Nat
  bank : Nat
  row : Nat
  left : Nat
  deriving DecidableEq, Repr

/-- Back-off of a row: from the second slot of its refresh management until BOWIN rotations later (R178). -/
structure Backoff where
  bank : Nat
  row : Nat
  fromTick : Nat
  untilTick : Nat
  deriving DecidableEq, Repr

/-- One HBM4 channel (R175 to R178, R265). Owners are listed where they differ from the reset value p; activation counts by
bank times 65,536 plus row; `lastSlot` is the start of the last slot served; `refN`, `refRot` the next refresh event and its
rotation; `voided` the positions it voided, each with its rotation; the counts of R265 by core. -/
structure Channel where
  owner : List (Nat × Nat)
  bowin : Nat
  actth : Nat
  acts : List (Nat × Nat)
  reqs : List HReq
  rfm : List Rfm
  backoff : List Backoff
  lastSlot : Option Nat
  refN : Nat
  refRot : Nat
  voided : List (Nat × Nat)
  cntVoid : List (Nat × Nat)
  cntRfm : List (Nat × Nat)
  deriving DecidableEq, Repr

/-- Token bucket of a context at a die-cache port (R173). -/
structure Bucket where
  depth : Nat
  rate : Nat
  level : Nat
  deriving DecidableEq, Repr

/-- Share of a slice at an Autus port (R254): BURST and SHARE, and for each direction the slots used of the present 256 and those taken
back to back above the share. -/
structure FabShare where
  burst : Nat
  share : Nat
  used : Nat
  run : Nat
  inUsed : Nat
  inRun : Nat
  deriving DecidableEq, Repr

/-- What comes in through a port: the reply to a request, a reply that is a trap with its kind and DETAIL (R206), or what a peer asks (R196). -/
inductive FabMsg where
  | reply (req : Nat) (data : List Byte)
  | trap (req kind : Nat) (detail : Word)
  | ask (p : Asker) (r : FabReq)
  deriving DecidableEq, Repr

/-- A message of a slice on its way in, with the flits still to come (R254). -/
structure FabIn where
  slice : Fin 32
  flits : Nat
  msg : FabMsg
  deriving DecidableEq, Repr

/-- An Autus port: the shares of the slices, the slots gone of the present 256, and what waits to come in (R254). -/
structure FabPort where
  shares : List (Nat × FabShare)
  slot : Nat
  arriving : List FabIn
  deriving DecidableEq, Repr

/-! ## Engines of a core -/

/-- One line an access touches (R173, R176): whether its token is taken, the channel request it waits for, the tick of the
access, the tick of its data when the line is held by a cache, the die whose port serves it, and the tick from which its latency counts:
that of the access, or the start of the slot it was bound to first (R178, R293). -/
structure LineReq where
  line : Nat
  keyId : Nat
  write : Bool
  tok : Bool
  req : Option Nat
  tick : Nat
  hit : Nat
  die : DieId
  base : Nat
  deriving DecidableEq, Repr

/-- A copy-engine operation (R117). -/
inductive CopyOp where
  | copy | str | fill | plane | acc | swap | cas
  deriving DecidableEq, Repr

/-- What the next unit of a copy command has asked for: lines of device memory, requests to the host or a peer still open
with the address of their first byte, and the bytes those have brought. -/
structure UnitReq where
  lines : List LineReq
  ext : List (Nat × Nat)
  data : List (Nat × List Byte)
  deriving DecidableEq, Repr

/-- A copy command in a queue (R161, R246). `outs` names the writes and fabric requests of its units that are not performed, each
with the offset of its unit;
`unit` what its next unit has asked for; `rows` the scoreboard entry it holds, first row and count (R145). -/
structure CopyCmd where
  op : CopyOp
  aop : AOp
  et : ET
  ac : Option (Fin 64)
  seq : SeqId
  dst : Word
  src : Word
  len : Word
  desc : Word
  offset : Nat
  park : Option Park
  outs : List (Nat × Nat)
  unit : Option UnitReq
  rows : List (Nat × Nat)
  deriving DecidableEq, Repr

/-- An entry of a copy queue: a command, or the mark of a QFENCE (R190). -/
inductive CqItem where
  | cmd (c : CopyCmd)
  | fence (id : Nat)
  deriving DecidableEq, Repr

/-- A copy queue: its entries, head first, and the cycle its last command left. -/
structure CopyQ where
  items : List CqItem
  left : Option Nat
  deriving DecidableEq, Repr

/-- One segment of a shape record (R137). -/
structure ShapeSeg where
  lo : Nat
  hi : Nat
  klen : Nat
  deriving DecidableEq, Repr

/-- A tile command in a slot of the matrix engine (R130). `c` counts its completed beats; `work` holds the values of the
positions that have consumed a block, by 64 i + j; `after` the QFENCEs it must wait for; `xs` the offset of the shape record that
its acceptance reads; `pins` the slab bytes it goes on to read at their old values after a store (R48); `was` what its tile held at its
acceptance where a freeze has written over it, and `seen` that a read of its tile may have returned its result (R140). -/
structure MCmd where
  serial : Nat
  atd : Fin 32
  abase : Nat
  bbase : Nat
  kb : Nat
  z : Bool
  fmt : Word
  shape : List ShapeSeg
  seq : SeqId
  c : Nat
  work : List (Nat × Acc)
  flags : BitVec 5
  after : List Nat
  xs : Option Nat
  pins : List (Nat × Byte)
  was : List (Nat × Acc)
  seen : Bool
  deriving DecidableEq, Repr

/-- Cinch state of a sequencer (R125). -/
inductive CinchSt where
  | free | want | hold
  deriving DecidableEq, Repr

/-- Ring slot states (R151). -/
inductive SlotSt where
  | free | claimed | filled | taken | released
  deriving DecidableEq, Repr

/-- A ring descriptor (R150) with its slot states; `cov` names writes its fillers made earlier (R192). -/
structure Ring where
  clm : BitVec 32
  pub : BitVec 32
  tkn : BitVec 32
  fre : BitVec 32
  nslot : Nat
  slotr : Nat
  base : Nat
  slots : List SlotSt
  cov : List Nat
  deriving DecidableEq, Repr

/-- An arrival counter (R147). -/
structure ArrCnt where
  tgt : BitVec 32
  count : BitVec 32
  cov : List Nat
  deriving DecidableEq, Repr

/-- A barrier (R154). -/
structure Barrier where
  gen : BitVec 32
  arr : Nat
  n : Nat
  cov : List Nat
  deriving DecidableEq, Repr

/-- A tag-table entry (R158). -/
structure TagEnt where
  key : BitVec 48
  slot : BitVec 16
  deriving DecidableEq, Repr

/-- A monitor (R293): MONSEL, the item index, items 0 to 18. -/
structure Monitor where
  sel : BitVec 18
  ix : BitVec 5
  items : Vector Nat 19
  deriving DecidableEq, Repr

/-- Why an access failed: the cause of R207, the lowest failing address, the guest physical address for causes 3 and 4,
whether the access writes or fetches, STRADDLE, WINDOW. -/
structure AccFault where
  (cause addr gpa : Nat) (write exec straddle window : Bool)
  deriving DecidableEq, Repr

/-- How the fetch of a word failed: by a fault, or by an uncorrectable error at an address (R208, R213). -/
inductive FetchFail where
  | fault (f : AccFault)
  | bad (va : Nat)
  deriving DecidableEq, Repr

/-- A section held in instruction memory (R289): whose, where, its header, and its LEN words, none for one that has not been fetched;
`fails` the words whose fetch has failed, which is held until a stream reaches them (R208). -/
structure ISec where
  ctx : CtxId
  hdr : Word
  head : BitVec 64
  words : List (Option IWord)
  fails : List (Nat × FetchFail)
  deriving DecidableEq, Repr

/-! ## Sequencers and streams -/

/-- An entry of a queue: a value, or a place reserved for a load (R75). -/
inductive QEnt (α : Type) where
  | val (v : α)
  | rsv (load : Nat)
  deriving DecidableEq, Repr

/-- Where a load's value goes; `pre` names the word that stands at the program counter (R305, R308, R343). -/
inductive LDst where
  | x (n : Fin 64) (size : Size)
  | none (size : Size)
  | q (q : QCode) (size : Size)
  | v (n : Fin 640) (mask : BitVec 32)
  | dq (n : Fin 8)
  | tile (t : Fin 32)
  | pre
  deriving DecidableEq, Repr

/-- A run of bytes of a load still to be read from device memory: place in the load, address, length, KEYID, virtual address. -/
structure LSeg where
  off : Nat
  pa : Nat
  n : Nat
  keyId : Nat
  va : Nat
  deriving DecidableEq, Repr

/-- A load whose value is not yet bound. `inst` is the section instance it was issued from; `buf` its bytes so far; `segs`
what is still read from device memory, `ext` the requests to a host or a peer still open; `acq` its acquire scope (R185);
`lines` the lines of device memory it touches; `tick` the tick of its request; `cov` the writes it has returned (R180); `word`,
`hdr` and `off` the word that made it and where that stands, for a trap (R215); `blk` the 64-byte block that an engine works on
for the stream (R305, R320, R355). -/
structure Load where
  id : Nat
  inst : BitVec 32
  dst : LDst
  buf : List Byte
  segs : List LSeg
  ext : List Nat
  acq : Option Scope
  lines : List LineReq
  tick : Nat
  va : Word
  cov : List Nat
  word : IWord
  hdr : Word
  off : Nat
  blk : Option Nat
  deriving DecidableEq, Repr

/-- A piece of a store to device memory; unwritten bytes are none; `since` the tick since when it waits for a token. -/
structure Piece where
  pa : Nat
  keyId : Nat
  bs : List (Option Byte)
  since : Option Nat
  deriving DecidableEq, Repr

/-- A held effect of a word (R269). `rfill` and `rfree` name the slot and the address that named it (R152); `feedWait` the writes of a
record pushed to a feed queue, which the word waits for (R343); `land` the push or the tile write of a load from memory, with its bytes
once they are at the core (R75, R383). -/
inductive Eff where
  | stSpad (off : Nat) (bs : List (Option Byte))
  | stDev (ps : List Piece) (waits : List Nat) (grp : Option Nat)
  | stHost (port : Fin 2) (slice : Fin 32) (addr : Nat) (bs : List (Option Byte)) (waits : List Nat)
  | stFab (peer epoch addr : Nat) (bs : List (Option Byte)) (va : Word) (waits : List Nat)
  | pop (q : QCode)
  | push (q : QCode) (v : Word)
  | pushDq (n : Fin 8) (v : VWord)
  | rclaim (n : Fin 64)
  | rtake (n : Fin 64)
  | rfill (n : Fin 64) (slot : Nat) (a : Word)
  | rfree (n : Fin 64) (slot : Nat) (a : Word)
  | acset (n : Fin 64) (tgt count : BitVec 32)
  | barr (b : Bar)
  | barrCfg (b : Bar) (v : BitVec 16)
  | tins (key : BitVec 48) (slot : BitVec 16)
  | tevc (set way : Nat)
  | tinv (key : BitVec 48)
  | tinvAll
  | mts (spr : BitVec 12) (v : Word)
  | tile (t : Fin 32) (vs : List Acc)
  | copy (q : CqId) (c : CopyCmd)
  | uncinch
  | mma (m : MCmd)
  | cancel (pa keyId load : Nat) (waits : List Nat)
  | spawn (va : Word) (load : Nat)
  | join (c : Word) (load : Nat)
  | feedPush (fd : Fin 64) (rec : List Byte)
  | feedWait (fd : Fin 64) (ids : List Nat)
  | feedPop (fd : Fin 64)
  | land (load : Nat) (dst : LDst) (bs : Option (List Byte))
  deriving DecidableEq, Repr

/-- The shadow window of a word (R267): the word's number on its sequencer, its stream, the cycle it issued in last, how many cycles
later the window closes, its consecutive strikes (R271), the word, the X registers it writes, whether it has still to issue again (R268),
and the lanes of a vector word. -/
structure Win where
  no : Nat
  strm : Strm
  cyc : Nat
  len : Nat
  strikes : Nat
  word : IWord
  wx : List (Fin 64)
  again : Bool
  lanes : Option (BitVec 32)
  deriving DecidableEq, Repr

/-- A word with held effects that have not taken place (R267 to R271): its number, which names its window; its stream and section
instance, its class OPC[9:6], its release scope, the loads of its stream that were open when it issued, its effects, and where it
stands with FLAGS as they were before it, for the replay-limit trap (R271); the scope of a store with .ar (R185). -/
structure HeldWord where
  no : Nat
  strm : Strm
  inst : BitVec 32
  cls : Nat
  word : IWord
  rel : Option Scope
  loads : List Nat
  effs : List Eff
  hdr : Word
  off : Nat
  flags : BitVec 5
  ar : Option Scope
  deriving DecidableEq, Repr

/-- Life of a stream (R216). -/
inductive StrmSt where
  | ended | run | parked | trapped | none
  deriving DecidableEq, Repr

/-- An arrival record (R155, R248). -/
inductive ArrRec where
  | empty
  | gen (g : BitVec 32)
  | pending (ix : Nat)
  deriving DecidableEq, Repr

/-- A section instance that is entered and not retired (R69). -/
structure Inst where
  no : BitVec 32
  sec : BitVec 12
  left : Bool
  deriving DecidableEq, Repr

/-- One stream of a sequencer. -/
structure Stream where
  st : StrmSt
  x : Vector Word 64
  hdr : Word
  len : Nat
  sec : BitVec 12
  last : Bool
  /-- Word offset; none at a header. -/
  word : Option Nat
  /-- Row of the table of R82 that holds it, and the cycle since when; row 0 stands for a bounded wait of the issue itself. -/
  stall : Option (Nat × Nat)
  /-- Cycles of earlier stalls for a queue at the present word (R77). -/
  lod : Nat
  ne : BitVec 32
  nr : BitVec 32
  rsec : BitVec 12
  rv : Bool
  insts : List Inst
  pwdist : BitVec 17
  arr : Vector ArrRec 32
  ports : Vector Port 4
  park : Option Park
  loads : List Load
  /-- Scope and write of a bound acquire that is not yet performed at its scope (R185). -/
  acq : Option (Scope × List Nat)
  /-- Writes that are earlier operations of the stream and not yet performed at .p, and fabric requests not acknowledged. -/
  deps : List Nat
  fdeps : List Nat
  /-- A QFENCE with SELF that has issued and is waited for. -/
  qf : Option Nat
  /-- Bytes read from a host or a peer for the word at the program counter, by their address. -/
  pre : List (Nat × List Byte)
  deriving DecidableEq, Repr

/-- Group state of a sequencer (R62). -/
inductive SeqSt where
  | idle | load | run | retire | saved | frozen
  deriving DecidableEq, Repr

/-- One sequencer. -/
structure Seq where
  st : SeqSt
  rcd : Rec
  popg : Nat
  deadln : Word
  grpid : Word
  frame : Word
  v : List (Nat × VWord)
  k : Vector (BitVec 32) 16
  flags : BitVec 5
  /-- Values FLAGS has held since the group began (R55). -/
  flagsHist : List (BitVec 5)
  slip : BitVec 7
  dq : Vector (List (QEnt VWord)) 8
  bq : Vector (List (QEnt Word)) 4
  fq : List (QEnt Word)
  /-- The stream that issued the last time both were ready; none before the first time (R65). -/
  alt : Option Strm
  held : List HeldWord
  /-- Cycle before which nothing issues: the bubble of a replay (R268). -/
  bubble : Nat
  /-- Cycle of the last word issued, and of the last vector word. -/
  lastIssue : Option Nat
  lastVec : Option Nat
  /-- CYC of the last vector word of each lane; an unlisted lane has issued none (R276). -/
  lanes : List (Nat × Nat)
  /-- Shadow windows of words that have issued, oldest first, and the number of the next word (R267). -/
  wins : List Win
  wno : Nat
  resident : Bool
  a : Stream
  c : Stream
  deriving DecidableEq, Repr

/-! ## Cores -/

/-- Clock phase of a core (R277): normal, or the cycle in which the phase began. `half` is true in the first tick of a
stretched cycle. -/
inductive Phase where
  | normal
  | stretch (start : Nat)
  | halved (start : Nat)
  deriving DecidableEq, Repr

/-- Escalation state (R274); RUN and TOP follow from BSTEP and BTOP. -/
inductive Escal where
  | run | qpend | quar
  deriving DecidableEq, Repr

/-- One core. -/
structure Core where
  /-- Slice and logical core (R25, R26). -/
  bind : Option (Fin 32 × Nat)
  ctx : Option (Fin 8)
  mclass : Fin 4
  cyc : Nat
  phase : Phase
  half : Bool
  /-- Since when a thermal warning halves issue (R281), and the cycle of the last droop trigger counted (R277). -/
  warn : Option Nat
  trig : Option Nat
  lease : Nat
  leaseLim : Nat
  pace : Vector Nat 4
  paceLim : Vector Nat 4
  bstep : Nat
  btop : Nat
  margin : Nat
  qreq : Bool
  guar : Bool
  /-- BSTEP as the transistors have it, and the changes on their way to them, each with its tick (R272). -/
  bstepEff : Nat
  settle : List (Nat × Nat)
  esc : Nat
  count : Nat
  limit : Nat
  overran : Bool
  /-- The window that COUNT counts for: CYC divided by 2^20 (R273). -/
  repWin : Nat
  escal : Escal
  /-- Count that tags a quarantine input which Bridle has not acted on (R274, R275). -/
  qtag : Option Nat
  vth : Nat
  stepth : Nat
  /-- Wake units of recent cycles, cycle and units; CYC of the last beat and of the last unit of each copy engine (R276). -/
  wakes : List (Nat × Nat)
  lastBeat : Option Nat
  lastUnit : Vector (Option Nat) 2
  rrq : Vector (Fin 4) 2
  mons : Vector Monitor 8
  tiles : List (Nat × Acc)
  spad : Memory
  rings : Vector Ring 64
  acs : Vector ArrCnt 64
  bars : Vector Barrier 16
  tags : List (Nat × TagEnt)
  tagPtr : List (Nat × Nat)
  tagWays : Nat
  cinch : Vector CinchSt 4
  cinchN : Nat
  cinchH : SeqId
  /-- Cycle of the last acceptance, grant or end of a lease, since when each sequencer wants the Cinch, and since when the holder
  keeps another waiting. -/
  cinchAt : Nat
  cinchWant : Vector Nat 4
  cinchOthers : Option Nat
  front : Option MCmd
  shadow : Option MCmd
  mserial : Nat
  /-- Cycle of the last beat 0 of a tile command (R131), and since when the scoreboard holds the array (R132, R146). -/
  mbegan : Option Nat
  mheld : Option Nat
  cqs : Vector CopyQ 8
  qfences : List QFence
  imem : List ISec
  tlb : List TlbEntry
  descs : List Desc
  seqs : Vector Seq 4
  deriving DecidableEq, Repr

/-! ## Dies -/

/-- A job, with the id of its atomic step once it has been sent, and the load of a stream that waits for the counter's word
0 (JOIN, R320). -/
structure CWork where
  job : CJob
  sent : Option Nat
  who : Option (CoreId × SeqId × Strm × Nat)
  deriving DecidableEq, Repr

/-- Movement of a rail (R280): steady; rising with the tick of the next step; held until a tick, or falling with the tick of the
next step, and whether the bias for that step has been raised; stopped above its set point because a core is at BTOP. -/
inductive RailSt where
  | steady
  | rise (next : Nat)
  | hold (till : Nat) (raised : Bool)
  | fall (next : Nat) (raised : Bool)
  | stopped
  deriving DecidableEq, Repr

/-- One die. -/
structure Die where
  vc : VClock
  /-- Device memory as this die has applied it (R182); the home's view is the content of its HBM4. -/
  view : Memory
  /-- Writes pending on this die that have not left it. -/
  pend : List WriteRec
  cache : List CLine
  dcway : Vector (BitVec 16) 32
  buckets : List (Nat × Bucket)
  pools : Vector Nat 8
  /-- Tick of the last refill of each port, its last access, tick and context, and the contexts whose last access to a port was turned
  away, with the tick (R173). -/
  refilled : Vector (Option Nat) 8
  served : Vector (Option (Nat × Nat)) 8
  asked : List (Nat × Nat)
  bars : List (Nat × Barrier)
  ready : List (Nat × List Rec)
  runs : List (Nat × List Run)
  cwork : List (Nat × List CWork)
  railMv : Nat
  rail : RailSt
  /-- The set point that the rail follows (R280), and what the monitors have recorded of it: falls stopped, thermal warnings. -/
  setp : Nat
  stops : Nat
  warns : Nat
  votes : Vector Nat 32
  tnow : Nat
  twarn : Nat
  temerg : Nat
  warned : Bool
  /-- An emergency or a fault is emptying the die (R30, R282); it is offline once empty. -/
  emptying : Bool
  offline : Bool
  coolSince : Option Nat
  hot : Vector Bool 2
  /-- Count of the last reading (R281). -/
  readAt : Option Nat
  /-- Its Bridle core runs (R282, R290), and the slices whose vote was the set point that the rail last followed (R280). -/
  bridle : Bool
  tops : List (Fin 32)
  deriving DecidableEq, Repr

/-! ## Slices and contexts -/

/-- A context-fatal trap and its freeze (R214, R215). -/
structure Freeze where
  f : Nat
  g : Nat
  kind : Nat
  cause : Nat
  detail : Word
  addr : Word
  lcore : Nat
  agent : Nat
  word : IWord
  sechdr : Word
  off : Nat
  second : Nat
  deriving DecidableEq, Repr

/-- Action of a stop (R237). -/
inductive StopAct where
  | drain | checkpoint | kill
  deriving DecidableEq, Repr

/-- A stop in progress (R237, R238): count, tile policy or freeze policy, REASON, action, the logical cores named, the count at which
pops cease, and whether the units have halted. -/
structure Stop where
  s : Nat
  freeze : Bool
  reason : Nat
  act : StopAct
  cores : BitVec 64
  noPop : Nat
  halted : Bool
  deriving DecidableEq, Repr

/-- An entry of the Keeper log (R248). -/
structure KEntry where
  g : BitVec 64
  bar : Fin 16
  die : DieId
  cfg : Bool
  lcore : Nat
  core : CoreId
  agent : Nat
  nval : BitVec 16
  deriving DecidableEq, Repr

/-- One context (R25, R286). -/
structure Ctx where
  root : Word
  saddlebag : Word
  faultHdr : Word
  faultLog2 : Nat
  ways : Nat
  goff : Int
  /-- The distribution counter, as each die has it (R222). -/
  rr : Vector Nat 4
  lqs : Vector (Option LaunchQ) 16
  fds : Vector (Option Feed) 64
  nextFid : BitVec 32
  /-- A page of its fault queue could not be written: descriptors wait (R210). -/
  fqStuck : Bool
  freeze : Option Freeze
  /-- Ready lists pop none until a THAW (R214). -/
  hold : Bool
  /-- Stops in progress, of disjoint sets of logical cores (R240). -/
  stops : List Stop
  /-- Dies on which a restore waits for the rail (R279, R280). -/
  awaits : BitVec 4
  /-- Logical cores that a restore has written and whose units have not restarted, and the streams, by logical core and number, whose sections
  the overlay loader has still to fetch (R22, R250). -/
  waking : BitVec 64
  toFetch : List (Nat × Nat)
  saved : List Saved
  klog : List KEntry
  klogPa : Nat
  /-- Dies on which its die barriers are switched out (R248). -/
  switched : BitVec 4
  /-- The image a core was booted from, by logical core, for its ring records (R245). -/
  rings : List (Nat × List (Nat × Nat × Nat × Nat))
  deriving DecidableEq, Repr

/-- One slice (R25, R253, R287): its cores, its port and whether its function takes writes, its stage 2 with the ranges of guest
physical addresses granted (R207), its key slot, and during a move inside the package that of its old partition too (R261); `freeing`
counts the steps of R262 that are done, from 1 on once it is being freed. `unreturned` are its frames that are FREE and not yet in the free
pool (R262); `kept` what Bridle keeps of the logical cores whose physical core has left the slice, with the calendar positions by channel
(R26, R255); `parked` says that its die has gone offline before it was placed (R282). -/
structure Slice where
  cores : List CoreId
  /-- Maps of logical to physical cores, each with the tick from which it stood, latest first (R222). -/
  maps : List (Nat × List CoreId)
  port : Fin 2
  accept : Bool
  s2root : Nat
  gpas : List (Nat × Nat)
  keyId : Nat
  oldKey : Option Nat
  freeing : Nat
  unreturned : List Nat
  kept : List (Nat × LCore × List (Nat × Nat))
  parked : Bool
  args : Vector Word 5
  ctxs : Vector (Option Ctx) 8
  deriving DecidableEq, Repr

/-! ## Host side and package -/

/-- A boot that has started: the context, IMAGE and ARGBASE as they stood at the write of GO (R288). -/
structure BootStart where
  ctx : Fin 8
  image : Word
  argbase : Word
  deriving DecidableEq, Repr

/-- A boot mailbox (R288), with the boot that it has started and not ended. -/
structure BootBox where
  image : Word
  argbase : Word
  ctl : Word
  start : Option BootStart
  deriving DecidableEq, Repr

/-- A reply that left the package towards the host or the side-band. -/
inductive Reply where
  | none
  | unsupported
  | abort
  | data (bs : List Byte)
  | digest (index : Nat) (bs sig : List Byte)
  deriving DecidableEq, Repr

/-- A host write that waits its turn at a mailbox (R195): of a register, through the memory window, or a FetchAdd through the window. -/
inductive HostOp where
  | reg (off n : Nat) (v : Word)
  | win (off : Nat) (bytes : List Byte)
  | add (off : Nat) (v : BitVec 64)
  deriving DecidableEq, Repr

/-- The block of one PCI Express function (R284). -/
structure FnBlk where
  cmd : Vector Byte 64
  /-- The command of the last doorbell taken, as CMD held it then (R284, R285). -/
  held : Vector Byte 64
  status : BitVec 8
  busy : Bool
  ovr : Bool
  result : Word
  winCtx : Fin 8
  winBase : BitVec 48
  boots : List (Nat × BootBox)
  /-- Writes that the present command waits for (R285). -/
  waits : List Nat
  /-- The mailbox: host writes that wait, the writes of the one being applied, and the FetchAdd among them (R195, R219). `tag` is the
  Girth count at which the last write took effect (R285). -/
  tag : Nat
  hostQ : List HostOp
  hostOut : List Nat
  hostAdd : Option Nat
  /-- Answer to the last access (R253, R284). -/
  reply : Reply
  deriving DecidableEq, Repr

/-- A read of host memory by the device (R317), with the function whose requester ID it carries (R253) and the virtual address it is
made for. -/
structure HostRead where
  id : Nat
  fn : FnId
  core : CoreId
  seq : SeqId
  strm : Strm
  load : Nat
  queue : Option CqId
  off : Nat
  n : Nat
  addr : Nat
  va : Word
  deriving DecidableEq, Repr

/-- A request to a peer package (R206): for a load, a store, or a unit of a copy. -/
structure FabOut where
  id : Nat
  ctx : CtxId
  core : CoreId
  seq : SeqId
  strm : Strm
  load : Option Nat
  queue : Option CqId
  off : Nat
  n : Nat
  peer : Nat
  epoch : Nat
  addr : Nat
  va : Word
  /-- Bytes written, or what a step carries; empty for a read. -/
  req : FabReq
  port : Nat
  /-- Flits still to leave (R17), the tick from which the next waits at the port, and the tick at which the last left the package. -/
  flits : Nat
  tick : Nat
  sent : Option Nat
  /-- The word that made it and where that stands, for a trap. -/
  word : IWord
  hdr : Word
  woff : Nat
  deriving DecidableEq, Repr

/-- A reply to a peer package that waits for slots at a port (R254): the number of the request and the slice, the bytes it returns, none
for a stale-epoch reply, and the flits still to leave. -/
structure FabBack where
  no : Nat
  slice : Fin 32
  port : Nat
  ans : Option (List Byte)
  flits : Nat
  deriving DecidableEq, Repr

/-- Where a slice moves: to another package, or inside this one as Bridle grants (R251, R261). -/
inductive MoveTo where
  | package (n : Nat)
  | here (g : Grant)
  deriving DecidableEq, Repr

/-- A slice on its way (R251): rounds of pre-copy done, 16 once they have stopped, 17 after the switch; the frames of the round whose copy
waits for its invalidation; and S, 0 before the stop is asked for. -/
structure Moving where
  dest : MoveTo
  step : Nat
  pages : Option (List Nat)
  s : Nat
  deriving DecidableEq, Repr

/-- What has gone to another package at a switch (R251): the slice and the target, what goes with its logical cores (R26), its contexts, and its
bytes by device physical address. -/
structure Sent where
  slice : Fin 32
  dest : Nat
  cores : List LCore
  ctxs : List CtxImage
  bytes : List (Nat × Byte)
  deriving DecidableEq, Repr

/-- An invalidation that is not complete (R204): of a slice, or of one context of it; `words` the sequencers that still hold stores
translated before it, each with the number of the first word after it; `ids` the loads, writes and requests translated before it
that are not performed. -/
structure Inval where
  id : Nat
  slice : Fin 32
  ctx : Option (Fin 8)
  words : List (CoreId × SeqId × Nat)
  ids : List Nat
  deriving DecidableEq, Repr

/-- Thefort, the side-band controller (R291, R292): the one firmware image with its signature and version, the public key (root, then seed,
32 bytes each) and the rollback counter in its fuses, the signature indexes used, the fuse configuration, the step of bring-up whose failure
it reports (R290), and its last answer. -/
structure Thefort where
  version : Nat
  fused : Nat
  used : List Nat
  recovery : Bool
  image : List Byte
  sig : List Byte
  key : List Byte
  fuseConf : List Byte
  failed : Option Nat
  reply : Reply
  deriving DecidableEq, Repr

/-- The package. -/
structure State where
  /-- What moves next (the model's own): acts in order; when the list is empty the default scheduler picks one. -/
  agenda : List Act
  cur : Cur
  /-- The model's own: counter of free values, and names of writes, loads and requests. -/
  freeCtr : Nat
  nextId : Nat
  girth : Nat
  girthOn : Bool
  linksUp : Bool
  pfVisible : Bool
  thefort : Thefort
  cores : Vector Core 64
  dies : Vector Die 4
  channels : List (Nat × Channel)
  fabPorts : List (Nat × FabPort)
  slices : Vector (Option Slice) 32
  fns : List (Nat × FnBlk)
  /-- Writes that have left their die, in the order in which they left (R182). -/
  transit : List WriteRec
  /-- Old values returned to engines that wait for them, by write id. -/
  replies : List (Nat × List Byte)
  /-- Reads that a channel has carried: id and the tick at which data is at the core; write acknowledgements on their way to a core:
  id and the tick at which they are there (R176). -/
  done : List (Nat × Nat)
  acks : List (Nat × Nat)
  /-- Allocation table: entries that differ from FREE, CLR = 1, OWNER 63 (R257). -/
  alloc : List (Nat × BitVec 32)
  /-- Entries that a die still sees as they were: die times 2^23 plus frame (R259, R264). -/
  allocOld : List (Nat × BitVec 32)
  /-- Last write of an entry was refused (R257). -/
  allocRefused : Bool
  /-- Fills in progress: frame, the set of bursts written, and the owner whose slots carry them (R260). -/
  fills : List (Nat × (Nat × Nat))
  /-- Bursts of Bridle's own accesses that unassigned positions still have to carry, a set for each frame (R265). -/
  bio : List (Nat × Nat)
  /-- Key generation of a touched line, and of every line of a filled frame (R260). -/
  lineGen : List (Nat × Nat)
  frameGen : List (Nat × Nat)
  /-- Key slots that hold a key: KEYID and the generation of its key (R260). -/
  keys : List (Nat × Nat)
  keyCtr : Nat
  /-- The set of bursts that the scrubber has overwritten in its current pass over a frame (R263). -/
  scrub : List (Nat × Nat)
  /-- Host memory as the posted writes of the two ports have it. A function's requests carry its requester ID, so that each function
  reaches memory of its own: byte addr of function n of port p stands at (64 p + n) 2^64 + addr (R253). -/
  hostMem : Memory
  hostReads : List HostRead
  /-- Epochs of the peers and of this package (R206). -/
  epochs : List (Nat × Nat)
  ownEpoch : BitVec 16
  /-- D-bit writes on their way: context, virtual page, write (R200). -/
  dsets : List (CtxId × Nat × Nat)
  /-- Bridle's fault queue: the descriptors of stage-2 faults whose agents it has not yet resumed (R207). -/
  s2q : List Desc
  fabOuts : List FabOut
  /-- Replies that wait at the ports, those sent to peer packages by the number of the request (R180, R196), none for a stale-epoch
  reply (R206), and by write the replies that wait until a write is performed. -/
  fabBack : List FabBack
  fabSent : List (Nat × Option (List Byte))
  fabWait : List (Nat × FabBack)
  /-- Slices whose fabric addresses the switches map here (R206, R251, R262), and requests held for a migration. -/
  fabMap : List (Fin 32)
  fabHeld : List (Fin 32 × Asker × FabReq)
  invals : List Inval
  dirtyMax : Nat
  /-- Slices being moved to another package, or onto a fresh key inside this one (R251, R261). -/
  migrating : List (Nat × Moving)
  /-- What has gone to other packages, and the requests of peers that the switches were made to forward, each by slice and target (R251). -/
  sentCtxs : List Sent
  forwarded : List (Fin 32 × Nat × Asker × FabReq)
  deriving DecidableEq, Repr

/-! ## Reset values -/

def Port.reset : Port := ⟨.empty, .empty, true, none, none⟩

def Stream.reset : Stream where
  st := .none
  x := Vector.replicate 64 0
  hdr := 0
  len := 0
  sec := 0
  last := false
  word := none
  stall := none
  lod := 0
  ne := 0
  nr := 0
  rsec := 0
  rv := false
  insts := []
  pwdist := 0x4000
  arr := Vector.replicate 32 .empty
  ports := Vector.replicate 4 Port.reset
  park := none
  loads := []
  acq := none
  deps := []
  fdeps := []
  qf := none
  pre := []

def Rec.zero : Rec := ⟨Vector.replicate 8 0, 0⟩

def Seq.reset : Seq where
  st := .idle
  rcd := Rec.zero
  popg := 0
  deadln := 0
  grpid := 0
  frame := 0
  v := []
  k := Vector.replicate 16 0
  flags := 0
  flagsHist := [0]
  slip := 8
  dq := Vector.replicate 8 []
  bq := Vector.replicate 4 []
  fq := []
  alt := none
  held := []
  bubble := 0
  lastIssue := none
  lastVec := none
  lanes := []
  wins := []
  wno := 0
  resident := false
  a := Stream.reset
  c := Stream.reset

def Ring.reset : Ring := ⟨0, 0, 0, 0, 0, 0, 0, [], []⟩
def ArrCnt.reset : ArrCnt := ⟨0, 0, []⟩
def Barrier.reset : Barrier := ⟨0, 0, 1, []⟩
def Monitor.reset : Monitor := ⟨0, 0, Vector.replicate 19 0⟩
def CopyQ.reset : CopyQ := ⟨[], none⟩

def Core.reset : Core where
  bind := none
  ctx := none
  mclass := 3
  cyc := 0
  phase := .normal
  half := false
  warn := none
  trig := none
  lease := 16
  leaseLim := 256
  pace := Vector.replicate 4 0
  paceLim := Vector.replicate 4 0
  bstep := 0
  btop := 15
  margin := 0
  qreq := false
  guar := true
  bstepEff := 0
  settle := []
  esc := 0
  count := 0
  limit := 1024
  overran := false
  repWin := 0
  escal := .run
  qtag := none
  vth := 30
  stepth := 96
  wakes := []
  lastBeat := none
  lastUnit := Vector.replicate 2 none
  rrq := Vector.replicate 2 0
  mons := Vector.replicate 8 Monitor.reset
  tiles := []
  spad := []
  rings := Vector.replicate 64 Ring.reset
  acs := Vector.replicate 64 ArrCnt.reset
  bars := Vector.replicate 16 Barrier.reset
  tags := []
  tagPtr := []
  tagWays := 1
  cinch := Vector.replicate 4 .free
  cinchN := 0
  cinchH := 3
  cinchAt := 0
  cinchWant := Vector.replicate 4 0
  cinchOthers := none
  front := none
  shadow := none
  mserial := 1
  mbegan := none
  mheld := none
  cqs := Vector.replicate 8 CopyQ.reset
  qfences := []
  imem := []
  tlb := []
  descs := []
  seqs := Vector.replicate 4 Seq.reset

def Channel.reset : Channel where
  owner := []
  bowin := 8
  actth := 4096
  acts := []
  reqs := []
  rfm := []
  backoff := []
  lastSlot := none
  refN := 0
  refRot := 0
  voided := []
  cntVoid := []
  cntRfm := []

def FabPort.reset : FabPort := ⟨[], 0, []⟩

def Die.reset : Die where
  vc := Vector.replicate 4 0
  view := []
  pend := []
  cache := []
  dcway := Vector.replicate 32 0
  buckets := []
  pools := Vector.replicate 8 0
  refilled := Vector.replicate 8 none
  served := Vector.replicate 8 none
  asked := []
  bars := []
  ready := []
  runs := []
  cwork := []
  railMv := 650
  rail := .steady
  setp := 650
  stops := 0
  warns := 0
  votes := Vector.replicate 32 0
  tnow := 0
  twarn := 95
  temerg := 105
  warned := false
  emptying := false
  offline := false
  coolSince := none
  hot := Vector.replicate 2 false
  readAt := none
  bridle := false
  tops := []

def FnBlk.reset : FnBlk :=
  ⟨Vector.replicate 64 0, Vector.replicate 64 0, 0, false, false, 0, 0, 0, [], [], 0, [], [], none, .none⟩
def BootBox.reset : BootBox := ⟨0, 0, 0, none⟩

/-- The allocation-table entry of a frame that Bridle has initialised: FREE, CLR = 1, OWNER 63 (R257, R262). -/
def allocFree : BitVec 32 := 0x3F800000

/-- The state after device reset: before bring-up, the Girth count held at 0 (R3, R290). -/
def State.reset : State where
  agenda := []
  cur := ⟨0, 0, .c, 0, ⟨0, 0⟩⟩
  freeCtr := 0
  nextId := 1
  girth := 0
  girthOn := false
  linksUp := false
  pfVisible := false
  thefort := ⟨0, 0, [], false, [], [], List.replicate 64 0, List.replicate 64 0, none, .none⟩
  cores := Vector.replicate 64 Core.reset
  dies := Vector.replicate 4 Die.reset
  channels := []
  fabPorts := []
  slices := Vector.replicate 32 none
  fns := []
  transit := []
  replies := []
  done := []
  acks := []
  alloc := []
  allocOld := []
  allocRefused := false
  fills := []
  bio := []
  lineGen := []
  frameGen := []
  keys := []
  keyCtr := 1
  scrub := []
  hostMem := []
  hostReads := []
  epochs := []
  ownEpoch := 0
  dsets := []
  s2q := []
  fabOuts := []
  fabBack := []
  fabSent := []
  fabWait := []
  fabMap := []
  fabHeld := []
  invals := []
  dirtyMax := 67108864
  migrating := []
  sentCtxs := []
  forwarded := []

end Sys2Proof.Machine
end

