-- ==== Sys2Proof/Machine/Flags.lean ====
section
/-!
DEFINITION. FLAGS (03_arithmetic R55): its five bits, how a word raises them, and how the register is replaced. The flags an
operation raises are computed with its result in Machine/Float.lean and Machine/Formats.lean.
-/
namespace Sys2Proof.Machine

/-- Invalid. -/
def flNV : BitVec 5 := 1
/-- Divide by zero. -/
def flDZ : BitVec 5 := 2
/-- Overflow. -/
def flOF : BitVec 5 := 4
/-- Underflow. -/
def flUF : BitVec 5 := 8
/-- Inexact. -/
def flNX : BitVec 5 := 16

/-- FLAGS takes a value; the values it has held since the group began are kept for the A-stream's read (R55). -/
def Seq.setFlags (x : Seq) (f : BitVec 5) : Seq :=
  if f = x.flags then x else { x with flags := f, flagsHist := x.flagsHist ++ [f] }

/-- Raise flags: they stay set until software clears them. -/
def Seq.orFlags (x : Seq) (f : BitVec 5) : Seq := x.setFlags (x.flags ||| f)

end Sys2Proof.Machine
end

