-- ==== Sys2Proof/Machine/Float.lean ====
section
/-!
DEFINITION. Floating-point values, their codes, rounding, flags and exact arithmetic (02_number_formats R32 to R35 and R41,
03_arithmetic R50 to R56 and R60, 20_reference R372 and R373).
-/
namespace Sys2Proof.Machine

/-- A value of a format: NaN, an infinity, or (-1)^s times m times 2^e (R33, R34). -/
inductive FVal where
  | nan
  | inf (s : Bool)
  | fin (s : Bool) (m : Nat) (e : Int)
  deriving DecidableEq, Repr

/-- Which codes are special (R34). -/
inductive FKind where
  | ieee | nanOnly | plain
  deriving DecidableEq, Repr

/-- A floating-point format: exponent width, fraction width, bias, special codes (R32). -/
structure FFmt where
  (ew mw bias : Nat) (kind : FKind)
  deriving DecidableEq, Repr

def fF32 : FFmt := ⟨8, 23, 127, .ieee⟩
def fBF16 : FFmt := ⟨8, 7, 127, .ieee⟩
def fF16 : FFmt := ⟨5, 10, 15, .ieee⟩
def fE4M3 : FFmt := ⟨4, 3, 7, .nanOnly⟩
def fE5M2 : FFmt := ⟨5, 2, 15, .ieee⟩
def fE2M3 : FFmt := ⟨2, 3, 1, .plain⟩
def fE3M2 : FFmt := ⟨3, 2, 3, .plain⟩
def fE2M1 : FFmt := ⟨2, 1, 1, .plain⟩
def fAcc48 : FFmt := ⟨11, 36, 1023, .ieee⟩

/-- Width of a code. -/
def FFmt.width (F : FFmt) : Nat := F.ew + F.mw + 1

/-- Exponent of the last place of a subnormal (R33). -/
def FFmt.emin (F : FFmt) : Int := 1 - Int.ofNat F.bias - Int.ofNat F.mw

/-- The greatest exponent field of a finite number, and the code without sign of the largest finite value (R32, R34). -/
def FFmt.maxCode (F : FFmt) : Nat :=
  match F.kind with
  | .ieee => (2 ^ F.ew - 1) * 2 ^ F.mw - 1
  | .nanOnly => 2 ^ (F.ew + F.mw) - 2
  | .plain => 2 ^ (F.ew + F.mw) - 1

/-- The code without sign of infinity. -/
def FFmt.infCode (F : FFmt) : Nat := (2 ^ F.ew - 1) * 2 ^ F.mw

/-- The canonical NaN (R35). -/
def FFmt.nanCode (F : FFmt) : Nat :=
  match F.kind with
  | .ieee => F.infCode + 2 ^ (F.mw - 1)
  | .nanOnly => 2 ^ (F.ew + F.mw) - 1
  | .plain => 0

/-- Put the sign bit above a code. -/
def FFmt.signed (F : FFmt) (s : Bool) (c : Nat) : Nat := c + (if s then 2 ^ (F.ew + F.mw) else 0)

/-- The significand of R33, from a code's exponent field and fraction. -/
def FFmt.sig (F : FFmt) (e m : Nat) : Nat := (if e = 0 then 0 else 2 ^ F.mw) + m

/-- The value of a code (R33, R34). -/
def FFmt.decode (F : FFmt) (c : Nat) : FVal :=
  let s := bitOf c (F.ew + F.mw)
  let e := bitsOf c (F.ew + F.mw - 1) F.mw
  let m := c % 2 ^ F.mw
  let v := FVal.fin s (F.sig e m) (Int.ofNat (max e 1) - Int.ofNat F.bias - Int.ofNat F.mw)
  match F.kind with
  | .ieee => if e = 2 ^ F.ew - 1 then (if m = 0 then .inf s else .nan) else v
  | .nanOnly => if c % 2 ^ (F.ew + F.mw) = F.nanCode then .nan else v
  | .plain => v

/-! Rounding (R50 to R54). -/

/-- A rounding code with the random word of the element (R52). -/
inductive RndArg where
  | fixed (m : RMode)
  | sr (sat : Bool) (n : Nat) (word : Nat)
  deriving DecidableEq, Repr

def RndArg.rne : RndArg := .fixed .rne

/-- Codes 6 and 7 saturate (R54). -/
def RndArg.isSat : RndArg → Bool
  | .fixed .rnes => true
  | .sr sat _ _ => sat
  | _ => false

/-- RND 3 (R56). -/
def RndArg.isRdn : RndArg → Bool
  | .fixed .rdn => true
  | _ => false

/-- Whether the magnitude rounds up: sign, kept significand, and the discarded part rem of 2^sh (R50, R52). -/
def RndArg.up (r : RndArg) (s : Bool) (sig rem sh : Nat) : Bool :=
  match r with
  | .fixed .rne | .fixed .rnes => decide (2 ^ sh < 2 * rem) || (decide (2 * rem = 2 ^ sh) && bitOf sig 0)
  | .fixed .rtz => false
  | .fixed .rup => !s && decide (rem ≠ 0)
  | .fixed .rdn => s && decide (rem ≠ 0)
  | .fixed .rna => decide (2 ^ sh ≤ 2 * rem)
  | .sr _ n w =>
    let f := if n ≤ sh then rem >>> (sh - n) else rem <<< (n - sh)
    decide (rem ≠ 0) && decide (2 ^ n ≤ f + w % 2 ^ n)

/-- Keep the bits of m times 2^e from exponent q upward: the significand picked, and whether the value was inexact. -/
def roundAt (r : RndArg) (s : Bool) (m : Nat) (e q : Int) : Nat × Bool :=
  if q ≤ e then (m <<< (e - q).toNat, false)
  else
    let sh := (q - e).toNat
    let sig := m >>> sh
    let rem := m % 2 ^ sh
    (sig + b2n (r.up s sig rem sh), decide (rem ≠ 0))

/-- What an overflow becomes (R54). -/
def overflowCode (F : FFmt) (r : RndArg) (s : Bool) : Nat :=
  let toInf := F.kind = .ieee ∧ r.isSat = false ∧
    (match r with
     | .fixed .rtz => false
     | .fixed .rup => !s
     | .fixed .rdn => s
     | _ => true) = true
  F.signed s (if toInf then F.infCode else F.maxCode)

/-- round(v, fmt, rnd, rbits) of a finite value (R51, R54, R55): the code and the flags. -/
def roundFin (F : FFmt) (r : RndArg) (s : Bool) (m : Nat) (e : Int) : Nat × BitVec 5 :=
  if m = 0 then (F.signed s 0, 0)
  else
    let q := max F.emin (e + Int.ofNat (bitLen m) - Int.ofNat (F.mw + 1))
    let (sig, nx) := roundAt r s m e q
    let code := (q - F.emin).toNat * 2 ^ F.mw + sig
    if F.maxCode < code then (overflowCode F r s, flOF ||| flNX)
    else
      (F.signed s code, if nx then (if sig < 2 ^ F.mw then flUF ||| flNX else flNX) else 0)

/-- Conversion of a value into a floating-point format (R60). -/
def roundF (F : FFmt) (r : RndArg) : FVal → Nat × BitVec 5
  | .nan => if F.kind = .plain then (0, flNV) else (F.nanCode, 0)
  | .inf s => if F.kind = .ieee then (F.signed s F.infCode, 0) else (F.signed s F.maxCode, flNV)
  | .fin s m e => roundFin F r s m e

/-- Conversion of a value into an integer between lo and hi (R60). -/
def roundInt (lo hi : Int) (r : RndArg) : FVal → Int × BitVec 5
  | .nan => (0, flNV)
  | .inf s => (if s then lo else hi, flNV)
  | .fin s m e =>
    let (n, nx) := roundAt r s m e 0
    let i : Int := if s then -Int.ofNat n else Int.ofNat n
    if i < lo then (lo, flNV ||| flNX)
    else if hi < i then (hi, flNV ||| flNX)
    else (i, if nx then flNX else 0)

/-- The value of an integer; zero is +0. -/
def FVal.ofInt (i : Int) : FVal := .fin (decide (i < 0)) i.natAbs 0

/-! Exact arithmetic (R56). -/

/-- A finite zero. -/
def FVal.isZero : FVal → Bool
  | .fin _ 0 _ => true
  | _ => false

def FVal.isNan : FVal → Bool
  | .nan => true
  | _ => false

def FVal.isInf : FVal → Bool
  | .inf _ => true
  | _ => false

/-- The sign of a value; a NaN has none. -/
def FVal.sign : FVal → Bool
  | .nan => false
  | .inf s => s
  | .fin s _ _ => s

def FVal.neg : FVal → FVal
  | .nan => .nan
  | .inf s => .inf (!s)
  | .fin s m e => .fin (!s) m e

/-- A product (R56). -/
def FVal.mul (a b : FVal) : FVal × BitVec 5 :=
  match a, b with
  | .nan, _ | _, .nan => (.nan, 0)
  | .fin s m e, .fin t n f => (.fin (s != t) (m * n) (e + f), 0)
  | x, y => if x.isZero || y.isZero then (.nan, flNV) else (.inf (x.sign != y.sign), 0)

/-- The least exponent of the finite nonzero terms, from x. -/
def minExp : List FVal → Int → Int
  | [], x => x
  | .fin _ m e :: t, x => minExp t (if m = 0 then x else min x e)
  | _ :: t, x => minExp t x

/-- The sum of the finite terms in units of 2^x. -/
def sumAt (x : Int) : List FVal → Int
  | [] => 0
  | .fin s m e :: t =>
    (if m = 0 then 0 else (if s then -Int.ofNat (m <<< (e - x).toNat) else Int.ofNat (m <<< (e - x).toNat))) + sumAt x t
  | _ :: t => sumAt x t

/-- The exact sum of terms, under RND 3 or another code (R56). A sum that holds a NaN raises no NV even where opposite
infinities stand beside it: R57 leaves the order of the terms open (DEDUCED, assumption log 79). -/
def FVal.sum (rdn : Bool) (ts : List FVal) : FVal × BitVec 5 :=
  if ts.any FVal.isNan then (.nan, 0)
  else
    let p := ts.any fun t => t.isInf && !t.sign
    let n := ts.any fun t => t.isInf && t.sign
    if p && n then (.nan, flNV)
    else if p || n then (.inf n, 0)
    else
      let x := minExp ts 4096
      let i := sumAt x ts
      if i = 0 then
        (.fin (if rdn then ts.any FVal.sign else (!ts.isEmpty && ts.all FVal.sign)) 0 0, 0)
      else (.fin (decide (i < 0)) i.natAbs x, 0)

def FVal.add (rdn : Bool) (a b : FVal) : FVal × BitVec 5 := FVal.sum rdn [a, b]

/-- Numerical comparison of two values that are not NaN: a < b. -/
def FVal.lt (a b : FVal) : Bool :=
  match a, b with
  | .nan, _ | _, .nan => false
  | .inf s, .inf t => s && !t
  | .inf s, _ => s
  | _, .inf t => !t
  | .fin s m e, .fin t n f =>
    let x := min e f
    let i : Int := Int.ofNat (m <<< (e - x).toNat)
    let j : Int := Int.ofNat (n <<< (f - x).toNat)
    decide ((if s then -i else i) < (if t then -j else j))

/-- Numerical equality of two values that are not NaN; -0 equals +0. -/
def FVal.eq (a b : FVal) : Bool := !a.isNan && !b.isNan && !FVal.lt a b && !FVal.lt b a

/-! Reciprocal, reciprocal root, power and logarithm of two: a finite value that stands for the exact one, whose last bit
below every bit that rounding looks at is 1 when the exact value goes on (R372, assumption log 20). -/

/-- q times 2^x, with one more bit that says whether the exact value is greater. -/
def stickyFin (s : Bool) (q : Nat) (more : Bool) (x : Int) : FVal := .fin s (2 * q + b2n more) (x - 1)

/-- 1 / a and its flags (R372, R373). -/
def FVal.rcp : FVal → FVal × BitVec 5
  | .nan => (.nan, 0)
  | .inf s => (.fin s 0 0, 0)
  | .fin s m e =>
    if m = 0 then (.inf s, flDZ)
    else
      let k := bitLen m + 64
      (stickyFin s (2 ^ k / m) (decide (2 ^ k % m ≠ 0)) (-Int.ofNat k - e), 0)

/-- 1 / sqrt a (R372, R373). -/
def FVal.rsq : FVal → FVal × BitVec 5
  | .nan => (.nan, 0)
  | .inf s => if s then (.nan, flNV) else (.fin false 0 0, 0)
  | .fin s m e =>
    if m = 0 then (.inf s, flDZ)
    else if s then (.nan, flNV)
    else
      let m' := if e % 2 = 0 then m else 2 * m
      let e' := if e % 2 = 0 then e else e - 1
      let k := bitLen m' + 64
      let q := isqrt (2 ^ (2 * k) / m')
      (stickyFin false q (decide (q * q * m' ≠ 2 ^ (2 * k))) (-Int.ofNat k - e' / 2), 0)

/-- The natural logarithm of 2 times 2^160, rounded down. -/
def ln2p160 : Nat := 1013035739299659071135698605846798551586536899366

/-- The sum of x^k / k! from the given term on, in units of 2^-160, each step rounded down. -/
def expSeries (x : Nat) : Nat → Nat → Nat → Nat
  | 0, _, _ => 0
  | n + 1, k, term => term + expSeries x n (k + 1) (term * x / ((k + 1) * 2 ^ 160))

/-- 2^a (R372, R373). A power below every subnormal, or above every finite value, keeps its sign of inexactness through an
exponent limited to 4,096 in magnitude. -/
def FVal.exp2 : FVal → FVal × BitVec 5
  | .nan => (.nan, 0)
  | .inf s => if s then (.fin false 0 0, 0) else (.inf false, 0)
  | .fin s m e =>
    if m = 0 then (.fin false 1 0, 0)
    else if 13 < e + Int.ofNat (bitLen m) then (.fin false 1 (if s then -4096 else 4096), 0)
    else
      let i : Int := if s then -Int.ofNat m else Int.ofNat m
      if 0 ≤ e then (.fin false 1 (i * 2 ^ e.toNat), 0)
      else
        let d := (-e).toNat
        let n := i / Int.ofNat (2 ^ d)
        let f := (i % Int.ofNat (2 ^ d)).toNat
        if f = 0 then (.fin false 1 n, 0)
        else
          let fx := if d ≤ 160 then f <<< (160 - d) else f >>> (d - 160)
          let y := expSeries (fx * ln2p160 / 2 ^ 160) 64 0 (2 ^ 160)
          (stickyFin false (y / 2 ^ 40) true (n - 120), 0)

/-- The next n bits of log2 of x, where x is in units of 2^-288 and from 1 up to 2. -/
def log2Bits : Nat → Nat → Nat → Nat
  | 0, _, r => r
  | n + 1, x, r =>
    let y := x * x / 2 ^ 288
    if 2 ^ 289 ≤ y then log2Bits n (y / 2) (2 * r + 1) else log2Bits n y (2 * r)

/-- log2 a (R372, R373). -/
def FVal.log2 : FVal → FVal × BitVec 5
  | .nan => (.nan, 0)
  | .inf s => if s then (.nan, flNV) else (.inf false, 0)
  | .fin s m e =>
    if m = 0 then (.inf true, flDZ)
    else if s then (.nan, flNV)
    else
      let b := bitLen m - 1
      let n : Int := e + Int.ofNat b
      if m = 2 ^ b then (FVal.ofInt n, 0)
      else
        let l : Int := n * 2 ^ 112 + Int.ofNat (log2Bits 112 (m <<< (288 - b)) 0)
        if 0 ≤ n then (stickyFin false l.toNat true (-112), 0)
        else (stickyFin true ((-l).toNat - 1) true (-112), 0)

/-- Rounding an operation's result into a format: in E4M3 an infinite result becomes the largest value with OF and NX
(R373). -/
def roundResult (F : FFmt) (r : RndArg) (v : FVal × BitVec 5) : Nat × BitVec 5 :=
  match v.1 with
  | .inf s =>
    if F.kind = .ieee then (F.signed s F.infCode, v.2) else (F.signed s F.maxCode, v.2 ||| flOF ||| flNX)
  | x => let (c, fl) := roundF F r x; (c, v.2 ||| fl)

end Sys2Proof.Machine
end

