-- ==== Sys2Proof/Machine/Formats.lean ====
section
/-!
DEFINITION. The vector element types and the matrix element formats as values: conversion by R60, the packed register layout
of R388, block float (R37, R390), block scales (R39), and plane form (R45, R46, R393).
-/
namespace Sys2Proof

/-- Elements in one 32-bit lane (R87). -/
def ET.per : ET → Nat
  | .f32 | .i32 | .n32 => 1
  | .bf16 | .f16 | .i16 | .n16 => 2
  | .e4m3 | .e5m2 | .i8 | .n8 => 4

/-- Width of an element. -/
def ET.bits (t : ET) : Nat := 32 / t.per

/-- Elements of a whole register. -/
def ET.count (t : ET) : Nat := 32 * t.per

def ET.isSigned : ET → Bool
  | .i32 | .i16 | .i8 => true
  | _ => false

/-- Width of an element format (R32). -/
def Fmt.bits : Fmt → Nat
  | .bf16 | .f16 => 16
  | .e4m3 | .e5m2 | .i8 | .n8 | .bx8 => 8
  | .e2m3 | .e3m2 | .bx6 => 6
  | .e2m1 | .i4 | .bx4 => 4

/-- Magnitude bits B of a BX format (R37). -/
def Fmt.bx? : Fmt → Option Nat
  | .bx8 => some 6
  | .bx6 => some 4
  | .bx4 => some 2
  | _ => none

/-- Significand width P (R45). -/
def Fmt.planes : Fmt → Nat
  | .e4m3 | .e2m3 | .i4 | .bx6 => 4
  | .e5m2 | .e3m2 => 3
  | .e2m1 | .bx4 => 2
  | .bf16 | .i8 | .n8 => 8
  | .f16 => 11
  | .bx8 => 6

/-- The format has a class plane (R46). -/
def Fmt.hasClass : Fmt → Bool
  | .e4m3 | .e5m2 | .bf16 | .f16 => true
  | _ => false

/-- Bits of an element in the exponent plane: narrow, wide, or none (R46). -/
def Fmt.expBits : Fmt → Nat
  | .e4m3 | .e2m3 | .e3m2 | .e2m1 => 4
  | .e5m2 | .bf16 | .f16 => 8
  | _ => 0

/-- Formats that may carry a block scale (R39). -/
def Fmt.scalable : Fmt → Bool
  | .e4m3 | .e5m2 | .e2m3 | .e3m2 | .e2m1 => true
  | _ => false

/-- Elements a register holds in packed layout. -/
def Fmt.capacity (f : Fmt) : Nat :=
  if f.bx?.isSome then 64
  else match f.bits with
    | 16 => 64
    | 8 => 128
    | 4 => 256
    | _ => 64

/-- The format of a code of R32. -/
def Fmt.ofCode : Nat → Option Fmt
  | 0 => some .e4m3 | 1 => some .e5m2 | 2 => some .e2m3 | 3 => some .e3m2 | 4 => some .e2m1 | 5 => some .bf16
  | 6 => some .f16 | 7 => some .i8 | 8 => some .n8 | 9 => some .i4 | 10 => some .bx8 | 11 => some .bx6 | 12 => some .bx4
  | _ => none

end Sys2Proof

namespace Sys2Proof.Machine

/-! ## What a code stands for -/

/-- A number type: a floating-point format, or an integer of a width. -/
inductive Num where
  | flt (F : FFmt)
  | int (w : Nat) (sg : Bool)
  deriving DecidableEq, Repr

def etNum : ET → Num
  | .f32 => .flt fF32
  | .bf16 => .flt fBF16
  | .f16 => .flt fF16
  | .e4m3 => .flt fE4M3
  | .e5m2 => .flt fE5M2
  | .i32 => .int 32 true
  | .i16 => .int 16 true
  | .i8 => .int 8 true
  | .n32 => .int 32 false
  | .n16 => .int 16 false
  | .n8 => .int 8 false

/-- The number type of a format; a BX format has none of its own. -/
def fmtNum : Fmt → Num
  | .e4m3 => .flt fE4M3
  | .e5m2 => .flt fE5M2
  | .e2m3 => .flt fE2M3
  | .e3m2 => .flt fE3M2
  | .e2m1 => .flt fE2M1
  | .bf16 => .flt fBF16
  | .f16 => .flt fF16
  | .i8 => .int 8 true
  | .n8 => .int 8 false
  | .i4 => .int 4 true
  | .bx8 => .int 8 false
  | .bx6 => .int 6 false
  | .bx4 => .int 4 false

/-- The integer a code of w bits stands for. -/
def intOf (w : Nat) (sg : Bool) (c : Nat) : Int := if sg then signedOf w (c % 2 ^ w) else Int.ofNat (c % 2 ^ w)

/-- Least and greatest integer of a type. -/
def intLo (w : Nat) (sg : Bool) : Int := if sg then -Int.ofNat (2 ^ (w - 1)) else 0
def intHi (w : Nat) (sg : Bool) : Int := if sg then Int.ofNat (2 ^ (w - 1)) - 1 else Int.ofNat (2 ^ w) - 1

/-- The value of a code. -/
def Num.decode (t : Num) (c : Nat) : FVal :=
  match t with
  | .flt F => F.decode c
  | .int w sg => FVal.ofInt (intOf w sg c)

/-- convert(v, type, rnd) of R60: the code and the flags. -/
def Num.convert (t : Num) (r : RndArg) (v : FVal) : Nat × BitVec 5 :=
  match t with
  | .flt F => roundF F r v
  | .int w sg => let (i, fl) := roundInt (intLo w sg) (intHi w sg) r v; (wrapInt w i, fl)

/-- The floating-point format of a floating type; FP32 for an integer type, which no floating word names. -/
def etFlt (t : ET) : FFmt :=
  match etNum t with
  | .flt F => F
  | .int _ _ => fF32

/-- The value of a block-scale byte (R39); no scale counts as 1. -/
def sclVal (k : Scl) (c : Nat) : FVal :=
  match k with
  | .none => .fin false 1 0
  | .e8m0 => if c % 256 = 255 then .nan else .fin false 1 (Int.ofNat (c % 256) - 127)
  | .e4m3 => fE4M3.decode (c % 256)
  | .e5m2 => fE5M2.decode (c % 256)

/-! ## Random words (R52) -/

/-- A 32-bit word rotated right. -/
def rotr32 (x k : Nat) : Nat := (BitVec.ofNat 32 x).rotateRight k |>.toNat

/-- The rounding argument of one element: the random word is a lane of VC rotated right. -/
def rndAt (r : Rnd) (vc lane rot : Nat) : RndArg :=
  match r with
  | .fixed m => .fixed m
  | .sr sat _ n => .sr sat n.toNat (rotr32 (elemOf 32 lane vc) rot)

/-- The random register, where a rounding operand names one. -/
def rndSrc : Rnd → List VOp
  | .fixed _ => []
  | .sr _ v _ => [v]

def rndIsRdn : Rnd → Bool
  | .fixed .rdn => true
  | _ => false

/-! ## Block float (R37, R390) -/

/-- The value of a BX element with B magnitude bits under its block's shared exponents (R37). -/
def bxVal (b : Nat) (e0 e1 c : Nat) : FVal :=
  let e := if bitOf c (b + 1) then e1 else e0
  if e = 255 then .nan else .fin (bitOf c b) (c % 2 ^ b) (Int.ofNat e - 127 - Int.ofNat b)

/-- A BX code from its fields. -/
def bxCode (b : Nat) (x s : Bool) (m : Nat) : Nat := b2n x * 2 ^ (b + 1) + b2n s * 2 ^ b + m

/-- need(v) of R390. -/
def bxNeed : FVal → Nat
  | .nan => 0
  | .inf _ => 0xFE
  | .fin _ m e => if m = 0 then 0 else min (e + Int.ofNat (bitLen m) + 127).toNat 0xFE

/-- One try of a magnitude under a shared exponent: the integer and whether it is inexact. -/
def bxTry (b : Nat) (r : RndArg) (s : Bool) (m : Nat) (e : Int) (sh : Nat) : Nat × Bool :=
  if m = 0 then (0, false) else roundAt r s m e (Int.ofNat sh - 127 - Int.ofNat b)

/-- Flags of a chosen magnitude. -/
def bxFlags (p : Nat × Bool) : BitVec 5 := if p.2 then (if p.1 = 0 then flUF ||| flNX else flNX) else 0

/-- The code of one element of a block (R390). -/
def bxElem (b : Nat) (nan : Bool) (e0 e1 : Nat) (r : RndArg) (v : FVal) : Nat × BitVec 5 :=
  let big := 2 ^ b - 1
  match v with
  | .nan => (bxCode b true false 0, 0)
  | .inf s => (bxCode b (!nan) s big, flNV)
  | .fin s m e =>
    let p := bxTry b r s m e e0
    let q := bxTry b r s m e e1
    if p.1 ≤ big then (bxCode b false s p.1, bxFlags p)
    else if !nan && decide (q.1 ≤ big) then (bxCode b true s q.1, bxFlags q)
    else (bxCode b (!nan) s big, flOF ||| flNX)

/-- The shared exponents of a block (R390). -/
def bxShared (b : Nat) (vs : List FVal) : Nat × Nat :=
  let top := (vs.map bxNeed).foldl max 0
  if vs.any FVal.isNan then (top, 255) else (top - b, top)

/-! ## Packed layout (R388) -/

/-- The code of packed element e. -/
def packedGet (f : Fmt) (v e : Nat) : Nat :=
  if f.bits = 6 then elemOf 4 e v * 4 + elemOf 2 (128 + e) v else elemOf f.bits e v

/-- Packed elements, from element 0. -/
def packedPut (f : Fmt) (cs : List Nat) : Nat :=
  if f.bits = 6 then packElems 4 (cs.map (· / 4)) + 2 ^ 256 * packElems 2 cs else packElems f.bits cs

/-- Shared exponents of block b of a register in packed layout. -/
def packedShared (v b : Nat) : Nat × Nat := (elemOf 8 (124 + 2 * b) v, elemOf 8 (125 + 2 * b) v)

/-- The value of packed element e (R33, R37). -/
def packedVal (f : Fmt) (v e : Nat) : FVal :=
  let c := packedGet f v e
  match f.bx? with
  | some b => let s := packedShared v (e / 32); bxVal b s.1 s.2 c
  | none => (fmtNum f).decode c

/-- Pack 64 values (R389, R390); r gives the rounding argument of each element. Answers the register and the flags. -/
def packVals (f : Fmt) (r : Nat → RndArg) (vs : List FVal) : Nat × BitVec 5 :=
  match f.bx? with
  | none =>
    let ps := (List.range vs.length).map fun e => (fmtNum f).convert (r e) ((vs[e]?).getD (.fin false 0 0))
    (packedPut f (ps.map (·.1)), (ps.map (·.2)).foldl (· ||| ·) 0)
  | some b =>
    let block (i : Nat) : List FVal := (vs.drop (32 * i)).take 32
    let sh (i : Nat) : Nat × Nat := bxShared b (block i)
    let nan (i : Nat) : Bool := (block i).any FVal.isNan
    let ps := (List.range vs.length).map fun e =>
      bxElem b (nan (e / 32)) (sh (e / 32)).1 (sh (e / 32)).2 (r e) ((vs[e]?).getD (.fin false 0 0))
    let ex := packElems 8 [(sh 0).1, (sh 0).2, (sh 1).1, (sh 1).2]
    (packedPut f (ps.map (·.1)) + ex * 2 ^ (8 * 124), (ps.map (·.2)).foldl (· ||| ·) 0)

/-! ## Plane form (R45, R46, R49) -/

/-- An element in plane form: significand, sign, class, exponent field, selector. -/
structure PlaneEl where
  (sig : Nat) (sign : Bool) (cls ex : Nat) (x : Bool)
  deriving DecidableEq, Repr

/-- The class of a value (R46). -/
def clsOf : FVal → Nat
  | .nan => 2
  | .inf _ => 1
  | .fin _ _ _ => 0

/-- The plane form of a code (R45, R46). -/
def planeOf (f : Fmt) (c : Nat) : PlaneEl :=
  match f.bx? with
  | some b => ⟨c % 2 ^ b, bitOf c b, 0, 0, bitOf c (b + 1)⟩
  | none =>
    match fmtNum f with
    | .flt F =>
      let e := bitsOf c (F.ew + F.mw - 1) F.mw
      ⟨F.sig e (c % 2 ^ F.mw), bitOf c (F.ew + F.mw), if f.hasClass then clsOf (F.decode c) else 0, e, false⟩
    | .int w sg => let i := intOf w sg c; ⟨i.natAbs, decide (i < 0), 0, 0, false⟩

/-- The code that plane form stands for (R394). -/
def ofPlane (f : Fmt) (p : PlaneEl) : Nat :=
  match f.bx? with
  | some b => bxCode b p.x p.sign (p.sig % 2 ^ b)
  | none =>
    match fmtNum f with
    | .flt F => F.signed p.sign (p.ex % 2 ^ F.ew * 2 ^ F.mw + p.sig % 2 ^ F.mw)
    | .int w _ => wrapInt w (if p.sign then -Int.ofNat p.sig else Int.ofNat p.sig)

/-- The value of an element in plane form with d planes declared (R45, R46): infinity and NaN come from the class plane. Of
planes that no writer of the device lays down the spec states no value (DEDUCED, assumption log 78): an exponent nibble or byte
is used whole even above the format's field width, and a sign bit of a UINT8 element makes it negative. -/
def planeVal (f : Fmt) (d e0 e1 : Nat) (p : PlaneEl) : FVal :=
  let drop := f.planes - min d f.planes
  let sig := p.sig / 2 ^ drop * 2 ^ drop
  match f.bx? with
  | some b =>
    let e := if p.x then e1 else e0
    if e = 255 then .nan else .fin p.sign sig (Int.ofNat e - 127 - Int.ofNat b)
  | none =>
    match fmtNum f with
    | .flt F =>
      if p.cls = 1 then .inf p.sign
      else if 2 ≤ p.cls then .nan
      else .fin p.sign sig (Int.ofNat (max p.ex 1) - Int.ofNat F.bias - Int.ofNat F.mw)
    | .int _ _ => .fin p.sign sig 0

/-- Bits gathered into one word, bit e from element e (R46). -/
def gatherBits (ps : List PlaneEl) (g : PlaneEl → Bool) : Nat := packElems 1 (ps.map fun p => b2n (g p))

/-- One line's share of a slab as 32-bit lanes, in the order of R393. -/
def planeLanes (f : Fmt) (ps : List PlaneEl) (e0 e1 : Nat) : List Nat :=
  ((List.range f.planes).map fun j => gatherBits ps fun p => bitOf p.sig (f.planes - 1 - j)) ++
    [gatherBits ps (·.sign)] ++
    (if f.hasClass then elems 32 2 (packElems 2 (ps.map (·.cls))) else []) ++
    elems 32 f.expBits (packElems f.expBits (ps.map (·.ex))) ++
    (if f.bx?.isSome then [gatherBits ps (·.x), e0 % 256 + 256 * (e1 % 256)] else [])

/-- The lanes of R393 read back: element e and the shared exponents (R394). The class lanes are ignored. -/
def lanePlane (f : Fmt) (v e : Nat) : PlaneEl :=
  let lane (i : Nat) : Nat := elemOf 32 i v
  let p := f.planes
  let cl := if f.hasClass then 2 else 0
  let ex := v >>> (32 * (p + 1 + cl))
  ⟨ofBits ((List.range p).map fun j => bitOf (lane j) e), bitOf (lane p) e, 0, if f.expBits = 0 then 0 else elemOf f.expBits e ex,
    f.bx?.isSome && bitOf (lane (p + 1)) e⟩
where
  /-- A number from its bits, highest first. -/
  ofBits (bs : List Bool) : Nat := bs.foldl (fun n b => 2 * n + b2n b) 0

end Sys2Proof.Machine
end

