-- ==== Sys2Proof/Config.lean ====
section
/-!
DEFINITION. What the spec leaves open as a value, as constants without a body: nothing in Lean can evaluate them. Each is
applied to State's free-value counter, so that a use takes a fresh value, or to what they depend on (assumption log 3).
-/
namespace Sys2Proof

/-- A free natural number; the model takes it modulo the number of values the spec allows. Used for the A-stream's read of
FLAGS (R55), elements of a tile in flight (R140), and the TLB's choice of an entry to replace (R202). -/
opaque Config.free : Nat → Nat

/-- The root that an XMSS signature of an image leads to under a public seed (R291), as a number: the spec names the scheme and does not
give its computation (assumption log 103). -/
opaque Config.xmssRoot (seed image sig : List Byte) : Nat

/-- The device's ECDSA P-384 signature of a response (R292), as a number; a signature takes a fresh value of the counter (assumption
log 103). -/
opaque Config.signature (ctr : Nat) (response : List Byte) : Nat

/-- The digest of Bridle's configuration (R292), as a number (assumption log 103). -/
opaque Config.bridleDigest (conf : List Nat) : Nat

end Sys2Proof
end

