-- ==== Sys2Proof/Machine/Ops.lean ====
section
/-!
DEFINITION. The named operations over the state: reading and changing one unit, the registers of a stream, monitors (R293),
free values, and the two paths trouble takes: a context-fatal trap (R214) and a park (R80, R207), with the resume beside it.
-/
namespace Sys2Proof.Machine

/-- The outcome of a word, an operation or an event. -/
abbrev Out := Host.Outcome State Fault Refusal

/-! ## One unit of the package -/

def State.core (s : State) (c : CoreId) : Core := s.cores[c.val]
def State.setCore (s : State) (c : CoreId) (k : Core) : State := { s with cores := s.cores.set c.val k }
def State.modCore (s : State) (c : CoreId) (f : Core → Core) : State := s.setCore c (f (s.core c))

def State.die (s : State) (d : DieId) : Die := s.dies[d.val]
def State.setDie (s : State) (d : DieId) (x : Die) : State := { s with dies := s.dies.set d.val x }
def State.modDie (s : State) (d : DieId) (f : Die → Die) : State := s.setDie d (f (s.die d))

def Core.seq (k : Core) (q : SeqId) : Seq := k.seqs[q.val]
def Core.setSeq (k : Core) (q : SeqId) (x : Seq) : Core := { k with seqs := k.seqs.set q.val x }

def State.seq (s : State) (c : CoreId) (q : SeqId) : Seq := (s.core c).seq q
def State.setSeq (s : State) (c : CoreId) (q : SeqId) (x : Seq) : State := s.setCore c ((s.core c).setSeq q x)
def State.modSeq (s : State) (c : CoreId) (q : SeqId) (f : Seq → Seq) : State := s.setSeq c q (f (s.seq c q))

def Seq.strm (x : Seq) : Strm → Stream
  | .a => x.a
  | .c => x.c

def Seq.setStrm (x : Seq) (st : Strm) (y : Stream) : Seq :=
  match st with
  | .a => { x with a := y }
  | .c => { x with c := y }

def State.strm (s : State) (c : CoreId) (q : SeqId) (st : Strm) : Stream := (s.seq c q).strm st
def State.modStrm (s : State) (c : CoreId) (q : SeqId) (st : Strm) (f : Stream → Stream) : State :=
  s.modSeq c q fun x => x.setStrm st (f (x.strm st))

/-- The context that a core belongs to (R25). -/
def Core.ctxId (k : Core) : Option CtxId :=
  match k.bind, k.ctx with
  | some b, some n => some ⟨b.1, n⟩
  | _, _ => none

def Core.lcore (k : Core) : Nat :=
  match k.bind with
  | some b => b.2
  | none => 0

def State.slice? (s : State) (n : Fin 32) : Option Slice := s.slices[n.val]
def State.setSlice (s : State) (n : Fin 32) (x : Option Slice) : State := { s with slices := s.slices.set n.val x }
def State.modSlice (s : State) (n : Fin 32) (f : Slice → Slice) : State := s.setSlice n ((s.slice? n).map f)

def Slice.ctx? (x : Slice) (n : Fin 8) : Option Ctx := x.ctxs[n.val]
def Slice.setCtx (x : Slice) (n : Fin 8) (y : Option Ctx) : Slice := { x with ctxs := x.ctxs.set n.val y }

def State.ctx? (s : State) (k : CtxId) : Option Ctx := (s.slice? k.slice).bind (·.ctx? k.ctx)
def State.setCtx (s : State) (k : CtxId) (y : Option Ctx) : State := s.modSlice k.slice (·.setCtx k.ctx y)
def State.modCtx (s : State) (k : CtxId) (f : Ctx → Ctx) : State :=
  s.modSlice k.slice fun x => x.setCtx k.ctx ((x.ctx? k.ctx).map f)

/-- The cores of a context in logical order: those of its slice that are bound to it (R25, R26). -/
def State.coresOf (s : State) (k : CtxId) : List CoreId :=
  match s.slice? k.slice with
  | some x => x.cores.filter fun c => decide ((s.core c).ctxId = some k)
  | none => []

/-- Every core, lowest first. -/
def allCores : List CoreId := List.finRange 64
def allDies : List DieId := List.finRange 4
def allSeqs : List SeqId := List.finRange 4

/-- Every context that exists, lowest slice first. -/
def State.allCtxs (s : State) : List CtxId :=
  (List.finRange 32).flatMap fun n =>
    match s.slice? n with
    | some x => (List.finRange 8).filterMap fun m => (x.ctx? m).map fun _ => ⟨n, m⟩
    | none => []

/-- The key slot of a slice, 127 for Bridle (R257, R260). -/
def State.keyOf (s : State) (k : CtxId) : Nat :=
  match s.slice? k.slice with
  | some x => x.keyId
  | none => 127

/-! ## Channels, fabric ports, function blocks -/

/-- A channel's number: stack times 32 plus channel (R174). -/
def chanNo (stack ch : Nat) : Nat := stack * 32 + ch

def State.chan (s : State) (n : Nat) : Channel := (mapGet s.channels n).getD Channel.reset
def State.setChan (s : State) (n : Nat) (x : Channel) : State := { s with channels := mapPut s.channels n x }
def State.fabPort (s : State) (n : Nat) : FabPort := (mapGet s.fabPorts n).getD FabPort.reset
def State.setFabPort (s : State) (n : Nat) (x : FabPort) : State := { s with fabPorts := mapPut s.fabPorts n x }

/-- A function block's number: port times 64 plus function (R284). -/
def fnNo (f : FnId) : Nat := f.port.val * 64 + f.fn.val
def State.fn (s : State) (f : FnId) : FnBlk := (mapGet s.fns (fnNo f)).getD FnBlk.reset
def State.setFn (s : State) (f : FnId) (x : FnBlk) : State := { s with fns := mapPut s.fns (fnNo f) x }
def State.modFn (s : State) (f : FnId) (g : FnBlk → FnBlk) : State := s.setFn f (g (s.fn f))

/-! ## Registers of a stream -/

/-- One scalar register (R84). -/
def Stream.getX (x : Stream) (n : Fin 64) : Word := x.x[n.val]
def Stream.setX (x : Stream) (n : Fin 64) (v : Word) : Stream := { x with x := x.x.set n.val v }

/-- An address or length operand: X0 to X63, or 0 for XZ (R85). -/
def Stream.getXR (x : Stream) : XReg → Word
  | .x n => x.getX n
  | .xz => 0

/-- One vector register (R86). -/
def Seq.getV (x : Seq) (n : Fin 640) : VWord := tblGet 0 x.v n.val
def Seq.setV (x : Seq) (n : Fin 640) (v : VWord) : Seq := { x with v := tblSet 0 x.v n.val v }

/-- One mask register; K0 reads as all ones (R88). -/
def Seq.getK (x : Seq) (n : Fin 16) : BitVec 32 := if n = 0 then BitVec.allOnes 32 else x.k[n.val]
def Seq.setK (x : Seq) (n : Fin 16) (v : BitVec 32) : Seq := if n = 0 then x else { x with k := x.k.set n.val v }

/-! ## Names and free values -/

/-- A free value below n (n > 0), with the counter advanced (assumption log 3). -/
def State.free (s : State) (n : Nat) : Nat × State :=
  (Config.free s.freeCtr % n, { s with freeCtr := s.freeCtr + 1 })

/-- A fresh name for a write, load or request. -/
def State.newId (s : State) : Nat × State := (s.nextId, { s with nextId := s.nextId + 1 })

/-! ## Monitors (R293) -/

/-- The bin of a value. -/
def monBin (shift v : Nat) : Nat :=
  if v < 2 ^ shift then 0 else min (bitLen (v / 2 ^ shift)) 15

/-- Record one value. -/
def Monitor.record (m : Monitor) (v : Nat) : Monitor :=
  let sh := bitsOf m.sel.toNat 11 8
  let n := m.items[2]
  let it := (m.items.set 0 (if n = 0 then v else min v m.items[0])).set 1 (max v m.items[1])
  let it := it.set 2 (satAdd 64 n 1)
  let b := 3 + monBin sh v
  { m with items := it.setIfInBounds b (satAdd 64 (it.getD b 0) 1) }

/-- Whether a monitor captures an event of a source; `wk` filters source 2. -/
def Monitor.takes (m : Monitor) (src wk : Nat) : Bool :=
  bitOf m.sel.toNat 16 && decide (src ≠ 0) && decide (bitsOf m.sel.toNat 3 0 = src) &&
    (decide (bitsOf m.sel.toNat 7 4 = 0) || decide (bitsOf m.sel.toNat 7 4 = wk))

def Core.monitorK (k : Core) (src wk v : Nat) : Core :=
  { k with mons := k.mons.map fun m => if m.takes src wk then m.record v else m }

/-- An event of a source other than 2 with its value. -/
def Core.monitor (k : Core) (src v : Nat) : Core := k.monitorK src 0 v

def State.monitor (s : State) (c : CoreId) (src v : Nat) : State := s.modCore c (·.monitor src v)

/-! ## Context-fatal traps (R213, R214) -/

/-- What a trap reports. -/
structure TrapInfo where
  (kind cause : Nat) (detail addr : Word)
  deriving DecidableEq, Repr

/-- Code of an agent in descriptors and the Saddlebag (R209). -/
def agentCode : Agent → Nat
  | .strm q .a => q.val
  | .strm q .c => 4 + q.val
  | .queue n => 8 + n.val

/-- The agent as a number. -/
def strmCode (q : SeqId) (st : Strm) : Nat := agentCode (.strm q st)

/-- Record a trap of a context at the present count: the first sets the freeze count F = G + 64 and cancels the
stops that have not been saved (R240); of traps in one tick the lowest logical core, then the lowest agent, counts as first; later ones are counted. -/
def Ctx.trap (x : Ctx) (now : Nat) (t : TrapInfo) (lcore agent : Nat) (word : IWord) (sechdr : Word) (off : Nat) : Ctx :=
  let fz : Freeze := ⟨now + 64, now, t.kind, t.cause, t.detail, t.addr, lcore, agent, word, sechdr, off, 0⟩
  match x.freeze with
  | none =>
    { x with
      freeze := some fz
      stops := [] }
  | some f =>
    if f.g = now ∧ (lcore < f.lcore ∨ (lcore = f.lcore ∧ agent < f.agent)) then
      { x with freeze := some { fz with second := min (f.second + 1) 0xFFFF } }
    else { x with freeze := some { f with second := min (f.second + 1) 0xFFFF } }

/-- A trap of the agent of a core, with the trapping word and its place for a stream. -/
def State.trapAgent (s : State) (c : CoreId) (a : Nat) (t : TrapInfo) (word : IWord) (sechdr : Word) (off : Nat) : State :=
  match (s.core c).ctxId with
  | some k => s.modCtx k fun x => x.trap s.girth t (s.core c).lcore a word sechdr off
  | none => s

/-- Word offset as R208 and R216 report it: 0xFFF at a header. -/
def Stream.off (x : Stream) : Nat :=
  match x.word with
  | some w => w
  | none => 0xFFF

/-- TAKING A CONTEXT-FATAL TRAP by a stream: the context's freeze is set and the stream parks at its word with no effect. -/
def State.trapStream (s : State) (c : CoreId) (q : SeqId) (st : Strm) (t : TrapInfo) (word : IWord) : State :=
  let x := s.strm c q st
  (s.trapAgent c (strmCode q st) t word x.hdr x.off).modStrm c q st fun y => { y with st := .trapped, stall := none, pre := [] }

/-! ## Recoverable faults (R80, R207 to R211) -/

/-- The next fault number; 0 is never used (R209). -/
def nextFid (f : BitVec 32) : BitVec 32 := if f + 1 = 0 then 1 else f + 1

/-- Cycles a stream has stalled at its word for a queue (R77). -/
def Stream.lodCycles (y : Stream) (cyc : Nat) : Nat :=
  y.lod + match y.stall with
    | some (4, t) => cyc - t
    | _ => 0

/-- PARKING A STREAM on a recoverable fault (R80, R207): its descriptor joins those its core holds. -/
def State.parkStream (s : State) (c : CoreId) (q : SeqId) (st : Strm) (f : AccFault) : State :=
  match (s.core c).ctxId with
  | none => s
  | some k =>
    let x := s.strm c q st
    let d : Desc := ⟨k, (s.core c).lcore, strmCode q st, f.addr, x.hdr, x.off, f.cause, f.write, f.exec, f.straddle,
      f.window, f.gpa, 0, 0, none⟩
    (s.modCore c fun y => { y with descs := y.descs ++ [d] }).modStrm c q st fun y =>
      { y with
        st := .parked
        stall := none
        lod := y.lodCycles (s.core c).cyc
        pre := []
        park := some ⟨0, f.cause, f.addr, f.gpa⟩ }

/-- Window registers of a sequencer are dropped; the direction of each port stays that of its last change of page (R205). -/
def Seq.dropPorts (x : Seq) : Seq :=
  let drop (p : Port) : Port := { p with cur := .empty, nxt := .empty, want := none }
  { x with a := { x.a with ports := x.a.ports.map drop }
           c := { x.c with ports := x.c.ports.map drop } }

/-- RESUMING A PARKED STREAM: it restarts at its word and walks afresh; the windows of its sequencer are dropped
(R205, R211). -/
def State.unparkStream (s : State) (c : CoreId) (q : SeqId) (st : Strm) : State :=
  (s.modSeq c q Seq.dropPorts).modStrm c q st fun y =>
    if y.st = .parked then { y with st := .run, park := none } else y

/-! ## Copy queues -/

def Core.cq (k : Core) (n : CqId) : CopyQ := k.cqs[n.val]
def Core.setCq (k : Core) (n : CqId) (x : CopyQ) : Core := { k with cqs := k.cqs.set n.val x }
def State.modCq (s : State) (c : CoreId) (n : CqId) (f : CopyQ → CopyQ) : State :=
  s.modCore c fun k => k.setCq n (f (k.cq n))

/-- The command at the head of a queue; a QFENCE mark at the head hides what is behind it (R190). -/
def CopyQ.head (x : CopyQ) : Option CopyCmd :=
  match x.items with
  | .cmd m :: _ => some m
  | _ => none

def CopyQ.modHead (x : CopyQ) (f : CopyCmd → CopyCmd) : CopyQ :=
  match x.items with
  | .cmd m :: t => { x with items := .cmd (f m) :: t }
  | _ => x

/-- Commands of a queue, in order. -/
def CopyQ.cmds (x : CopyQ) : List CopyCmd :=
  x.items.filterMap fun
    | .cmd m => some m
    | .fence _ => none

/-- A trap of a copy queue: the queue parks at its command (R163, R214). -/
def State.trapQueue (s : State) (c : CoreId) (n : CqId) (t : TrapInfo) : State :=
  (s.trapAgent c (agentCode (.queue n)) t 0 0 0).modCq c n fun x => x.modHead fun m => { m with park := some ⟨0, 0, 0, 0⟩ }

/-- Parking a copy queue at its resume offset (R80, R164, R209). -/
def State.parkQueue (s : State) (c : CoreId) (n : CqId) (f : AccFault) : State :=
  match (s.core c).ctxId, ((s.core c).cq n).head with
  | some k, some m =>
    let d : Desc := ⟨k, (s.core c).lcore, (agentCode (.queue n)), f.addr, m.dst, 0, f.cause, f.write, false, false, false,
      f.gpa, 0, m.offset, none⟩
    (s.modCore c fun y => { y with descs := y.descs ++ [d] }).modCq c n fun x => x.modHead fun m =>
      { m with park := some ⟨0, f.cause, f.addr, f.gpa⟩ }
  | _, _ => s

/-- Resuming a parked copy queue (R211); windows of the command's sequencer are dropped (R205). -/
def State.unparkQueue (s : State) (c : CoreId) (n : CqId) : State :=
  match ((s.core c).cq n).head with
  | some m => (s.modSeq c m.seq Seq.dropPorts).modCq c n fun x => x.modHead fun m => { m with park := none }
  | none => s

/-! ## Fault numbers (R62, R209, R210) -/

/-- Descriptors that have no number yet, each with its core. -/
def State.newDescs (s : State) : List (CoreId × Desc) :=
  allCores.flatMap fun c => ((s.core c).descs.filter fun d => decide (d.fid = 0)).map fun d => (c, d)

/-- Ascending context, logical core and agent. -/
def Desc.before (a b : Desc) : Bool :=
  decide (a.ctx.idx < b.ctx.idx) ||
    (decide (a.ctx.idx = b.ctx.idx) && (decide (a.lcore < b.lcore) || (decide (a.lcore = b.lcore) && decide (a.agent < b.agent))))

def insertDesc (p : CoreId × Desc) : List (CoreId × Desc) → List (CoreId × Desc)
  | [] => [p]
  | r :: t => if p.2.before r.2 then p :: r :: t else r :: insertDesc p t

/-- A parked agent whose fault has no number yet takes it. -/
def Park.number (p : Park) (fid : BitVec 32) : Park := if p.fid = 0 then { p with fid := fid } else p

/-- The agent that a descriptor names takes its number. -/
def State.numberAgent (s : State) (c : CoreId) (agent : Nat) (fid : BitVec 32) : State :=
  if agent < 8 then
    s.modStrm c (Fin.ofNat 4 agent) (if agent < 4 then .a else .c) fun y => { y with park := y.park.map (·.number fid) }
  else s.modCq c (Fin.ofNat 8 agent) fun x => x.modHead fun m => { m with park := m.park.map (·.number fid) }

/-- One fault takes the next number of its context, and a stage-2 fault goes to Bridle's queue (R207, R209). In a context that has
trapped no descriptor is written (R214). -/
def State.numberFault (s : State) (p : CoreId × Desc) : State :=
  let (c, d) := p
  let drop (s : State) : State := s.modCore c fun y => { y with descs := y.descs.filter fun e => !decide (e = d) }
  match s.ctx? d.ctx with
  | none => drop s
  | some x =>
    if x.freeze.isSome then drop s
    else
      let e := { d with fid := x.nextFid }
      let s := (s.modCtx d.ctx fun y => { y with nextFid := nextFid y.nextFid }).numberAgent c d.agent e.fid
      if d.cause = 3 ∨ d.cause = 4 then { drop s with s2q := s.s2q ++ [e] }
      else s.modCore c fun y => { y with descs := y.descs.map fun f => if f = d then e else f }

/-- As a tick ends, the faults raised in it take their numbers in ascending logical core, then ascending agent (R210), after every
trap of the tick (R62). -/
def State.numberFaults (s : State) : State := (s.newDescs.foldl (fun l p => insertDesc p l) []).foldl (fun s p => s.numberFault p) s

end Sys2Proof.Machine
end

