-- ==== Sys2Proof/Machine/Operands.lean ====
section
/-!
DEFINITION. Operands of a word: queue entries and room (R74 to R76), the values a word's source fields supply (R85, R86), the
objects whose use by an earlier held word of the same stream makes a word wait, and the conditions of wait slots (R78, R160).
-/
namespace Sys2Proof

/-! ## Queue and register names of operands -/

/-- The stream that writes a queue; FQ has no single one (R74). -/
def QCode.writer : QCode → Option Strm
  | .bq _ => some .c
  | .dq _ => some .a
  | .fq => none

/-- The stream whose end discards pushes: the reader, and the C-stream, which issues tile commands, for FQ (R76, R310). -/
def QCode.reader : QCode → Strm
  | .bq _ => .a
  | .dq _ | .fq => .c

def SOp.queue? : SOp → Option QCode
  | .bq n => some (.bq n)
  | .fq => some .fq
  | _ => none

def VOp.queue? : VOp → Option QCode
  | .dq n => some (.dq n)
  | .v _ => none

def SOp.reg? : SOp → Option (Fin 64)
  | .x n => some n
  | _ => none

def XReg.sop : XReg → SOp
  | .x n => .x n
  | .xz => .xz

def VOp.reg? : VOp → Option (Fin 640)
  | .v n => some n
  | .dq _ => none

end Sys2Proof

namespace Sys2Proof.Machine

/-! ## Queues (R74, R75) -/

def QEnt.val? {α : Type} : QEnt α → Option α
  | .val v => some v
  | .rsv _ => none

/-- Entries that have landed (R75). -/
def landed {α : Type} (q : List (QEnt α)) : Nat := (q.filter fun e => e.val?.isSome).length

/-- The landed entries at the head, in order: what pops can take. -/
def frontVals {α : Type} : List (QEnt α) → List α
  | .val v :: t => v :: frontVals t
  | _ => []

/-- A load's value lands in its reserved place. -/
def landIn {α : Type} (id : Nat) (v : α) (q : List (QEnt α)) : List (QEnt α) :=
  q.map fun
    | .rsv i => if i = id then .val v else .rsv i
    | e => e

def Seq.bqOf (x : Seq) (n : Fin 4) : List (QEnt Word) := x.bq[n.val]
def Seq.dqOf (x : Seq) (n : Fin 8) : List (QEnt VWord) := x.dq[n.val]

/-- Entries and reservations of a queue (R75 point 6). -/
def Seq.qLen (x : Seq) : QCode → Nat
  | .bq n => (x.bqOf n).length
  | .fq => x.fq.length
  | .dq n => (x.dqOf n).length

/-- Landed entries, as QCNT counts them (R342). -/
def Seq.qCount (x : Seq) : QCode → Nat
  | .bq n => landed (x.bqOf n)
  | .fq => landed x.fq
  | .dq n => landed (x.dqOf n)

/-- Entries that can be popped now. -/
def Seq.qReady (x : Seq) : QCode → Nat
  | .bq n => (frontVals (x.bqOf n)).length
  | .fq => (frontVals x.fq).length
  | .dq n => (frontVals (x.dqOf n)).length

/-- The code of a queue (R85, R86). -/
def qcodeNo : QCode → Nat
  | .bq n => 64 + n.val
  | .fq => 72
  | .dq n => 640 + n.val

/-- The stream that reads a queue has ended, so that pushes to it are discarded (R76). -/
def Seq.readerEnded (x : Seq) (q : QCode) : Bool :=
  decide ((x.strm q.reader).st = .ended)

/-- A push of one entry has room, or is discarded. -/
def Seq.pushRoom (x : Seq) (q : QCode) (n : Nat) : Bool := x.readerEnded q || decide (x.qLen q + n ≤ 16)

def Seq.modQ (x : Seq) (q : QCode) (f : List (QEnt Word) → List (QEnt Word))
    (g : List (QEnt VWord) → List (QEnt VWord)) : Seq :=
  match q with
  | .bq n => { x with bq := x.bq.set n.val (f (x.bqOf n)) }
  | .fq => { x with fq := f x.fq }
  | .dq n => { x with dq := x.dq.set n.val (g (x.dqOf n)) }

/-- Remove the head entry. -/
def Seq.popQ (x : Seq) (q : QCode) : Seq := x.modQ q (·.drop 1) (·.drop 1)

/-- Add an entry of one 64-bit value; a data queue takes it zero-extended (R342). -/
def Seq.pushQ (x : Seq) (q : QCode) (v : Word) : Seq :=
  x.modQ q (· ++ [.val v]) (· ++ [.val (v.setWidth 1024)])

def Seq.pushDq (x : Seq) (n : Fin 8) (v : VWord) : Seq := x.modQ (.dq n) id (· ++ [.val v])

/-- The places reserved for some loads are given up. -/
def Seq.dropRsvs (x : Seq) (ids : List Nat) : Seq :=
  { x with
    dq := x.dq.map fun (l : List (QEnt VWord)) => l.filter fun e => match e with | .rsv i => !ids.contains i | .val _ => true
    bq := x.bq.map fun (l : List (QEnt Word)) => l.filter fun e => match e with | .rsv i => !ids.contains i | .val _ => true
    fq := x.fq.filter fun e => match e with | .rsv i => !ids.contains i | .val _ => true }

/-- Reserve an entry for a load. -/
def Seq.reserveQ (x : Seq) (q : QCode) (id : Nat) : Seq := x.modQ q (· ++ [.rsv id]) (· ++ [.rsv id])

/-- The i-th landed entry of a scalar queue, counted from the head. -/
def Seq.scalarAt (x : Seq) (q : QCode) (i : Nat) : Word :=
  match q with
  | .bq n => ((frontVals (x.bqOf n))[i]?).getD 0
  | .fq => ((frontVals x.fq)[i]?).getD 0
  | .dq n => (((frontVals (x.dqOf n))[i]?).getD 0).setWidth 64

def Seq.vectorAt (x : Seq) (n : Fin 8) (i : Nat) : VWord := ((frontVals (x.dqOf n))[i]?).getD 0

/-- How often a queue is named before place i of a list of fields: pops are taken in field order (R75 point 3). -/
def poppedBefore (qs : List (Option QCode)) (i : Nat) (q : QCode) : Nat :=
  ((qs.take i).filter fun o => decide (o = some q)).length

/-- The value of one scalar source field (R85). -/
def Seq.srcVal (x : Seq) (st : Strm) (o : SOp) (i : Nat) : Word :=
  match o with
  | .x n => (x.strm st).getX n
  | .bq n => x.scalarAt (.bq n) i
  | .fq => 0
  | .xz => 0

/-- The values of the scalar source fields, in field order. -/
def Seq.srcVals (x : Seq) (st : Strm) (os : List SOp) : List Word :=
  (List.range os.length).filterMap fun i =>
    (os[i]?).map fun o =>
      x.srcVal st o (match o.queue? with
        | some q => poppedBefore (os.map SOp.queue?) i q
        | none => 0)

/-- The value of one vector source field (R86). -/
def Seq.vsrcVal (x : Seq) (o : VOp) (i : Nat) : VWord :=
  match o with
  | .v n => x.getV n
  | .dq n => x.vectorAt n i

/-- The values of the vector source fields, in field order. -/
def Seq.vsrcVals (x : Seq) (os : List VOp) : List VWord :=
  (List.range os.length).filterMap fun i =>
    (os[i]?).map fun o =>
      x.vsrcVal o (match o.queue? with
        | some q => poppedBefore (os.map VOp.queue?) i q
        | none => 0)

/-! ## Objects of held effects -/

/-- What a held effect or a word touches. -/
inductive Obj where
  | queue (q : QCode)
  | ring (n : Fin 64)
  | ringLock (n : Fin 64)
  | bar (b : Bar)
  | ac (n : Fin 64)
  | tagSet (n : Nat)
  | tagLock (n : Nat)
  | tags
  | spr (n : Nat)
  | tile (t : Fin 32)
  | spad (off n : Nat)
  | dev (pa n : Nat)
  | host (port : Fin 2) (addr n : Nat)
  | fab (peer addr n : Nat)
  | cq (n : CqId)
  | feed (n : Fin 64)
  | feedLock (n : Fin 64)
  | cinch
  deriving DecidableEq, Repr

/-- Runs of scratchpad bytes meet, modulo 4 MiB (R143). -/
def spadMeets (a n b m : Nat) : Bool :=
  overlaps a n b m || overlaps (a + 2 ^ 22) n b m || overlaps a n (b + 2 ^ 22) m
where
  /-- Two runs of bytes meet. -/
  overlaps (a n b m : Nat) : Bool := decide (a < b + m) && decide (b < a + n)

/-- A read of MONCAPm depends on a write of MONSELm, which may clear what it reads (R95, R293). -/
def monPair (a b : Nat) : Bool := decide (0x20 ≤ a) && decide (a ≤ 0x2F) && decide (a % 2 = 0) && decide (b = a + 1)

def Obj.clash (x y : Obj) : Bool :=
  match x, y with
  | .spad a n, .spad b m => spadMeets a n b m
  | .dev a n, .dev b m => spadMeets.overlaps a n b m
  | .host p a n, .host q b m => decide (p = q) && spadMeets.overlaps a n b m
  | .fab p a n, .fab q b m => decide (p = q) && spadMeets.overlaps a n b m
  | .tags, .tagSet _ | .tagSet _, .tags => true
  | .spr a, .spr b => decide (a = b) || monPair a b || monPair b a
  | x, y => decide (x = y)

/-- Number of sets of a tag table of w ways (R158). -/
def tagSets (w : Nat) : Nat := 4096 / max w 1

/-- Set of a key (R158). -/
def tagSetOf (w : Nat) (key : BitVec 48) : Nat :=
  let k := key.toNat
  (bitsOf k 47 36 ^^^ bitsOf k 35 24 ^^^ bitsOf k 23 12 ^^^ bitsOf k 11 0) % tagSets w

/-- The objects of a held effect; w is the core's number of tag ways. A load's push has its place reserved in its queue (R75 point 6), so
that no later word waits for it there. -/
def Eff.objs (w : Nat) : Eff → List Obj
  | .stSpad o bs => [.spad o bs.length]
  | .stDev ps _ _ => ps.map fun p => .dev p.pa p.bs.length
  | .stHost p _ a bs _ => [.host p a bs.length]
  | .stFab p _ a bs _ _ => [.fab p a bs.length]
  | .pop q => [.queue q]
  | .push q _ => [.queue q]
  | .pushDq n _ => [.queue (.dq n)]
  | .rclaim n | .rtake n => [.ring n, .ringLock n]
  | .rfill n _ _ | .rfree n _ _ => [.ring n]
  | .acset n _ _ => [.ac n]
  | .barr b | .barrCfg b _ => [.bar b]
  | .tins k _ | .tinv k => [.tagSet (tagSetOf w k)]
  | .tevc st _ => [.tagSet st, .tagLock st]
  | .tinvAll => [.tags]
  | .mts n _ => [.spr n.toNat]
  | .tile t _ => [.tile t]
  | .copy q m => .cq q :: m.rows.map fun r => .spad (r.1 * 128) (r.2 * 128)
  | .uncinch => [.cinch]
  | .mma m => [.queue .fq, .tile m.atd, .cinch]
  | .cancel _ _ _ _ | .spawn _ _ | .join _ _ => []
  | .feedPush n _ | .feedWait n _ => [.feed n]
  | .feedPop n => [.feed n, .feedLock n]
  | .land _ (.tile t) _ => [.tile t]
  | .land _ _ _ => []

/-- The held effects of a sequencer, in the order in which they will take place (R316). -/
def Seq.heldEffs (x : Seq) : List Eff := x.held.flatMap (·.effs)

/-- Objects of every held effect of a stream. -/
def Seq.heldObjs (x : Seq) (w : Nat) (st : Strm) : List Obj :=
  (x.held.filter fun h => decide (h.strm = st)).flatMap fun h => h.effs.flatMap (Eff.objs w)

/-- Objects of every held effect of a core. -/
def Core.heldObjs (k : Core) : List Obj :=
  k.seqs.toList.flatMap fun x => x.held.flatMap fun h => h.effs.flatMap (Eff.objs k.tagWays)

/-- A word's objects meet those of earlier held effects. -/
def clashes (us hs : List Obj) : Bool := us.any fun u => hs.any fun h => u.clash h

/-! ## Wait slots (R78, R147, R151, R155, R160) -/

def Ring.free (r : Ring) : Bool := decide ((r.clm - r.fre).toNat < r.nslot)
def Ring.filled (r : Ring) : Bool := decide (0 < (r.pub - r.tkn).toNat)
def Ring.configured (r : Ring) : Bool := decide (r.nslot ≠ 0)
def ArrCnt.reached (a : ArrCnt) : Bool := decide (a.tgt.toNat ≤ a.count.toNat)

def Core.ring (k : Core) (n : Fin 64) : Ring := k.rings[n.val]
def Core.ac (k : Core) (n : Fin 64) : ArrCnt := k.acs[n.val]

/-- Number of a barrier among a stream's arrival records: BA0 to BA15, then DB0 to DB15 (R155). -/
def barNo : Bar → Nat
  | .ba n => n.val
  | .db n => 16 + n.val

/-- Key of a die barrier: the context's own barrier n (R154). -/
def dbKey (k : CtxId) (n : Fin 16) : Nat := k.idx * 16 + n.val

/-- A barrier as a core sees it. -/
def State.barrier (s : State) (c : CoreId) (b : Bar) : Barrier :=
  match b with
  | .ba n => (s.core c).bars[n.val]
  | .db n =>
    match (s.core c).ctxId with
    | some k => (mapGet (s.die (dieOfCore c)).bars (dbKey k n)).getD Barrier.reset
    | none => Barrier.reset

/-- The barrier is open for a stream (R155). An arrival that waits in the Keeper log keeps it closed (R248). -/
def ArrRec.opens (r : ArrRec) (gen : BitVec 32) : Bool :=
  match r with
  | .empty => true
  | .gen g => decide (g ≠ gen)
  | .pending _ => false

def State.barOpen (s : State) (c : CoreId) (q : SeqId) (st : Strm) (b : Bar) : Bool :=
  (((s.strm c q st).arr.toList[barNo b]?).getD .empty).opens (s.barrier c b).gen

/-- A tile command owns a tile: in a slot, or held by a word that has issued (R78). -/
def Core.tileOwned (k : Core) (t : Fin 32) : Bool :=
  (match k.front with | some m => decide (m.atd = t) | none => false) ||
    (match k.shadow with | some m => decide (m.atd = t) | none => false) ||
    k.seqs.toList.any fun x => x.held.any fun h => h.effs.any fun
      | .mma m => decide (m.atd = t)
      | _ => false

/-- A word that has issued holds a tile command of a sequencer; an MMAS among them that has still to read its shape record. -/
def Seq.heldMma (x : Seq) : Bool :=
  x.held.any fun h => h.effs.any fun
    | .mma _ => true
    | _ => false
def Seq.heldMmas (x : Seq) : Bool :=
  x.held.any fun h => h.effs.any fun
    | .mma m => m.xs.isSome
    | _ => false

/-! ## The Cinch (R124, R125) -/

def Core.cinchOf (k : Core) (q : SeqId) : CinchSt := k.cinch[q.val]
def Core.setCinch (k : Core) (q : SeqId) (v : CinchSt) : Core := { k with cinch := k.cinch.set q.val v }

/-- The Cinch is given up: UNCINCH, and a group that retires, is stopped or is frozen (R125). -/
def Core.dropCinch (k : Core) (q : SeqId) : Core :=
  match k.cinchOf q with
  | .hold => { k.setCinch q .free with cinchAt := k.cyc }
  | _ => k.setCinch q .free

/-- A group whose streams have ended gives the Cinch up once its last tile command has completed (R71). -/
def Core.endedCinch (k : Core) (q : SeqId) : Core :=
  let x := k.seq q
  let other (m : Option MCmd) : Bool := m.all fun m => decide (m.seq ≠ q)
  if k.cinchOf q = .hold ∧ x.a.st = .ended ∧ x.c.st = .ended ∧
      (!x.heldMma && other k.front && other k.shadow) = true then k.dropCinch q else k

/-- Every command this sequencer put on a queue has been performed (R78, R192). -/
def Core.drained (k : Core) (q : SeqId) (n : CqId) : Bool :=
  !((k.cq n).cmds.any fun m => decide (m.seq = q)) &&
    !((k.seq q).held.any fun h => h.effs.any fun
      | .copy m _ => decide (m = n)
      | _ => false)

end Sys2Proof.Machine
end

