-- ==== Sys2Proof/Machine/Mem.lean ====
section
/-!
DEFINITION. Device memory as each die sees it (R182), the allocation table (R257), keys and cleared frames (R260), and the
die cache's tags (R171, R172). A read of a byte answers none when its integrity tag fails.
-/
namespace Sys2Proof.Machine

/-! ## Frames and keys -/

/-- Frame of a device physical address (R256). -/
def frameOf (pa : Nat) : Nat := pa / 65536

/-- Home die of a device physical address: the die of its stack (R174, R182). -/
def homeOf (pa : Nat) : DieId := Fin.ofNat 4 (bitsOf pa 38 36 / 2)

/-- The allocation-table entry of a frame. -/
def State.allocGet (s : State) (f : Nat) : BitVec 32 := (mapGet s.alloc f).getD allocFree

def allocState (e : BitVec 32) : Nat := bitsOf e.toNat 31 30
def allocClr (e : BitVec 32) : Bool := bitOf e.toNat 29
def allocOwner (e : BitVec 32) : Nat := bitsOf e.toNat 28 23
def allocKey (e : BitVec 32) : Nat := bitsOf e.toNat 22 16

/-- An entry from its fields. -/
def allocMk (state : Nat) (clr : Bool) (owner key : Nat) : BitVec 32 :=
  BitVec.ofNat 32 (state * 2 ^ 30 + b2n clr * 2 ^ 29 + owner * 2 ^ 23 + key * 2 ^ 16)

/-- The frame is assigned to an owner (R259). -/
def State.owns (s : State) (owner f : Nat) : Bool :=
  decide (allocState (s.allocGet f) = 1) && decide (allocOwner (s.allocGet f) = owner)

/-- The allocation-table entry of a frame in the view of a die (R259, R264). -/
def State.allocAt (s : State) (d : DieId) (f : Nat) : BitVec 32 := (mapGet s.allocOld (d.val * 8388608 + f)).getD (s.allocGet f)

/-- Generation of the key in a slot; none for an empty slot (R260). -/
def State.keyGen (s : State) (keyId : Nat) : Option Nat := mapGet s.keys keyId

/-- Generation of the key under which a line's tag was written. -/
def State.tagGen (s : State) (pa : Nat) : Option Nat :=
  match mapGet s.lineGen (pa / 128) with
  | some g => some g
  | none => mapGet s.frameGen (frameOf pa)

/-- The first write that reaches HBM4 in a cleared frame starts its fill, in the slots of an owner (R260). -/
def State.startFill (s : State) (f owner : Nat) : State :=
  if allocClr (s.allocGet f) && (mapGet s.fills f).isNone then { s with fills := mapPut s.fills f (0, owner) } else s

/-! ## Views -/

/-- Writes that die d shows as pending: those that left it and that it has not applied, then those still on it (R182). -/
def State.pending (s : State) (d : DieId) : List WriteRec :=
  (s.transit.filter fun w => decide (w.src = d) && !w.seen.getLsbD d.val) ++ (s.die d).pend.filter (·.entered)

/-- The byte that a write stores at an address, if it stores one there. -/
def WriteRec.byteAt (w : WriteRec) (pa : Nat) : Option Byte :=
  match w.pay with
  | .bytes bs => if w.pa ≤ pa then (bs[pa - w.pa]?).join else none
  | .atom _ _ => none

/-- The last pending byte at an address. -/
def pendByte (pa : Nat) : List WriteRec → Option Byte
  | [] => none
  | w :: t =>
    match pendByte pa t with
    | some b => some b
    | none => w.byteAt pa

/-- A byte of device memory in the view of die d (R182). -/
def State.viewByte (s : State) (d : DieId) (pa : Nat) : Byte :=
  match pendByte pa (s.pending d) with
  | some b => b
  | none => tblGet 0 (s.die d).view pa

/-- The bytes a write covers. -/
def WriteRec.len (w : WriteRec) : Nat :=
  match w.pay with
  | .bytes bs => bs.length
  | .atom n _ => n

/-- Two runs of bytes meet. -/
def overlaps (a n b m : Nat) : Bool := decide (a < b + m) && decide (b < a + n)

/-- Writes in flight that touch a run of bytes and that die d shows: a read of the run returns one of them or an older
write (R180). -/
def State.writesAt (s : State) (d : DieId) (pa n : Nat) : List Nat :=
  ((s.transit.filter fun w => (decide (w.src = d) || w.seen.getLsbD d.val) && overlaps w.pa w.len pa n).map (·.id)) ++
    (((s.die d).pend.filter fun w => w.entered && overlaps w.pa w.len pa n).map (·.id))

/-! ## The die cache (R171, R172) -/

def cacheSet (line : Nat) : Nat := bitsOf line 14 0 ^^^ bitsOf line 29 15

/-- The cache holds the line under a key id. -/
def Die.present (x : Die) (line keyId : Nat) : Bool :=
  x.cache.any fun l => decide (l.line = line) && decide (l.keyId = keyId)

/-- Make a line of the cache the most recently used of its set; the list is in order of use, latest first. -/
def Die.touch (x : Die) (line keyId : Nat) (write : Bool) : Die :=
  match x.cache.find? fun l => decide (l.line = line) && decide (l.keyId = keyId) with
  | some l =>
    { x with cache := { l with dirty := l.dirty || write } ::
        x.cache.filter fun m => !(decide (m.line = line) && decide (m.keyId = keyId)) }
  | none => x

/-- The way a slice's allocation takes: a free way of its mask, else that of its least recently used line. -/
def Die.victim (x : Die) (mask : BitVec 16) (set : Nat) : Option (Fin 16) :=
  let ways := (List.finRange 16).filter fun w => mask.getLsbD w.val
  let used := x.cache.filter fun l => decide (cacheSet l.line = set)
  match ways.find? fun w => !used.any fun l => decide (l.way = w) with
  | some w => some w
  | none => (used.reverse.find? fun l => ways.any fun w => decide (l.way = w)).map (·.way)

/-- Allocate a line for a slice; answers the dirty line that leaves (R171, R172). -/
def Die.allocLine (x : Die) (slice : Fin 32) (line keyId : Nat) (write : Bool) : Die × Option CLine :=
  if x.present line keyId then (x.touch line keyId write, none)
  else
    match x.victim x.dcway[slice.val] (cacheSet line) with
    | none => (x, none)
    | some w =>
      let out := x.cache.find? fun l => decide (cacheSet l.line = cacheSet line) && decide (l.way = w)
      let rest := x.cache.filter fun l => !(decide (cacheSet l.line = cacheSet line) && decide (l.way = w))
      ({ x with cache := ⟨line, keyId, write, w⟩ :: rest }, out.filter (·.dirty))

/-- A clock has reached another in every entry (R182). -/
def VClock.le (a b : VClock) : Bool := (List.finRange 4).all fun i => decide (a[i.val] ≤ b[i.val])

/-- A line may be read in the view of die d: it is present, or d's clock has reached the clock of its home (R182). -/
def State.readable (s : State) (d : DieId) (pa keyId : Nat) : Bool :=
  let h := homeOf pa
  decide (h = d) || (s.die d).present (pa / 128) keyId || VClock.le (s.die h).vc (s.die d).vc

/-- One byte as a reader with a key slot sees it on die d (R260); none when the tag fails. -/
def State.readByte (s : State) (d : DieId) (keyId pa : Nat) : Option Byte :=
  if (s.die d).present (pa / 128) keyId || allocClr (s.allocGet (frameOf pa)) then some (s.viewByte d pa)
  else
    match s.keyGen keyId with
    | none => some 0
    | some g =>
      match s.tagGen pa with
      | none => some (s.viewByte d pa)
      | some t => if t = g then some (s.viewByte d pa) else none

/-- A run of bytes; none when a tag fails. -/
def State.readBytes (s : State) (d : DieId) (keyId pa : Nat) : Nat → Option (List Byte)
  | 0 => some []
  | n + 1 =>
    match s.readByte d keyId pa, s.readBytes d keyId (pa + 1) n with
    | some b, some bs => some (b :: bs)
    | _, _ => none

/-- Every line of a run is readable on die d. -/
def State.readableRun (s : State) (d : DieId) (keyId pa n : Nat) : Bool :=
  decide (n = 0) || (List.range ((pa + n - 1) / 128 + 1 - pa / 128)).all fun i => s.readable d ((pa / 128 + i) * 128) keyId

/-! ## Writes entering a die (R182) -/

/-- Put a write on its die as pending. `waits` names what must come first (R184, R200). -/
def State.putWrite (s : State) (k : CtxId) (c : CoreId) (d : DieId) (pa keyId : Nat) (p : Payload) (waits : List Nat)
    (old : OldTo) : Nat × State :=
  let (id, s) := s.newId
  let w : WriteRec := ⟨id, id, k, c, d, homeOf pa, pa, (s.keyGen keyId).getD 0, p, waits, false, true, none, none, 0, old, false⟩
  match s.keyGen keyId, old with
  | none, .drop => (id, s)
  | _, _ => (id, s.modDie d fun x => { x with pend := x.pend ++ [w] })

/-- Change writes pending on the dies by their ids. -/
def State.modPend (s : State) (ids : List Nat) (f : WriteRec → WriteRec) : State :=
  { s with dies := s.dies.map fun (x : Die) => { x with pend := x.pend.map fun w => if ids.contains w.id then f w else w } }

/-- A write by an engine of a die, which outlives a discard of its context's work. -/
def State.putEng (s : State) (k : CtxId) (c : CoreId) (d : DieId) (pa keyId : Nat) (p : Payload) (waits : List Nat)
    (old : OldTo) : Nat × State :=
  let (id, s) := s.putWrite k c d pa keyId p waits old
  (id, s.modPend [id] fun w => { w with eng := true })

/-- A write is still in flight: it has not been applied in all four views (R180). -/
def State.inFlight (s : State) (id : Nat) : Bool :=
  (s.transit.any fun w => decide (w.id = id)) || allDies.any fun d => (s.die d).pend.any fun w => decide (w.id = id)

/-- Every write of a list is performed at .p. -/
def State.allDone (s : State) (ids : List Nat) : Bool := ids.all fun i => !s.inFlight i

/-- Every write of a list is shown by the die it was made on: it is performed at .d (R180). -/
def State.shown (s : State) (ids : List Nat) : Bool :=
  !allDies.any fun d => (s.die d).pend.any fun w => !w.entered && ids.contains w.id

/-- A request to a peer of a list is not acknowledged (R180). -/
def State.fabOpen (s : State) (ids : List Nat) : Bool := s.fabOuts.any fun r => ids.contains r.id

/-- The writes and the requests to peers of a list that are still out (R192). -/
def State.stillOut (s : State) (ids : List Nat) : List Nat := ids.filter fun i => s.inFlight i || s.fabOpen [i]

/-- Stream writes allocate in the cache of their die (R171). -/
def State.cacheLine (s : State) (d : DieId) (slice : Fin 32) (line keyId : Nat) (write : Bool) : State :=
  s.modDie d fun x => (x.allocLine slice line keyId write).1

end Sys2Proof.Machine
end

