-- ==== Sys2Proof/Machine/Translate.lean ====
section
/-!
DEFINITION. Two-stage translation, the TLB and the page windows (11_translation R199 to R207, 14_slices R259). A walk is one
act; a walker read of a line that the walking die may not yet read makes the access wait.
-/
namespace Sys2Proof.Machine

/-- What an access needs of a page (R200). -/
inductive Need where
  | r | w | rw | x
  deriving DecidableEq, Repr

def Need.reads : Need → Bool
  | .r | .rw => true
  | _ => false

def Need.writes : Need → Bool
  | .w | .rw => true
  | _ => false

/-- The permissions allow the access. -/
def Need.ok (n : Need) (r w x : Bool) : Bool :=
  match n with
  | .r => r
  | .w => w
  | .rw => r && w
  | .x => x

/-- Why a translation stops: a cause of R207 with the guest physical address for causes 3 and 4; a line that is not readable
yet; an integrity failure of a walker read (kind 10, cause 3). -/
inductive TErr where
  | fault (cause gpa : Nat)
  | wait
  | bad
  deriving DecidableEq, Repr

/-- Index into the table of a level (R199). -/
def tabIndex (a level : Nat) : Nat := bitsOf a (51 - 12 * level) (40 - 12 * level)

/-- One 8-byte table entry in the view of die d (R182, R202). -/
def State.tabEntry (s : State) (d : DieId) (keyId pa : Nat) : Except TErr Nat :=
  if s.readableRun d keyId pa 8 then
    match s.readBytes d keyId pa 8 with
    | some bs => .ok (ofBytes bs)
    | none => .error .bad
  else .error .wait

/-- Bits that must be 0 in every entry (R200). -/
def entryRsv (e : Nat) : Bool :=
  decide (bitsOf e 63 60 = 0) && decide (bitsOf e 56 52 = 0) && !bitOf e 7 && !bitOf e 5 && !bitOf e 1

/-- A table entry, or a stage-1 leaf, that counts as valid (R200, R201). -/
def plainEntryOk (e : Nat) : Bool :=
  bitOf e 0 && entryRsv e && decide (bitsOf e 59 58 = 0) && decide (bitsOf e 15 8 = 0) && !bitOf e 6

/-- A stage-2 leaf that counts as valid (R200, R201). -/
def leaf2Ok (e : Nat) : Bool :=
  bitOf e 0 && entryRsv e && decide (bitsOf e 59 58 ≠ 3) &&
    (decide (bitsOf e 59 58 = 2) || decide (bitsOf e 15 8 = 0)) &&
    !(decide (bitsOf e 59 58 = 0) && decide (2 ^ 39 ≤ bitsOf e 51 16 * 65536))

/-- Output address of an entry, as a page number (R200). -/
def entryOa (e : Nat) : Nat := bitsOf e 51 16

/-- A stage-2 leaf and where it stands. -/
structure Leaf2 where
  (e addr : Nat)
  deriving DecidableEq, Repr

/-- The stage-2 walk of a guest physical address (R199): its tables belong to Bridle and carry Bridle's key. -/
def State.walk2 (s : State) (d : DieId) (slice : Slice) (gpa : Nat) : Except TErr Leaf2 := do
  let nv : Except TErr Nat := .error (.fault 3 gpa)
  let e0 ← s.tabEntry d 127 (slice.s2root + tabIndex gpa 0 * 8)
  let t0 ← if plainEntryOk e0 then .ok (entryOa e0 * 65536) else nv
  let e1 ← s.tabEntry d 127 (t0 + tabIndex gpa 1 * 8)
  let t1 ← if plainEntryOk e1 then .ok (entryOa e1 * 65536) else nv
  let a := t1 + tabIndex gpa 2 * 8
  let e2 ← s.tabEntry d 127 a
  if leaf2Ok e2 then .ok ⟨e2, a⟩ else .error (.fault 3 gpa)

/-- The allocation-table test of a device-memory leaf, in the view of the walking die (R259). -/
def State.leafOwned (s : State) (d : DieId) (sl : Fin 32) (l : Leaf2) : Bool :=
  let e := s.allocAt d (entryOa l.e)
  decide (bitsOf l.e 59 58 ≠ 0) || (decide (allocState e = 1) && decide (allocOwner e = sl.val))

/-- A device-memory page of the slice that a table of stage 1 lies on: its address and KEYID. The walker's own read asks for no permission of
stage 2 (DESIGN CHOICE, assumption log 107). -/
def State.tab1Page (s : State) (d : DieId) (sl : Fin 32) (slice : Slice) (gpa : Nat) : Except TErr (Nat × Nat) := do
  let l ← s.walk2 d slice gpa
  if bitsOf l.e 59 58 = 0 && s.leafOwned d sl l then
    .ok (entryOa l.e * 65536 + gpa % 65536, allocKey (s.allocAt d (entryOa l.e)))
  else .error (.fault 3 gpa)

/-- One stage-1 entry, its table address translated by stage 2 first (R199). -/
def State.tab1Entry (s : State) (d : DieId) (sl : Fin 32) (slice : Slice) (gpa : Nat) : Except TErr Nat := do
  let p ← s.tab1Page d sl slice gpa
  s.tabEntry d p.2 p.1

/-- The combined result of both stages for a page. -/
def combine (s : State) (d : DieId) (e1 : Nat) (l : Leaf2) : Trans :=
  let k := bitsOf l.e 59 58
  { kind := if k = 0 then .dev else if k = 1 then .host else .fab
    page := entryOa l.e
    r := bitOf e1 2 && bitOf l.e 2
    w := bitOf e1 3 && bitOf l.e 3
    x := bitOf e1 4 && bitOf l.e 4
    peer := bitsOf l.e 15 8
    epoch := if k = 2 then (mapGet s.epochs (bitsOf l.e 15 8)).getD 0 else 0
    keyId := if k = 0 then allocKey (s.allocAt d (entryOa l.e)) else 0
    d := bitOf l.e 6 }

/-- A walked page: the stage-1 leaf and where its table stands, the stage-2 leaf, the combined result. -/
structure Walked where
  (e1 tab1 : Nat) (l : Leaf2) (t : Trans)
  deriving DecidableEq, Repr

/-- The full walk of a context virtual address (R199 to R201, R259). -/
def State.walk (s : State) (d : DieId) (k : CtxId) (slice : Slice) (x : Ctx) (va : Nat) : Except TErr Walked := do
  let e0 ← s.tab1Entry d k.slice slice (x.root.toNat + tabIndex va 0 * 8)
  let t0 ← if plainEntryOk e0 then .ok (entryOa e0 * 65536) else .error (.fault 1 0)
  let e1 ← s.tab1Entry d k.slice slice (t0 + tabIndex va 1 * 8)
  let t1 ← if plainEntryOk e1 then .ok (entryOa e1 * 65536) else .error (.fault 1 0)
  let e2 ← s.tab1Entry d k.slice slice (t1 + tabIndex va 2 * 8)
  if plainEntryOk e2 then
    let gpa := entryOa e2 * 65536
    let l ← s.walk2 d slice gpa
    if s.leafOwned d k.slice l then .ok ⟨e2, t1, l, combine s d e2 l⟩ else .error (.fault 3 gpa)
  else .error (.fault 1 0)

/-- Permissions of a walked page, stage 1 before stage 2 (R207 causes 2 and 4). -/
def Walked.check (p : Walked) (n : Need) : Except TErr Trans :=
  if !n.ok (bitOf p.e1 2) (bitOf p.e1 3) (bitOf p.e1 4) then .error (.fault 2 0)
  else if !n.ok (bitOf p.l.e 2) (bitOf p.l.e 3) (bitOf p.l.e 4) then .error (.fault 4 (entryOa p.e1 * 65536))
  else .ok p.t

/-- The page m of a span, counted from page n, as contiguity gives it (R203). -/
def Trans.shift (t : Trans) (i : Int) (d : Bool) : Trans := { t with page := (Int.ofNat t.page + i).toNat, d := d }

/-- The masks of a TLB entry that a walk fills: the pages that continue the run, and those whose D bit is set (R203). A neighbour whose frame
carries another KEYID stays out too (DESIGN CHOICE, assumption log 106). -/
def State.spanMask (s : State) (d : DieId) (k : CtxId) (slice : Slice) (p : Walked) (va : Nat) : BitVec 32 × BitVec 32 :=
  let one (i : Nat) (b : Bool) : BitVec 32 := if b then BitVec.ofNat 32 (2 ^ i) else 0
  let n := tabIndex va 2 % 32
  let group := p.tab1 + (tabIndex va 2 - n) * 8
  if !bitOf p.e1 57 then (one n true, one n p.t.d)
  else
    (List.range 32).foldl (fun acc m =>
      if m = n then (acc.1 ||| one n true, acc.2 ||| one n p.t.d)
      else
        match s.tab1Entry d k.slice slice (group + m * 8) with
        | .ok e =>
          if plainEntryOk e && bitOf e 57 && decide (entryOa e + n = entryOa p.e1 + m) then
            match s.walk2 d slice (entryOa e * 65536) with
            | .ok l =>
              let t := combine s d e l
              if s.leafOwned d k.slice l && decide (t.page + n = p.t.page + m) &&
                  decide ({ t with page := 0, d := false } = { p.t with page := 0, d := false }) then
                (acc.1 ||| one m true, acc.2 ||| one m t.d)
              else acc
            | .error _ => acc
          else acc
        | .error _ => acc) (0, 0)

/-! ## The TLB (R202, R203) -/

/-- The entry that holds a page. `base.page` is the span's page 0 plus 32, so that it is never negative. -/
def Core.tlbFind (x : Core) (k : CtxId) (va : Nat) : Option Trans :=
  let n := bitsOf va 20 16
  (x.tlb.find? fun e => decide (e.ctx = k) && decide (e.span = va / 2 ^ 21) && e.mask.getLsbD n).map fun e =>
    { e.base with page := e.base.page + n - 32, d := e.dmask.getLsbD n }

/-- Drop pages from the TLB; an entry that keeps none leaves. -/
def tlbDrop (p : CtxId → Nat → Bool) (t : List TlbEntry) : List TlbEntry :=
  (t.map fun e =>
    { e with mask := (List.range 32).foldl (fun m n => if p e.ctx (e.span * 32 + n) then m &&& ~~~(BitVec.ofNat 32 (2 ^ n)) else m) e.mask }).filter
    fun e => decide (e.mask ≠ 0)

/-- Fill an entry. A full TLB gives up an entry of its choice (R202): a free value. -/
def State.tlbFill (s : State) (c : CoreId) (e : TlbEntry) : State :=
  let old := ((s.core c).tlb.map fun x =>
    if x.ctx = e.ctx ∧ x.span = e.span then { x with mask := x.mask &&& ~~~e.mask } else x).filter fun x => decide (x.mask ≠ 0)
  if old.length < 2048 then s.modCore c fun x => { x with tlb := e :: old }
  else
    let (i, s) := s.free 2048
    s.modCore c fun x => { x with tlb := e :: (old.eraseIdx i) }

/-- Walk a page and fill the TLB with what it gives (R199, R202, R203). -/
def State.walkFill (s : State) (c : CoreId) (k : CtxId) (va : Nat) : Except TErr Walked × State :=
  match s.slice? k.slice, s.ctx? k with
  | some sl, some x =>
    let d := dieOfCore c
    match s.walk d k sl x va with
    | .ok p =>
      let m := s.spanMask d k sl p va
      (.ok p, s.tlbFill c ⟨k, va / 2 ^ 21, m.1, m.2, { p.t with page := p.t.page + 32 - bitsOf va 20 16, d := false }⟩)
    | .error e => (.error e, s)
  | _, _ => (.error (.fault 1 0), s)

/-- The atomic step at a table's home by which a walker on a core's die sets the D bit of a stage-2 leaf (R200); no discard of a
context's work undoes it. -/
def State.markD (s : State) (c : CoreId) (k : CtxId) (addr : Nat) : Nat × State :=
  s.putEng k c (dieOfCore c) addr 127 (.atom 8 .setD) [] .drop

/-- Set the D bit of the page of a context virtual address; writes to the page wait for the step (R200). -/
def State.setD (s : State) (c : CoreId) (k : CtxId) (va addr : Nat) : Nat × State :=
  let (id, s) := s.markD c k addr
  (id, { s with dsets := (k, va / 65536, id) :: s.dsets.filter fun d => s.inFlight d.2.2 })

/-- A translation that an access may use: page, and the D-bit writes that must be performed before its own (R200). -/
abbrev Got := Trans × List Nat

/-- Walk for an access: the permissions of both stages, and the D bit of a page first written. -/
def State.walkFor (s : State) (c : CoreId) (k : CtxId) (va : Nat) (n : Need) : Except TErr Got × State :=
  match s.walkFill c k va with
  | (.error e, s) => (.error e, s)
  | (.ok p, s) =>
    match p.check n with
    | .error e => (.error e, s)
    | .ok t =>
      if n.writes && !t.d then
        let (id, s) := s.setD c k va p.l.addr
        let s := s.modCore c fun x => { x with tlb := x.tlb.map fun e =>
          if e.ctx = k ∧ e.span = va / 2 ^ 21 ∧ e.mask.getLsbD (bitsOf va 20 16) then
            { e with dmask := e.dmask ||| BitVec.ofNat 32 (2 ^ bitsOf va 20 16) } else e }
        (.ok ({ t with d := true }, [id]), s)
      else (.ok (t, []), s)

/-- A held translation serves an access: its permissions allow it and a first write has been marked. -/
def Trans.serves (t : Trans) (n : Need) : Bool := n.ok t.r t.w t.x && (!n.writes || t.d)

/-- Translate one page through the TLB (R202). A result that does not allow the access walks again, so that the cause is that
of the tables. -/
def State.transPage (s : State) (c : CoreId) (k : CtxId) (va : Nat) (n : Need) : Except TErr Got × State :=
  match (s.core c).tlbFind k va with
  | some t => if t.serves n then (.ok (t, []), s) else s.walkFor c k va n
  | none => s.walkFor c k va n

/-! ## Page windows (R205) -/

/-- The port of an access: its base register's number modulo 4. -/
def portOf : XReg → Fin 4
  | .x n => Fin.ofNat 4 n.val
  | .xz => 3

/-- A window register holds a page for an access. -/
def WinReg.get (w : WinReg) (page : Nat) (n : Need) : Option Trans :=
  match w with
  | .ok p t => if p = page && t.serves n then some t else none
  | _ => none

def WinReg.isBad (w : WinReg) (page : Nat) : Bool :=
  match w with
  | .bad p _ => decide (p = page)
  | _ => false

def WinReg.page : WinReg → Option Nat
  | .ok p _ => some p
  | .bad p _ => some p
  | .empty => none

/-- Make a page current: the direction follows the change of page. -/
def Port.take (p : Port) (page : Nat) (t : Trans) : Port :=
  let up := match p.last with
    | some q => if q = page then p.up else decide (q < page)
    | none => p.up
  { p with cur := .ok page t, nxt := if p.nxt.page = some page then .empty else p.nxt, up := up, last := some page }

/-- After an access at an address: ask for the next page when it is near (R205). -/
def Port.ask (p : Port) (va dist : Nat) : Port :=
  let o := va % 65536
  let page := va / 65536
  let near := if p.up then decide (65536 ≤ o + dist) else decide (o < dist)
  let next := if p.up then some (page + 1) else if page = 0 then none else some (page - 1)
  match next with
  | some q =>
    if near && decide (0 < dist) && decide (q < 2 ^ 36) && decide (p.nxt.page ≠ some q) then { p with want := some q } else p
  | none => p

def Stream.port (x : Stream) (p : Fin 4) : Port := x.ports[p.val]
def Stream.setPort (x : Stream) (p : Fin 4) (v : Port) : Stream := { x with ports := x.ports.set p.val v }

/-- Translate one page of an A-stream access through its port. The Bool of an error is WINDOW (R205); a walk that waits keeps the
record of a failed fill. -/
def State.transPort (s : State) (c : CoreId) (q : SeqId) (p : Fin 4) (k : CtxId) (va : Nat) (n : Need) :
    Except (TErr × Bool) Got × State :=
  let w := (s.strm c q .a).port p
  let page := va / 65536
  match (w.cur.get page n).or (w.nxt.get page n) with
  | some t => (.ok (t, []), s.modStrm c q .a fun x => x.setPort p ((w.take page t).ask va x.pwdist.toNat))
  | none =>
    match s.transPage c k va n with
    | (.ok (t, ds), s) =>
      (.ok (t, ds), s.modStrm c q .a fun x => x.setPort p ((w.take page t).ask va x.pwdist.toNat))
    | (.error .wait, s) => (.error (.wait, w.nxt.isBad page), s)
    | (.error e, s) =>
      (.error (e, w.nxt.isBad page),
        s.modStrm c q .a fun x => if w.nxt.isBad page then x.setPort p { w with nxt := .empty } else x)

/-! ## Whole accesses (R207, R323) -/

/-- Through what a stream access translates. -/
inductive Via where
  | tlb
  | port (q : SeqId) (p : Fin 4)
  deriving DecidableEq, Repr

def State.transVia (s : State) (c : CoreId) (v : Via) (k : CtxId) (va : Nat) (n : Need) : Except (TErr × Bool) Got × State :=
  match v with
  | .tlb =>
    match s.transPage c k va n with
    | (.ok g, s) => (.ok g, s)
    | (.error e, s) => (.error (e, false), s)
  | .port q p => s.transPort c q p k va n

/-- D-bit writes for a page of a context that are not performed yet (R200): any write to the page waits for them. -/
def State.dOut (s : State) (k : CtxId) (va : Nat) (n : Need) : List Nat :=
  if n.writes then ((s.dsets.filter fun d => decide (d.1 = k) && decide (d.2.1 = va / 65536)).map (·.2.2)).filter s.inFlight else []

/-- A run of bytes of an access inside one page. -/
structure VSeg where
  (va n : Nat) (t : Trans)
  deriving DecidableEq, Repr

/-- The address a translated byte has in its page's space. -/
def VSeg.addr (g : VSeg) : Nat := g.t.page * 65536 + g.va % 65536

/-- Why a whole access did not translate. -/
inductive AErr where
  | fault (f : AccFault)
  | wait
  | bad (addr : Nat)
  deriving DecidableEq, Repr

/-- Translate the pages of a run in rising order; `m` bounds their number. Answers the runs and the D-bit writes. -/
def State.transRun (s : State) (c : CoreId) (v : Via) (k : CtxId) (n : Need) :
    Nat → Nat → Nat → Except AErr (List VSeg × List Nat) × State
  | 0, _, _ => (.ok ([], []), s)
  | m + 1, va, len =>
    if len = 0 then (.ok ([], []), s)
    else
      let here := min len (65536 - va % 65536)
      match s.transVia c v k va n with
      | (.error (.fault cause gpa, win), s) => (.error (.fault ⟨cause, va, gpa, n.writes, decide (n = .x), false, win⟩), s)
      | (.error (.wait, _), s) => (.error .wait, s)
      | (.error (.bad, _), s) => (.error (.bad va), s)
      | (.ok (t, ds), s) =>
        match State.transRun s c v k n m (va + here) (len - here) with
        | (.error e, s) => (.error e, s)
        | (.ok (gs, es), s) => (.ok (⟨va, here, t⟩ :: gs, ds ++ s.dOut k va n ++ es), s)

/-- An address of the scratchpad window (R143). -/
def inWindow (ea : Nat) : Bool := decide (0xFFFFFFFFFFC00000 ≤ ea)

/-- Translate a whole access outside the window: an access that passes 2^52 - 1 faults with cause 5 (R207, R323). For a
section fetch every address is outside it (DESIGN CHOICE, assumption log 104). -/
def State.transAccess (s : State) (c : CoreId) (v : Via) (k : CtxId) (n : Need) (ea len : Nat) :
    Except AErr (List VSeg × List Nat) × State :=
  if 2 ^ 52 < ea + len then (.error (.fault ⟨5, max ea (2 ^ 52), 0, n.writes, decide (n = .x), false, false⟩), s)
  else s.transRun c v k n (len / 65536 + 2) ea len

/-! ## Engines (R220, R228, R230, R231, R343) -/

/-- A page as an engine on die d reaches it: a walk that fills nothing. -/
def State.quiet (s : State) (d : DieId) (k : CtxId) (va : Nat) (n : Need) : Except TErr Trans :=
  if 2 ^ 52 ≤ va then .error (.fault 5 0)
  else
    match s.slice? k.slice, s.ctx? k with
    | some sl, some x =>
      match s.walk d k sl x va with
      | .ok p => p.check n
      | .error e => .error e
    | _, _ => .error (.fault 1 0)

/-- What an engine's access comes to: a result, a wait for a line that its die may not read yet, or a failure. -/
inductive Ans (α : Type) where
  | ok (v : α)
  | wait
  | fail
  deriving DecidableEq, Repr

/-- The device physical address and KEYID of a context virtual address; it fails when that is not device memory. -/
def State.devAddr (s : State) (d : DieId) (k : CtxId) (va : Nat) (n : Need) : Ans (Nat × Nat) :=
  match s.quiet d k va n with
  | .ok t => if t.kind = .dev then .ok (t.page * 65536 + va % 65536, t.keyId) else .fail
  | .error .wait => .wait
  | .error _ => .fail

/-- An 8-byte word at an offset of a block. -/
def wordAt (bs : List Byte) (off : Nat) : Nat := ofBytes ((bs.drop off).take 8)

/-- A feed queue as its feed unit holds it (R231, R343). -/
def State.feed (s : State) (k : CtxId) (n : Fin 64) : Option Feed := (s.ctx? k).bind fun x => x.fds[n.val]

/-- Records in a feed queue, modulo 2^64. -/
def Feed.count (f : Feed) : Nat := (f.fw + 2 ^ 64 - f.fr) % 2 ^ 64

end Sys2Proof.Machine
end

