-- ==== Sys2Proof/Machine/Issue.lean ====
section
/-!
DEFINITION. The issue of one word (R65, R69, R75, R78, R80, R82, R185, R269): its wait slot, its queues, its registers and the
older held effects it waits for; then its meaning, which answers what the word does; and the one operation that does it.
-/
namespace Sys2Proof.Machine

/-- Where control goes after a word (R68, R70). -/
inductive Ctl where
  | next
  | word (off : Nat)
  | header (addr : Word)
  | ended
  deriving DecidableEq, Repr

/-- What a word that issues does: writes of its stream's X registers, of V, K and FLAGS, held effects, a load, its transfer of
control, its release scope, a QFENCE it waits on, an acquire already bound with the writes it must see performed, the scope of
a store with .ar, and the writes that a condition it has seen covers. -/
structure Ret where
  x : List (Fin 64 × Word) := []
  v : List (Fin 640 × VWord) := []
  k : List (Fin 16 × BitVec 32) := []
  fl : BitVec 5 := 0
  effs : List Eff := []
  load : List Load := []
  ctl : Ctl := .next
  rel : Option Scope := none
  qf : Option Nat := none
  acq : Option (Scope × List Nat) := none
  ar : Option Scope := none
  cov : List Nat := []
  deriving DecidableEq, Repr

/-- What comes of a word's own conditions and effect. A stall names the row of R82's table, 0 for a bounded wait. -/
inductive Res where
  | go (r : Ret)
  | stall (row : Nat)
  | trap (t : TrapInfo)
  | park (f : AccFault)
  deriving DecidableEq, Repr

/-- What a word uses: wait slot, scalar and vector sources in field order, destinations, objects whose held use by its own
stream or by any stream of the core it waits for, the row of that second wait, and, for a vector word, the mask that governs its
lanes and whether it writes them whole (R276). -/
structure Uses where
  wait : Wait := .none
  src : List SOp := []
  vsrc : List VOp := []
  dst : List SOp := []
  vdst : List VOp := []
  own : List Obj := []
  shared : List Obj := []
  lock : Nat := 0
  vec : Option (Fin 16 × Bool) := none
  deriving DecidableEq, Repr

/-! ## The word that stands at the program counter -/

/-- The section a stream stands in, as instruction memory holds it (R289). -/
def State.curSec (s : State) (c : CoreId) (y : Stream) : Option ISec :=
  match (s.core c).ctxId with
  | some k => (s.core c).imem.find? fun e => decide (e.ctx = k) && decide (e.hdr = y.hdr)
  | none => none

/-- The word at a stream's program counter. -/
def State.curWord (s : State) (c : CoreId) (y : Stream) : Option IWord :=
  match y.word, s.curSec c y with
  | some w, some e => (e.words[w]?).join
  | _, _ => none

/-- The overlay loader fetches for a core unless the freeze count or a stop count of its context has come (R214, R238). -/
def State.mayFetch (s : State) (c : CoreId) : Bool :=
  match (s.core c).ctxId with
  | none => false
  | some k =>
    match s.ctx? k with
    | none => false
    | some x =>
      (match x.freeze with | some f => decide (s.girth < f.f) | none => true) &&
        x.stops.all fun p => decide (s.girth < p.s) || !p.cores.getLsbD (s.core c).lcore

/-- The units of a core have restarted: the restore that put its context there is over (R250). -/
def State.awake (s : State) (c : CoreId) : Bool :=
  match (s.core c).ctxId.bind s.ctx? with
  | some x => !x.waking.getLsbD (s.core c).lcore
  | none => true

/-- Units of a context issue unless its freeze count or stop count has come, from the restore count on (R214, R238, R250). -/
def State.mayIssue (s : State) (c : CoreId) : Bool := s.mayFetch c && s.awake c

/-- A core's context has not reached its freeze count: nothing of it changes from there on (R214). -/
def State.alive (s : State) (c : CoreId) : Bool :=
  match (s.core c).ctxId with
  | none => false
  | some k =>
    match s.ctx? k with
    | none => false
    | some x => match x.freeze with | some f => decide (s.girth < f.f) | none => true

/-- The array of a core runs: from a restore count on, up to its freeze count, and past a stop count under tile policy (R214, R238, R250). -/
def State.arrayRuns (s : State) (c : CoreId) : Bool :=
  match (s.core c).ctxId with
  | none => false
  | some k =>
    match s.ctx? k with
    | none => false
    | some x =>
      (match x.freeze with | some f => decide (s.girth < f.f) | none => true) && s.awake c &&
        x.stops.all fun p => decide (s.girth < p.s) || !p.cores.getLsbD (s.core c).lcore || !p.freeze

/-- A stream stands at a word that it may try to issue. -/
def State.atWord (s : State) (c : CoreId) (q : SeqId) (st : Strm) : Bool :=
  let x := s.seq c q
  let y := x.strm st
  decide (x.st = .run) && decide (y.st = .run) && s.mayIssue c &&
    (match y.word with | some w => decide (w < y.len) | none => false)

/-! ## Conditions of issue -/

/-- The wait slot: a trap for a ring that is not configured or for +fed without RESIDENT, else whether the condition holds
(R78, R121, R152). -/
def State.waitCond (s : State) (c : CoreId) (q : SeqId) (st : Strm) (w : Wait) : Except TrapInfo Bool :=
  let k := s.core c
  match w with
  | .none => .ok true
  | .filled n => if (k.ring n).configured then .ok (k.ring n).filled else .error ⟨7, n.val, 0, 0⟩
  | .free n => if (k.ring n).configured then .ok (k.ring n).free else .error ⟨7, n.val, 0, 0⟩
  | .reached n => .ok (k.ac n).reached
  | .openBA n => .ok (s.barOpen c q st (.ba n))
  | .openDB n => .ok (s.barOpen c q st (.db n))
  | .idle n => .ok (!k.tileOwned n)
  | .drained n => .ok (k.drained q n)
  | .fed n =>
    if !(k.seq q).resident then .error ⟨1, 8, 0, 0⟩
    else
    match k.ctxId with
    | some x =>
      match s.feed x n with
      | some f => .ok (decide (f.count ≠ 0))
      | none => .ok false
    | none => .ok false

/-- The object a wait slot tests, which an older held effect of the same stream may still change. -/
def waitObj (w : Wait) : List Obj :=
  match w with
  | .filled n | .free n => [.ring n]
  | .reached n => [.ac n]
  | .openBA n => [.bar (.ba n)]
  | .openDB n => [.bar (.db n)]
  | .fed n => [.feed n]
  | .none | .idle _ | .drained _ => []

/-- Writes that a wait seen to hold covers for the stream (R192). -/
def State.waitCov (s : State) (c : CoreId) (w : Wait) : List Nat :=
  let k := s.core c
  match w with
  | .filled n => (k.ring n).cov
  | .reached n => (k.ac n).cov
  | .openBA n => (s.barrier c (.ba n)).cov
  | .openDB n => (s.barrier c (.db n)).cov
  | .none | .free _ | .idle _ | .drained _ | .fed _ => []

/-- A scalar register that an outstanding load will write. -/
def Stream.busyX (y : Stream) (n : Fin 64) : Bool :=
  y.loads.any fun l => match l.dst with
    | .x m _ => decide (m = n)
    | _ => false

/-- A vector register that an outstanding load will write. -/
def Stream.busyV (y : Stream) (n : Fin 640) : Bool :=
  y.loads.any fun l => match l.dst with
    | .v m _ => decide (m = n)
    | _ => false

def Stream.busyS (y : Stream) (o : SOp) : Bool :=
  match o with
  | .x n => y.busyX n
  | _ => false

def Stream.busyVO (y : Stream) (o : VOp) : Bool :=
  match o with
  | .v n => y.busyV n
  | .dq _ => false

/-- Every register a word names is free of outstanding loads. -/
def Uses.regsFree (u : Uses) (y : Stream) : Bool :=
  !(u.src ++ u.dst).any y.busyS && !(u.vsrc ++ u.vdst).any y.busyVO

/-- The queues a word pops, one entry for each field that names one. -/
def Uses.pops (u : Uses) : List QCode := (u.src.filterMap SOp.queue?) ++ (u.vsrc.filterMap VOp.queue?)

/-- The queues a word pushes. -/
def Uses.pushes (u : Uses) : List QCode := (u.dst.filterMap SOp.queue?) ++ (u.vdst.filterMap VOp.queue?)

/-- A held push of a stream to a queue. -/
def Seq.heldPush (x : Seq) (st : Strm) (q : QCode) : Bool :=
  x.held.any fun h => decide (h.strm = st) && h.effs.any fun
    | .push r _ => decide (r = q)
    | .pushDq n _ => decide (QCode.dq n = q)
    | _ => false

/-- Whether a pop of each named queue can be served: enough entries; an orphan trap when the writer has ended and nothing is
on its way; else a stall (R75, R76). -/
def Seq.popCond (x : Seq) : List QCode → List QCode → Except TrapInfo Bool
  | _, [] => .ok true
  | all, q :: t =>
    let need := (all.filter fun r => decide (r = q)).length
    if need ≤ x.qReady q then x.popCond all t
    else
      match q.writer with
      | some st =>
        if (x.strm st).st = .ended ∧ x.qReady q = x.qLen q ∧ x.heldPush st q = false then .error ⟨6, qcodeNo q, 0, 0⟩ else .ok false
      | none => .ok false

/-- Every queue a word pushes has room (R75 point 1). -/
def Seq.pushCond (x : Seq) (ps : List QCode) : Bool :=
  ps.all fun q => x.pushRoom q (ps.filter fun r => decide (r = q)).length

/-- Acquires of the stream that are not yet performed at their scope, and held stores of .ar (R185). Until they are, no later word
issues, so that no later operation is performed. -/
def State.acqOpen (s : State) (x : Seq) (st : Strm) : Bool :=
  let y := x.strm st
  (y.loads.any fun l => l.acq.isSome) || (x.held.any fun h => decide (h.strm = st) && h.ar.isSome) ||
    (match y.acq with
     | some (sc, ids) => !s.allDone ids || (decide (sc = .f) && s.fabOpen y.fdeps)
     | none => false)

/-- Nothing of the stream is outstanding: every older word has retired (R69, R311). -/
def Seq.streamIdle (x : Seq) (st : Strm) : Bool :=
  !(x.held.any fun h => decide (h.strm = st)) && (x.strm st).loads.isEmpty

/-- Nothing of the stream that is earlier is missing at a scope (R180, R187). -/
def State.fenced (s : State) (c : CoreId) (q : SeqId) (st : Strm) (sc : Scope) : Bool :=
  let x := s.seq c q
  let y := x.strm st
  match sc with
  | .s => true
  | .c | .d => x.streamIdle st && s.shown y.deps
  | .p => x.streamIdle st && s.allDone y.deps
  | .f => x.streamIdle st && s.allDone y.deps && !s.fabOpen y.fdeps

/-- The cycle in which the droop sequence of a core began (R277). -/
def Core.droopAt (k : Core) : Option Nat :=
  match k.phase with
  | .normal => none
  | .stretch n | .halved n => some n

/-- Halved issue is in force on a core in a cycle up to now (R277, R281). -/
def Core.halvedAt (k : Core) (cyc : Nat) : Bool :=
  (match k.warn with | some n => decide (n ≤ cyc) | none => false) ||
    (match k.droopAt with | some n => decide (n + 7 ≤ cyc) && decide (cyc ≤ n + 70) | none => false)

/-- A unit that was last at work in cycle `last` may be so again: after its gap, and after a cycle left out when issue was halved
in both (R96, R277). -/
def Core.paceOk (k : Core) (gap last : Nat) : Bool :=
  decide (last + max gap 1 ≤ k.cyc) && !(decide (k.cyc = last + 1) && k.halvedAt last && k.halvedAt k.cyc)

/-- The present cycle of a core lasts two ticks (R277). -/
def Core.stretched (k : Core) : Bool :=
  match k.droopAt with
  | some n => decide (n + 1 ≤ k.cyc) && decide (k.cyc ≤ n + 6)
  | none => false

/-- A vector word may issue now: GAP of PACE3 and halved issue (R96, R277). -/
def State.vecPace (s : State) (c : CoreId) (q : SeqId) : Bool :=
  let k := s.core c
  match (k.seq q).lastVec with
  | none => true
  | some l => k.paceOk k.pace[3] l

/-- A QFENCE with SELF of the stream is still waited for (R190). -/
def Core.fenceOpen (k : Core) (y : Stream) : Bool :=
  match y.qf with
  | some id => k.qfences.any fun f => decide (f.id = id)
  | none => false

/-- Why a word cannot issue yet, or the trap it raises; none when its own meaning may be tried. Row 1 is the wait slot, row 4
a queue; a bounded wait is row 0. Behind an MMAS whose record is still to be read the C-stream waits, so that the stream can park
at it (R128). -/
def State.blocked (s : State) (c : CoreId) (q : SeqId) (st : Strm) (u : Uses) : Option Res :=
  let k := s.core c
  let x := k.seq q
  let y := x.strm st
  let hs := x.heldObjs k.tagWays st
  if clashes (waitObj u.wait) hs then some (.stall 0)
  else
    match s.waitCond c q st u.wait with
    | .error t => some (.trap t)
    | .ok false => some (.stall 1)
    | .ok true =>
      if s.acqOpen x st then some (.stall 0)
      else if k.fenceOpen y || (decide (st = .c) && x.heldMmas) then some (.stall 0)
      else if !u.regsFree y then some (.stall 0)
      else if clashes (u.own ++ (u.pops ++ u.pushes).map Obj.queue) hs then some (.stall 0)
      else if u.pushes.contains .fq && clashes [.queue .fq] (x.heldObjs k.tagWays st.sibling) then some (.stall 0)
      else if clashes u.shared k.heldObjs then some (.stall u.lock)
      else
        match x.popCond u.pops u.pops with
        | .error t => some (.trap t)
        | .ok false => some (.stall 4)
        | .ok true =>
          if !x.pushCond u.pushes then some (.stall 4)
          else if u.vec.isSome && !s.vecPace c q then some (.stall 0)
          else none

/-! ## Stalls -/

/-- A stall ends: the monitors of R293 take its length by cause; rows from 100 on are waits on a locked object of wait kind row
- 100 (R270). -/
def Core.stallEnd (k : Core) (y : Stream) (wk : Nat) : Core :=
  match y.stall with
  | some (1, t) => k.monitorK 2 wk (k.cyc - t)
  | some (3, t) => k.monitor 6 (k.cyc - t)
  | some (6, t) => k.monitor 8 (k.cyc - t)
  | some (r, t) => if 100 ≤ r then k.monitorK 2 (r - 100) (k.cyc - t) else k
  | none => k

/-- WK of a wait slot (R78). -/
def waitKind : Wait → Nat
  | .none => 0
  | .filled _ => 1
  | .free _ => 2
  | .reached _ => 3
  | .openBA _ | .openDB _ => 4
  | .idle _ => 5
  | .drained _ => 6
  | .fed _ => 7

/-- The stream stalls for a cause; an unbroken stall keeps the cycle it began in. -/
def State.stallStream (s : State) (c : CoreId) (q : SeqId) (st : Strm) (wk row : Nat) : State :=
  let y := s.strm c q st
  match y.stall with
  | some (r, _) =>
    if r = row then s
    else (s.modCore c fun k => k.stallEnd y wk).modStrm c q st fun z =>
      { z with stall := some (row, (s.core c).cyc), lod := y.lodCycles (s.core c).cyc }
  | none => s.modStrm c q st fun z => { z with stall := some (row, (s.core c).cyc) }

/-! ## What a word does when it issues -/

/-- Mark the instance a stream is in as left (R69). -/
def Stream.leave (y : Stream) : Stream :=
  { y with insts := match y.insts.reverse with
      | i :: t => (({ i with left := true } : Inst) :: t).reverse
      | [] => [] }

/-- The next header in memory after a stream's section (R67). -/
def Stream.nextHdr (y : Stream) : Word := y.hdr + 8 + BitVec.ofNat 64 (12 * y.len)

/-- Move a stream's program counter (R68, R70). -/
def Stream.goto (y : Stream) : Ctl → Stream
  | .next =>
    match y.word with
    | some w =>
      if w + 1 < y.len then { y with word := some (w + 1) }
      else if y.last then { y.leave with st := .ended }
      else { y.leave with hdr := y.nextHdr, word := none }
    | none => y
  | .word t => { y with word := some t }
  | .header a => { y.leave with hdr := a, word := none }
  | .ended => { y.leave with st := .ended }

/-- Retire section instances in order: control has left the oldest and nothing issued from it is outstanding (R69). -/
def Stream.retireFrom (y : Stream) (busy : BitVec 32 → Bool) : List Inst → Stream
  | [] => { y with insts := [] }
  | i :: t =>
    if i.left && !busy i.no then
      { y with nr := y.nr + 1, rsec := i.sec, rv := true }.retireFrom busy t
    else { y with insts := i :: t }

def Seq.retire (x : Seq) (st : Strm) : Seq :=
  let y := x.strm st
  let busy (n : BitVec 32) : Bool :=
    (x.held.any fun h => decide (h.strm = st) && decide (h.inst = n)) || y.loads.any fun l => decide (l.inst = n)
  x.setStrm st (y.retireFrom busy y.insts)

def Seq.setVs (x : Seq) : List (Fin 640 × VWord) → Seq
  | [] => x
  | p :: t => (x.setV p.1 p.2).setVs t

def Seq.setKs (x : Seq) : List (Fin 16 × BitVec 32) → Seq
  | [] => x
  | p :: t => (x.setK p.1 p.2).setKs t

def Stream.setXs (y : Stream) : List (Fin 64 × Word) → Stream
  | [] => y
  | p :: t => (y.setX p.1 p.2).setXs t

/-- A load takes its place: its queue entry is reserved (R75 point 6), and it is outstanding. -/
def Seq.addLoad (x : Seq) (st : Strm) (l : Load) : Seq :=
  let x := match l.dst with
    | .q n _ => if x.readerEnded n then x else x.reserveQ n l.id
    | .dq n => if x.readerEnded (.dq n) then x else x.reserveQ (.dq n) l.id
    | _ => x
  x.setStrm st { x.strm st with loads := (x.strm st).loads ++ [l] }

def Seq.addLoads (x : Seq) (st : Strm) : List Load → Seq
  | [] => x
  | l :: t => (x.addLoad st l).addLoads st t

/-- Lanes a vector word issues to (R276). -/
def laneMask (x : Seq) (v : Fin 16 × Bool) : BitVec 32 := if v.2 then BitVec.allOnes 32 else x.getK v.1

/-- Record the lanes of a vector word; answers the wake units (R276). -/
def Seq.wakeLanes (x : Seq) (cyc : Nat) (m : BitVec 32) : Nat × Seq :=
  let ls := (List.range 32).filter fun i => m.getLsbD i
  let woke := ls.filter fun i => match mapGet x.lanes i with
    | some t => decide (t + 64 ≤ cyc)
    | none => true
  (woke.length, { x with lanes := ls.foldl (fun t i => mapPut t i cyc) x.lanes, lastVec := some cyc })

/-- Add wake units to the present cycle, keeping this cycle and the three before it (R276). -/
def Core.addWake (k : Core) (u : Nat) : Core :=
  if u = 0 then k else { k with wakes := (k.cyc, u) :: k.wakes.filter fun w => decide (k.cyc ≤ w.1 + 3) }

/-- The held effect of a load from memory: its push, or its write of a tile (R269, R383). -/
def Load.landEff (l : Load) : Option Eff :=
  match l.dst with
  | .q _ _ | .dq _ | .tile _ => some (.land l.id l.dst none)
  | .x _ _ | .none _ | .v _ _ | .pre => none

/-- The held effects of a word: its pops, its own, and those of its loads. -/
def Uses.allEffs (u : Uses) (r : Ret) : List Eff := u.pops.map Eff.pop ++ r.effs ++ r.load.filterMap Load.landEff

/-- Cycles from the issue of a word to its last execution stage, by OPC; those of IDIV and IREM by their dividend `a` and SUB 0
of the word (R296, R317, R351, R378). A load answers the figure of the scratchpad; words of at most two cycles answer 2. -/
def execStages (word : IWord) (a : Word) : Nat :=
  let opc := bitsOf word.toNat 83 74
  if opc = 0x004 ∨ opc = 0x005 then 6 + ceilDiv (bitLen (if word.getLsbD 40 then a.toNat else a.toInt.natAbs)) 4
  else if [0x002, 0x003, 0x182, 0x183, 0x197, 0x198].contains opc then 3
  else if [0x0C0, 0x100, 0x102, 0x140, 0x141, 0x142, 0x14D, 0x14E, 0x195, 0x196, 0x1C0, 0x1C1].contains opc then 4
  else if [0x143, 0x144, 0x1C2].contains opc then 5
  else if [0x14F, 0x150, 0x192].contains opc then 6
  else if opc = 0x103 then 8
  else if [0x148, 0x149, 0x14A, 0x14B].contains opc then 12
  else 2

/-- Cycles after its issue in which a word's window closes (R267). DEDUCED: a result ready n cycles after issue comes from an
execution stage n cycles after issue (assumption log 83). -/
def windowLen (word : IWord) (a : Word) : Nat := max 4 (execStages word a + 2)

/-- A word's window is open in a cycle: a word that has still to issue again has none. -/
def Win.isOpen (w : Win) (cyc : Nat) : Bool := !w.again && decide (w.cyc ≤ cyc) && decide (cyc ≤ w.cyc + w.len)

/-- A strike may still come to a word: its window is open, it has to issue again, or its held effects have not taken place. -/
def Seq.strikeable (x : Seq) (cyc : Nat) (w : Win) : Bool :=
  w.again || decide (cyc ≤ w.cyc + w.len) || x.held.any fun h => decide (h.no = w.no)

/-- The windows, oldest first, that are still of use: of words that a strike may come to, and of words behind one of their own stream,
which a strike of that one issues again (R268). -/
def Seq.liveFrom (x : Seq) (cyc : Nat) (a c : Bool) : List Win → List Win
  | [] => []
  | w :: t =>
    let l := x.strikeable cyc w
    let a' := a || (l && decide (w.strm = .a))
    let c' := c || (l && decide (w.strm = .c))
    if match w.strm with | .a => a' | .c => c' then w :: x.liveFrom cyc a' c' t else x.liveFrom cyc a' c' t

def Seq.liveWins (x : Seq) (cyc : Nat) : List Win := x.liveFrom cyc false false x.wins

/-- The window of a held word has closed before a cycle. -/
def Seq.closed (x : Seq) (h : HeldWord) (cyc : Nat) : Bool :=
  x.wins.all fun w => decide (w.no ≠ h.no) || (!w.again && decide (w.cyc + w.len < cyc))

/-- The X registers a word writes, by itself or by its load. -/
def Ret.wx (r : Ret) : List (Fin 64) :=
  r.x.map (·.1) ++ r.load.filterMap fun l => match l.dst with
    | .x n _ => some n
    | _ => none

/-- The word issues: registers, flags and control change at once; held effects wait for the window, of `len` cycles; loads are
outstanding. -/
def Seq.doRet (x : Seq) (st : Strm) (u : Uses) (r : Ret) (word : IWord) (cyc len : Nat) (covs : List Nat) : Seq :=
  let y := x.strm st
  let inst := y.ne
  let open_ := y.loads.map (·.id)
  let fl := x.flags
  let lanes := u.vec.map (laneMask x)
  let x := (x.setVs r.v).setKs r.k
  let x := if r.fl = 0 then x else x.orFlags r.fl
  let es := u.allEffs r
  let x := if es.isEmpty then x
    else { x with held := x.held ++ [⟨x.wno, st, inst, bitsOf word.toNat 83 80, word, r.rel, open_, es, y.hdr, y.off, fl, r.ar⟩] }
  let x := x.setStrm st { (x.strm st).setXs r.x with
      stall := none
      lod := 0
      qf := r.qf
      pre := []
      acq := match r.acq with | some a => some a | none => (x.strm st).acq
      deps := y.deps ++ covs ++ r.cov
      fdeps := y.fdeps ++ covs ++ r.cov }
  let x := x.addLoads st r.load
  let x := x.setStrm st ((x.strm st).goto r.ctl)
  { x with
    lastIssue := some cyc
    wins := x.liveWins cyc ++ [(⟨x.wno, st, cyc, len, 0, word, r.wx, false, lanes⟩ : Win)]
    wno := x.wno + 1 }.retire st

/-- Loss-of-decoupling points of a word, one for each pop of a BQ; the first takes the cycles of the stall (R77). -/
def Core.lodEvents (k : Core) (v : Nat) : Nat → Core
  | 0 => k
  | n + 1 => (k.monitor 7 v).lodEvents 0 n

/-- Pops of a BQ that a word makes in the A-stream (R77). -/
def Uses.lodPops (u : Uses) (st : Strm) : Nat :=
  if st = .a then (u.pops.filter fun p => match p with | .bq _ => true | _ => false).length else 0

/-- The word issues on its sequencer: monitors, wake units, then what the word does. -/
def State.doRet (s : State) (c : CoreId) (q : SeqId) (st : Strm) (u : Uses) (r : Ret) : State :=
  let k := s.core c
  let y := s.strm c q st
  let word := (s.curWord c y).getD 0
  let covs := s.stillOut (s.waitCov c u.wait)
  let k := k.stallEnd y (waitKind u.wait)
  let k := k.lodEvents (y.lodCycles k.cyc) (u.lodPops st)
  let x := k.seq q
  let (w, x) := match u.vec with
    | some v => x.wakeLanes k.cyc (laneMask x v)
    | none => (0, x)
  let len := windowLen word ((x.srcVals st u.src).headD 0)
  s.setCore c (((k.addWake w).setSeq q (x.doRet st u r word k.cyc len covs)).endedCinch q)

/-- ISSUING A WORD: the one operation every word of the opcode table goes through. A word that cannot issue leaves its stream
stalled; a trap freezes the context (R214); a fault parks the stream once every older word has retired, and is raised afresh until then (R80). -/
def State.issueWord (s : State) (u : Uses) (f : State → List Word → List VWord → Res × State) : State :=
  let c := s.cur.core
  let q := s.cur.seq
  let st := s.cur.strm
  if !s.atWord c q st then s
  else
    let x := s.seq c q
    let out := match s.blocked c q st u with
      | some r => (r, s)
      | none => f s (x.srcVals st u.src) (x.vsrcVals u.vsrc)
    match out with
    | (.stall row, s) => s.stallStream c q st (waitKind u.wait) row
    | (.trap t, s) => s.trapStream c q st t ((s.curWord c (s.strm c q st)).getD 0)
    | (.park g, s) => if (s.seq c q).streamIdle st then s.parkStream c q st g else s.stallStream c q st (waitKind u.wait) 0
    | (.go r, s) => s.doRet c q st u r

/-! ## Results of the common shapes -/

/-- The write of a scalar destination: a register at once, a queue by a held push, XZ nothing (R85, R76, R269). -/
def retDst (x : Seq) (d : SOp) (v : Word) (r : Ret) : Ret :=
  match d with
  | .x n => { r with x := r.x ++ [(n, v)] }
  | .bq n => if x.readerEnded (.bq n) then r else { r with effs := r.effs ++ [.push (.bq n) v] }
  | .fq => if x.readerEnded .fq then r else { r with effs := r.effs ++ [.push .fq v] }
  | .xz => r

/-- A word whose only effect is one scalar result computed from its scalar sources. -/
def State.scalarWord (s : State) (w : Wait) (d : SOp) (src : List SOp) (f : List Word → Word) : State :=
  s.issueWord { wait := w, src := src, dst := [d] } fun s xs _ =>
    (.go (retDst (s.seq s.cur.core s.cur.seq) d (f xs) {}), s)

/-- The operand at a place of a list of values. -/
def arg (xs : List Word) (i : Nat) : Word := (xs[i]?).getD 0
def varg (vs : List VWord) (i : Nat) : VWord := (vs[i]?).getD 0

end Sys2Proof.Machine
end

