-- ==== Sys2Proof/Machine/MemSys.lean ====
section
/-!
DEFINITION. Accesses of a stream: tokens and calendar requests (R173, R175, R176), scratchpad bytes and the range scoreboard
(R142 to R146), the start of a load and the pieces of a store (R182, R184, R323), and the landing of a load's value.
-/
namespace Sys2Proof.Machine

/-! ## Tokens (R173) -/

/-- Port of a line: its set modulo 8 (R171). -/
def linePort (line : Nat) : Fin 8 := Fin.ofNat 8 (cacheSet line)

/-- Key of a context's bucket at a port. -/
def bucketKey (p : Fin 8) (k : CtxId) : Nat := p.val * 256 + k.idx

def Die.bucket (x : Die) (p : Fin 8) (k : CtxId) : Bucket := (mapGet x.buckets (bucketKey p k)).getD ⟨0, 0, 0⟩
def Die.setBucket (x : Die) (p : Fin 8) (k : CtxId) (b : Bucket) : Die :=
  { x with buckets := mapPut x.buckets (bucketKey p k) b }

/-- Take one token: from the context's own bucket, from a full bucket of another context of its slice, the lowest-numbered
first, or from the unassigned pool (R173). -/
def Die.takeToken (x : Die) (p : Fin 8) (k : CtxId) : Option Die :=
  let own := x.bucket p k
  if 0 < own.level then some (x.setBucket p k { own with level := own.level - 1 })
  else
    match (List.finRange 8).find? fun n =>
      let b := x.bucket p ⟨k.slice, n⟩
      decide (n ≠ k.ctx) && decide (0 < b.level) && decide (b.level = b.depth) with
    | some n =>
      let b := x.bucket p ⟨k.slice, n⟩
      some (x.setBucket p ⟨k.slice, n⟩ { b with level := b.level - 1 })
    | none => if 0 < x.pools[p.val] then some { x with pools := x.pools.set p.val (x.pools[p.val] - 1) } else none

/-- How far a context is behind the one that a port served last, in the round robin (R173). -/
def Die.behind (x : Die) (p : Fin 8) (k : Nat) : Nat :=
  match x.served[p.val] with
  | some l => (k + 255 - l.2) % 256
  | none => k

/-- It is the turn of a context at a port in a tick: the port has served no access in the tick, and no other context that has a token
and was turned away there comes before it in the round robin. -/
def Die.turn (x : Die) (now : Nat) (p : Fin 8) (k : CtxId) : Bool :=
  (match x.served[p.val] with
    | some l => decide (l.1 ≠ now)
    | none => true) &&
    !(x.asked.any fun a =>
      let w : CtxId := ⟨Fin.ofNat 32 (a.1 % 256 / 8), Fin.ofNat 8 a.1⟩
      decide (a.1 / 256 = p.val) && decide (now ≤ a.2 + 1) && decide (x.behind p w.idx < x.behind p k.idx) && (x.takeToken p w).isSome)

/-- One access to a port: served with a token when it is its turn, else turned away (R173). -/
def Die.access (x : Die) (now : Nat) (p : Fin 8) (k : CtxId) : Bool × Die :=
  let away : Bool × Die := (false, { x with asked := mapPut x.asked (bucketKey p k) now })
  if x.turn now p k then
    match x.takeToken p k with
    | some y => (true, { y with served := y.served.set p.val (some (now, k.idx)), asked := mapDel y.asked (bucketKey p k) })
    | none => away
  else away

/-! ## Calendar (R174 to R176, R178) -/

/-- Channel of a device physical address, as one number. -/
def chanOf (pa : Nat) : Nat := chanNo (bitsOf pa 38 36) (bitsOf pa 15 11)
def bankOf (pa : Nat) : Nat := bitsOf pa 19 16
def rowOf (pa : Nat) : Nat := bitsOf pa 35 20

/-- Owner of a calendar position; at reset position p belongs to core p (R175). -/
def Channel.ownerOf (x : Channel) (p : Nat) : Nat := (mapGet x.owner p).getD p

/-- The first start at or after a tick of the slots that `own` selects. -/
def nextStart (own : Nat → Bool) (due : Nat) : Option Nat :=
  (List.range 64).foldl (fun best p =>
    if own p then
      let r := ceilDiv (due - 5 * p) 320
      let st := 320 * r + 5 * p
      match best with
      | some b => some (min b st)
      | none => some st
    else best) none

/-- The slot a request is bound to (R176 step 1). -/
def Channel.bindTick (x : Channel) (owner due : Nat) : Nat := (nextStart (fun p => decide (x.ownerOf p = owner)) due).getD due

/-- Issue a request toward a channel. `tok` says that its token is taken. Bridle's own requests use unassigned positions
(R265). -/
def State.request (s : State) (c : CoreId) (k : CtxId) (line : Nat) (write bridle tok : Bool) : Nat × State :=
  let pa := line * 128
  let (id, s) := s.newId
  let due := s.girth + (if homeOf pa = dieOfCore c then 16 else 40)
  let x := s.chan (chanOf pa)
  let start := x.bindTick (if bridle then 127 else c.val) due
  (id, s.setChan (chanOf pa)
    { x with reqs := x.reqs ++ [⟨id, c, k, bankOf pa, rowOf pa, write, bridle, due, start, start, false, if tok then some due else none⟩] })

/-- The start of the slot that a request of a core issued at a tick is bound to first (R176 step 1). -/
def State.boundAt (s : State) (c : CoreId) (line g : Nat) : Nat :=
  (s.chan (chanOf (line * 128))).bindTick c.val (g + if homeOf (line * 128) = dieOfCore c then 16 else 40)

/-- One access of a context to a line's port on a die. -/
def State.access (s : State) (d : DieId) (k : CtxId) (line : Nat) : Bool × State :=
  let (tok, x) := (s.die d).access s.girth (linePort line) k
  (tok, s.setDie d x)

/-- Begin an access to one line from the die of a core (R171, R173, R176): its turn, with a token, at the port of the cache that serves it,
and a request to the channel unless a cache holds the line. A hit is a use of the line in the cache that holds it (R172). -/
def State.startLine (s : State) (c : CoreId) (k : CtxId) (keyId line : Nat) (write : Bool) : LineReq × State :=
  let d := dieOfCore c
  let h := homeOf (line * 128)
  let here := (s.die d).present line keyId
  let there := !here && decide (h ≠ d) && (s.die h).present line keyId
  let p := if there then h else d
  let (tok, s) := s.access p k line
  let g := s.girth
  if here || there then
    (⟨line, keyId, write, tok, none, g, g + if here then 28 else 52, p, g⟩, s.modDie p fun x => x.touch line keyId false)
  else
    let (id, s) := s.request c k line write false tok
    (⟨line, keyId, write, tok, some id, g, 0, p, s.boundAt c line g⟩, s)

def State.startLines (s : State) (c : CoreId) (k : CtxId) (write : Bool) : List (Nat × Nat) → List LineReq × State
  | [] => ([], s)
  | (line, keyId) :: t =>
    let (r, s) := s.startLine c k keyId line write
    let (rs, s) := s.startLines c k write t
    (r :: rs, s)

/-- Lines of a run of bytes, with its KEYID. -/
def linesOf (pa n keyId : Nat) : List (Nat × Nat) :=
  if n = 0 then [] else (List.range ((pa + n - 1) / 128 + 1 - pa / 128)).map fun i => (pa / 128 + i, keyId)

/-- Each line of an access once: every line an access touches makes one access to the cache (R173). -/
def linesOnce : List (Nat × Nat) → List (Nat × Nat)
  | [] => []
  | p :: t => p :: (linesOnce t).filter fun q => q != p

/-- A line access that was turned away is served when its turn has come with a token (R173); the wait is monitor source 12. R173 counts the
data of a hit from its issue and does not say what a wait for a token adds: here they are there no sooner than one tick after the access is
served (DESIGN CHOICE, assumption log 94). -/
def State.retryToken (s : State) (c : CoreId) (k : CtxId) (l : LineReq) : LineReq × State :=
  if l.tok then (l, s)
  else
    match s.access l.die k l.line with
    | (false, s) => (l, s)
    | (true, s) =>
      let s := s.monitor c 12 (s.girth - l.tick)
      let s := match l.req with
        | none => s
        | some id =>
          let ch := chanOf (l.line * 128)
          let y := s.chan ch
          let at_ := s.girth + (if homeOf (l.line * 128) = dieOfCore c then 16 else 40)
          s.setChan ch { y with reqs := y.reqs.map fun r => if r.id = id then { r with reach := some (max at_ r.due) } else r }
      ({ l with tok := true, hit := max l.hit (s.girth + 1) }, s)

def State.retryTokens (s : State) (c : CoreId) (k : CtxId) : List LineReq → List LineReq × State
  | [] => ([], s)
  | l :: t =>
    let (l, s) := s.retryToken c k l
    let (t, s) := s.retryTokens c k t
    (l :: t, s)

/-- A line access has its data: its token is taken and its cache or its channel has delivered. -/
def State.lineReady (s : State) (l : LineReq) : Bool :=
  l.tok &&
    match l.req with
    | none => decide (l.hit ≤ s.girth)
    | some id =>
      match mapGet s.done id with
      | some t => decide (t ≤ s.girth)
      | none => false

/-- The tick at which the data of a line access are there. -/
def State.lineTick (s : State) (l : LineReq) : Nat :=
  match l.req with
  | none => l.hit
  | some id => (mapGet s.done id).getD s.girth

/-- Reads that have their data are events of the latency monitor (R293). -/
def State.noteLines (s : State) (c : CoreId) (ls : List LineReq) : State :=
  ls.foldl (fun s l => if l.write then s else s.monitor c 1 (s.lineTick l - l.base)) s

/-- Deliveries of the requests of some line accesses have been taken. -/
def State.takeDone (s : State) (ls : List LineReq) : State :=
  { s with done := s.done.filter fun p => !ls.any fun l => decide (l.req = some p.1) }

/-! ## Scratchpad (R142 to R146) -/

/-- Offset of a window address or an operand (R143). -/
def spadOff (a : Nat) : Nat := a % 2 ^ 22

def Core.spadGet (k : Core) (off : Nat) : Byte := tblGet 0 k.spad (off % 2 ^ 22)

/-- n bytes from an offset, wrapping modulo 4 MiB. -/
def Core.spadRead (k : Core) (off n : Nat) : List Byte := (List.range n).map fun i => k.spadGet (off + i)

/-- Write bytes from an offset, wrapping; a byte that is none is left. -/
def spadPut (m : Memory) (off : Nat) : List (Option Byte) → Memory
  | [] => m
  | b :: bs =>
    spadPut (match b with
      | some v => tblSet 0 m (off % 2 ^ 22) v
      | none => m) (off + 1) bs

def Core.spadWrite (k : Core) (off : Nat) (bs : List (Option Byte)) : Core := { k with spad := spadPut k.spad off bs }

/-- Rows held by the scoreboard of either engine (R145, R146). -/
def Core.sbRows (k : Core) : List (Nat × Nat) := k.cqs.toList.flatMap fun x => x.cmds.flatMap (·.rows)

/-- A run of scratchpad bytes lies in a held row (R146). -/
def Core.sbHit (k : Core) (off n : Nat) : Bool :=
  k.sbRows.any fun r => spadMeets (off % 2 ^ 22) n (r.1 * 128) (r.2 * 128)

/-- Bytes laid into a table from an address on; a byte that is none is left. -/
def bytesPut (m : Memory) (a : Nat) : List (Option Byte) → Memory
  | [] => m
  | b :: t =>
    bytesPut (match b with
      | some v => tblSet 0 m a v
      | none => m) (a + 1) t

/-- Where a function's byte of host memory stands (R253). -/
def hostKey (f : FnId) (addr : Nat) : Nat := fnNo f * 2 ^ 64 + addr

/-- The virtual function of a slice, whose requester ID its accesses to host memory carry (R25, R253). -/
def vfOf (port : Fin 2) (slice : Fin 32) : FnId := ⟨port, slice.succ⟩

/-- Store bytes to host memory in the name of a function (R195, R253). -/
def State.hostPut (s : State) (f : FnId) (addr : Nat) (bs : List (Option Byte)) : State :=
  { s with hostMem := bytesPut s.hostMem (hostKey f addr) bs }

/-! ## The start of an access -/

/-- Blocks that engines still work on for a stream. -/
def Stream.blocks (y : Stream) : List Obj := y.loads.filterMap fun l => l.blk.map fun pa => .dev pa 64

/-- Own writes that its die does not show yet (R182 step 1). -/
def State.unshown (s : State) : List Obj :=
  let c := s.cur.core
  let ids := (s.strm c s.cur.seq s.cur.strm).deps
  ((s.die (dieOfCore c)).pend.filter fun w => !w.entered && decide (w.core = c) && ids.contains w.id).map fun w => .dev w.pa w.len

/-- Own held effects of the stream, its own writes that its die does not show yet, and the blocks that engines work on for it, meet
the objects of an access (R183). -/
def State.ownClash (s : State) (os : List Obj) : Bool :=
  let k := s.core s.cur.core
  let x := k.seq s.cur.seq
  clashes os (x.heldObjs k.tagWays s.cur.strm) || clashes os s.unshown || clashes os (x.strm s.cur.strm).blocks

/-- Objects of translated runs. -/
def segObj (port : Fin 2) (g : VSeg) : Obj :=
  match g.t.kind with
  | .dev => .dev g.addr g.n
  | .host => .host port g.addr g.n
  | .fab => .fab g.t.peer g.addr g.n

/-- Runs of open loads of the stream meet a run of device memory (R183). -/
def Stream.loadMeets (y : Stream) (pa n : Nat) : Bool :=
  y.loads.any fun l => l.segs.any fun g => spadMeets.overlaps g.pa g.n pa n

def segsMeetLoads (y : Stream) (gs : List VSeg) : Bool :=
  gs.any fun g => decide (g.t.kind = .dev) && y.loadMeets g.addr g.n

/-- The host port of a context. -/
def State.portOfCtx (s : State) (k : CtxId) : Fin 2 :=
  match s.slice? k.slice with
  | some x => x.port
  | none => 0

/-- Bytes that a request to a peer carries or asks for. -/
def fabReqLen : FabReq → Nat
  | .read _ n => n
  | .write _ bs => bs.length
  | .atomic _ _ _ bs => bs.length
  | .swap _ _ _ bs => bs.length

/-- Flits of 256 bytes that carry some bytes, at least one (R17). -/
def flitsOf (n : Nat) : Nat := max 1 (ceilDiv n 256)

/-- Flits of a request: one that only asks carries no bytes. -/
def fabFlits : FabReq → Nat
  | .read _ _ => 1
  | r => flitsOf (fabReqLen r)

/-- Ask the host or a peer for a run of a load; answers the name of the request (R206, R317). -/
def State.extRead (s : State) (k : CtxId) (load : Option Nat) (queue : Option CqId) (off : Nat) (g : VSeg) : Nat × State :=
  let (id, s) := s.newId
  let y := s.strm s.cur.core s.cur.seq s.cur.strm
  match g.t.kind with
  | .host => (id, { s with hostReads := s.hostReads ++ [⟨id, vfOf (s.portOfCtx k) k.slice, s.cur.core, s.cur.seq, s.cur.strm, load.getD 0, queue, off, g.n, g.addr,
      BitVec.ofNat 64 g.va⟩] })
  | _ => (id, { s with fabOuts := s.fabOuts ++ [⟨id, k, s.cur.core, s.cur.seq, s.cur.strm, load, queue, off, g.n, g.t.peer,
      g.t.epoch, g.addr, BitVec.ofNat 64 g.va, .read g.addr g.n, (dieOfCore s.cur.core).val * 6 + g.t.peer % 6, 1, s.girth, none,
      (s.curWord s.cur.core y).getD 0, y.hdr, y.off⟩] })

/-- Send the runs of a load that lie on host or peer pages, and collect those of device memory. Each run stands at its place
in the load's bytes. -/
def State.loadRuns (s : State) (k : CtxId) (load : Nat) : List (Nat × VSeg) → List LSeg × List Nat × State
  | [] => ([], [], s)
  | (off, g) :: t =>
    if g.t.kind = .dev then
      let (ls, es, s) := s.loadRuns k load t
      (⟨off, g.addr, g.n, g.t.keyId, g.va⟩ :: ls, es, s)
    else
      let (id, s) := s.extRead k (some load) none off g
      let (ls, es, s) := s.loadRuns k load t
      (ls, id :: es, s)

/-- Runs of one access, each with its place in the access. -/
def placeSegs : Nat → List VSeg → List (Nat × VSeg)
  | _, [] => []
  | off, g :: t => (off, g) :: placeSegs (off + g.n) t

/-- Begin a load of translated runs (R182, R184): the outstanding load and the state with its requests made. `buf` holds the
bytes already read from the scratchpad, 0 elsewhere. -/
def State.startLoad (s : State) (k : CtxId) (dst : LDst) (buf : List Byte) (acq : Option Scope) (ea : Word)
    (gs : List (Nat × VSeg)) : Load × State :=
  let c := s.cur.core
  let y := s.strm c s.cur.seq s.cur.strm
  let (id, s) := s.newId
  let (ls, es, s) := s.loadRuns k id gs
  let (rs, s) := s.startLines c k false (linesOnce (ls.flatMap fun g => linesOf g.pa g.n g.keyId))
  (⟨id, y.ne, dst, buf, ls, es, acq, rs, s.girth, ea, [], (s.curWord c y).getD 0, y.hdr, y.off, none⟩, s)

/-- Cut a run of bytes to store at translated runs. -/
def cutBytes : List VSeg → List (Option Byte) → List (VSeg × List (Option Byte))
  | [], _ => []
  | g :: t, bs => (g, bs.take g.n) :: cutBytes t (bs.drop g.n)

/-- The held effects that store bytes at translated runs; `waits` are the D-bit writes (R200). -/
def storeEffs (port : Fin 2) (slice : Fin 32) (waits : List Nat) (ps : List (VSeg × List (Option Byte))) : List Eff :=
  let dev := (ps.filter fun p => decide (p.1.t.kind = .dev)).map fun p => (⟨p.1.addr, p.1.t.keyId, p.2, none⟩ : Piece)
  (if dev.isEmpty then [] else [.stDev dev waits none]) ++
    ps.filterMap fun p =>
      match p.1.t.kind with
      | .dev => none
      | .host => some (.stHost port slice p.1.addr p.2 waits)
      | .fab => some (.stFab p.1.t.peer p.1.t.epoch p.1.addr p.2 (BitVec.ofNat 64 p.1.va) waits)

/-- What an access through a port depends on: an A-stream's own write of PWDIST, while it is held (R95, R205). -/
def State.portUse (s : State) : List Obj :=
  match s.cur.strm with
  | .a => [.spr 2]
  | .c => []

/-- How a failed translation ends a word: a fault parks, a line not readable yet makes it wait (row 8), a failed tag is the
uncorrectable error of a walker read (R207, R213). -/
def AErr.res : AErr → Res
  | .fault f => .park f
  | .wait => .stall 8
  | .bad a => .trap ⟨10, 3, 0, BitVec.ofNat 64 a⟩

/-- A byte of device memory that a store touches cannot be corrected: its address (R357, kind 10 with cause 2). -/
def State.badStore (s : State) (d : DieId) (gs : List VSeg) : Option Nat :=
  (gs.find? fun g => decide (g.t.kind = .dev) && (s.readBytes d g.t.keyId g.addr g.n).isNone).map (·.va)

/-- The scope an access acquires at; an acquire at .s is a plain access (R185). -/
def acqScope (o : Ord4) (sc : Scope) : Option Scope :=
  match o with
  | .acq | .ar => if sc = .s then none else some sc
  | _ => none

/-- The scope a store releases at. -/
def relScope (o : Ord4) (sc : Scope) : Option Scope :=
  match o with
  | .rel | .ar => if sc = .s then none else some sc
  | _ => none

/-- Through what a stream's access translates (R205). -/
def State.via (s : State) (base : XReg) : Via :=
  match s.cur.strm with
  | .a => .port s.cur.seq (portOf base)
  | .c => .tlb

/-- A load by a stream of n bytes at ea, from the scratchpad or from memory (R323, R383): `done` makes the word's effect from
the bytes of a scratchpad load; `dst` names where a load from memory lands. -/
def State.loadWord (s : State) (via : Via) (ea : Word) (n : Nat) (dst : LDst) (acq : Option Scope)
    (done : State → List Byte → Ret) : Res × State :=
  let c := s.cur.core
  let k := s.core c
  if inWindow ea.toNat then
    let off := spadOff ea.toNat
    if k.sbHit off n then (.stall 6, s)
    else if s.ownClash [.spad off n] then (.stall 0, s)
    else (.go (done s (k.spadRead off n)), s)
  else
    match k.ctxId with
    | none => (.stall 0, s)
    | some ctx =>
      match s.transAccess c via ctx .r ea.toNat n with
      | (.error e, s) => (e.res, s)
      | (.ok (gs, _), s) =>
        if s.ownClash (gs.map (segObj (s.portOfCtx ctx))) then (.stall 0, s)
        else
          let (l, s) := s.startLoad ctx dst (List.replicate n 0) acq ea (placeSegs 0 gs)
          (.go { load := [l] }, s)

/-- A store by a stream of bytes at ea (R323, R356, R383); it waits for an older copy of its stream that is still held, so that
the copy's range is there to hold it (R145, R146). -/
def State.storeWord (s : State) (via : Via) (ea : Word) (bs : List (Option Byte)) (rel : Option Scope) (ar : Option Scope := none) :
    Res × State :=
  let c := s.cur.core
  let k := s.core c
  let n := bs.length
  if inWindow ea.toNat then
    let off := spadOff ea.toNat
    if k.sbHit off n then (.stall 6, s)
    else if s.ownClash [.spad off n] then (.stall 0, s)
    else (.go { effs := [.stSpad off bs], rel := rel, ar := ar }, s)
  else
    match k.ctxId with
    | none => (.stall 0, s)
    | some ctx =>
      match s.transAccess c via ctx .w ea.toNat n with
      | (.error e, s) => (e.res, s)
      | (.ok (gs, ds), s) =>
        match s.badStore (dieOfCore c) gs with
        | some va => (.trap ⟨10, 2, 0, BitVec.ofNat 64 va⟩, s)
        | none =>
        if segsMeetLoads (s.strm c s.cur.seq s.cur.strm) gs then (.stall 0, s)
        else (.go { effs := storeEffs (s.portOfCtx ctx) ctx.slice ds (cutBytes gs bs), rel := rel, ar := ar }, s)

/-! ## The landing of a load -/

/-- A scalar value from its bytes (R6, R324). -/
def scalarOf (sz : Size) (bs : List Byte) : Word :=
  match sz with
  | .sb => sext64 8 (ofBytes (bs.take 1))
  | .sh => sext64 16 (ofBytes (bs.take 2))
  | .sw => sext64 32 (ofBytes (bs.take 4))
  | .b => BitVec.ofNat 64 (ofBytes (bs.take 1))
  | .h => BitVec.ofNat 64 (ofBytes (bs.take 2))
  | .w => BitVec.ofNat 64 (ofBytes (bs.take 4))
  | .d => BitVec.ofNat 64 (ofBytes (bs.take 8))

/-- Bytes of a scalar size (R100). -/
def sizeBytes : Size → Nat
  | .b | .sb => 1
  | .h | .sh => 2
  | .w | .sw => 4
  | .d => 8

/-- Lanes of the governing mask take the new value, the others the old (R89). -/
def mergeLanes (m : BitVec 32) (old new : VWord) : VWord :=
  BitVec.ofNat 1024 (packElems 32 ((List.range 32).map fun i =>
    if m.getLsbD i then elemOf 32 i new.toNat else elemOf 32 i old.toNat))

/-- The 4,096 ACC48 values of a tile image (R42, R141). -/
def accsOf : List Byte → Nat → List Acc
  | _, 0 => []
  | bs, n + 1 => BitVec.ofNat 48 (ofBytes (bs.take 6)) :: accsOf (bs.drop 8) n

/-- Key of a tile element. -/
def tileKey (t : Fin 32) (i j : Nat) : Nat := t.val * 4096 + i * 64 + j

/-- Write a whole tile. -/
def Core.setTile (k : Core) (t : Fin 32) (vs : List Acc) : Core :=
  { k with tiles := tblSetRun 0 k.tiles (tileKey t 0 0) (vs.take 4096) }

/-- The held effect of a load has its bytes. -/
def Eff.bound (id : Nat) (bs : List Byte) : Eff → Eff
  | .land i d b => if i = id then .land i d (some bs) else .land i d b
  | e => e

/-- A load's value is bound: it goes to its register, or to its held push or tile write, and the load is no longer outstanding. An
acquire stays in force until the writes it returned are performed at its scope (R180, R185). A push and a tile write are held: their
bytes wait in the held effect (R269). -/
def State.landLoad (s : State) (c : CoreId) (q : SeqId) (st : Strm) (l : Load) : State :=
  let x := s.seq c q
  let v := ofBytes l.buf
  let x := match l.dst with
    | .x n sz => x.setStrm st ((x.strm st).setX n (scalarOf sz l.buf))
    | .none _ => x
    | .q _ _ | .dq _ | .tile _ => { x with held := x.held.map fun (h : HeldWord) => { h with effs := h.effs.map (Eff.bound l.id l.buf) } }
    | .v n m => x.setV n (mergeLanes m (x.getV n) (BitVec.ofNat 1024 v))
    | .pre => x.setStrm st { x.strm st with pre := (l.va.toNat, l.buf) :: (x.strm st).pre }
  let y := x.strm st
  let out := s.stillOut l.cov
  let acq := match l.acq with
    | some .p | some .f => some (Scope.p, out)
    | _ => none
  let x := x.setStrm st { y with
    loads := y.loads.filter fun m => decide (m.id ≠ l.id)
    deps := y.deps ++ out
    acq := match acq with
      | some (sc, ids) => some (sc, ids ++ (match y.acq with | some a => a.2 | none => []))
      | none => y.acq }
  let s := s.setSeq c q (x.retire st)
  if l.lines.isEmpty || !l.ext.isEmpty then s.monitor c 1 (s.girth - l.tick) else s

/-- The held push or tile write of a load takes place: the value stands in its reserved place (R75); a push whose reader has ended is
discarded (R76). -/
def Core.landPush (k : Core) (q : SeqId) (load : Nat) (dst : LDst) (bs : List Byte) : Core :=
  let x := k.seq q
  let push (n : QCode) (v : Word) (w : VWord) : Core :=
    if x.readerEnded n then k.setSeq q (x.dropRsvs [load])
    else
      let x := x.modQ n (landIn load v) (landIn load w)
      (k.setSeq q x).monitor 3 (x.qCount n)
  match dst with
  | .q n sz => push n (scalarOf sz bs) ((scalarOf sz bs).setWidth 1024)
  | .dq n => push (.dq n) 0 (BitVec.ofNat 1024 (ofBytes bs))
  | .tile t => k.setTile t (accsOf bs 4096)
  | .x _ _ | .none _ | .v _ _ | .pre => k

/-! ## A word that takes its stream back -/

/-- A word whose held effects cannot take place: the stream stands at the word again with FLAGS as they were before it; neither
this word nor a younger one of its stream has any held effect (R214, R271). -/
def State.trapHeld (s : State) (c : CoreId) (q : SeqId) (h : HeldWord) (t : TrapInfo) : State :=
  let s := s.modSeq c q fun x =>
    let y := x.strm h.strm
    let gone := y.loads.filter fun l => !h.loads.contains l.id
    let x := ({ x with
      held := x.held.filter fun g => !(decide (g.strm = h.strm) && decide (h.no ≤ g.no))
      wins := x.wins.filter fun w => !(decide (w.strm = h.strm) && decide (h.no ≤ w.no))
      flags := if h.strm = Strm.c then h.flags else x.flags } : Seq).dropRsvs (gone.map (·.id))
    x.setStrm h.strm { y with
      hdr := h.hdr
      word := if h.off = 0xFFF then none else some h.off
      loads := y.loads.filter fun l => h.loads.contains l.id }
  s.trapStream c q h.strm t h.word

/-- A load that brings nothing traps: a word that would push what it brings is taken back; else its stream parks at the load's word
(R213, R214). -/
def State.trapLoad (s : State) (c : CoreId) (q : SeqId) (st : Strm) (l : Load) (t : TrapInfo) : State :=
  match (s.seq c q).held.find? fun h => decide (h.strm = st) && h.effs.any fun
    | .land i _ _ => decide (i = l.id)
    | _ => false with
  | some h => s.trapHeld c q h t
  | none =>
    (s.trapAgent c (strmCode q st) t l.word l.hdr l.off).modStrm c q st fun y =>
      { y with st := .trapped, stall := none, pre := [], hdr := l.hdr, word := if l.off = 0xFFF then none else some l.off }

end Sys2Proof.Machine
end

