-- ==== Sys2Proof/Machine/Scalar.lean ====
section
/-!
DEFINITION. The scalar words of R112: arithmetic, logic, shifts, compares, bit fields, moves and immediates
(17_reference R295 to R315, 18_reference R327 to R347, 19_reference R352 and R353, 20_reference R404).
-/
namespace Sys2Proof.Machine

/-- A word with one scalar source. -/
def sc2 (a : Sc2) (f : Word → Word) (s : State) : Out :=
  .next (s.scalarWord a.w a.xd [a.xa] fun xs => f (arg xs 0))

/-- A word with two scalar sources. -/
def sc3 (a : Sc3) (f : Word → Word → Word) (s : State) : Out :=
  .next (s.scalarWord a.w a.xd [a.xa, a.xb] fun xs => f (arg xs 0) (arg xs 1))

/-- A word with three scalar sources. -/
def sc4 (a : Sc4) (f : Word → Word → Word → Word) (s : State) : Out :=
  .next (s.scalarWord a.w a.xd [a.xa, a.xb, a.xc] fun xs => f (arg xs 0) (arg xs 1) (arg xs 2))

/-- A word with one scalar source and a sign-extended immediate (R90). -/
def scI (a : ScI) (f : Word → Word → Word) (s : State) : Out :=
  .next (s.scalarWord a.w a.xd [a.xa] fun xs => f (arg xs 0) (a.imm.signExtend 64))

def execIadd (a : Sc3) (s : State) : Out := sc3 a (fun x y => x + y) s
def execIsub (a : Sc3) (s : State) : Out := sc3 a (fun x y => x - y) s
def execIaddi (a : ScI) (s : State) : Out := scI a (fun x y => x + y) s
def execImul (a : Sc3) (s : State) : Out := sc3 a (fun x y => x * y) s

/-- The high half of the exact product (R315). -/
def mulHigh (k : MulHigh) (x y : Word) : Word :=
  let p : Int := match k with
    | .ss => x.toInt * y.toInt
    | .uu => Int.ofNat (x.toNat * y.toNat)
    | .su => x.toInt * Int.ofNat y.toNat
  BitVec.ofInt 64 (p / 2 ^ 64)

def execImulh (a : Sc3) (k : MulHigh) (s : State) : Out := sc3 a (mulHigh k) s

/-- The quotient (R314): rounded toward zero; all ones for a zero divisor. -/
def divWord (u : Bool) (x y : Word) : Word :=
  if y = 0 then BitVec.allOnes 64
  else if u then BitVec.ofNat 64 (x.toNat / y.toNat)
  else BitVec.ofInt 64 (x.toInt.tdiv y.toInt)

/-- The remainder (R314): with the sign of the dividend; the dividend for a zero divisor. -/
def remWord (u : Bool) (x y : Word) : Word :=
  if y = 0 then x
  else if u then BitVec.ofNat 64 (x.toNat % y.toNat)
  else BitVec.ofInt 64 (x.toInt.tmod y.toInt)

def execIdiv (a : Sc3) (u : Bool) (s : State) : Out := sc3 a (divWord u) s
def execIrem (a : Sc3) (u : Bool) (s : State) : Out := sc3 a (remWord u) s

def execAnd (a : Sc3) (s : State) : Out := sc3 a (fun x y => x &&& y) s
def execAndn (a : Sc3) (s : State) : Out := sc3 a (fun x y => x &&& ~~~y) s
def execAndi (a : ScI) (s : State) : Out := scI a (fun x y => x &&& y) s
def execOr (a : Sc3) (s : State) : Out := sc3 a (fun x y => x ||| y) s
def execOri (a : ScI) (s : State) : Out := scI a (fun x y => x ||| y) s
def execXor (a : Sc3) (s : State) : Out := sc3 a (fun x y => x ^^^ y) s
def execXori (a : ScI) (s : State) : Out := scI a (fun x y => x ^^^ y) s

/-- Shifts take all 64 bits of the count (R353). -/
def shlWord (x n : Word) : Word := if 64 ≤ n.toNat then 0 else x <<< n.toNat
def shrWord (x n : Word) : Word := if 64 ≤ n.toNat then 0 else x >>> n.toNat
def shraWord (x n : Word) : Word := x.sshiftRight (min n.toNat 64)

def execShl (a : Sc3) (s : State) : Out := sc3 a shlWord s
def execShr (a : Sc3) (s : State) : Out := sc3 a shrWord s
def execShra (a : Sc3) (s : State) : Out := sc3 a shraWord s

/-- Rotate right by the low six bits of the count (R347). -/
def rotWord (x n : Word) : Word := x.rotateRight (n.toNat % 64)

def execRot (a : Sc3) (s : State) : Out := sc3 a rotWord s

def popcWord (x : Word) : Word := BitVec.ofNat 64 (popCount 64 x.toNat)
def clzWord (x : Word) : Word := BitVec.ofNat 64 (64 - bitLen x.toNat)

def execPopc (a : Sc2) (s : State) : Out := sc2 a popcWord s
def execClz (a : Sc2) (s : State) : Out := sc2 a clzWord s

/-- Signed or unsigned order of two words (R329). -/
def leWord (u : Bool) (x y : Word) : Bool := if u then decide (x.toNat ≤ y.toNat) else decide (x.toInt ≤ y.toInt)

def execMin (a : Sc3) (u : Bool) (s : State) : Out := sc3 a (fun x y => if leWord u x y then x else y) s
def execMax (a : Sc3) (u : Bool) (s : State) : Out := sc3 a (fun x y => if leWord u x y then y else x) s

def execSel (a : Sc4) (s : State) : Out := sc4 a (fun x y z => if z = 0 then y else x) s

/-- An integer condition (R111, R313). -/
def condHolds (c : ICond) (x y : Word) : Bool :=
  match c with
  | .eq => decide (x = y)
  | .ne => decide (x ≠ y)
  | .lt => decide (x.toInt < y.toInt)
  | .le => decide (x.toInt ≤ y.toInt)
  | .ltu => decide (x.toNat < y.toNat)
  | .leu => decide (x.toNat ≤ y.toNat)

/-- 1 for true, 0 for false. -/
def boolWord (b : Bool) : Word := if b then 1 else 0

def execIcmp (a : Sc3) (c : ICond) (s : State) : Out := sc3 a (fun x y => boolWord (condHolds c x y)) s
def execIcmpi (a : ScI) (c : ICond) (s : State) : Out := scI a (fun x y => boolWord (condHolds c x y)) s
def execMov (a : Sc2) (s : State) : Out := sc2 a (fun x => x) s

/-- Position and width of a field (R302). -/
def fieldPos (p : Word) : Nat := p.toNat % 64
def fieldWidth (p n : Word) : Nat := min (n.toNat % 128) (64 - fieldPos p)

/-- BFX: the field, zero-extended or sign-extended from its highest bit (R302). -/
def bfxWord (sx : Bool) (x p n : Word) : Word :=
  let w := fieldWidth p n
  let f := (x.toNat >>> fieldPos p) % 2 ^ w
  if w = 0 then 0 else if sx then BitVec.ofInt 64 (signedOf w f) else BitVec.ofNat 64 f

/-- The mask of a field (R302). -/
def fieldMask (p n : Word) : Word := BitVec.ofNat 64 ((2 ^ fieldWidth p n - 1) <<< fieldPos p)

/-- BFI: the base with the field replaced (R302). -/
def bfiWord (base x p n : Word) : Word := (base &&& ~~~fieldMask p n) ||| ((x <<< fieldPos p) &&& fieldMask p n)

def execBfx (a : Sc4) (sx : Bool) (s : State) : Out := sc4 a (bfxWord sx) s

def execBfi (w : Wait) (xd : XReg) (xa xb xc : SOp) (s : State) : Out :=
  .next (s.scalarWord w xd.sop [xa, xb, xc, xd.sop] fun xs => bfiWord (arg xs 3) (arg xs 0) (arg xs 1) (arg xs 2))

def execLi (w : Wait) (xd : SOp) (imm : BitVec 32) (s : State) : Out :=
  .next (s.scalarWord w xd [] fun _ => imm.signExtend 64)

def execLiHi (w : Wait) (xd : XReg) (imm : BitVec 32) (s : State) : Out :=
  .next (s.scalarWord w xd.sop [xd.sop] fun xs => imm ++ (arg xs 0).setWidth 32)

end Sys2Proof.Machine
end

