-- ==== Sys2Proof/Machine/Matrix.lean ====
section
/-!
DEFINITION. The matrix engine (07_matrix_engine R124 to R141, 03_arithmetic R57 to R59, 18_reference R332 to R335): the Cinch,
format words, tile commands, their beats and completion, and the accumulator instructions.
-/
namespace Sys2Proof.Machine

/-! ## QFENCE marks (R190) -/

/-- Every earlier operation of a stream is performed (R181): nothing held, no load open, its writes applied everywhere and its
fabric requests acknowledged. -/
def State.streamDone (s : State) (c : CoreId) (q : SeqId) (st : Strm) : Bool :=
  let x := s.seq c q
  let y := x.strm st
  !(x.held.any fun h => decide (h.strm = st)) && y.loads.isEmpty && s.allDone y.deps &&
    !s.fabOpen y.fdeps

/-- What a QFENCE waits for has been performed: its marks are at the head of their queues, and the tile commands before it and
the stream's operations are done. -/
def State.qfReady (s : State) (c : CoreId) (f : QFence) : Bool :=
  let k := s.core c
  (List.finRange 8).all (fun n =>
    !f.queues.getLsbD n.val ||
      match (k.cq n).items with
      | .fence i :: _ => decide (i = f.id)
      | items => !items.contains (.fence f.id)) &&
    (match f.mtx with
     | some m =>
       (match k.front with | some x => decide (m ≤ x.serial) | none => true) &&
         (match k.shadow with | some x => decide (m ≤ x.serial) | none => true)
     | none => true) &&
    (match f.self with
     | some (q, st) => s.streamDone c q st
     | none => true)

/-- Drop a QFENCE and its marks. -/
def Core.dropFence (k : Core) (id : Nat) : Core :=
  { k with
    qfences := k.qfences.filter fun f => decide (f.id ≠ id)
    cqs := k.cqs.map fun x => { x with items := x.items.filter fun i => decide (i ≠ .fence id) } }

def State.sweepList (s : State) (c : CoreId) : List QFence → State
  | [] => s
  | f :: t => (if s.qfReady c f then s.modCore c (·.dropFence f.id) else s).sweepList c t

/-- Let go every QFENCE of a core that has nothing left to wait for. -/
def State.sweep (s : State) (c : CoreId) : State := s.sweepList c (s.core c).qfences

/-! ## The Cinch (R124 to R126) -/

/-- A request: FREE passes to WANT. -/
def Core.wantCinch (k : Core) (q : SeqId) : Core :=
  match k.cinchOf q with
  | .free => { k.setCinch q .want with cinchWant := k.cinchWant.set q.val k.cyc }
  | _ => k

/-- Another sequencer waits for the Cinch. -/
def Core.othersWant (k : Core) (q : SeqId) : Bool := allSeqs.any fun r => decide (r ≠ q) && decide (k.cinchOf r = .want)

/-- A tile command of the holder is accepted (R125). -/
def Core.countCinch (k : Core) (q : SeqId) : Core :=
  if k.cinchOf q = .hold then { k with cinchN := k.cinchN - 1, cinchAt := k.cyc } else k

/-- The holder, if any. -/
def Core.cinchHolder (k : Core) : Option SeqId := allSeqs.find? fun q => decide (k.cinchOf q = .hold)

/-- The end of a cycle, after every request of it (R125): a lease whose commands have all been accepted is renewed, or ends when
another sequencer waits; and since when the holder has kept another waiting (R124). -/
def Core.cinchTick (k : Core) : Core :=
  match k.cinchHolder with
  | none => { k with cinchOthers := none }
  | some q =>
    if k.cinchN ≠ 0 then { k with cinchOthers := if k.othersWant q then some (k.cinchOthers.getD k.cyc) else none }
    else if k.othersWant q then { k.dropCinch q with cinchOthers := none }
    else { k with cinchN := k.lease, cinchOthers := none }

/-- CINCH: a request, at once; it waits for no older UNCINCH or tile command that is still held (R306). -/
def execCinch (w : Wait) (s : State) : Out :=
  .next (s.issueWord { wait := w } fun s _ _ => (.go {}, s.modCore s.cur.core (·.wantCinch s.cur.seq)))

/-- UNCINCH acts once its window has closed (R361). -/
def execUncinch (w : Wait) (s : State) : Out :=
  .next (s.issueWord { wait := w } fun s _ _ => (.go { effs := [.uncinch] }, s))

/-- CINCH_GRANT: the first waiting sequencer after the last holder takes the array (R126). -/
def execCinchGrant (c : CoreId) (s : State) : Out :=
  let k := s.core c
  let order : List SeqId := [1, 2, 3, 4].map fun i => Fin.ofNat 4 (k.cinchH.val + i)
  match k.cinchHolder, order.find? fun q => decide (k.cinchOf q = .want) && decide (k.cinchWant[q.val] < k.cyc) with
  | none, some q =>
    if k.cinchAt < k.cyc then
      let k := (k.setCinch q .hold).monitor 14 (k.cyc - k.cinchWant[q.val])
      .next (s.setCore c { k with cinchN := k.lease, cinchH := q, cinchAt := k.cyc })
    else .next s
  | _, _ => .next s

/-- CINCH_IDLE_EXPIRY: 256 cycles in which no command of the holder is accepted while another waits end its lease (R124, R126); from
when they count is read by inference (DEDUCED, assumption log 81). -/
def execCinchIdleExpiry (c : CoreId) (s : State) : Out :=
  let k := s.core c
  match k.cinchHolder, k.cinchOthers with
  | some q, some t =>
    if max t k.cinchAt + 256 ≤ k.cyc ∧ k.othersWant q = true then .next (s.setCore c (k.dropCinch q))
    else .next s
  | _, _ => .next s

/-! ## Format words and shape records (R127, R128, R137) -/

def fwA (w : Word) : Nat := bitsOf w.toNat 3 0
def fwB (w : Word) : Nat := bitsOf w.toNat 7 4
def fwPA (w : Word) : Nat := bitsOf w.toNat 11 8
def fwPB (w : Word) : Nat := bitsOf w.toNat 15 12
def fwSA (w : Word) : Nat := bitsOf w.toNat 17 16
def fwSB (w : Word) : Nat := bitsOf w.toNat 19 18
def fwBS (w : Word) : Nat := bitsOf w.toNat 21 20

/-- The format of an operand field; a word that passed its check names one. -/
def fmtOf (c : Nat) : Fmt := (Fmt.ofCode c).getD .e4m3

/-- A scale field names no scale for a format that carries none (R39). -/
def sclAllowed (sc f : Nat) : Bool := decide (sc = 0) || (fmtOf f).scalable

/-- Cause of R128 of a format word, 0 for none. -/
def fwCause (w : Word) : Nat :=
  let plane (p : Nat) : Bool := decide (1 ≤ p) && decide (p ≤ 12)
  if bitsOf w.toNat 63 22 ≠ 0 then 1
  else if 13 ≤ fwA w ∨ 13 ≤ fwB w then 2
  else if !plane (fwPA w) || !plane (fwPB w) then 3
  else if !sclAllowed (fwSA w) (fwA w) || !sclAllowed (fwSB w) (fwB w) then 4
  else if (fwSA w ≠ 0 ∨ fwSB w ≠ 0) ∧ fwBS w = 3 then 5
  else 0

/-- One segment of a record; none when it breaks R137. -/
def segOf (w : Nat) : Option ShapeSeg :=
  let g : ShapeSeg := ⟨bitsOf w 5 0, bitsOf w 13 8, bitsOf w 28 16⟩
  if bitsOf w 63 29 = 0 ∧ bitsOf w 15 14 = 0 ∧ bitsOf w 7 6 = 0 ∧ g.lo ≤ g.hi ∧ g.klen ≤ 8160 then some g else none

/-- No two segments share a row. -/
def segsApart : List ShapeSeg → Bool
  | [] => true
  | g :: t => (t.all fun h => decide (g.hi < h.lo) || decide (h.hi < g.lo)) && segsApart t

/-- Bytes of the shape record at an offset (R137): its header and the segments that NSEG counts. -/
def Core.shapeLen (k : Core) (off : Nat) : Nat := 8 + 8 * min 16 (bitsOf (ofBytes (k.spadRead off 8)) 4 0)

/-- A shape record lies in a copy range (R146). -/
def Core.shapeHeld (k : Core) (off : Nat) : Bool := k.sbHit off 8 || k.sbHit off (k.shapeLen off)

/-- The segments of a shape record in the scratchpad; none when it breaks R137. -/
def Core.shapeRec (k : Core) (off : Nat) : Option (List ShapeSeg) :=
  let word (i : Nat) : Nat := ofBytes (k.spadRead (off + 8 * i) 8)
  let n := bitsOf (word 0) 4 0
  if bitsOf (word 0) 63 5 = 0 ∧ 1 ≤ n ∧ n ≤ 16 then
    let gs := (List.range n).map fun i => segOf (word (i + 1))
    if gs.all Option.isSome ∧ segsApart (gs.filterMap id) = true then some (gs.filterMap id) else none
  else none

/-- The one segment of MMA (R138). -/
def wholeShape (kb : Nat) : List ShapeSeg := [⟨0, 63, 32 * kb⟩]

/-! ## Tile commands -/

/-- Twice the pass count p (R133). -/
def MCmd.p2 (m : MCmd) : Nat :=
  let d := max (min (fwPA m.fmt) (fmtOf (fwA m.fmt)).planes) (min (fwPB m.fmt) (fmtOf (fwB m.fmt)).planes)
  if d ≤ 2 then 1 else if d ≤ 4 then 2 else if d ≤ 8 then 4 else 6

/-- The segment that covers a row. -/
def MCmd.seg (m : MCmd) (i : Nat) : Option ShapeSeg := m.shape.find? fun g => decide (g.lo ≤ i) && decide (i ≤ g.hi)

/-- Blocks of a covered row (R138). -/
def MCmd.kbRow (m : MCmd) (i : Nat) : Option Nat := (m.seg i).map fun g => min m.kb (ceilDiv g.klen 32)

/-- The effective block count KBe (R138). -/
def MCmd.kbe (m : MCmd) : Nat := (m.shape.map fun g => min m.kb (ceilDiv g.klen 32)).foldl max 0

/-- Beats of the command (R134). -/
def MCmd.beats (m : MCmd) : Nat := if m.kbe = 0 then 0 else ceilDiv (m.p2 * (m.kbe + 126)) 2

/-- Block-times that c beats complete. -/
def MCmd.times (m : MCmd) (c : Nat) : Nat := 2 * c / m.p2

/-- Blocks a position of a row with kb blocks has consumed after t block-times (R135). -/
def consumedAt (t i j kb : Nat) : Nat := min (t - i - j) kb

/-! ## Slabs (R46, R47, R132) -/

/-- Where the parts of a slab begin, and its size without a scale plane. -/
structure SlabGeo where
  (cls ex sel shr scl : Nat)

def slabGeo (f : Fmt) : SlabGeo :=
  let cls := 256 * (f.planes + 1)
  let ex := cls + (if f.hasClass then 512 else 0)
  let sel := ex + 256 * f.expBits
  ⟨cls, ex, sel, sel + 256, sel + (if f.bx?.isSome then 512 else 0)⟩

/-- Slab size S, with its scale plane where the operand is scaled. -/
def slabSize (f : Fmt) (scaled : Bool) : Nat := (slabGeo f).scl + (if scaled then 256 else 0)

/-- Bit e of a word of the scratchpad. -/
def Core.spadBit (k : Core) (off e : Nat) : Bool := (k.spadGet (off + e / 8)).getLsbD (e % 8)

/-- Element e of line l of a slab in plane form (R46). -/
def Core.slabEl (k : Core) (f : Fmt) (base l e : Nat) : PlaneEl :=
  let g := slabGeo f
  let p := f.planes
  let sig := lanePlane.ofBits ((List.range p).map fun j => k.spadBit (base + 256 * j + 4 * l) e)
  let cls := if f.hasClass then b2n (k.spadBit (base + g.cls + 8 * l) (2 * e)) + 2 * b2n (k.spadBit (base + g.cls + 8 * l) (2 * e + 1)) else 0
  let ex :=
    if f.expBits = 4 then
      let b := (k.spadGet (base + g.ex + 16 * l + e / 2)).toNat
      if e % 2 = 0 then b % 16 else b / 16
    else if f.expBits = 8 then (k.spadGet (base + g.ex + 32 * l + e)).toNat
    else 0
  ⟨sig, k.spadBit (base + 256 * p + 4 * l) e, cls, ex, f.bx?.isSome && k.spadBit (base + g.sel + 4 * l) e⟩

/-- The value of an element of a slab with d planes declared. -/
def Core.slabVal (k : Core) (f : Fmt) (d base l e : Nat) : FVal :=
  let g := slabGeo f
  let sh (i : Nat) : Nat := if f.bx?.isSome then (k.spadGet (base + g.shr + 4 * l + i)).toNat else 0
  planeVal f d (sh 0) (sh 1) (k.slabEl f base l e)

/-- A scale field of a format word as an encoding (R127). -/
def sclOf : Nat → Scl
  | 1 => .e8m0
  | 2 => .e4m3
  | 3 => .e5m2
  | _ => .none

/-- One operand of a command: format, planes declared, scale encoding, base of slab 0. -/
structure Operand where
  (f : Fmt) (d : Nat) (scl : Scl) (base : Nat)

def MCmd.opA (m : MCmd) : Operand := ⟨fmtOf (fwA m.fmt), fwPA m.fmt, sclOf (fwSA m.fmt), m.abase⟩
def MCmd.opB (m : MCmd) : Operand := ⟨fmtOf (fwB m.fmt), fwPB m.fmt, sclOf (fwSB m.fmt), m.bbase⟩

/-- Size and place of slab k of an operand; the low 7 bits of the base are ignored (R47, R132). -/
def Operand.size (o : Operand) : Nat := slabSize o.f (decide (o.scl ≠ .none))
def Operand.slab (o : Operand) (k : Nat) : Nat := o.base / 128 * 128 + k * o.size

/-- The block scale of sub-block t of a line (R46). -/
def Operand.scale (o : Operand) (x : Core) (k l t : Nat) : FVal :=
  match o.scl with
  | .none => sclVal .none 0
  | c => sclVal c (x.spadGet (o.slab k + (slabGeo o.f).scl + 4 * l + t)).toNat

/-- Elements of a scale sub-block; an unscaled command has one sub-block (R57). -/
def MCmd.sub (m : MCmd) : Nat := if fwSA m.fmt = 0 ∧ fwSB m.fmt = 0 then 32 else 8 * 2 ^ fwBS m.fmt

/-- One sub-block of a block of a position: its scaled sum and flags; none when no element of it is present (R57). -/
def MCmd.subSum (m : MCmd) (x : Core) (i j k klen t : Nat) : Option (FVal × BitVec 5) :=
  let es := (List.range m.sub).map fun e => t * m.sub + e
  if !es.any fun e => decide (k * 32 + e < klen) then none
  else
    let ps := es.map fun e =>
      if k * 32 + e < klen then
        FVal.mul (x.slabVal m.opA.f m.opA.d (m.opA.slab k) i e) (x.slabVal m.opB.f m.opB.d (m.opB.slab k) j e)
      else (FVal.fin false 0 0, 0)
    let p := FVal.sum false (ps.map (·.1))
    let u := FVal.mul (m.opA.scale x k i t) (m.opB.scale x k j t)
    let v := if m.sub = 32 ∧ fwSA m.fmt = 0 ∧ fwSB m.fmt = 0 then (p.1, (0 : BitVec 5)) else FVal.mul u.1 p.1
    some (v.1, (ps.map (·.2)).foldl (· ||| ·) (p.2 ||| u.2 ||| v.2))

/-- The value of a position after one more block, and the flags raised (R57). The missing elements of a partial block add +0,
those of whole sub-blocks too; the initial s and p are no terms, so a full block of products -0 gives -0 (DEDUCED, assumption
log 79). -/
def MCmd.block (m : MCmd) (x : Core) (i j k klen : Nat) (acc : Acc) : Acc × BitVec 5 :=
  let ss := (List.range (32 / m.sub)).filterMap fun t => m.subSum x i j k klen t
  let missing := if klen < k * 32 + 32 then [FVal.fin false 0 0] else []
  let t := FVal.sum false (ss.map (·.1) ++ missing)
  let b := roundF fAcc48 .rne t.1
  let u := FVal.add false (fAcc48.decode acc.toNat) (fAcc48.decode b.1)
  let r := roundF fAcc48 .rne u.1
  (BitVec.ofNat 48 r.1, (ss.map (·.2)).foldl (· ||| ·) (t.2 ||| b.2 ||| u.2 ||| r.2))

/-! ## Values of positions (R131, R135, R138) -/

/-- A tile element. -/
def Core.tileGet (k : Core) (t : Fin 32) (i j : Nat) : Acc := tblGet 0 k.tiles (tileKey t i j)

/-- The value of a position under a command whose tile holds `base` there. -/
def MCmd.posVal (m : MCmd) (i j : Nat) (base : Acc) : Acc :=
  match m.kbRow i with
  | none => base
  | some _ =>
    match mapGet m.work (64 * i + j) with
    | some v => v
    | none => if m.z then 0 else base

/-- What the shadow command starts from: the tile, or the front command's result on the same tile (R131). -/
def Core.shadowBase (k : Core) (m : MCmd) (i j : Nat) : Acc :=
  match k.front with
  | some f => if f.atd = m.atd then f.posVal i j (k.tileGet m.atd i j) else k.tileGet m.atd i j
  | none => k.tileGet m.atd i j

/-- Feed a position its blocks from one count to another. -/
def MCmd.feed (m : MCmd) (x : Core) (i j klen : Nat) : Nat → Nat → Acc × BitVec 5 → Acc × BitVec 5
  | 0, _, v => v
  | n + 1, k, v =>
    let b := m.block x i j k klen v.1
    m.feed x i j klen n (k + 1) (b.1, v.2 ||| b.2)

/-- The scratchpad as a command reads it: bytes it keeps at their old values are so (R48). -/
def MCmd.sees (m : MCmd) (x : Core) : Core :=
  { x with spad := m.pins.foldl (fun t p => tblSet 0 t p.1 p.2) x.spad }

/-- One beat of a command: every position consumes the blocks whose block-time ends (R134, R135). -/
def MCmd.beat (m : MCmd) (core : Core) (base : Nat → Nat → Acc) (cells : List (Nat × Nat)) : MCmd :=
  let x := m.sees core
  let t0 := m.times m.c
  let t1 := m.times (m.c + 1)
  let m' := cells.foldl (fun n p =>
    match m.seg p.1 with
    | none => n
    | some g =>
      let kb := min m.kb (ceilDiv g.klen 32)
      let a := consumedAt t0 p.1 p.2 kb
      let b := consumedAt t1 p.1 p.2 kb
      if a = b then n
      else
        let v := m.feed x p.1 p.2 g.klen (b - a) a (m.posVal p.1 p.2 (base p.1 p.2), 0)
        { n with work := mapPut n.work (64 * p.1 + p.2) v.1, flags := n.flags ||| v.2 }) m
  { m' with c := m.c + 1 }

/-- Every position of the array. -/
def allCells : List (Nat × Nat) := (List.range 64).flatMap fun i => (List.range 64).map fun j => (i, j)

/-- Some covered position is in slab k during the block-times from lo to hi (R134, R138). -/
def MCmd.inBlock (m : MCmd) (lo hi k : Nat) : Bool :=
  m.shape.any fun g => decide (k < min m.kb (ceilDiv g.klen 32)) && decide (k + g.lo ≤ hi) && decide (lo ≤ k + g.hi + 63)

/-- The last block-time that lies in the beats up to beat c. -/
def MCmd.lastTime (m : MCmd) (c : Nat) : Nat := max (m.times c) (m.times (c + 1) - 1)

/-- Slabs that the next beat of a command reads. -/
def MCmd.slabsNow (m : MCmd) : List (Nat × Nat) :=
  ((List.range m.kbe).filter (m.inBlock (m.times m.c) (m.lastTime m.c))).flatMap fun k =>
    [(m.opA.slab k, m.opA.size), (m.opB.slab k, m.opB.size)]

/-- A byte lies in a slab that the command reads; `past` asks for those that its completed beats have read. -/
def MCmd.readsByte (m : MCmd) (past : Bool) (a : Nat) : Bool :=
  (List.range m.kbe).any fun k =>
    (!past || (decide (0 < m.c) && m.inBlock 0 (m.lastTime (m.c - 1)) k)) &&
      (spadMeets (m.opA.slab k % 2 ^ 22) m.opA.size a 1 || spadMeets (m.opB.slab k % 2 ^ 22) m.opB.size a 1)

/-- A slab that the next beat reads lies in a copy range (R132). -/
def Core.slabHeld (k : Core) (m : MCmd) : Bool := m.slabsNow.any fun r => k.sbHit r.1 r.2

/-- A store meets a tile command in flight (R48): a byte that its beats have read stays at its old value for it; of one that
they have not, a free value says whether the command reads the old value or the new one (assumption log 80), and the old one once a read
of its tile may have returned its result (R140). -/
def MCmd.pinOld (m : MCmd) (x : Core) (ctr off : Nat) (bs : List (Option Byte)) : MCmd :=
  { m with pins := m.pins ++ (List.range bs.length).filterMap fun i =>
      let a := (off + i) % 2 ^ 22
      if ((bs[i]?).join).isSome && m.readsByte false a && (mapGet m.pins a).isNone &&
          (m.readsByte true a || m.seen || decide (Config.free (ctr + i) % 2 = 1)) then some (a, x.spadGet a) else none }

/-- Write bytes to the scratchpad of a core, wrapping modulo 4 MiB; tile commands in flight read each byte old or new (R48). -/
def State.spadStore (s : State) (c : CoreId) (off : Nat) (bs : List (Option Byte)) : State :=
  let k := s.core c
  let i := s.freeCtr
  let n := bs.length
  let s := if k.front.isSome || k.shadow.isSome then { s with freeCtr := i + 2 * n } else s
  s.modCore c fun x => { x.spadWrite off bs with
    front := x.front.map fun m => m.pinOld k i off bs
    shadow := x.shadow.map fun m => m.pinOld k (i + n) off bs }

/-- Write a command's result into its tile: every position of a covered row. -/
def Core.writeResult (k : Core) (m : MCmd) : Core :=
  { k with tiles := allCells.foldl (fun t p =>
      match m.kbRow p.1 with
      | none => t
      | some _ => tblSet 0 t (tileKey m.atd p.1 p.2) (m.posVal p.1 p.2 (k.tileGet m.atd p.1 p.2))) k.tiles }

/-- A held write of a tile by a word of the core. -/
def Core.tileBusy (k : Core) (t : Fin 32) : Bool :=
  k.seqs.toList.any fun x => x.held.any fun h => h.effs.any fun
        | .tile u _ | .land _ (.tile u) _ => decide (u = t)
        | _ => false

/-- The array may complete a beat in this cycle (R2, R277). -/
def Core.beatPace (k : Core) : Bool :=
  match k.lastBeat with
  | none => true
  | some b => k.paceOk 1 b

/-- The shadow command may take its next beat: the front command is as far ahead as at its beat 0 (R131), after a restore too,
which sets each command back by its own pass count (R136). -/
def shadowMay (f m : MCmd) : Bool := decide (ceilDiv (f.p2 * f.kbe + (f.p2 - m.p2) * 126) 2 + m.c ≤ f.c)

/-- The QFENCEs and the accumulator instructions that a command must let go first are done (R141, R190). -/
def Core.mayBegin (k : Core) (m : MCmd) : Bool :=
  !(m.after.any fun i => k.qfences.any fun f => decide (f.id = i)) && !k.tileBusy m.atd

/-- A command may take its next beat: before its beat 0, GAP of PACE0 and what it must let go first (R131, R141, R190). -/
def Core.mayBeat (k : Core) (m : MCmd) : Bool :=
  decide (0 < m.c) ||
    ((match k.mbegan with | some b => decide (b + k.pace[0] ≤ k.cyc) | none => true) && k.mayBegin m)

/-- The command in the front slot completes if its beats are done and, where it has none, it may begin: its tile is written, its
flags go to its sequencer, the shadow command moves up (R130, R134, R139). -/
def Core.completeFront (k : Core) : Option Core :=
  match k.front with
  | none => none
  | some m =>
    if m.beats ≤ m.c ∧ (decide (0 < m.beats) || k.mayBegin m) = true then
      let k := k.writeResult m
      let x := (k.seq m.seq).orFlags m.flags
      let k := k.setSeq m.seq { x with held := x.held.map fun h => { h with flags := h.flags ||| m.flags } }
      some (({ k with front := k.shadow, shadow := none } : Core).endedCinch m.seq)
    else none

/-- The front command completes, and a shadow command without beats with it (R134). -/
def Core.complete (k : Core) : Option Core := k.completeFront.map fun k =>
  if k.front.all fun m => decide (0 < m.beats) then k else (k.completeFront).getD k

/-- The commands that can take the next beat: the front's, the shadow's. -/
def Core.beatFront (k : Core) : Option MCmd := k.front.filter fun f => decide (f.c < f.beats) && k.mayBeat f
def Core.beatShadow (k : Core) : Option MCmd :=
  k.front.bind fun f => k.shadow.filter fun m => decide (m.c < m.beats) && k.mayBeat m && shadowMay f m

/-- The scoreboard holds a slab that the next beat would read (R132). -/
def Core.arrayHeld (k : Core) : Bool := (k.beatFront.any k.slabHeld) || (k.beatShadow.any k.slabHeld)

/-- The array advances both slots by one beat; none when it is held. A command whose last beat this is completes with it, and the
cycles for which the scoreboard held the array are recorded (R134, R146). -/
def Core.beat (k : Core) : Option Core :=
  match k.front with
  | none => none
  | some f =>
    let goF := k.beatFront.isSome
    let sh := k.beatShadow
    if k.arrayHeld || !k.beatPace || !(goF || sh.isSome) then none
    else
      let f' := if goF then f.beat k (fun i j => k.tileGet f.atd i j) allCells else f
      let k' := { k with front := some f' }
      let m' := match sh with
        | some m => some (m.beat k (fun i j => k'.shadowBase m i j) allCells)
        | none => k.shadow
      let began := (goF && decide (f.c = 0)) || (match sh with | some m => decide (m.c = 0) | none => false)
      let k' := match k.mheld with
        | some t => k'.monitor 8 (k.cyc - t)
        | none => k'
      let k' := { k' with shadow := m', mbegan := if began then some k.cyc else k.mbegan, mheld := none }
      let woke := match k.lastBeat with
        | some b => decide (b + 64 ≤ k.cyc)
        | none => true
      let k' := { (if woke then k'.addWake 64 else k') with lastBeat := some k.cyc }
      some (k'.complete.getD k')

/-- MATRIX_BEAT: the array of a core completes one beat, or the scoreboard begins to hold it (R131, R132, R134). -/
def execMatrixBeat (c : CoreId) (s : State) : Out :=
  let s := s.sweep c
  if !s.arrayRuns c then .next s
  else
    match (s.core c).beat with
    | some k => .next ((s.setCore c k).sweep c)
    | none => .next (s.modCore c fun k =>
        if k.arrayHeld && k.mheld.isNone then { k with mheld := some k.cyc } else k)

/-- TILE_COMPLETE: a command whose beats are done completes (R134, R139). -/
def execTileComplete (c : CoreId) (s : State) : Out :=
  if !s.arrayRuns c then .next s
  else
    match (s.core c).complete with
    | some k => .next ((s.setCore c k).sweep c)
    | none => .next s

/-! ## MMA and MMAS (R333) -/

/-- Commands in the slots and held on their way to one. -/
def Core.slotsUsed (k : Core) : Nat :=
  b2n k.front.isSome + b2n k.shadow.isSome + (k.seqs.toList.filter Seq.heldMma).length

/-- Acceptance: the command takes a slot and the Cinch counts it (R130); without beats it may complete at once (R134). -/
def Core.accept (k : Core) (m : MCmd) : Core :=
  let m := { m with serial := k.mserial, after := (k.qfences.filter fun (f : QFence) => f.mtx.isSome).map QFence.id }
  let k := ({ k with mserial := k.mserial + 1 }).countCinch m.seq
  match k.front with
  | none =>
    let k := { k with front := some m }
    if m.beats = 0 then (k.complete).getD k else k
  | some _ => { k with shadow := some m }

/-- A format word is on its way to FQ: a place at its head is reserved for a load, or a word that has issued holds a push to it. Held
effects leave in issue order, so that it is there before the command's pop (R75, R129, R316, R333). -/
def Seq.fqComing (x : Seq) : Bool := !x.fq.isEmpty || clashes [.queue .fq] ((x.heldEffs).flatMap (Eff.objs 0))

/-- A tile command at issue: the Cinch, a slot, the format word and its check; then its held acceptance, which takes the slot,
the lease count and the entry of FQ, and reads the shape record (R130, R333, DEDUCED, assumption log 82). -/
def State.tileCmd (s : State) (a : MmaA) (av bv : Word) (xs : Option Word) : Res × State :=
  let c := s.cur.core
  let q := s.cur.seq
  let k := s.core c
  if k.cinchOf q ≠ .hold then (.stall 5, s.setCore c (k.wantCinch q))
  else if k.cinchN = 0 then (.stall 5, s)
  else if 2 ≤ k.slotsUsed then (.stall 0, s)
  else
    match frontVals (k.seq q).fq with
    | [] => if (k.seq q).fqComing then (.stall 0, s) else (.trap ⟨3, 0, 0, 0⟩, s)
    | fw :: _ =>
      if fwCause fw ≠ 0 then (.trap ⟨4, fwCause fw, fw, 0⟩, s.modSeq c q fun x => x.popQ .fq)
      else
        let off := xs.map fun x => x.toNat % 2 ^ 22 / 8 * 8
        if off.any k.shapeHeld then (.stall 6, s)
        else if off.any fun o => s.ownClash [.spad o (k.shapeLen o)] then (.stall 0, s)
        else (.go { effs := [.mma ⟨0, a.atd, av.toNat % 2 ^ 22, bv.toNat % 2 ^ 22, a.kb.toNat, a.z, fw,
          wholeShape a.kb.toNat, q, 0, [], 0, [], off, [], [], false⟩] }, s)

def execMma (a : MmaA) (s : State) : Out :=
  .next (s.issueWord { wait := a.w, src := [a.xa.sop, a.xb.sop], own := [.queue .fq, .cinch] } fun s xs _ =>
    s.tileCmd a (arg xs 0) (arg xs 1) none)

def execMmas (a : MmaA) (xs : XReg) (s : State) : Out :=
  .next (s.issueWord { wait := a.w, src := [a.xa.sop, a.xb.sop, xs.sop], own := [.queue .fq, .cinch] } fun s vs _ =>
    s.tileCmd a (arg vs 0) (arg vs 1) (some (arg vs 2)))

/-- FQPUSH (R310). -/
def execFqpush (w : Wait) (xa : XReg) (s : State) : Out :=
  .next (s.scalarWord w .fq [xa.sop] fun xs => arg xs 0)

/-! ## Accumulator instructions (R141, R334, R335) -/

/-- The tile is idle and no load is writing it. -/
def Core.tileIdle (k : Core) (t : Fin 32) : Bool := !k.tileOwned t && !k.tileBusy t

/-- MZERO. -/
def execMzero (w : Wait) (atd : Fin 32) (s : State) : Out :=
  .next (s.issueWord { wait := w, shared := [.tile atd] } fun s _ _ =>
    if (s.core s.cur.core).tileIdle atd then (.go { effs := [.tile atd (List.replicate 4096 0)] }, s) else (.stall 0, s))

/-- MWAIT: an ordering point; the flags of a completed command are in FLAGS (R139). -/
def execMwait (w : Wait) (atd : Fin 32) (s : State) : Out :=
  .next (s.issueWord { wait := w } fun s _ _ =>
    if (s.core s.cur.core).tileOwned atd then (.stall 0, s) else (.go {}, s))

/-- Byte width of a type of MRD and MWR (R116). -/
def mtypeBytes : MType → Nat
  | .f32 | .i32 => 4
  | .bf16 | .f16 => 2
  | .e4m3 | .e5m2 => 1
  | .acc => 8

/-- The number type of a type of MRD and MWR. -/
def mtypeNum : MType → Num
  | .f32 => .flt fF32
  | .bf16 => .flt fBF16
  | .f16 => .flt fF16
  | .e4m3 => .flt fE4M3
  | .e5m2 => .flt fE5M2
  | .i32 => .int 32 true
  | .acc => .flt fAcc48

/-- The ACC48 code of an element that MWR reads. -/
def mwrElem (ty : MType) (c : Nat) : Acc :=
  match ty with
  | .acc => BitVec.ofNat 48 c
  | t => BitVec.ofNat 48 (roundF fAcc48 .rne ((mtypeNum t).decode c)).1

/-- Elements of w bytes in a run of bytes. -/
def elemsOf (w : Nat) : Nat → List Byte → List Nat
  | 0, _ => []
  | n + 1, bs => ofBytes (bs.take w) :: elemsOf w n (bs.drop w)

/-- Scratchpad offset of MRD and MWR: bits [21:7] of a register. -/
def tileSpad (v : Word) : Nat := v.toNat % 2 ^ 22 / 128 * 128

def execMwr (a : TileA) (ty : MType) (s : State) : Out :=
  .next (s.issueWord { wait := a.w, src := [a.xa.sop], shared := [.tile a.atd] } fun s xs _ =>
    let k := s.core s.cur.core
    let n := 4096 * mtypeBytes ty
    let off := tileSpad (arg xs 0)
    if !k.tileIdle a.atd then (.stall 0, s)
    else if k.sbHit off n then (.stall 6, s)
    else if s.ownClash [.spad off n] then (.stall 0, s)
    else (.go { effs := [.tile a.atd ((elemsOf (mtypeBytes ty) 4096 (k.spadRead off n)).map (mwrElem ty))] }, s))

/-- What a position of a command will hold when it completes, from the value it has now (R140). -/
def MCmd.finalVal (m : MCmd) (x : Core) (i j : Nat) (base : Acc) : Acc :=
  match m.seg i with
  | none => base
  | some g =>
    let kb := min m.kb (ceilDiv g.klen 32)
    let a := consumedAt (m.times m.c) i j kb
    (m.feed (m.sees x) i j g.klen (kb - a) a (m.posVal i j base, 0)).1

/-- No copy is in flight on a slab of a command: its bytes are there (R132). -/
def Core.settled (k : Core) (m : MCmd) : Bool :=
  (List.range m.kbe).all fun n => !k.sbHit (m.opA.slab n) m.opA.size && !k.sbHit (m.opB.slab n) m.opB.size

/-- The value of a tile element at the acceptance of a command on the tile. -/
def Core.tileWas (k : Core) (m : MCmd) (i j : Nat) : Acc := (mapGet m.was (64 * i + j)).getD (k.tileGet m.atd i j)

/-- A command in a slot works on a tile. -/
def MCmd.on (t : Fin 32) (m : Option MCmd) : Option MCmd := m.filter fun m => decide (m.atd = t)

/-- The values a read of a tile element may return: that at the acceptance of each command in flight on the tile, and that at its
completion, once its slabs have their bytes (R140, assumption log 21). -/
def Core.tileChoices (k : Core) (t : Fin 32) (i j : Nat) : List Acc :=
  let v := k.tileGet t i j
  let last (m : MCmd) (b : Acc) : List Acc := if k.settled m then [m.finalVal k i j b] else []
  match MCmd.on t k.front, MCmd.on t k.shadow with
  | none, none => [v]
  | some f, none => k.tileWas f i j :: last f v
  | none, some m => k.tileWas m i j :: last m v
  | some f, some m => k.tileWas f i j :: k.tileWas m i j :: last f v ++ (last f v).flatMap (last m)

/-- A read of a tile may have returned the result of a command on it. -/
def Core.noteRead (k : Core) (t : Fin 32) : Core :=
  let note (m : MCmd) : MCmd := { m with seen := m.seen || (decide (m.atd = t) && k.settled m) }
  { k with front := k.front.map note, shadow := k.shadow.map note }

/-- Read a whole tile: one choice for each element, each with a free value of its own. -/
def State.readTile (s : State) (c : CoreId) (t : Fin 32) : List Acc × State :=
  let k := s.core c
  if !k.tileOwned t then (allCells.map fun p => k.tileGet t p.1 p.2, s)
  else
    (allCells.map fun p =>
      let vs := k.tileChoices t p.1 p.2
      (vs[Config.free (s.freeCtr + 64 * p.1 + p.2) % vs.length]?).getD 0,
      ({ s with freeCtr := s.freeCtr + 4096 } : State).modCore c (·.noteRead t))

/-- One element of MRD: its code and flags (R59, R141). -/
def mrdElem (ty : MType) (r : RMode) (scales : Option (FVal × FVal)) (v : Acc) : Nat × BitVec 5 :=
  match ty, scales with
  | .acc, none => (v.toNat, 0)
  | _, _ =>
    let x := fAcc48.decode v.toNat
    let y := match scales with
      | none => (x, (0 : BitVec 5))
      | some (ta, tb) =>
        let u := x.mul ta
        let w := u.1.mul tb
        (w.1, u.2 ||| w.2)
    let z := (mtypeNum ty).convert (.fixed r) y.1
    (z.1, y.2 ||| z.2)

def execMrd (a : TileA) (xb : XReg) (ty : MType) (r : RMode) (s : State) : Out :=
  .next (s.issueWord { wait := a.w, src := [a.xa.sop, xb.sop], own := [.tile a.atd, .spr 3] } fun s xs _ =>
    let k := s.core s.cur.core
    let w := mtypeBytes ty
    let off := tileSpad (arg xs 0)
    let t := arg xs 1
    let scales := match xb with
      | .xz => none
      | .x _ => some (fF32.decode (t.toNat % 2 ^ 32), fF32.decode (t.toNat / 2 ^ 32))
    if k.tileBusy a.atd then (.stall 0, s)
    else if k.sbHit off (4096 * w) then (.stall 6, s)
    else if s.ownClash [.spad off (4096 * w)] then (.stall 0, s)
    else
      let (vs, s) := s.readTile s.cur.core a.atd
      let ps := vs.map (mrdElem ty r scales)
      (.go { fl := (ps.map (·.2)).foldl (· ||| ·) 0
             effs := [.stSpad off ((ps.flatMap fun p => toBytes w p.1).map some)] }, s))

/-- The 8-byte images of accumulator values (R42). -/
def accImages (vs : List Acc) : List (Option Byte) := (vs.flatMap fun v => toBytes 8 v.toNat).map some

def execMsave (a : TileA) (s : State) : Out :=
  .next (s.issueWord { wait := a.w, src := [a.xa.sop], own := [.tile a.atd] } fun s xs _ =>
    if (s.core s.cur.core).tileBusy a.atd then (.stall 0, s)
    else
      let (vs, s) := s.readTile s.cur.core a.atd
      s.storeWord .tlb (arg xs 0 &&& ~~~127) (accImages vs) none)

def execMload (a : TileA) (s : State) : Out :=
  .next (s.issueWord { wait := a.w, src := [a.xa.sop], shared := [.tile a.atd] } fun s xs _ =>
    if !(s.core s.cur.core).tileIdle a.atd then (.stall 0, s)
    else
      s.loadWord .tlb (arg xs 0 &&& ~~~127) 32768 (.tile a.atd) none fun _ bs => { effs := [.tile a.atd (accsOf bs 4096)] })

end Sys2Proof.Machine
end

