-- ==== Sys2Proof/Machine/Control.lean ====
section
/-!
DEFINITION. The control words of R113: branches inside a section, jumps between sections, HALT and TRAP
(17_reference R299 to R311, 18_reference R318 to R328, 19_reference R359).
-/
namespace Sys2Proof.Machine

/-- A branch condition (R300). -/
def branchHolds (c : BCond) (x y : Word) : Bool :=
  match c with
  | .eq => decide (x = y)
  | .ne => decide (x ≠ y)
  | .lt => decide (x.toInt < y.toInt)
  | .ge => decide (y.toInt ≤ x.toInt)
  | .ltu => decide (x.toNat < y.toNat)
  | .geu => decide (y.toNat ≤ x.toNat)

/-- The header of the section a stream stands in, as the trap of R68 reports it (R213). -/
def State.curHead (s : State) (c : CoreId) (y : Stream) : Word :=
  match s.curSec c y with
  | some e => e.head
  | none => 0

/-- A branch to a word of the same section (R299): a target outside the section traps when the branch is taken. -/
def State.branchRes (s : State) (taken : Bool) (off : BitVec 32) (r : Ret) : Res :=
  let y := s.strm s.cur.core s.cur.seq s.cur.strm
  let t : Int := Int.ofNat (y.word.getD 0) + off.toInt
  if !taken then .go r
  else if t < 0 ∨ Int.ofNat y.len ≤ t then .trap ⟨2, 6, s.curHead s.cur.core y, 0⟩
  else .go { r with ctl := .word t.toNat }

def execB (a : BrA) (s : State) : Out :=
  .next (s.issueWord { wait := a.w, src := [a.xa.sop, a.xb.sop] } fun s xs _ =>
    (s.branchRes (branchHolds a.cnd (arg xs 0) (arg xs 1)) a.off {}, s))

/-- BQ pops one entry of its queue and branches on it (R304). -/
def execBq (w : Wait) (n : Fin 4) (xb : XReg) (cnd : BCond) (_hint : Hint) (off : BitVec 32) (s : State) : Out :=
  .next (s.issueWord { wait := w, src := [.bq n, xb.sop] } fun s xs _ =>
    (s.branchRes (branchHolds cnd (arg xs 0) (arg xs 1)) off {}, s))

/-- LOOP counts down and branches while the count lasts (R328). -/
def execLoop (w : Wait) (xa : Fin 64) (_hint : Hint) (off : BitVec 32) (s : State) : Out :=
  .next (s.issueWord { wait := w, src := [.x xa] } fun s xs _ =>
    let n := arg xs 0
    let last := decide (n.toNat ≤ 1)
    (s.branchRes (!last) off { x := [(xa, if last then 0 else n - 1)] }, s))

/-- The header a jump goes to (R318). -/
def jumpTarget (h : Word) (xa : XReg) (v : Word) (off : BitVec 32) : Word :=
  let base := match xa with
    | .xz => h
    | .x _ => v
  (base + 4 * off.signExtend 64) &&& ~~~3

def execJ (w : Wait) (xa : XReg) (off : BitVec 32) (s : State) : Out :=
  .next (s.issueWord { wait := w, src := [xa.sop] } fun s xs _ =>
    let y := s.strm s.cur.core s.cur.seq s.cur.strm
    (.go { ctl := .header (jumpTarget y.hdr xa (arg xs 0) off) }, s))

/-- JAL links the header that follows the current section in memory (R319). -/
def execJal (w : Wait) (xa xb : XReg) (off : BitVec 32) (s : State) : Out :=
  .next (s.issueWord { wait := w, src := [xa.sop], dst := [xb.sop] } fun s xs _ =>
    let y := s.strm s.cur.core s.cur.seq s.cur.strm
    (.go (retDst (s.seq s.cur.core s.cur.seq) xb.sop y.nextHdr
      { ctl := .header (jumpTarget y.hdr xa (arg xs 0) off) }), s))

/-- HALT ends the stream once every older word has retired (R311). -/
def execHalt (w : Wait) (s : State) : Out :=
  .next (s.issueWord { wait := w } fun s _ _ =>
    if (s.seq s.cur.core s.cur.seq).streamIdle s.cur.strm then (.go { ctl := .ended }, s) else (.stall 0, s))

def execTrap (w : Wait) (n : BitVec 32) (s : State) : Out :=
  .next (s.issueWord { wait := w } fun s _ _ => (.trap ⟨14, n.toNat % 256, n.setWidth 64, 0⟩, s))

end Sys2Proof.Machine
end

