-- ==== Sys2Proof/Machine/ScalarMem.lean ====
section
/-!
DEFINITION. The scalar memory words LD, ST and PROBE (18_reference R323 to R326, R340, R341, 19_reference R356, R357).
-/
namespace Sys2Proof.Machine

/-- The effective address of an M-format word (R90): base, index and offset. -/
def effAddr (base idx : Word) (off : BitVec 20) : Word := base + idx + off.signExtend 64

/-- Where a scalar load's value lands. -/
def loadDst (d : SOp) (sz : Size) : LDst :=
  match d with
  | .x n => .x n sz
  | .bq n => .q (.bq n) sz
  | .fq => .q .fq sz
  | .xz => .none sz

/-- LD (R324); .ar waits until every earlier operation of its stream is performed at the scope (R185). -/
def execLd (a : MemA) (s : State) : Out :=
  .next (s.issueWord { wait := a.w, src := [a.base.sop, a.idx.sop], dst := [a.d], own := s.portUse } fun s xs _ =>
    if a.ord = .ar ∧ s.fenced s.cur.core s.cur.seq s.cur.strm a.scope = false then (.stall 0, s)
    else s.loadWord (s.via a.base) (effAddr (arg xs 0) (arg xs 1) a.off) (sizeBytes a.size) (loadDst a.d a.size)
      (acqScope a.ord a.scope)
      fun s bs => retDst (s.seq s.cur.core s.cur.seq) a.d (scalarOf a.size bs) {})

/-- ST (R356); behind .ar no later word issues until the store is performed at the scope (R185). -/
def execSt (a : MemA) (s : State) : Out :=
  .next (s.issueWord { wait := a.w, src := [a.d, a.base.sop, a.idx.sop], own := s.portUse } fun s xs _ =>
    s.storeWord (s.via a.base) (effAddr (arg xs 1) (arg xs 2) a.off)
      ((toBytes (sizeBytes a.size) (arg xs 0).toNat).map some) (relScope a.ord a.scope)
      (if a.ord = .ar then relScope a.ord a.scope else none))

/-- The class of an address (R163, R341): 0 context virtual, 1 own scratchpad, 2 remote scratchpad, 3 none. -/
def addrClass (a : Nat) : Nat :=
  if a < 2 ^ 52 then 0
  else if inWindow a then 1
  else if 0xFFFFFFFFE0000000 ≤ a ∧ a ≤ 0xFFFFFFFFEFFFFFFF then 2
  else 3

/-- The result word of PROBE for a translated page (R341). -/
def probeWord (t : Trans) : Word :=
  BitVec.ofNat 64 ((match t.kind with | .dev => 0 | .host => 1 | .fab => 2) * 16 + b2n t.x * 8 + b2n t.w * 4 + b2n t.r * 2 + 1)

/-- The answer for a walked page: V where it grants a load or a store; a page that grants neither gives the cause that a load of the
byte would raise, beside what it grants (R341; DESIGN CHOICE, assumption log 96). -/
def Walked.probeWord (p : Walked) : Word :=
  match p.check .r with
  | .ok t => Machine.probeWord t
  | .error (.fault cause _) =>
    if p.t.w then Machine.probeWord p.t else BitVec.ofNat 64 (cause * 256 + b2n p.t.x * 8)
  | .error _ => Machine.probeWord p.t

/-- A walk for PROBE: the tables tell why a byte is not reached. -/
def State.probeWalk (s : State) (k : CtxId) (ea : Nat) : Except TErr Word × State :=
  match s.walkFill s.cur.core k ea with
  | (.ok p, s) => (.ok p.probeWord, s)
  | (.error (.fault cause _), s) => (.ok (BitVec.ofNat 64 (cause * 256)), s)
  | (.error e, s) => (.error e, s)

/-- PROBE: how a stream access to one byte would be reached (R340, R341). -/
def State.probe (s : State) (ea : Nat) : Except TErr Word × State :=
  match addrClass ea, (s.core s.cur.core).ctxId with
  | 0, some k =>
    match (s.core s.cur.core).tlbFind k ea with
    | some t => if t.r || t.w then (.ok (probeWord t), s) else s.probeWalk k ea
    | none => s.probeWalk k ea
  | 1, _ => (.ok (BitVec.ofNat 64 (1 * 64 + 7)), s)
  | n, _ => (.ok (BitVec.ofNat 64 (5 * 256 + n * 64)), s)

def execProbe (w : Wait) (d : SOp) (base idx : XReg) (off : BitVec 20) (s : State) : Out :=
  .next (s.issueWord { wait := w, src := [base.sop, idx.sop], dst := [d] } fun s xs _ =>
    let ea := (effAddr (arg xs 0) (arg xs 1) off).toNat
    match s.probe ea with
    | (.ok v, s) => (.go (retDst (s.seq s.cur.core s.cur.seq) d v {}), s)
    | (.error .bad, s) => (.trap ⟨10, 3, 0, BitVec.ofNat 64 ea⟩, s)
    | (.error _, s) => (.stall 8, s))

end Sys2Proof.Machine
end

