-- ==== Sys2Proof/Machine/VectorFloat.lean ====
section
/-!
DEFINITION. The vector floating-point words (R115, 19_reference R350, R366 to R376, 20_reference R396), and the shape every
element-wise vector word shares (R89, R91, R350).
-/
namespace Sys2Proof.Machine

/-! ## Element-wise words -/

/-- An element's code in a register: element j of lane i. -/
def elemAt (t : ET) (i j : Nat) (v : VWord) : Nat := elemOf t.bits (i * t.per + j) v.toNat

/-- Results of one lane, from its first element. -/
def laneElems (t : ET) (f : Nat → Nat × BitVec 5) : Nat × BitVec 5 :=
  let ps := (List.range t.per).map f
  (packElems t.bits (ps.map (·.1)), (ps.map (·.2)).foldl (· ||| ·) 0)

/-- An element-wise result (R89, R350): unmasked lanes are computed, the others keep their value and raise no flag. -/
def mapLanes (t : ET) (m : BitVec 32) (old : VWord) (f : Nat → Nat → Nat × BitVec 5) : VWord × BitVec 5 :=
  let ps := (List.range 32).map fun i => if m.getLsbD i then laneElems t (f i) else (elemOf 32 i old.toNat, 0)
  (BitVec.ofNat 1024 (packElems 32 (ps.map (·.1))), (ps.map (·.2)).foldl (· ||| ·) 0)

/-- The lane value of a 16-bit immediate (R91). -/
def immLane (t : ET) (imm : BitVec 16) : Nat :=
  match t with
  | .f32 => imm.toNat * 65536
  | .i32 => (imm.signExtend 32).toNat
  | .n32 => imm.toNat
  | .bf16 | .f16 | .i16 | .n16 | .e4m3 | .e5m2 | .i8 | .n8 => imm.toNat * 65537

/-- An immediate as a register whose lanes all hold its lane value. -/
def immVec (t : ET) (imm : BitVec 16) : VWord := BitVec.ofNat 1024 (packElems 32 (List.replicate 32 (immLane t imm)))

/-- A vector word that writes one V register: its flags and its value come from the old value, the mask and the sources. -/
def State.vecWord (s : State) (w : Wait) (vd : Fin 640) (src : List VOp) (km : Fin 16) (whole flags : Bool)
    (f : BitVec 32 → VWord → List VWord → VWord × BitVec 5) : State :=
  s.issueWord { wait := w, vsrc := src, vdst := [.v vd], own := if flags then [.spr 3] else [], vec := some (km, whole) }
    fun s _ vs =>
      let x := s.seq s.cur.core s.cur.seq
      let r := f (x.getK km) (x.getV vd) vs
      (.go { v := [(vd, r.1)], fl := r.2 }, s)

/-- A vector word that writes one mask register: lanes that the mask turns off keep their bit (R370, R382). -/
def State.maskWord (s : State) (w : Wait) (kd : Fin 16) (src : List VOp) (km : Fin 16) (t : ET)
    (f : List VWord → Nat → Nat → Bool) : State :=
  s.issueWord { wait := w, vsrc := src, vec := some (km, false) } fun s _ vs =>
    let x := s.seq s.cur.core s.cur.seq
    let m := x.getK km
    let old := x.getK kd
    let bits := (List.range 32).map fun i =>
      b2n (if m.getLsbD i then (List.range t.per).all (f vs i) else old.getLsbD i)
    (.go { k := [(kd, BitVec.ofNat 32 (packElems 1 bits))] }, s)

/-! ## Floating-point elements -/

/-- The value of element j of lane i. -/
def fvAt (t : ET) (i j : Nat) (v : VWord) : FVal := (etFlt t).decode (elemAt t i j v)

/-- An element-wise rounding form of one source. -/
def fl1 (a : V1) (r : Rnd) (op : FVal → FVal × BitVec 5) (s : State) : Out :=
  .next (s.vecWord a.w a.vd (a.va :: rndSrc r) a.km false true fun m old vs =>
    mapLanes a.et m old fun i j =>
      roundResult (etFlt a.et) (rndAt r (varg vs 1).toNat i (a.et.bits * j)) (op (fvAt a.et i j (varg vs 0))))

/-- An element-wise rounding form of two sources; the Bool is RND 3 (R56). -/
def fl2 (a : V2) (r : Rnd) (op : Bool → FVal → FVal → FVal × BitVec 5) (s : State) : Out :=
  .next (s.vecWord a.w a.vd (a.va :: a.vb :: rndSrc r) a.km false true fun m old vs =>
    mapLanes a.et m old fun i j =>
      let p := op (rndIsRdn r) (fvAt a.et i j (varg vs 0)) (fvAt a.et i j (varg vs 1))
      let q := roundF (etFlt a.et) (rndAt r (varg vs 2).toNat i (a.et.bits * j)) p.1
      (q.1, p.2 ||| q.2))

/-- An element-wise rounding form of a register, an immediate and the old value of VD. -/
def flI (a : VI) (r : RMode) (op : Bool → FVal → FVal → FVal → FVal × BitVec 5) (s : State) : Out :=
  .next (s.vecWord a.w a.vd [a.va] a.km false true fun m old vs =>
    mapLanes a.et m old fun i j =>
      let p := op (decide (r = .rdn)) (fvAt a.et i j (varg vs 0)) (fvAt a.et i j (immVec a.et a.imm)) (fvAt a.et i j old)
      let q := roundF (etFlt a.et) (.fixed r) p.1
      (q.1, p.2 ||| q.2))

/-- A fused form of three sources. -/
def fl3 (a : V3) (r : RMode) (op : Bool → FVal → FVal → FVal → FVal × BitVec 5) (s : State) : Out :=
  .next (s.vecWord a.w a.vd [a.va, a.vb, a.vc] a.km false true fun m old vs =>
    mapLanes a.et m old fun i j =>
      let p := op (decide (r = .rdn)) (fvAt a.et i j (varg vs 0)) (fvAt a.et i j (varg vs 1)) (fvAt a.et i j (varg vs 2))
      let q := roundF (etFlt a.et) (.fixed r) p.1
      (q.1, p.2 ||| q.2))

/-- a times b plus c, exact; 0 times infinity raises NV whatever c is (R374). -/
def fusedAdd (rdn : Bool) (a b c : FVal) : FVal × BitVec 5 :=
  let p := a.mul b
  let q := FVal.add rdn p.1 c
  (q.1, p.2 ||| q.2)

def execVfadd (a : V2) (r : Rnd) (s : State) : Out := fl2 a r (fun d x y => FVal.add d x y) s
def execVfsub (a : V2) (r : Rnd) (s : State) : Out := fl2 a r (fun d x y => FVal.add d x y.neg) s
def execVfmul (a : V2) (r : Rnd) (s : State) : Out := fl2 a r (fun _ x y => x.mul y) s
def execVfaddI (a : VI) (r : RMode) (s : State) : Out := flI a r (fun d x y _ => FVal.add d x y) s
def execVfmulI (a : VI) (r : RMode) (s : State) : Out := flI a r (fun _ x y _ => x.mul y) s
def execVfma (a : V3) (r : RMode) (s : State) : Out := fl3 a r fusedAdd s
def execVfms (a : V3) (r : RMode) (s : State) : Out := fl3 a r (fun d x y z => fusedAdd d x y z.neg) s
def execVfmaI (a : VI) (r : RMode) (s : State) : Out := flI a r fusedAdd s
def execVfrcp (a : V1) (r : Rnd) (s : State) : Out := fl1 a r FVal.rcp s
def execVfrsq (a : V1) (r : Rnd) (s : State) : Out := fl1 a r FVal.rsq s
def execVfexp2 (a : V1) (r : Rnd) (s : State) : Out := fl1 a r FVal.exp2 s
def execVflog2 (a : V1) (r : Rnd) (s : State) : Out := fl1 a r FVal.log2 s

/-! ## Selections (R368, R375) -/

/-- a stands below b in numeric order, with -0 below +0; neither is NaN. -/
def FVal.below (a b : FVal) : Bool := FVal.lt a b || (a.isZero && b.isZero && a.sign && !b.sign)

/-- The code that VFMIN or VFMAX picks (R375). -/
def pickMinMax (F : FFmt) (big num : Bool) (a b : Nat) : Nat :=
  let x := F.decode a
  let y := F.decode b
  if x.isNan && y.isNan then F.nanCode
  else if x.isNan then (if num then b else F.nanCode)
  else if y.isNan then (if num then a else F.nanCode)
  else if big then (if x.below y then b else a)
  else (if y.below x then b else a)

/-- An element-wise form of codes that sets no flag. -/
def bits2 (a : V2) (op : Nat → Nat → Nat) (s : State) : Out :=
  .next (s.vecWord a.w a.vd [a.va, a.vb] a.km false false fun m old vs =>
    mapLanes a.et m old fun i j => (op (elemAt a.et i j (varg vs 0)) (elemAt a.et i j (varg vs 1)), 0))

def bits1 (a : V1) (op : Nat → Nat) (s : State) : Out :=
  .next (s.vecWord a.w a.vd [a.va] a.km false false fun m old vs =>
    mapLanes a.et m old fun i j => (op (elemAt a.et i j (varg vs 0)), 0))

def bits3 (a : V3) (op : Nat → Nat → Nat → Nat) (s : State) : Out :=
  .next (s.vecWord a.w a.vd [a.va, a.vb, a.vc] a.km false false fun m old vs =>
    mapLanes a.et m old fun i j =>
      (op (elemAt a.et i j (varg vs 0)) (elemAt a.et i j (varg vs 1)) (elemAt a.et i j (varg vs 2)), 0))

def bitsI (a : VI) (op : Nat → Nat → Nat) (s : State) : Out :=
  .next (s.vecWord a.w a.vd [a.va] a.km false false fun m old vs =>
    mapLanes a.et m old fun i j => (op (elemAt a.et i j (varg vs 0)) (elemAt a.et i j (immVec a.et a.imm)), 0))

def execVfmin (a : V2) (num : Bool) (s : State) : Out := bits2 a (pickMinMax (etFlt a.et) false num) s
def execVfmax (a : V2) (num : Bool) (s : State) : Out := bits2 a (pickMinMax (etFlt a.et) true num) s
def execVfminI (a : VI) (num : Bool) (s : State) : Out := bitsI a (pickMinMax (etFlt a.et) false num) s
def execVfmaxI (a : VI) (num : Bool) (s : State) : Out := bitsI a (pickMinMax (etFlt a.et) true num) s

/-- Edit the sign of a code; a NaN becomes canonical (R368). -/
def editSign (F : FFmt) (f : Bool → Bool) (c : Nat) : Nat :=
  if (F.decode c).isNan then F.nanCode else F.signed (f (bitOf c (F.ew + F.mw))) (c % 2 ^ (F.ew + F.mw))

def execVfabs (a : V1) (s : State) : Out := bits1 a (editSign (etFlt a.et) fun _ => false) s
def execVfneg (a : V1) (s : State) : Out := bits1 a (editSign (etFlt a.et) fun b => !b) s
def execVfnabs (a : V1) (s : State) : Out := bits1 a (editSign (etFlt a.et) fun _ => true) s

/-- A floating condition (R370). -/
def fcondHolds (c : FCond) (a b : FVal) : Bool :=
  let nan := a.isNan || b.isNan
  match c with
  | .eq => FVal.eq a b
  | .ne => !FVal.eq a b
  | .lt => FVal.lt a b
  | .le => FVal.lt a b || FVal.eq a b
  | .uno => nan
  | .ord => !nan

def execVfcmp (a : VK2) (c : FCond) (s : State) : Out :=
  .next (s.maskWord a.w a.kd [a.va, a.vb] a.km a.et fun vs i j =>
    fcondHolds c (fvAt a.et i j (varg vs 0)) (fvAt a.et i j (varg vs 1)))

def execVfcmpI (a : VKI) (c : FCond) (s : State) : Out :=
  .next (s.maskWord a.w a.kd [a.va] a.km a.et fun vs i j =>
    fcondHolds c (fvAt a.et i j (varg vs 0)) (fvAt a.et i j (immVec a.et a.imm)))

/-! ## Conversion, scaling, dot product, reduction -/

/-- VFCVT: destination element e comes from source element e (R371). -/
def execVfcvt (a : V1) (src : ET) (r : Rnd) (s : State) : Out :=
  .next (s.vecWord a.w a.vd (a.va :: rndSrc r) a.km false true fun m old vs =>
    mapLanes a.et m old fun i j =>
      let e := i * a.et.per + j
      if e < src.count then
        (etNum a.et).convert (rndAt r (varg vs 1).toNat i (a.et.bits * j))
          ((etNum src).decode (elemOf src.bits e (varg vs 0).toNat))
      else (0, 0))

/-- VFSCL: every element of lane i times the FP32 in lane i of VB (R376). -/
def execVfscl (a : V2) (r : Rnd) (s : State) : Out :=
  .next (s.vecWord a.w a.vd (a.va :: a.vb :: rndSrc r) a.km false true fun m old vs =>
    mapLanes a.et m old fun i j =>
      let p := (fvAt a.et i j (varg vs 0)).mul (fF32.decode (elemOf 32 i (varg vs 1).toNat))
      let q := roundF (etFlt a.et) (rndAt r (varg vs 2).toNat i (a.et.bits * j)) p.1
      (q.1, p.2 ||| q.2))

/-- Exact sum of the products of two lists of elements, with the flags of the products and the sum. -/
def dotSum (rdn : Bool) (xs ys : List FVal) : FVal × BitVec 5 :=
  let ps := (xs.zip ys).map fun p => p.1.mul p.2
  let q := FVal.sum rdn (ps.map (·.1))
  (q.1, (ps.map (·.2)).foldl (· ||| ·) q.2)

/-- The value of one block of VDOT before its rounding: the exact sum times the product of its scales; a NaN element or a NaN scale
makes it NaN with no flag (R366). -/
def dotExact (rdn : Bool) (scl : Scl) (sa sb : Nat) (xs ys : List FVal) : FVal × BitVec 5 :=
  let scales := match scl with
    | .none => []
    | k => [sclVal k sa, sclVal k sb]
  if (xs ++ ys ++ scales).any FVal.isNan then (.nan, 0)
  else
    let p := dotSum rdn xs ys
    scales.foldr (fun x q => let v := x.mul q.1; (v.1, v.2 ||| q.2)) p

/-- One block of VDOT, rounded once to FP32 (R366). -/
def dotBlock (r : RMode) (scl : Scl) (sa sb : Nat) (xs ys : List FVal) : Nat × BitVec 5 :=
  let q := dotExact (decide (r = .rdn)) scl sa sb xs ys
  let z := roundF fF32 (.fixed r) q.1
  (z.1, q.2 ||| z.2)

def execVdot (a : V2) (vc : Option VOp) (blk : Fin 3) (scl : Scl) (r : RMode) (s : State) : Out :=
  .next (s.vecWord a.w a.vd (a.va :: a.vb :: vc.toList) a.km false true fun m old vs =>
    let b := 8 * 2 ^ blk.val
    let nb := a.et.count / b
    let el (v : VWord) (t : Nat) : List FVal :=
      (List.range b).map fun e => (etFlt a.et).decode (elemOf a.et.bits (t * b + e) v.toNat)
    mapLanes .f32 m old fun t _ =>
      if nb ≤ t then (0, 0)
      else dotBlock r scl (elemOf 8 t (varg vs 2).toNat) (elemOf 8 (64 + t) (varg vs 2).toNat)
        (el (varg vs 0) t) (el (varg vs 1) t))

/-- The codes of the elements in the lanes of a mask, in ascending order. -/
def selCodes (t : ET) (m : BitVec 32) (v : VWord) : List Nat :=
  ((List.range t.count).filter fun e => m.getLsbD (e / t.per)).map fun e => elemOf t.bits e v.toNat

/-- The least or greatest of some codes with -0 below +0; the canonical NaN when there are none or one is NaN (R396). -/
def redPick (F : FFmt) (big : Bool) (cs : List Nat) : Nat :=
  match cs with
  | [] => F.nanCode
  | c :: t => if cs.any fun x => (F.decode x).isNan then F.nanCode else t.foldl (pickMinMax F big false) c

/-- VRED (R396). -/
def execVred (a : V1) (op : RedOp) (r : Rnd) (s : State) : Out :=
  .next (s.vecWord a.w a.vd (a.va :: rndSrc r) a.km true true fun m _ vs =>
    let F := etFlt a.et
    let cs := selCodes a.et m (varg vs 0)
    let p := match op with
      | .add =>
        let p := FVal.sum (rndIsRdn r) (cs.map F.decode)
        let q := roundF F (rndAt r (varg vs 1).toNat 0 0) p.1
        (q.1, p.2 ||| q.2)
      | .min => (redPick F false cs, 0)
      | .max => (redPick F true cs, 0)
    (BitVec.ofNat 1024 p.1, p.2))

end Sys2Proof.Machine
end

