-- ==== Sys2Proof/Machine/Copy.lean ====
section
/-!
DEFINITION. The copy engines (09_copy_engines R161 to R170, 08_scratchpad R145 to R148, 13_preemption R246, 20_reference R400 to
R405): the seven copy words with their checks at issue, and the units and the completion of a command.
-/
namespace Sys2Proof.Machine

/-! ## What a command is (R165 to R167) -/

def CopyCmd.n (m : CopyCmd) : Nat := m.len.toNat % 2 ^ 32

/-- The destination as the engine uses it: of slabs the low 7 bits of the base are ignored (R47). -/
def CopyCmd.to_ (m : CopyCmd) : Word :=
  match m.op with
  | .plane => m.dst &&& ~~~127
  | _ => m.dst

/-- Rows and strides of a descriptor (R166). -/
def strRows (d : Word) : Nat := bitsOf d.toNat 63 48 + 1
def strSrc (d : Word) : Int := signedOf 24 (bitsOf d.toNat 47 24)
def strDst (d : Word) : Int := signedOf 24 (bitsOf d.toNat 23 0)

/-- The descriptor of XPLANE with K (R167). -/
structure PlaneDesc where
  (lp : Nat) (tr : Bool) (bs : Nat) (scl : Nat) (f : Fmt) (k : Nat)
  deriving DecidableEq, Repr

def ceil128 (n : Nat) : Nat := roundUp n 128

/-- KBn slabs. -/
def PlaneDesc.kbn (d : PlaneDesc) : Nat := ceilDiv d.k 32

/-- Bytes of one line with TR = 0 (R167). -/
def PlaneDesc.lineBytes (d : PlaneDesc) : Nat :=
  if d.f.bits = 6 then ceil128 (16 * d.kbn) + 8 * d.kbn else ceilDiv (d.k * d.f.bits) 8

/-- Elements of a scale block. -/
def PlaneDesc.block (d : PlaneDesc) : Nat := 8 * 2 ^ d.bs

/-- Where the scale bytes or shared exponents begin, from src, and how many there are. -/
def PlaneDesc.arrOff (d : PlaneDesc) : Nat := (if d.tr then d.k else 64) * d.lp
def PlaneDesc.arrLen (d : PlaneDesc) : Nat :=
  if d.f.bx?.isSome then 128 * d.kbn else if d.scl ≠ 0 then 64 * ceilDiv d.k d.block else 0

/-- Bytes of the input, from src to the last one read. -/
def PlaneDesc.extent (d : PlaneDesc) : Nat :=
  if d.arrLen ≠ 0 then d.arrOff + d.arrLen
  else if d.tr then (d.k - 1) * d.lp + 64 * (d.f.bits / 8) else 63 * d.lp + d.lineBytes

/-- Slab size of the output. -/
def PlaneDesc.size (d : PlaneDesc) : Nat := slabSize d.f (decide (d.scl ≠ 0))

/-- The descriptor and K of an XPLANE; none when cause 4 of R163 applies. -/
def planeDesc (desc len : Word) : Option PlaneDesc :=
  let k := bitsOf len.toNat 12 0
  match Fmt.ofCode (bitsOf desc.toNat 3 0) with
  | none => none
  | some f =>
    let d : PlaneDesc := ⟨bitsOf desc.toNat 63 32, bitOf desc.toNat 8, bitsOf desc.toNat 7 6, bitsOf desc.toNat 5 4, f, k⟩
    if k = 0 ∨ 8160 < k ∨ bitsOf len.toNat 31 13 ≠ 0 ∨ bitsOf desc.toNat 31 9 ≠ 0 then none
    else if d.bs = 3 ∧ d.scl ≠ 0 then none
    else if d.scl ≠ 0 ∧ f.scalable = false then none
    else if d.tr ∧ (f.bits < 8 ∨ d.lp < 64 * (f.bits / 8)) then none
    else if d.tr = false ∧ (d.lp < d.lineBytes ∨ (f.bits = 6 ∧ d.lp % 128 ≠ 0)) then none
    else some d

/-- Delivered bytes of a command (R165). -/
def CopyCmd.total (m : CopyCmd) : Nat :=
  match m.op with
  | .str => strRows m.desc * m.n
  | .plane => match planeDesc m.desc m.len with
    | some d => d.kbn * d.size
    | none => 0
  | _ => m.n

/-! ## Addresses (R163) -/

/-- Where a first byte lies. -/
inductive Loc where
  | mem (va : Nat)
  | spad (c : CoreId) (off : Nat)
  deriving DecidableEq, Repr

/-- Logical core of a remote-scratchpad address. -/
def remoteCore (a : Nat) : Nat := bitsOf a 27 22

/-- The core that belongs to a core's slice under a logical number (R25, R274). -/
def State.remoteOf (s : State) (c : CoreId) (n : Nat) : Option CoreId :=
  (s.core c).bind.bind fun b => allCores.find? fun d => decide ((s.core d).bind = some (b.1, n))

/-- Where the byte at an address lies; the scratchpad of a core that has left the slice is at no place, and its address fails. -/
def State.locOf (s : State) (c : CoreId) (a : Word) : Loc :=
  match addrClass a.toNat with
  | 1 => .spad c (spadOff a.toNat)
  | 2 =>
    match s.remoteOf c (remoteCore a.toNat) with
    | some d => .spad d (spadOff a.toNat)
    | none => .mem a.toNat
  | _ => .mem a.toNat

/-- A byte at a distance from the first. -/
def Loc.at (l : Loc) (d : Int) : Loc :=
  match l with
  | .mem a => .mem (Int.ofNat a + d).toNat
  | .spad c o => .spad c ((Int.ofNat o + d) % (2 ^ 22 : Int)).toNat

/-- One range of a command: its first byte, the least distance of a byte from it, and how many bytes from there. -/
structure CRange where
  (a : Word) (lo : Int) (n : Nat)
  deriving DecidableEq, Repr

/-- The range of a strided side (R145, R166). -/
def strRange (a : Word) (rows : Nat) (st : Int) (n : Nat) : CRange :=
  let last := st * Int.ofNat (rows - 1)
  if n = 0 then ⟨a, 0, 0⟩ else ⟨a, min 0 last, last.natAbs + n⟩

/-- The ranges of a command: destination, source, compare values. -/
def CopyCmd.ranges (m : CopyCmd) : List CRange :=
  let d : CRange := ⟨m.to_, 0, m.n⟩
  let r : CRange := ⟨m.src, 0, m.n⟩
  match m.op with
  | .copy | .acc | .swap => [d, r]
  | .cas => [d, r, ⟨m.desc, 0, m.n⟩]
  | .fill => [d]
  | .str => [strRange m.dst (strRows m.desc) (strDst m.desc) m.n, strRange m.src (strRows m.desc) (strSrc m.desc) m.n]
  | .plane =>
    match planeDesc m.desc m.len with
    | some p => [⟨m.to_, 0, m.total⟩, ⟨if p.f.bits = 6 then m.src &&& ~~~127 else m.src, 0, p.extent⟩]
    | none => [⟨m.to_, 0, 0⟩, ⟨m.src, 0, 0⟩]

/-- A range breaks cause 1: its first byte has no class, or its bytes leave the context virtual class. -/
def CRange.bad1 (r : CRange) : Bool :=
  match addrClass r.a.toNat with
  | 0 => decide (r.n ≠ 0) && (decide (Int.ofNat r.a.toNat + r.lo < 0) || decide ((2 : Int) ^ 52 < Int.ofNat r.a.toNat + r.lo + Int.ofNat r.n))
  | 3 => true
  | _ => false

/-- The form's own limits (R165, R167). -/
def CopyCmd.bad4 (m : CopyCmd) : Bool :=
  let own (a : Word) : Bool := decide (addrClass a.toNat = 1)
  let al (a : Nat) : Bool := decide (a % 4 = 0)
  let quad := al m.n && al m.dst.toNat && al m.src.toNat
  match m.op with
  | .copy | .str | .fill => false
  | .acc => !quad
  | .swap => !(quad && own m.src)
  | .cas => !(quad && own m.src && own m.desc && al m.desc.toNat)
  | .plane => (planeDesc m.desc m.len).isNone || !(own m.dst || decide (addrClass m.dst.toNat = 2))

/-- The lowest-numbered failing check of R163; 0 for none. -/
def State.copyCause (s : State) (c : CoreId) (m : CopyCmd) : Nat :=
  let rs := m.ranges
  if rs.any CRange.bad1 then 1
  else if rs.any fun r => decide (addrClass r.a.toNat = 2) && (s.remoteOf c (remoteCore r.a.toNat)).isNone then 2
  else if bitsOf m.len.toNat 63 32 ≠ 0 then 3
  else if m.bad4 then 4
  else 0

/-- The scoreboard entry of a command: the hull of its bytes in the core's own scratchpad (R145). -/
def State.copyRows (s : State) (c : CoreId) (m : CopyCmd) : List (Nat × Nat) :=
  let rs : List (Int × Int) := m.ranges.filterMap fun r =>
    if r.n = 0 then none
    else match s.locOf c r.a with
      | .spad d o => if d = c then some (Int.ofNat o + r.lo, Int.ofNat o + r.lo + Int.ofNat r.n) else none
      | .mem _ => none
  match rs with
  | [] => []
  | r :: t =>
    let lo := t.foldl (fun x p => min x p.1) r.1
    let hi := t.foldl (fun x p => max x p.2) r.2
    if (2 : Int) ^ 22 ≤ hi - lo then [(0, 32768)]
    else
      let a := (lo % (2 ^ 22 : Int)).toNat
      let b := a + (hi - lo).toNat
      [(a / 128, (b - 1) / 128 + 1 - a / 128)]

/-! ## Issue (R161, R400) -/

/-- The engine of a queue. -/
def engOf (q : CqId) : Fin 2 := ⟨q.val / 4, by omega⟩

/-- Commands held on their way to a queue. -/
def Core.heldCopies (k : Core) : List (CqId × CopyCmd) :=
  k.seqs.toList.flatMap fun x => x.held.flatMap fun h => h.effs.filterMap fun
    | .copy q m => some (q, m)
    | _ => none

/-- The queue has a free entry and the engine a free scoreboard entry (R161). -/
def Core.copyRoom (k : Core) (q : CqId) (needsRow : Bool) : Bool :=
  let held := k.heldCopies
  let inq := (k.cq q).cmds.length + (held.filter fun p => decide (p.1 = q)).length
  let sb := ((List.finRange 8).filter fun r => decide (engOf r = engOf q)).foldl
      (fun n r => n + ((k.cq r).cmds.filter fun m => !m.rows.isEmpty).length) 0 +
    (held.filter fun p => decide (engOf p.1 = engOf q) && !p.2.rows.isEmpty).length
  decide (inq < 32) && (!needsRow || decide (sb < 16))

/-- A copy word: captured registers, checks, room, then its held entry into the queue. Without room it shows row 4 of R82's table,
the queue row (assumption log 85). -/
def copyWord (a : CopyA) (op : CopyOp) (aop : AOp) (et : ET) (desc : XReg) (s : State) : Out :=
  .next (s.issueWord { wait := a.w, src := [a.dst.sop, a.src.sop, a.len.sop, desc.sop] } fun s xs _ =>
    let c := s.cur.core
    let k := s.core c
    let m : CopyCmd := ⟨op, aop, et, a.ac, s.cur.seq, arg xs 0, arg xs 1, arg xs 2, arg xs 3, 0, none, [], none, []⟩
    let cause := s.copyCause c m
    if cause ≠ 0 then (.trap ⟨9, cause, m.src, 0⟩, s)
    else
      let m := { m with rows := s.copyRows c m }
      if k.copyRoom a.cq (!m.rows.isEmpty) then (.go { effs := [.copy a.cq m] }, s) else (.stall 4, s))

def execXcopy (a : CopyA) (s : State) : Out := copyWord a .copy .add .f32 .xz s
def execXcopyStr (a : CopyA) (desc : XReg) (s : State) : Out := copyWord a .str .add .f32 desc s
def execXfill (a : CopyA) (s : State) : Out := copyWord a .fill .add .f32 .xz s
def execXacc (a : CopyA) (op : AOp) (et : ET) (s : State) : Out := copyWord a .acc op et .xz s
def execXswap (a : CopyA) (et : ET) (s : State) : Out := copyWord a .swap .add et .xz s
def execXcas (a : CopyA) (desc : XReg) (et : ET) (s : State) : Out := copyWord a .cas .add et desc s
def execXplane (a : CopyA) (desc : XReg) (s : State) : Out := copyWord a .plane .add .f32 desc s

/-! ## Units (R162, R246) -/

/-- The next unit: distances of its lowest destination and source byte from the first bytes, and its length. -/
structure UnitAt where
  (d : Int) (r : Int) (n : Nat)
  deriving DecidableEq, Repr

/-- A row runs downward: its ranges overlap and the destination begins above the source (R165). -/
def runsDown (d r : Loc) (n : Nat) : Bool :=
  match d, r with
  | .mem a, .mem b => decide (b < a) && decide (a < b + n)
  | .spad c a, .spad e b =>
    let x := (a + 2 ^ 22 - b % 2 ^ 22) % 2 ^ 22
    decide (c = e) && decide (0 < x) && decide (x < n)
  | _, _ => false

/-- A number of the place of a byte, for cutting at boundaries: its address or its offset. -/
def Loc.num : Loc → Nat
  | .mem a => a
  | .spad _ o => o

/-- Cut a run at the page boundary of a context virtual address. -/
def Loc.page (l : Loc) (n : Nat) : Nat :=
  match l with
  | .mem a => min n (65536 - a % 65536)
  | .spad _ _ => n

/-- Cut a run that ends at a byte, downward. -/
def Loc.pageDown (l : Loc) (n : Nat) : Nat :=
  match l with
  | .mem a => min n (a % 65536 + 1)
  | .spad _ _ => n

/-- Place of the next unit of a command at its offset (R162, R246). -/
def State.unitAt (s : State) (c : CoreId) (m : CopyCmd) : UnitAt :=
  let row := match m.op with | .str => m.n | _ => m.total
  let i := if row = 0 then 0 else m.offset / row
  let off := if row = 0 then 0 else m.offset % row
  let dd : Int := match m.op with | .str => strDst m.desc * Int.ofNat i | _ => 0
  let rr : Int := match m.op with | .str => strSrc m.desc * Int.ofNat i | _ => 0
  let d := (s.locOf c m.to_).at dd
  let r := (s.locOf c m.src).at rr
  let two := match m.op with | .copy | .str => true | _ => false
  if two && runsDown d r row then
    let hi := row - 1 - off
    let dh := d.at (Int.ofNat hi)
    let n := (r.at (Int.ofNat hi)).pageDown (dh.pageDown (min (row - off) (dh.num % 128 + 1)))
    let lo := Int.ofNat hi + 1 - Int.ofNat n
    ⟨dd + lo, rr + lo, n⟩
  else
    let dl := d.at (Int.ofNat off)
    let n := dl.page (min (row - off) (128 - dl.num % 128))
    let n := match m.op with | .fill | .plane => n | _ => (r.at (Int.ofNat off)).page n
    ⟨dd + Int.ofNat off, rr + Int.ofNat off, n⟩

/-! ### XPLANE: input bytes and slab bytes (R46, R167) -/

/-- Distances from src of the bytes that hold element e of line l, least significant bits first; none beyond K. -/
def PlaneDesc.elemBytes (d : PlaneDesc) (l e : Nat) : List Nat :=
  if d.k ≤ e then []
  else
    let w := d.f.bits
    if d.tr then (List.range (w / 8)).map fun i => e * d.lp + l * (w / 8) + i
    else
      let a := l * d.lp
      if w = 16 then [a + 2 * e, a + 2 * e + 1]
      else if w = 8 then [a + e]
      else if w = 4 then [a + e / 2]
      else [a + e / 2, a + ceil128 (16 * d.kbn) + e / 4]

/-- The code of an element from its bytes. -/
def PlaneDesc.elemCode (d : PlaneDesc) (e : Nat) (bs : List Nat) : Nat :=
  match d.f.bits, bs with
  | _, [] => 0
  | 16, bs => bs.foldr (fun b n => b + 256 * n) 0
  | 8, b :: _ => b
  | 4, b :: _ => elemOf 4 (e % 2) b
  | _, b :: c => elemOf 4 (e % 2) b * 4 + elemOf 2 (e % 4) (c.headD 0)

/-- What one byte of a slab holds: bits of a plane or of the sign, class or selector word of elements of a line, a byte of an
exponent plane, a shared exponent, a scale, or nothing. -/
inductive SlabByte where
  | plane (j l b : Nat) | sign (l b : Nat) | cls (l b : Nat) | ex (l b : Nat) | sel (l b : Nat) | arr (off : Nat) | zero
  deriving DecidableEq, Repr

/-- The byte at a distance from the start of slab k. -/
def PlaneDesc.slabByte (d : PlaneDesc) (k x : Nat) : SlabByte :=
  let g := slabGeo d.f
  let p := d.f.planes
  let word (o : Nat) : Nat × Nat := ((x - o) / 4, (x - o) % 4)
  if x < 256 * p then .plane (x / 256) (x % 256 / 4) (x % 4)
  else if x < g.cls then let w := word (256 * p); .sign w.1 w.2
  else if x < g.ex then .cls ((x - g.cls) / 8) ((x - g.cls) % 8)
  else if x < g.sel then let s := 4 * d.f.expBits; .ex ((x - g.ex) / s) ((x - g.ex) % s)
  else if x < g.scl ∧ d.f.bx?.isSome then
    if x < g.shr then let w := word g.sel; .sel w.1 w.2
    else
      let w := word g.shr
      if w.2 < 2 then .arr (d.arrOff + 2 * (w.1 * d.kbn + k) + w.2) else .zero
  else
    let w := word g.scl
    let per := 32 / d.block
    let t := k * per + w.2
    let n := ceilDiv d.k d.block
    if w.2 < per ∧ t < n then .arr (d.arrOff + w.1 * n + t) else .zero

/-- Elements of a block, from the first, on which a byte of the slab depends. -/
def SlabByte.elems (y : SlabByte) (expBits : Nat) : Nat × List Nat :=
  let eight (b : Nat) : List Nat := (List.range 8).map (8 * b + ·)
  match y with
  | .plane _ l b | .sign l b | .sel l b => (l, eight b)
  | .cls l b => (l, (List.range 4).map (4 * b + ·))
  | .ex l b => (l, if expBits = 4 then [2 * b, 2 * b + 1] else [b])
  | .arr _ | .zero => (0, [])

/-- Distances from src of the input bytes of one byte of slab k. -/
def PlaneDesc.needs (d : PlaneDesc) (k x : Nat) : List Nat :=
  match d.slabByte k x with
  | .arr o => [o]
  | y => let p := y.elems d.f.expBits; p.2.flatMap fun e => d.elemBytes p.1 (32 * k + e)

/-- One byte of slab k, from the input bytes. -/
def PlaneDesc.value (d : PlaneDesc) (get : Nat → Nat) (k x : Nat) : Nat :=
  let y := d.slabByte k x
  let p := y.elems d.f.expBits
  let els := p.2.map fun e => planeOf d.f (d.elemCode (32 * k + e) ((d.elemBytes p.1 (32 * k + e)).map get))
  match y with
  | .plane j _ _ => gatherBits els fun q => bitOf q.sig (d.f.planes - 1 - j)
  | .sign _ _ => gatherBits els (·.sign)
  | .sel _ _ => gatherBits els (·.x)
  | .cls _ _ => packElems 2 (els.map (·.cls))
  | .ex _ _ => packElems d.f.expBits (els.map (·.ex))
  | .arr o => get o
  | .zero => 0

/-- Sorted distances without repeats, joined into runs that stay on one page of the address they begin at. -/
def joinOffs (base : Nat) : List Nat → List (Nat × Nat)
  | [] => []
  | o :: t =>
    match joinOffs base t with
    | (p, n) :: u =>
      if p = o + 1 ∧ (base + p) % 65536 ≠ 0 then (o, n + 1) :: u else if p ≤ o ∧ o < p + n then (p, n) :: u else (o, 1) :: (p, n) :: u
    | [] => [(o, 1)]

/-- Insert a number in rising order, once. -/
def insertNat (x : Nat) : List Nat → List Nat
  | [] => [x]
  | y :: t => if x < y then x :: y :: t else if x = y then y :: t else y :: insertNat x t

/-! ### Bytes a unit reads and writes -/

/-- Runs that a unit reads: distance from a first byte, length, and that first byte (0 source, 1 compare values). -/
def State.unitReads (s : State) (c : CoreId) (m : CopyCmd) (u : UnitAt) : List (Loc × Nat) :=
  let src := s.locOf c m.src
  match m.op with
  | .fill => []
  | .copy | .str | .acc | .swap => [(src.at u.r, u.n)]
  | .cas => [(src.at u.r, u.n), ((s.locOf c m.desc).at u.r, u.n)]
  | .plane =>
    match planeDesc m.desc m.len with
    | none => []
    | some d =>
      let base := if d.f.bits = 6 then s.locOf c (m.src &&& ~~~127) else src
      let offs := ((List.range u.n).flatMap fun i => d.needs ((m.offset + i) / d.size) ((m.offset + i) % d.size)).foldl
        (fun t o => insertNat o t) []
      (joinOffs base.num offs).map fun p => (base.at (Int.ofNat p.1), p.2)

/-- The destination of a unit. -/
def State.unitDst (s : State) (c : CoreId) (m : CopyCmd) (u : UnitAt) : Loc := (s.locOf c m.to_).at u.d

/-- What a unit needs of its destination (R200). -/
def CopyOp.need : CopyOp → Need
  | .acc | .swap | .cas => .rw
  | _ => .w

/-- Translate the runs of a unit that lie in context virtual memory. -/
def State.transRuns (s : State) (c : CoreId) (k : CtxId) (n : Need) : List (Loc × Nat) → Except AErr (List VSeg × List Nat) × State
  | [] => (.ok ([], []), s)
  | (.spad _ _, _) :: t => s.transRuns c k n t
  | (.mem a, len) :: t =>
    match s.transAccess c .tlb k n a len with
    | (.error e, s) => (.error e, s)
    | (.ok (gs, ds), s) =>
      match s.transRuns c k n t with
      | (.error e, s) => (.error e, s)
      | (.ok (hs, es), s) => (.ok (gs ++ hs, ds ++ es), s)

/-- Lines of the device-memory runs of a unit. -/
def devLines (gs : List VSeg) : List (Nat × Nat) :=
  linesOnce ((gs.filter fun g => decide (g.t.kind = .dev)).flatMap fun g => linesOf g.addr g.n g.t.keyId)

/-- Writes and requests of a command that are not performed. -/
def State.copyOut (s : State) (ids : List (Nat × Nat)) : Bool := ids.any fun i => s.inFlight i.1 || s.fabOpen [i.1]

/-- The micro-program counter of a command: the offset of its first byte that is not performed (R162). -/
def State.microPc (s : State) (m : CopyCmd) : Nat := ((m.outs.filter fun i => s.copyOut [i]).map (·.2)).foldl min m.offset

/-- How a failed translation of a unit ends: the queue parks, once every unit before it has been performed and credited (R164); it
waits; or it traps. -/
def State.copyErr (s : State) (c : CoreId) (q : CqId) (m : CopyCmd) : AErr → State
  | .fault f => if s.copyOut m.outs then s else s.parkQueue c q f
  | .wait => s
  | .bad a => s.trapQueue c q ⟨10, 3, 0, BitVec.ofNat 64 a⟩

/-- Ask the host or peers for the runs that lie there. -/
def State.askExt (s : State) (k : CtxId) (q : CqId) : List VSeg → List (Nat × Nat) × State
  | [] => ([], s)
  | g :: t =>
    if g.t.kind = .dev then s.askExt k q t
    else
      let (id, s) := s.extRead k none (some q) 0 g
      let (r, s) := s.askExt k q t
      ((id, g.va) :: r, s)

/-- The bytes of a run, from a scratchpad, from device memory in the view of the issuing die (R188), or from what a request
brought; none when a tag fails. -/
def State.runBytes (s : State) (c : CoreId) (data : List (Nat × List Byte)) (segs : List VSeg) (l : Loc) (n : Nat) :
    Option (List Byte) :=
  match l with
  | .spad d o => some ((s.core d).spadRead o n)
  | .mem a =>
    (segs.filter fun g => decide (a ≤ g.va) && decide (g.va + g.n ≤ a + n)).foldl (fun acc g =>
      match acc with
      | none => none
      | some bs =>
        if g.t.kind = .dev then (s.readBytes (dieOfCore c) g.t.keyId g.addr g.n).map (bs ++ ·)
        else some (bs ++ ((mapGet data g.va).getD []))) (some [])

/-! ### Performing a unit -/

/-- A credit to a counter of a core (R147, R148), with the writes it covers (R192). -/
def State.credit (s : State) (c : CoreId) (ac : Option (Fin 64)) (n : Nat) (cov : List Nat) : State :=
  match ac with
  | none => s
  | some a => s.modCore c fun k =>
      let x := k.ac a
      { k with acs := k.acs.set a.val { x with count := BitVec.ofNat 32 (satAdd 32 x.count.toNat n), cov := s.stillOut x.cov ++ cov } }

/-- Send a request to a peer package (R206). -/
def State.fabSend (s : State) (k : CtxId) (q : Option CqId) (off : Nat) (g : VSeg) (r : FabReq) (word : IWord) (hdr : Word)
    (woff : Nat) : Nat × State :=
  let (id, s) := s.newId
  (id, { s with fabOuts := s.fabOuts ++ [⟨id, k, s.cur.core, s.cur.seq, s.cur.strm, none, q, off, g.n, g.t.peer, g.t.epoch,
    g.addr, BitVec.ofNat 64 g.va, r, (dieOfCore s.cur.core).val * 6 + g.t.peer % 6, fabFlits r, s.girth, none, word, hdr, woff⟩] })

/-- A line that the cache of a die holds, or else that of its home, is written there, and is dirty and the last used from then on (R171,
R172). -/
def State.dirtyLines (s : State) (d : DieId) (pa n key : Nat) : State :=
  (linesOf pa n key).foldl (fun s l =>
    s.modDie (if (s.die d).present l.1 l.2 then d else homeOf (l.1 * 128)) fun x => x.touch l.1 l.2 true) s

/-- Write the bytes of a unit at a translated run; answers the names of what is not performed yet. The bytes of a unit on a
peer's page are credited when its request is made (assumption log 86). -/
def State.unitWrite (s : State) (c : CoreId) (k : CtxId) (q : CqId) (ds : List Nat) (g : VSeg) (bs : List Byte) : List Nat × State :=
  match g.t.kind with
  | .dev =>
    let (id, s) := s.putWrite k c (dieOfCore c) g.addr g.t.keyId (.bytes (bs.map some)) ds .drop
    ([id], s.dirtyLines (dieOfCore c) g.addr g.n g.t.keyId)
  | .host => ([], s.hostPut (vfOf (s.portOfCtx k) k.slice) g.addr (bs.map some))
  | .fab =>
    let (id, s) := s.fabSend k (some q) 0 g (.write g.addr bs) 0 0 0
    ([id], s)

/-- One element step of XACC (R168). -/
def accElem (aop : AOp) (et : ET) (d x : Nat) : Nat :=
  match aop with
  | .add => (d + x) % 2 ^ et.bits
  | .fadd => (roundF (etFlt et) .rne (FVal.add false ((etFlt et).decode d) ((etFlt et).decode x)).1).1
  | .min | .max =>
    let big := decide (aop = .max)
    match etNum et with
    | .flt F => pickMinMax F big false d x
    | .int w sg =>
      let i := intOf w sg d
      let j := intOf w sg x
      if big then (if i < j then x else d) else (if j < i then x else d)
  | .and => d &&& x
  | .or => d ||| x
  | .xor => d ^^^ x

/-- The new value of an element under a step, from its old value (R168, R169). -/
def stepElem (op : AtomOp) (old : List Byte) : List Byte :=
  match op with
  | .acc a et src => toBytes old.length (accElem a et (ofBytes old) (ofBytes src))
  | .swap src => src
  | .cas cmp src => if old = cmp then src else old
  | _ => old

/-- The steps of a unit on a scratchpad, one element after the other; the old value of a swap goes back to `back` before the next element
(R168, R169). -/
def State.spadSteps (s : State) (d : CoreId) (off : Nat) (back : Option (CoreId × Nat)) (w : Nat) : List AtomOp → State
  | [] => s
  | op :: t =>
    let old := (s.core d).spadRead off w
    let s := s.spadStore d off ((stepElem op old).map some)
    let s := match back with
      | some b => s.spadStore b.1 b.2 (old.map some)
      | none => s
    s.spadSteps d (off + w) (back.map fun b => (b.1, b.2 + w)) w t

/-- The steps of a unit on device memory: one write record each (R194). -/
def State.devSteps (s : State) (c : CoreId) (k : CtxId) (ds : List Nat) (g : VSeg) (w : Nat) (old : Nat → OldTo) :
    List AtomOp → Nat → List Nat × State
  | [], _ => ([], s)
  | op :: t, i =>
    let (id, s) := s.putWrite k c (dieOfCore c) (g.addr + i) g.t.keyId (.atom w op) ds (old i)
    let (ids, s) := s.devSteps c k ds g w old t (i + w)
    (id :: ids, s)

/-- The request to a peer for one element step (R164). -/
def fabStep (addr : Nat) (et : ET) : AtomOp → FabReq
  | .acc a t src => .atomic addr a t src
  | .cas cmp src => .swap addr et (some cmp) src
  | .swap src => .swap addr et none src
  | _ => .read addr 0

/-- The steps of a unit on a fabric-peer page. -/
def State.fabSteps (s : State) (k : CtxId) (q : CqId) (et : ET) (g : VSeg) (w back : Nat) : List AtomOp → Nat → List Nat × State
  | [], _ => ([], s)
  | op :: t, i =>
    let (id, s) := s.fabSend k (some q) (back + i) ⟨g.va + i, w, g.t⟩ (fabStep (g.addr + i) et op) 0 0 0
    let (ids, s) := s.fabSteps k q et g w back t (i + w)
    (id :: ids, s)

/-- The element steps of a unit, from the bytes it read. -/
def CopyCmd.steps (m : CopyCmd) (src cmp : List Byte) : List AtomOp :=
  let w := m.et.bits / 8
  (List.range (src.length / w)).map fun i =>
    let x := (src.drop (i * w)).take w
    match m.op with
    | .swap => .swap x
    | .cas => .cas ((cmp.drop (i * w)).take w) x
    | _ => .acc m.aop m.et x

/-- The bytes that a unit of a copy, fill or plane command writes. -/
def CopyCmd.unitBytes (m : CopyCmd) (u : UnitAt) (reads : List ((Loc × Nat) × List Byte)) (base : Loc) : List Byte :=
  match m.op with
  | .fill => (List.range u.n).map fun i => BitVec.ofNat 8 (elemOf 8 ((m.offset + i) % 8) m.src.toNat)
  | .plane =>
    match planeDesc m.desc m.len with
    | none => []
    | some d =>
      let get (o : Nat) : Nat :=
        match reads.find? fun r => (List.range r.1.2).any fun i => decide (r.1.1.at (Int.ofNat i) = base.at (Int.ofNat o)) with
        | some r =>
          match (List.range r.1.2).find? fun i => decide (r.1.1.at (Int.ofNat i) = base.at (Int.ofNat o)) with
          | some i => ((r.2[i]?).getD 0).toNat
          | none => 0
        | none => 0
      (List.range u.n).map fun i => BitVec.ofNat 8 (d.value get ((m.offset + i) / d.size) ((m.offset + i) % d.size))
  | _ => match reads with
    | r :: _ => r.2
    | [] => []

/-- A queue is ready to give its engine a unit: its head is not parked and has what it asked for (R162). -/
def State.unitReady (s : State) (m : CopyCmd) : Bool :=
  m.park.isNone && decide (m.offset < m.total) &&
    match m.unit with
    | some u => u.ext.isEmpty && u.lines.all fun l => if l.write then l.tok else s.lineReady l
    | none => false

/-- A command may begin or go on: GAP between two commands that leave one queue (R96, R162). -/
def Core.copyPace (k : Core) (q : CqId) (m : CopyCmd) : Bool :=
  decide (m.offset ≠ 0) ||
    match (k.cq q).left with
    | some t => decide (t + k.pace[(engOf q).val + 1]'(by omega) ≤ k.cyc)
    | none => true

/-- It is a queue's turn: no ready queue of the engine that pacing does not hold stands between the one served last and it (R162). -/
def State.queueTurn (s : State) (c : CoreId) (q : CqId) : Bool :=
  let k := s.core c
  let e := engOf q
  let last := k.rrq[e.val].val
  let dist (r : CqId) : Nat := (r.val % 4 + 4 - (last + 1) % 4) % 4
  (List.finRange 8).all fun r =>
    !(decide (engOf r = e) && decide (dist r < dist q) &&
      match (k.cq r).head with | some m => s.unitReady m && k.copyPace r m | none => false)

/-- The first half of a unit: its pages are translated, its lines and its bytes from outside are asked for (R164). -/
def State.unitAsk (s : State) (c : CoreId) (q : CqId) (k : CtxId) (m : CopyCmd) : State :=
  let u := s.unitAt c m
  let reads := s.unitReads c m u
  match s.transRuns c k .r reads with
  | (.error e, s) => s.copyErr c q m e
  | (.ok (gs, _), s) =>
    match s.transRuns c k m.op.need [(s.unitDst c m u, u.n)] with
    | (.error e, s) => s.copyErr c q m e
    | (.ok (hs, _), s) =>
      if decide (m.op.need = .rw) && hs.any fun h => decide (h.t.kind = .host) then s.trapQueue c q ⟨9, 4, m.src, 0⟩
      else
        let (rl, s) := s.startLines c k false (devLines gs)
        let (wl, s) := s.startLines c k true (devLines hs)
        let (ext, s) := s.askExt k q gs
        s.modCq c q fun x => x.modHead fun m => { m with unit := some ⟨rl ++ wl, ext, []⟩ }

/-- Bytes of a unit that one write of it makes: an element of a command that goes element by element, else all (R162, R168, R169). -/
def CopyCmd.stride (m : CopyCmd) : Nat :=
  match m.op with
  | .acc | .swap | .cas => m.et.bits / 8
  | .copy | .str | .fill | .plane => 0

/-- Read the runs of a unit. -/
def State.unitFetch (s : State) (c : CoreId) (data : List (Nat × List Byte)) (gs : List VSeg) :
    List (Loc × Nat) → Option (List ((Loc × Nat) × List Byte))
  | [] => some []
  | r :: t =>
    match s.runBytes c data gs r.1 r.2, s.unitFetch c data gs t with
    | some bs, some rs => some ((r, bs) :: rs)
    | _, _ => none

/-- Perform a unit whose bytes are at hand; answers the names of what is not performed yet and the state. -/
def State.unitDo (s : State) (c : CoreId) (q : CqId) (k : CtxId) (m : CopyCmd) (u : UnitAt) (hs : List VSeg) (ds : List Nat)
    (reads : List ((Loc × Nat) × List Byte)) : List Nat × State :=
  let dst := s.unitDst c m u
  let w := m.et.bits / 8
  let base := match planeDesc m.desc m.len with
    | some d => if d.f.bits = 6 then s.locOf c (m.src &&& ~~~127) else s.locOf c m.src
    | none => s.locOf c m.src
  let bytes (i : Nat) : List Byte := match reads[i]? with
    | some r => r.2
    | none => []
  let back := spadOff (m.src.toNat + u.r.toNat)
  let sw := match m.op with | .swap | .cas => true | _ => false
  match m.op with
  | .copy | .str | .fill | .plane =>
    let bs := m.unitBytes u reads base
    match dst with
    | .spad d o =>
      let s := s.spadStore d o (bs.map some)
      ([], s.credit d m.ac u.n [])
    | .mem _ =>
      match hs with
      | g :: _ =>
        let (ids, s) := s.unitWrite c k q ds g bs
        (ids, s.credit c m.ac u.n ids)
      | [] => ([], s)
  | .acc | .swap | .cas =>
    let ops := m.steps (bytes 0) (bytes 1)
    match dst with
    | .spad d o =>
      ([], (s.spadSteps d o (if sw then some (c, back) else none) w ops).credit (if sw then c else d) m.ac u.n [])
    | .mem _ =>
      match hs with
      | g :: _ =>
        if g.t.kind = .dev then
          let old (i : Nat) : OldTo := if sw then .spad c (back + i) m.ac else match m.ac with
            | some a => .credit c a w
            | none => .drop
          (s.dirtyLines (dieOfCore c) g.addr g.n g.t.keyId).devSteps c k ds g w old ops 0
        else
          let (ids, s) := s.fabSteps k q m.et g w back ops 0
          (ids, if sw then s else s.credit c m.ac u.n ids)
      | [] => ([], s)

/-- An engine has taken a unit of a queue: its wake units and its round robin (R162, R276). -/
def Core.unitTaken (k : Core) (e : Fin 2) (q : CqId) : Core :=
  let k : Core := match k.lastUnit[e.val] with
    | some t => if t + 64 ≤ k.cyc then k.addWake 4 else k
    | none => k.addWake 4
  { k with lastUnit := k.lastUnit.set e.val (some k.cyc), rrq := k.rrq.set e.val (Fin.ofNat 4 q.val) }

/-- The second half of a unit: its bytes are read, written and credited. -/
def State.unitPerform (s : State) (c : CoreId) (q : CqId) (k : CtxId) (m : CopyCmd) (r : UnitReq) : State :=
  let u := s.unitAt c m
  let reads := s.unitReads c m u
  match s.transRuns c k .r reads with
  | (.error e, s) => s.copyErr c q m e
  | (.ok (gs, _), s) =>
    match s.transRuns c k m.op.need [(s.unitDst c m u, u.n)] with
    | (.error e, s) => s.copyErr c q m e
    | (.ok (hs, ds), s) =>
      if (gs.any fun g => decide (g.t.kind = .dev) && !s.readableRun (dieOfCore c) g.t.keyId g.addr g.n) ||
          ((hs.any fun h => decide (h.t.kind ≠ .dev)) && !s.allDone ds) then s
      else
        match s.unitFetch c r.data gs reads with
        | none => s.trapQueue c q ⟨10, 1, 0, match gs with | g :: _ => BitVec.ofNat 64 g.va | [] => 0⟩
        | some bs =>
          match s.badStore (dieOfCore c) hs with
          | some va => s.trapQueue c q ⟨10, 2, 0, BitVec.ofNat 64 va⟩
          | none =>
            let (ids, s) := s.unitDo c q k m u hs ds bs
            let e := engOf q
            let done := decide (m.total ≤ m.offset + u.n)
            let keep := match m.op, s.unitDst c m u with
              | .swap, .mem _ | .cas, .mem _ => true
              | _, _ => false
            let s := s.modCq c q fun x =>
              let x := if m.offset = 0 then { x with left := some (s.core c).cyc } else x
              x.modHead fun m => { m with
                offset := m.offset + u.n
                outs := (m.outs.filter fun i => s.copyOut [i]) ++ ids.zipIdx.map fun p => (p.1, m.offset + p.2 * m.stride)
                unit := none
                rows := if done && !keep then [] else m.rows }
            ((s.noteLines c r.lines).takeDone r.lines).modCore c (·.unitTaken e q)

/-- The line accesses of the next unit take the tokens they wait for. -/
def State.unitTokens (s : State) (c : CoreId) (q : CqId) (k : CtxId) (r : UnitReq) : UnitReq × State :=
  let (ls, s) := s.retryTokens c k r.lines
  let r := { r with lines := ls }
  (r, s.modCq c q fun x => x.modHead fun m => { m with unit := some r })

/-- COPY_UNIT: a copy engine takes one unit of the head command of a queue (R162). -/
def execCopyUnit (c : CoreId) (q : CqId) (s : State) : Out :=
  let s := { (s.sweep c) with cur := ⟨c, 0, .c, dieOfCore c, ⟨0, 0⟩⟩ }
  match (s.core c).ctxId, ((s.core c).cq q).head with
  | some k, some m =>
    if !s.mayIssue c || m.park.isSome || decide (m.total ≤ m.offset) || !(s.core c).copyPace q m then .next s
    else
      let s := { s with cur := { s.cur with seq := m.seq } }
      match m.unit with
      | none => .next (s.unitAsk c q k m)
      | some r =>
        let (r, s) := s.unitTokens c q k r
        let m := { m with unit := some r }
        if s.unitReady m && s.queueTurn c q && decide ((s.core c).lastUnit[(engOf q).val] ≠ some (s.core c).cyc) then
          .next (s.unitPerform c q k m r)
        else .next s
  | _, _ => .next s

/-- COPY_COMPLETE: the head command of a queue is performed and leaves it; one of no bytes comes GAP after the command before it
(R162, R165, R181). -/
def execCopyComplete (c : CoreId) (q : CqId) (s : State) : Out :=
  let s := s.sweep c
  match ((s.core c).cq q).head with
  | some m =>
    if s.alive c && m.park.isNone && decide (m.total ≤ m.offset) && !s.copyOut m.outs &&
        (decide (m.total ≠ 0) || (s.core c).copyPace q m) then
      .next ((s.modCq c q fun x => { x with
        items := x.items.drop 1
        left := if m.total = 0 then some (s.core c).cyc else x.left }).sweep c)
    else .next s
  | none => .next s

end Sys2Proof.Machine
end

