-- ==== Sys2Proof/Machine/Engines.lean ====
section
/-!
DEFINITION. What the engines of a die do with memory: reads and writes through a walk that parks nothing, the atomic steps of
R168, R169, R200, R219, R228, R305, R320 and R354 on bytes, completion jobs (R228), ready lists (R226) and feed units (R343).
-/
namespace Sys2Proof.Machine

/-! ## Reads and writes -/

/-- What an engine's read gives: bytes; a line it may not read yet; a translation that fails, a page that is not device memory,
or a failed tag. -/
abbrev EngRes := Ans (List Byte)

/-- A read of n bytes inside one page by an engine of die d. -/
def State.engGet (s : State) (d : DieId) (k : CtxId) (va n : Nat) : EngRes :=
  match s.quiet d k va .r with
  | .error .wait => .wait
  | .error _ => .fail
  | .ok t =>
    if t.kind = .dev then
      let pa := t.page * 65536 + va % 65536
      if s.readableRun d t.keyId pa n then
        match s.readBytes d t.keyId pa n with
        | some bs => .ok bs
        | none => .fail
      else .wait
    else .fail

/-- The core whose name an engine's writes carry. -/
def engCore (d : DieId) : CoreId := ⟨d.val * 16, by omega⟩

/-- A page as an engine on a die reaches it for an access, if its kind serves, and the D-bit writes that come first (R200). -/
def State.engTrans (s : State) (d : DieId) (k : CtxId) (va : Nat) (n : Need) (kind : PageKind → Bool) : Ans (Trans × List Nat) × State :=
  if 2 ^ 52 ≤ va then (.fail, s)
  else
    match s.slice? k.slice, s.ctx? k with
    | some sl, some x =>
      match s.walk d k sl x va with
      | .error .wait => (.wait, s)
      | .error _ => (.fail, s)
      | .ok p =>
        match p.check n with
        | .error _ => (.fail, s)
        | .ok t =>
          if kind t.kind then
            let ds := s.dOut k va n
            if t.d || !n.writes || !ds.isEmpty then (.ok (t, ds), s)
            else
              let (id, s) := s.setD (engCore d) k va p.l.addr
              (.ok (t, [id]), s)
          else (.fail, s)
    | _, _ => (.fail, s)

/-- A page an engine is to write: its device physical address and KEYID, and the D-bit writes that come first (R200). -/
def State.engPage (s : State) (d : DieId) (k : CtxId) (va : Nat) (n : Need) : Ans ((Nat × Nat) × List Nat) × State :=
  match s.engTrans d k va n fun t => decide (t = .dev) with
  | (.ok (t, ds), s) => (.ok ((t.page * 65536 + va % 65536, t.keyId), ds), s)
  | (.wait, s) => (.wait, s)
  | (.fail, s) => (.fail, s)

/-- A write of bytes inside one page by an engine of die d: its name. -/
def State.engPut (s : State) (d : DieId) (k : CtxId) (va : Nat) (bs : List Byte) : Ans Nat × State :=
  match s.engPage d k va .w with
  | (.wait, s) => (.wait, s)
  | (.fail, s) => (.fail, s)
  | (.ok (a, ds), s) =>
    let (id, s) := s.putEng k (engCore d) d a.1 a.2 (.bytes (bs.map some)) ds .drop
    (.ok id, s)

/-- Several writes of an engine, all or none: none is made unless the page of every one can be written. -/
def State.engPutAll (s : State) (d : DieId) (k : CtxId) : List (Nat × List Byte) → Ans (List Nat) × State
  | [] => (.ok [], s)
  | (va, bs) :: t =>
    match s.engPage d k va .w with
    | (.wait, s) => (.wait, s)
    | (.fail, s) => (.fail, s)
    | (.ok (a, ds), s) =>
      match s.engPutAll d k t with
      | (.wait, s) => (.wait, s)
      | (.fail, s) => (.fail, s)
      | (.ok ids, s) =>
        let (id, s) := s.putEng k (engCore d) d a.1 a.2 (.bytes (bs.map some)) ds .drop
        (.ok (id :: ids), s)

/-- An atomic step on n bytes inside one page by an engine of die d. -/
def State.engAtom (s : State) (d : DieId) (k : CtxId) (va n : Nat) (op : AtomOp) (old : OldTo) : Ans Nat × State :=
  match s.engPage d k va .rw with
  | (.wait, s) => (.wait, s)
  | (.fail, s) => (.fail, s)
  | (.ok (a, ds), s) =>
    let (id, s) := s.putEng k (engCore d) d a.1 a.2 (.atom n op) ds old
    (.ok id, s)

/-! ## Completion counters (R227, R228) -/

/-- Context Girth count (R235). -/
def State.ctxGirth (s : State) (k : CtxId) : Word :=
  match s.ctx? k with
  | some x => BitVec.ofInt 64 (Int.ofNat s.girth + x.goff)
  | none => BitVec.ofNat 64 s.girth

/-- Replace n bytes at an offset. -/
def bytesSet (bs : List Byte) (off n v : Nat) : List Byte := bs.take off ++ toBytes n v ++ bs.drop (off + n)

def half (bs : List Byte) (off : Nat) : Nat := ofBytes ((bs.drop off).take 4)

/-- A saturating count of 32 bits at an offset. -/
def bump (bs : List Byte) (off : Nat) : List Byte := bytesSet bs off 4 (satAdd 32 (half bs off) 1)

/-- Offset of the count of a status; none for none. -/
def statOff : CStat → Option Nat
  | .ok => some 0x08
  | .late => some 0x0C
  | .fatal => some 0x10
  | .canc => some 0x14
  | .killed => some 0x18
  | .none => Option.none

/-- The credit of a child (R228): the counter's 64 bytes after the step. -/
def creditBytes (bs : List Byte) (st : CStat) (resid : Bool) (girth : Word) : List Byte :=
  let bs := match statOff st with
    | some o => bump bs o
    | none => bs
  let bs := if resid then bump bs 0x1C else bs
  let w := wordAt bs 0
  let pend := w % 2 ^ 32
  if pend = 0 then bytesSet bs 0 8 (w ||| 2 ^ 34)
  else if pend = 1 then bytesSet (bytesSet bs 0 8 ((w - 1) ||| 2 ^ 32)) 0x38 8 girth.toNat
  else bytesSet bs 0 8 (w - 1)

/-- The status a completed counter hands to its parent (R228). -/
def worst (bs : List Byte) : CStat :=
  if 0 < half bs 0x10 then .fatal
  else if 0 < half bs 0x18 then .killed
  else if (wordAt bs 0).testBit 33 ∨ 0 < half bs 0x14 then .canc
  else if 0 < half bs 0x0C then .late
  else .ok

/-- The bytes after a completion step, a wake, a cancel, a D bit or a fetch-add. -/
def engStep (op : AtomOp) (old : List Byte) (girth : Word) : List Byte :=
  let v := ofBytes old
  match op with
  | .pendInc => toBytes old.length (v + 1)
  | .credit st r => creditBytes old st r girth
  | .joinDec => if v = 0 then old else toBytes old.length (v - 1)
  | .setCancelled => toBytes old.length (v ||| 2 ^ 33)
  | .setD => toBytes old.length (v ||| 64)
  | .fetchAdd x => toBytes old.length (v + x.toNat)
  | .acc _ _ _ | .swap _ | .cas _ _ => old

/-! ## Jobs of a completion engine (R228) -/

def State.jobs (s : State) (d : DieId) (k : CtxId) : List CWork := (mapGet (s.die d).cwork k.idx).getD []
def State.setJobs (s : State) (d : DieId) (k : CtxId) (js : List CWork) : State :=
  s.modDie d fun x => { x with cwork := if js.isEmpty then mapDel x.cwork k.idx else mapPut x.cwork k.idx js }

/-- Hand a job to the completion engine of a die, behind the context's earlier ones. -/
def State.addJob (s : State) (d : DieId) (k : CtxId) (j : CJob) (who : Option (CoreId × SeqId × Strm × Nat)) : State :=
  s.setJobs d k (s.jobs d k ++ [⟨j, none, who⟩])

/-! ## Ready lists (R226) -/

/-- Key of a list: context and priority. A list here holds the ready list and, behind it, its overflow queue. -/
def readyKey (k : CtxId) (prio : Nat) : Nat := k.idx * 8 + prio

def Die.readyList (x : Die) (k : CtxId) (prio : Nat) : List Rec := (mapGet x.ready (readyKey k prio)).getD []
def Die.setReady (x : Die) (k : CtxId) (prio : Nat) (l : List Rec) : Die :=
  { x with ready := if l.isEmpty then mapDel x.ready (readyKey k prio) else mapPut x.ready (readyKey k prio) l }

/-- A field of a record (R61). -/
def Rec.launch (r : Rec) : Word := r.w[6]
def Rec.deadline (r : Rec) : Word := r.w[4]
def Rec.join (r : Rec) : Nat := bitsOf r.w[3].toNat 31 0
def Rec.flag (r : Rec) (n : Nat) : Bool := r.w[3].getLsbD (32 + n)
def Rec.prio (r : Rec) : Nat := bitsOf r.w[5].toNat 34 32
def Rec.tokens (r : Rec) : Nat := bitsOf r.w[5].toNat 47 40
def Rec.estimate (r : Rec) : Nat := bitsOf r.w[5].toNat 31 0
/-- The level credited at retire, 1 where LEVEL is 0 or 5 to 7 (R61). -/
def Rec.level (r : Rec) : Nat :=
  let l := bitsOf r.w[5].toNat 50 48
  if l = 0 ∨ 4 < l then 1 else l

/-- A record from its 64 bytes. -/
def recOf (bs : List Byte) (addr : Word) : Rec := ⟨Vector.ofFn fun i => BitVec.ofNat 64 (wordAt bs (8 * i.val)), addr⟩

/-- Push a record; none when list and overflow queue are full. -/
def Die.pushReady (x : Die) (k : CtxId) (r : Rec) : Option Die :=
  let l := x.readyList k r.prio
  if l.length < 32768 then some (x.setReady k r.prio (l ++ [r])) else none

/-! ## Votes (R279, R280) -/

/-- A core of the slice on the die is outside IDLE, or a restore of one of its contexts is pending there. -/
def State.voting (s : State) (d : DieId) (n : Fin 32) : Bool :=
  match s.slice? n with
  | none => false
  | some x =>
    let here := x.cores.filter fun c => decide (dieOfCore c = d) && decide ((s.core c).bind.map (·.1) = some n)
    here.any (fun c => (s.core c).seqs.toList.any fun q => decide (q.st ≠ .idle)) ||
      x.ctxs.toList.any fun k => match k with | some y => y.awaits.getLsbD d.val | none => false

/-- No core of a slice that has raised its rail begins a pop until the rail is there (R280). -/
def State.railReady (s : State) (c : CoreId) : Bool :=
  match (s.core c).bind with
  | some b => !s.voting (dieOfCore c) b.1 || decide ((s.die (dieOfCore c)).votes[b.1.val] ≤ (s.die (dieOfCore c)).railMv)
  | none => true

/-! ## Feed units (R231, R343, R344) -/

def Feed.room (f : Feed) : Nat := f.m - f.count

/-- A feed queue with its indexes changed. -/
def State.setFeed (s : State) (k : CtxId) (n : Fin 64) (f : Feed) : State :=
  s.modCtx k fun x => { x with fds := x.fds.set n.val (some f) }

/-- Write records from FWIDX on and raise it by their number, all at once or not at all. -/
def State.feedPut (s : State) (k : CtxId) (n : Fin 64) (f : Feed) (recs : List (List Byte)) : Ans (List Nat) × State :=
  match s.engPutAll f.die k ((recs.zipIdx.map fun p => (f.base + 64 * ((f.fw + p.2) % f.m), p.1)) ++
      [(f.desc.toNat + 0x10, toBytes 8 (f.fw + recs.length))]) with
  | (.ok ids, s) => (.ok ids, s.setFeed k n { f with fw := (f.fw + recs.length) % 2 ^ 64 })
  | r => r

/-- Raise FRIDX by one. -/
def State.feedTake (s : State) (k : CtxId) (n : Fin 64) (f : Feed) : Ans Nat × State :=
  match s.engPut f.die k (f.desc.toNat + 0x18) (toBytes 8 (f.fr + 1)) with
  | (.ok id, s) => (.ok id, s.setFeed k n { f with fr := (f.fr + 1) % 2 ^ 64 })
  | r => r

/-- The head record of a feed queue. -/
def State.feedHead (s : State) (k : CtxId) (f : Feed) : EngRes := s.engGet f.die k (f.base + 64 * (f.fr % f.m)) 64

/-! ## Reads of words that name a block of memory (R305, R308, R343) -/

/-- A plain load by the word at the program counter, whose bytes its own effect needs. The scratchpad window is not translated
(R143); device memory is read in the die's view; a page of a host or a peer is asked for, and the word waits. -/
def State.wordRead (s : State) (via : Via) (k : CtxId) (ea : Word) (n : Nat) : Except Res (List Byte) × State :=
  let c := s.cur.core
  let y := s.strm c s.cur.seq s.cur.strm
  if inWindow ea.toNat then
    let off := spadOff ea.toNat
    if (s.core c).sbHit off n then (.error (.stall 6), s)
    else if s.ownClash [.spad off n] then (.error (.stall 0), s)
    else (.ok ((s.core c).spadRead off n), s)
  else if y.loads.any fun l => decide (l.dst = .pre) then (.error (.stall 8), s)
  else
    match s.transAccess c via k .r ea.toNat n with
    | (.error e, s) => (.error e.res, s)
    | (.ok (gs, _), s) =>
      if s.ownClash (gs.map (segObj (s.portOfCtx k))) then (.error (.stall 0), s)
      else
        match mapGet (s.strm c s.cur.seq s.cur.strm).pre ea.toNat with
        | some bs => (.ok bs, s)
        | none =>
          match gs with
          | [g] =>
            if g.t.kind = .dev then
              if s.readableRun (dieOfCore c) g.t.keyId g.addr n then
                match s.readBytes (dieOfCore c) g.t.keyId g.addr n with
                | some bs => (.ok bs, s)
                | none => (.error (.trap ⟨10, 1, 0, ea⟩), s)
              else (.error (.stall 8), s)
            else
              let (l, s) := s.startLoad k .pre (List.replicate n 0) none ea (placeSegs 0 gs)
              (.error (.stall 8), s.modSeq c s.cur.seq (·.addLoad s.cur.strm l))
          | _ => (.error (.stall 8), s)

end Sys2Proof.Machine
end

