-- ==== Sys2Proof/Machine/Script.lean ====
section
/-!
DEFINITION. Queue scripts (12_submission R222 to R225): one word of the run that a die's script engine holds for a context.
-/
namespace Sys2Proof.Machine

/-- The runs of a context on a die, in the order in which they start (R221). -/
def State.runsOf (s : State) (d : DieId) (k : CtxId) : List Run := (mapGet (s.die d).runs k.idx).getD []
def State.setRuns (s : State) (d : DieId) (k : CtxId) (rs : List Run) : State :=
  s.modDie d fun x => { x with runs := if rs.isEmpty then mapDel x.runs k.idx else mapPut x.runs k.idx rs }

/-- Where a run stands after a word that goes to `to`: past the end of a loop body, a further iteration begins or the loop
ends (R223, R225). -/
def Run.goto (r : Run) (dest : Nat) : Run :=
  match r.loop with
  | some (b, len, n, i) =>
    if b + len ≤ dest then
      if i + 1 < n then { r with pc := b, loop := some (b, len, n, i + 1), steps := r.steps + 1 }
      else { r with pc := b + len, loop := none, steps := r.steps + 1 }
    else { r with pc := dest, steps := r.steps + 1 }
  | none => { r with pc := dest, steps := r.steps + 1 }

def Run.next (r : Run) : Run := r.goto (r.pc + 1)
def Run.get (r : Run) (n : Fin 8) : Word := r.s[n.val]
def Run.put (r : Run) (n : Fin 8) (v : Word) : Run := { r with s := r.s.set n.val v }

/-- Run the word of the current run by a function on the run; a run that waits stays as it is. -/
def State.scriptWord (s : State) (f : State → Run → State × Option Run) : State :=
  let d := s.cur.die
  let k := s.cur.ctx
  match s.runsOf d k with
  | r :: t =>
    if r.started then
      match f s r with
      | (s, some r) => s.setRuns d k (r :: t)
      | (s, none) => s
    else s
  | [] => s

/-- A word that only changes registers. -/
def State.scriptSet (s : State) (d : Fin 8) (f : Run → Word) : State :=
  s.scriptWord fun s r => (s, some (r.put d (f r)).next)

/-- END: the run is over, and this die's token leaves the launch counter (R222). -/
def execScriptEnd (s : State) : Out :=
  let d := s.cur.die
  let k := s.cur.ctx
  match s.runsOf d k with
  | r :: t =>
    if r.started && s.allDone r.outs then
      let ctr := (r.body[0]?).getD 0 &&& ~~~63
      .next ((s.setRuns d k t).addJob d k (.step ctr .none false false) none)
    else .next s
  | [] => .next s

def execScriptLdp (d : Fin 8) (w : BitVec 6) (s : State) : Out :=
  .next (s.scriptSet d fun r => (r.body[w.toNat]?).getD 0)

def execScriptLdi (d : Fin 8) (i : BitVec 19) (s : State) : Out := .next (s.scriptSet d fun _ => i.signExtend 64)

/-- Logical core count of a slice (R26). -/
def State.lcount (s : State) (k : CtxId) : Nat :=
  match s.slice? k.slice with
  | some x => x.cores.length
  | none => 0

/-- Environment values (R224); T is a context Girth count (R235). -/
def State.scriptEnv (s : State) (r : Run) (e : Fin 8) : Word :=
  let k := s.cur.ctx
  match e with
  | 0 => match s.ctx? k with
    | some x => BitVec.ofInt 64 (Int.ofNat r.t + x.goff)
    | none => BitVec.ofNat 64 r.t
  | 1 => BitVec.ofNat 64 r.slot
  | 2 => BitVec.ofNat 64 (s.lcount k)
  | 3 => BitVec.ofNat 64 k.ctx.val
  | 4 => BitVec.ofNat 64 r.len
  | 5 => BitVec.ofNat 64 (match r.loop with | some (_, _, _, i) => i | none => 0)
  | 6 => BitVec.ofNat 64 r.emits
  | 7 => BitVec.ofNat 64 r.queue.val

def execScriptLde (d : Fin 8) (e : Fin 8) (s : State) : Out := .next (s.scriptSet d fun r => s.scriptEnv r e)
def execScriptAdd (a : ScrR) (s : State) : Out := .next (s.scriptSet a.d fun r => r.get a.a + r.get a.b)
def execScriptAddi (d a : Fin 8) (i : BitVec 19) (s : State) : Out := .next (s.scriptSet d fun r => r.get a + i.signExtend 64)
def execScriptMul (a : ScrR) (s : State) : Out := .next (s.scriptSet a.d fun r => r.get a.a * r.get a.b)
def execScriptShl (d a : Fin 8) (n : BitVec 6) (s : State) : Out := .next (s.scriptSet d fun r => r.get a <<< n.toNat)
def execScriptShr (d a : Fin 8) (n : BitVec 6) (s : State) : Out := .next (s.scriptSet d fun r => r.get a >>> n.toNat)
def execScriptAnd (a : ScrR) (s : State) : Out := .next (s.scriptSet a.d fun r => r.get a.a &&& r.get a.b)
def execScriptMinu (a : ScrR) (s : State) : Out :=
  .next (s.scriptSet a.d fun r => if (r.get a.a).toNat ≤ (r.get a.b).toNat then r.get a.a else r.get a.b)

def execScriptRset (f : Fin 8) (a : Fin 8) (s : State) : Out :=
  .next (s.scriptWord fun s r => (s, some ({ r with buf := r.buf.set f.val (r.get a) } : Run).next))

/-- A condition of JFW; a code above 4 is not accepted at registration (R225). -/
def scriptCond (c : BitVec 3) (x y : Word) : Bool :=
  match c.toNat with
  | 0 => decide (x = y)
  | 1 => decide (x ≠ y)
  | 2 => decide (x.toNat < y.toNat)
  | 3 => decide (y.toNat ≤ x.toNat)
  | 4 => true
  | _ => false

def execScriptJfw (a b : Fin 8) (c : BitVec 3) (off : BitVec 8) (s : State) : Out :=
  .next (s.scriptWord fun s r => (s, some (if scriptCond c (r.get a) (r.get b) then r.goto (r.pc + off.toNat) else r.next)))

def execScriptLoop (n : BitVec 7) (len : BitVec 8) (s : State) : Out :=
  .next (s.scriptWord fun s r =>
    (s, some { r with pc := r.pc + 1, loop := some (r.pc + 1, len.toNat, n.toNat, 0), steps := r.steps + 1 }))

def execScriptRclr (s : State) : Out :=
  .next (s.scriptWord fun s r => (s, some ({ r with buf := Vector.replicate 8 0 } : Run).next))

/-- Bridle's map of logical cores as it stood at a tick (R222). -/
def Slice.mapAt (x : Slice) (t : Nat) : List CoreId :=
  match x.maps.find? fun m => decide (m.1 ≤ t) with
  | some m => m.2
  | none => x.cores

/-- The logical core of an emission, and whether it takes one from the distribution counter (R222). -/
def emitCore (v : Word) (rr l : Nat) : Nat × Bool :=
  if v = BitVec.allOnes 64 then (rr % l, true) else (v.toNat % l, false)

/-- EMIT: this die keeps the record when the logical core is its own (R222). An emission that must wait for room or for its
page, also for one that does not translate, leaves everything as it was and is tried again; its credit of +1 goes to the completion queue with
the push and is not waited for (R226; DESIGN CHOICE, assumption log 101). -/
def execScriptEmit (a b : Fin 8) (s : State) : Out :=
  .next (s.scriptWord fun s r =>
    let d := s.cur.die
    let k := s.cur.ctx
    match s.slice? k.slice, s.ctx? k with
    | some sl, some x =>
      let lc := emitCore (r.get a) x.rr[d.val] (max (s.lcount k) 1)
      let mine := match (sl.mapAt r.t)[lc.1]? with
        | some c => decide (dieOfCore c = d)
        | none => false
      let done (s : State) (r : Run) : State × Option Run :=
        (if lc.2 then s.modCtx k fun x => { x with rr := x.rr.set d.val (x.rr[d.val] + 1) } else s,
          some ({ r with emits := r.emits + 1 } : Run).next)
      if !mine then done s r
      else
        let launch := r.buf[6]
        let count (s : State) : State := if launch = 0 then s else s.addJob d k (.step (launch &&& ~~~63) .none false true) none
        let rec_ : Rec := ⟨r.buf, 0⟩
        if rec_.join = 0 then
          match (s.die d).pushReady k rec_ with
          | some y => done (count (s.setDie d y)) r
          | none => (s, none)
        else
          match s.engPut d k ((r.get b).toNat / 64 * 64) (r.buf.toList.flatMap fun v => toBytes 8 v.toNat) with
          | (.ok id, s) => done (count s) { r with outs := r.outs ++ [id] }
          | (.wait, s) | (.fail, s) => (s, none)
    | _, _ => (s, none))

end Sys2Proof.Machine
end

