-- ==== Sys2Proof/Machine/Submission.lean ====
section
/-!
DEFINITION. Front ends, feed packets, the start of a script, completion engines and pushes onto ready lists (12_submission
R217 to R222, R226, R228, R231).
-/
namespace Sys2Proof.Machine

/-! ## Launch queues -/

def State.lq (s : State) (k : CtxId) (q : Fin 16) : Option LaunchQ := (s.ctx? k).bind fun x => x.lqs[q.val]
def State.modLq (s : State) (k : CtxId) (q : Fin 16) (f : LaunchQ → LaunchQ) : State :=
  s.modCtx k fun x => { x with lqs := x.lqs.set q.val ((x.lqs[q.val]).map f) }

/-- The front end ends its present run (R220). -/
def State.stopFront (s : State) (k : CtxId) (q : Fin 16) : State := s.modLq k q fun x => { x with run := false }

/-- The die that homes a launch queue's descriptor. -/
def State.frontDie (s : State) (k : CtxId) (desc : Word) : Ans DieId :=
  match s.devAddr 0 k desc.toNat .r with
  | .ok p => .ok (homeOf p.1)
  | .wait => .wait
  | .fail => .fail

/-- The packet at the front end's index as it reads it: die, header, continuation slots, body bytes (R217, R218). -/
structure Packet where
  (die : DieId) (head len : Nat) (body : List Byte)
  deriving DecidableEq, Repr

def Packet.typ (p : Packet) : Nat := bitsOf p.head 39 32
def Packet.word (p : Packet) (w : Nat) : Word := BitVec.ofNat 64 (wordAt p.body (8 * w))

/-- What the front end finds at RIDX. -/
inductive Found where
  | packet (p : Packet)
  | none
  | wait
  | fail
  deriving DecidableEq, Repr

/-- Read n slots from an index; the place of a slot is its index modulo N. -/
def State.readSlots (s : State) (d : DieId) (k : CtxId) (base n : Nat) : Nat → Nat → EngRes
  | 0, _ => .ok []
  | m + 1, i =>
    match s.engGet d k (base + 64 * (i % n)) 64, s.readSlots d k base n m (i + 1) with
    | .ok a, .ok b => .ok (a ++ b)
    | .wait, _ => .wait
    | .fail, _ => .fail
    | .ok _, .wait => .wait
    | .ok _, .fail => .fail

/-- Every write that a read of n bytes of device memory on a die returns is performed at .p (R180, R185). -/
def State.settled (s : State) (d : DieId) (k : CtxId) (va n : Nat) : Bool :=
  match s.devAddr d k va .r with
  | .ok p => (s.writesAt d p.1 n).isEmpty
  | .wait | .fail => false

/-- Look at the packet at the index (R220). The read of a published header is an acquire at .p: the packet is taken once the writes
it returns are performed (R233). -/
def State.frontLook (s : State) (k : CtxId) (q : LaunchQ) : Found :=
  match s.frontDie k q.desc with
  | .fail => .fail
  | .wait => .wait
  | .ok d =>
    match s.engGet d k q.desc.toNat 64 with
    | .wait => .wait
    | .fail => .fail
    | .ok bs =>
      let base := wordAt bs 0 / 64 * 64
      let n := 2 ^ bitsOf (wordAt bs 8) 4 0
      let at_ := base + 64 * (q.ridx % n)
      match s.engGet d k at_ 64 with
      | .wait => .wait
      | .fail => .fail
      | .ok slot =>
        let head := wordAt slot 0
        if bitsOf head 39 32 = 0 ∨ bitsOf head 31 0 ≠ bitsOf q.ridx 31 0 then .none
        else if !s.settled d k at_ 8 then .wait
        else
          let len := bitsOf head 42 40
          match s.readSlots d k base n len (q.ridx + 1) with
          | .wait => .wait
          | .fail => .fail
          | .ok rest => .packet ⟨d, head, len, slot.drop 8 ++ rest⟩

/-- Cause of a malformed packet (R220, R231); 0 for none. Of several the lowest number is reported (DESIGN CHOICE, assumption log 99). -/
def Packet.cause (p : Packet) : Nat :=
  if 4 ≤ p.typ then 1
  else if bitsOf p.head 63 43 ≠ 0 then 2
  else if p.typ = 1 ∧ p.word 0 = 0 then 3
  else if p.typ = 2 ∧ (p.len = 0 ∨ bitsOf (p.word 0).toNat 63 6 ≠ 0) then 3
  else 0

/-- The index past a packet. -/
def LaunchQ.past (q : LaunchQ) (p : Packet) : Nat := (q.ridx + 1 + p.len) % 2 ^ 64

/-- Raise RIDX past a packet by a 64-bit store (R217, R220). -/
def State.raiseRidx (s : State) (k : CtxId) (n : Fin 16) (q : LaunchQ) (p : Packet) : Ans State :=
  match s.engPut p.die k (q.desc.toNat + 0x18) (toBytes 8 (q.past p)) with
  | (.ok _, s) => .ok (s.modLq k n fun x => { x with ridx := q.past p })
  | (.wait, _) => .wait
  | (.fail, _) => .fail

/-- Count a malformed packet and skip it (R220). -/
def State.skipBad (s : State) (k : CtxId) (n : Fin 16) (q : LaunchQ) (p : Packet) : Ans State :=
  match s.engGet p.die k (q.desc.toNat + 0x30) 8 with
  | .ok bs =>
    match s.engPut p.die k (q.desc.toNat + 0x30) (toBytes 4 (satAdd 32 (half bs 0) 1) ++ toBytes 1 p.cause) with
    | (.ok _, s) => s.raiseRidx k n q p
    | (.wait, _) => .wait
    | (.fail, _) => .fail
  | .wait => .wait
  | .fail => .fail

/-- Place a run among those that have not started: ascending T, then ascending queue number (R221). -/
def insertRun (r : Run) : List Run → List Run
  | [] => [r]
  | x :: t =>
    if !x.started && (decide (r.t < x.t) || (decide (r.t = x.t) && decide (r.queue < x.queue))) then r :: x :: t
    else x :: insertRun r t

/-- Handle a launch packet (R221). -/
def State.launch (s : State) (k : CtxId) (n : Fin 16) (q : LaunchQ) (p : Packet) : Ans State :=
  match s.engPut p.die k ((p.word 0).toNat / 64 * 64) (toBytes 4 4) with
  | (.wait, _) => .wait
  | (.fail, _) => .fail
  | (.ok id, s) =>
    match s.raiseRidx k n q p with
    | .wait => .wait
    | .fail => .fail
    | .ok s =>
      let z : Vector Word 8 := Vector.replicate 8 0
      let body := (List.range (7 + 8 * p.len)).map p.word
      let r : Run := ⟨s.girth + 256, n, q.ridx, p.len, body, q.script, z, z, 0, none, 0, 0, false, [id]⟩
      .ok (allDies.foldl (fun s d => s.setRuns d k (insertRun r (s.runsOf d k))) s)

/-- A feed packet whose queue exists has its room (R231). -/
def State.feedRoom (s : State) (k : CtxId) (p : Packet) : Bool :=
  match s.feed k (Fin.ofNat 64 (p.word 0).toNat) with
  | some f => decide (p.len ≤ f.room)
  | none => false

/-- A queue whose front end can act now: it has been woken, and neither a line it may not read yet nor a feed queue without room holds
it. -/
def State.frontReady (s : State) (k : CtxId) (n : Fin 16) : Bool :=
  match s.lq k n with
  | none => false
  | some q => q.run && match s.frontLook k q with
    | .wait => false
    | .none | .fail => true
    | .packet p => decide (p.typ ≠ 2) || decide (p.cause ≠ 0) || s.feedRoom k p

/-- Queues that come before another: ascending slice, context, queue (R220). -/
def State.frontsBefore (s : State) (k : CtxId) (n : Fin 16) : List (CtxId × Fin 16) :=
  (s.allCtxs.flatMap fun j => (List.finRange 16).map fun m => (j, m)).filter fun p =>
    decide (p.1.idx < k.idx) || (decide (p.1 = k) && decide (p.2 < n))

/-- It is the queue's turn: none of its die that comes before it can be served (R220). -/
def State.frontTurn (s : State) (k : CtxId) (n : Fin 16) : Bool :=
  match s.lq k n with
  | none => true
  | some q => !(s.frontsBefore k n).any fun p =>
      match s.lq p.1 p.2 with
      | some r => decide (s.frontDie p.1 r.desc = s.frontDie k q.desc) && s.frontReady p.1 p.2
      | none => false

/-- What a front end's access comes to: done, held, or the end of the present run with nothing changed (R220). -/
def State.frontEnd (s : State) (k : CtxId) (n : Fin 16) : Ans State → State
  | .ok t => t
  | .wait => s
  | .fail => s.stopFront k n

/-- Whether a run of bytes of device memory touches a queue's DOORBELL; none while a line of a table may not be read on its home. -/
def State.atBell (s : State) (k : CtxId) (q : LaunchQ) (pa n : Nat) : Option Bool :=
  match s.devAddr (homeOf pa) k (q.desc.toNat + 0x20) .r with
  | .ok p => some (overlaps pa n p.1 8)
  | .wait => none
  | .fail => some false

/-- A performed write wakes the queue whose DOORBELL it touches (R217, R220), or stays in mind until that is known. -/
def State.ring (s : State) (k : CtxId) (q : LaunchQ) (pa n : Nat) : LaunchQ :=
  match s.atBell k q pa n with
  | some true => { q with run := true }
  | some false => q
  | none => { q with rung := q.rung ++ [(pa, n)] }

/-- Look again at the performed writes that a queue keeps in mind. -/
def State.hearBells (s : State) (k : CtxId) (n : Fin 16) : State :=
  s.modLq k n fun q => q.rung.foldl (fun q p => s.ring k q p.1 p.2) { q with rung := [] }

/-- FRONT_END_RUN: the front end of a queue that has been woken serves the packet at RIDX, or stops (R220). A feed packet is
left to FEED_PACKET, which waits for room. -/
def execFrontEndRun (k : CtxId) (n : Fin 16) (s : State) : Out :=
  let s := s.hearBells k n
  match s.lq k n with
  | none => .next s
  | some q =>
    if !q.run || !s.frontTurn k n then .next s
    else
      match s.frontLook k q with
      | .wait => .next s
      | .none | .fail => .next (s.stopFront k n)
      | .packet p =>
        .next <| s.frontEnd k n <|
          if p.cause ≠ 0 then s.skipBad k n q p
          else if p.typ = 1 then s.launch k n q p
          else if p.typ = 3 then s.raiseRidx k n q p
          else .ok s

/-- The queues of a context whose descriptor a die homes begin a run; so does one whose descriptor's line cannot be read yet, which
the run waits for. -/
def State.wakeFronts (s : State) (d : DieId) (k : CtxId) : State :=
  (List.finRange 16).foldl (fun s n =>
    match s.lq k n with
    | some q =>
      match s.frontDie k q.desc with
      | .ok e => if e = d then s.modLq k n fun x => { x with run := true } else s
      | .wait => s.modLq k n fun x => { x with run := true }
      | .fail => s
    | none => s) s

/-- FRONT_END_POLL: at every multiple of 65,536 ticks each queue of the die begins a run (R220). -/
def execFrontEndPoll (d : DieId) (s : State) : Out :=
  if s.girthOn && decide (s.girth % 65536 = 0) then .next (s.allCtxs.foldl (fun s k => s.wakeFronts d k) s) else .next s

/-- The records of a feed packet, in order. -/
def Packet.recs (p : Packet) : List (List Byte) := (List.range p.len).map fun j => (p.body.drop (56 + 64 * j)).take 64

/-- Copy a feed packet's records, raise FWIDX, and raise RIDX: all of it or nothing (R220, R231). -/
def State.feedIn (s : State) (k : CtxId) (n : Fin 16) (q : LaunchQ) (p : Packet) (f : Feed) : Ans State :=
  match s.feedPut k (Fin.ofNat 64 (p.word 0).toNat) f p.recs with
  | (.ok _, s) => s.raiseRidx k n q p
  | (.wait, _) => .wait
  | (.fail, _) => .fail

/-- FEED_PACKET: once there is room, the packet's records are copied and FWIDX rises (R231). -/
def execFeedPacket (k : CtxId) (n : Fin 16) (s : State) : Out :=
  match s.lq k n with
  | none => .next s
  | some q =>
    if !q.run || !s.frontTurn k n then .next s
    else
      match s.frontLook k q with
      | .packet p =>
        if p.typ ≠ 2 ∨ p.cause ≠ 0 then .next s
        else
          match s.feed k (Fin.ofNat 64 (p.word 0).toNat) with
          | none => .next s
          | some f => if f.room < p.len then .next s else .next (s.frontEnd k n (s.feedIn k n q p f))
      | .none | .wait | .fail => .next s

/-- SCRIPT_RUN: the next packet's script starts at T, or when the one before it has ended (R221). Its counter's PEND is performed
by then. -/
def execScriptRun (d : DieId) (k : CtxId) (s : State) : Out :=
  match s.runsOf d k with
  | r :: t =>
    if !r.started && decide (r.t ≤ s.girth) && s.allDone r.outs then .next (s.setRuns d k ({ r with started := true, outs := [] } :: t))
    else .next s
  | [] => .next s

/-! ## Completion engines -/

/-- READY_PUSH: a push that a completion engine has taken enters its list once there is room (R226). -/
def execReadyPush (d : DieId) (k : CtxId) (s : State) : Out :=
  match s.jobs d k with
  | ⟨.push r, _, _⟩ :: t =>
    match (s.die d).pushReady k r with
    | some x => .next ((s.setDie d x).setJobs d k t)
    | none => .next s
  | _ => .next s

/-- Land what an engine brought in the load of the stream that waits for it. -/
def State.landFor (s : State) (who : Option (CoreId × SeqId × Strm × Nat)) (bs : List Byte) : State :=
  match who with
  | none => s
  | some (c, q, st, id) =>
    match (s.strm c q st).loads.find? fun l => decide (l.id = id) with
    | some l => s.landLoad c q st { l with buf := bs }
    | none => s

/-- The step that a job makes in memory: address, bytes, operation. -/
def CJob.atom : CJob → Option (Nat × Nat × AtomOp)
  | .step c st resid inc => if inc then some (c.toNat / 64 * 64, 4, .pendInc) else some (c.toNat / 64 * 64, 64, .credit st resid)
  | .wake r | .spawn r => some (r.toNat / 64 * 64 + 0x18, 4, .joinDec)
  | .push _ => none

/-- What follows a step, from the bytes it found: jobs that come before the rest of the queue (R228, R354); none while the
record cannot be read yet. -/
def State.stepDone (s : State) (d : DieId) (k : CtxId) (j : CJob) (old : List Byte) : Option (List CJob) :=
  let pushRec (r : Word) (count : Bool) : Option (List CJob) :=
    match s.engGet d k (r.toNat / 64 * 64) 64 with
    | .ok bs =>
      let x := recOf bs (r &&& ~~~63)
      some ((if count && decide (x.launch ≠ 0) then [.step x.launch .none false true] else []) ++ [.push x])
    | .wait | .fail => none
  match j with
  | .step _ st resid inc =>
    if inc then some []
    else
      let new := creditBytes old st resid 0
      if wordAt old 0 % 2 ^ 32 = 1 then
        let parent := wordAt old 0x20
        let wakes := [wordAt old 0x28, wordAt old 0x30].filter fun w => decide (w ≠ 0)
        some ((if parent = 0 then [] else [.step (BitVec.ofNat 64 parent) (worst new) false false]) ++
          wakes.map fun w => CJob.wake (BitVec.ofNat 64 w))
      else some []
  | .wake r => if ofBytes old = 1 then pushRec r false else some []
  | .spawn r => if ofBytes old ≤ 1 then pushRec r true else some []
  | .push _ => some []

/-- The bytes a stream that waits for a job is given: word 0 of the counter just after the step (R320). -/
def CJob.answer (j : CJob) (old : List Byte) : List Byte :=
  match j with
  | .step _ st resid _ => (creditBytes old st resid 0).take 8
  | _ => toBytes 8 0

/-- COMPLETION_STEP: the engine sends the step at the head of a context's queue to its home, and goes on once it is performed
(R228). -/
def execCompletionStep (d : DieId) (k : CtxId) (s : State) : Out :=
  match s.jobs d k with
  | [] => .next s
  | w :: t =>
    match w.job.atom with
    | none => .next s
    | some (va, n, op) =>
      match w.sent with
      | none =>
        match s.engAtom d k va n op .reply with
        | (.ok id, s) => .next (s.setJobs d k ({ w with sent := some id } :: t))
        | (.wait, s) | (.fail, s) => .next s
      | some id =>
        match mapGet s.replies id with
        | none => .next s
        | some old =>
          if s.inFlight id then .next s
          else
            match s.stepDone d k w.job old with
            | none => .next s
            | some js =>
              let s := { s with replies := mapDel s.replies id }
              let s := s.setJobs d k (js.map (fun j => ⟨j, none, none⟩) ++ t)
              .next (s.landFor w.who (w.job.answer old))

end Sys2Proof.Machine
end

