-- ==== Sys2Proof/Machine/HostPort.lean ====
section
/-!
DEFINITION. The mailbox of a PCI Express function (10_memory_ordering R195, 16_host R284, R285): its registers, and host writes
applied one after another, each performed at .p before the next.
-/
namespace Sys2Proof.Machine

/-! ## Registers of a function block (R284) -/

/-- Byte i of a value written from an offset, where the write covers it. -/
def hostByte (off n : Nat) (v : Word) (a : Nat) : Option Byte :=
  if off ≤ a ∧ a < off + n then some (BitVec.ofNat 8 (bitsOf v.toNat (8 * (a - off) + 7) (8 * (a - off)))) else none

/-- The 8 bytes of a register after a write. -/
def hostMerge (off n : Nat) (v : Word) (reg : Nat) (old : Nat) : Nat :=
  ofBytes ((toBytes 8 old).zipIdx.map fun p => (hostByte off n v (reg + p.2)).getD p.1)

/-- A write reaches some byte of a register. -/
def hostHits (off n reg : Nat) : Bool := decide (off < reg + 8) && decide (reg < off + n)

/-- The command codes a function takes: those of a virtual function, or those of the physical function (R286). -/
def codeOk (pf : Bool) (code : Nat) : Bool :=
  if pf then decide (0x20 ≤ code) && decide (code ≤ 0x22) else decide (1 ≤ code) && decide (code ≤ 8)

/-- Code and argument words of the command that the last doorbell took (R286). -/
def FnBlk.code (x : FnBlk) : Nat := x.held[0].toNat
def FnBlk.arg (x : FnBlk) (a : Nat) : Word := BitVec.ofNat 64 (ofBytes ((x.held.toList.drop (8 + 8 * a)).take 8))
def FnBlk.args (x : FnBlk) : Vector Word 5 := Vector.ofFn fun i => x.arg i.val

/-- A doorbell takes the command held in CMD, which later writes to CMD do not change (DEDUCED, assumption log 102). -/
def FnBlk.take (x : FnBlk) : FnBlk := { x with held := x.cmd }

/-- A doorbell: it starts the command, sets OVR while one is in progress, and fails an unknown code (R285, R286). -/
def FnBlk.doorbell (x : FnBlk) (pf : Bool) : FnBlk :=
  if x.busy then { x with ovr := true }
  else if codeOk pf x.take.code then { x.take with busy := true, waits := [] }
  else { x.take with status := 1, result := 0 }

def FnBlk.boot (x : FnBlk) (l : Nat) : BootBox := (mapGet x.boots l).getD BootBox.reset
def FnBlk.setBoot (x : FnBlk) (l : Nat) (b : BootBox) : FnBlk := { x with boots := mapPut x.boots l b }

/-- Offset of a boot mailbox. -/
def bootBase (l : Nat) : Nat := 0x400 + 32 * l

/-- A write to a boot mailbox; BSTAT is the device's (R288). -/
def FnBlk.bootWrite (x : FnBlk) (off n : Nat) (v : Word) (l : Nat) : FnBlk :=
  let base := bootBase l
  let b := x.boot l
  let b := if hostHits off n base then { b with image := BitVec.ofNat 64 (hostMerge off n v base b.image.toNat) } else b
  let b := if hostHits off n (base + 8) then { b with argbase := BitVec.ofNat 64 (hostMerge off n v (base + 8) b.argbase.toNat) } else b
  let b := if hostHits off n (base + 16) then
      let w := hostMerge off n v (base + 16) b.ctl.toNat
      { b with ctl := BitVec.ofNat 64 (w % 2 + bitsOf w 10 8 * 2 ^ 8 + bitsOf b.ctl.toNat 23 16 * 2 ^ 16) }
    else b
  x.setBoot l b

/-- The boot mailboxes that a write reaches. -/
def bootsHit (off n : Nat) : List Nat := (List.range 64).filter fun l => decide (off < bootBase l + 32) && decide (bootBase l < off + n)

/-- A host write of n bytes to the function block. -/
def FnBlk.regWrite (x : FnBlk) (pf : Bool) (off n : Nat) (v : Word) : FnBlk :=
  let x := { x with cmd := Vector.ofFn fun i => (hostByte off n v i.val).getD x.cmd[i] }
  let x := match hostByte off n v 0x41 with
    | some b => if b.getLsbD 1 then { x with ovr := false } else x
    | none => x
  let x := if hostHits off n 0x58 then
      let w := hostMerge off n v 0x58 (x.winCtx.val + x.winBase.toNat * 65536)
      { x with winCtx := Fin.ofNat 8 (bitsOf w 2 0), winBase := BitVec.ofNat 48 (w / 65536) }
    else x
  let x := (bootsHit off n).foldl (fun x l => x.bootWrite off n v l) x
  match hostByte off n v 0x50 with
  | some b => if b.getLsbD 0 then x.doorbell pf else x
  | none => x

/-- The 8-byte register at a multiple of 8 as a host reads it: a write-only register and an offset that is not listed read 0 (R12,
R284, R288). -/
def FnBlk.regValue (x : FnBlk) (reg : Nat) : Nat :=
  if reg < 0x40 then ofBytes ((x.cmd.toList.drop reg).take 8)
  else if reg = 0x40 then x.status.toNat + b2n x.busy * 2 ^ 8 + b2n x.ovr * 2 ^ 9
  else if reg = 0x48 then x.result.toNat
  else if reg = 0x58 then x.winCtx.val + x.winBase.toNat * 65536
  else if 0x400 ≤ reg ∧ reg < 0x400 + 32 * 64 then
    let b := x.boot ((reg - 0x400) / 32)
    match (reg - 0x400) % 32 / 8 with
    | 0 => b.image.toNat
    | 1 => b.argbase.toNat
    | 2 => b.ctl.toNat
    | _ => 0
  else 0

/-- What a host reads at n bytes of a function block from an offset (R284). A read changes nothing, so it is no event of its own. -/
def FnBlk.regRead (x : FnBlk) (off n : Nat) : List Byte :=
  (List.range n).map fun i => BitVec.ofNat 8 (elemOf 8 ((off + i) % 8) (x.regValue ((off + i) / 8 * 8)))

/-! ## Applying host writes in order (R195) -/

/-- The die of a host port, from which its traffic goes (R18, R19). -/
def portDie (p : Fin 2) : DieId := ⟨2 * p.val, by omega⟩

/-- The context a function's writes carry: its slice; Bridle's own carry slice 0 (they touch no slice's frames). -/
def fnCtx (f : FnId) : CtxId := ⟨Fin.ofNat 32 (f.fn.val - 1), 0⟩

/-- The function of a block number. -/
def fnOfNo (n : Nat) : FnId := ⟨Fin.ofNat 2 (n / 64), Fin.ofNat 33 (n % 64)⟩

/-- The slice a virtual function is bound to (R25, R253). -/
def State.fnSlice (s : State) (f : FnId) : Option (Fin 32 × Slice) :=
  if f.fn = 0 then none
  else
    let n : Fin 32 := Fin.ofNat 32 (f.fn.val - 1)
    match s.slice? n with
    | some x => if x.port = f.port ∧ x.accept = true then some (n, x) else none
    | none => none

/-- The answer to the last access of a function; an Unsupported Request among them (R253). -/
def State.answer (s : State) (f : FnId) (v : Reply) : State := s.modFn f fun x => { x with reply := v }
def State.refuse (s : State) (f : FnId) : State := s.answer f .unsupported

/-! ## The memory window (R259, R284) -/

/-- A piece of an access through a window, inside one page: bytes of device memory with their KEYID, or of host memory. -/
inductive WinPiece where
  | dev (pa keyId : Nat) (bytes : List Byte)
  | host (addr : Nat) (bytes : List Byte)
  deriving DecidableEq, Repr

/-- One piece of a run through a function's window, in the view of the die of its port (R18), and the D-bit writes that come before a
write (R200): of a virtual function, through both stages of its context, device memory or host memory where stage 2 names a host page; of
the physical function, a device physical address that the allocation table gives to Bridle. A peer's page is not reached (assumption
log 41). `wait` while a line of a table may not be read yet. -/
def State.winAddr (s : State) (f : FnId) (va : Nat) (n : Need) (bs : List Byte) : Ans (WinPiece × List Nat) × State :=
  let d := portDie f.port
  if f.fn = 0 then
    let e := s.allocAt d (frameOf va)
    if va < 2 ^ 39 ∧ allocState e = 1 ∧ allocOwner e = 32 then (.ok (.dev va (allocKey e) bs, []), s) else (.fail, s)
  else
    match s.fnSlice f with
    | some (sl, _) =>
      match s.engTrans d ⟨sl, (s.fn f).winCtx⟩ va n fun k => decide (k ≠ .fab) with
      | (.ok (t, ds), s) =>
        let a := t.page * 65536 + va % 65536
        (.ok (if t.kind = .dev then .dev a t.keyId bs else .host a bs, ds), s)
      | (.wait, s) => (.wait, s)
      | (.fail, s) => (.fail, s)
    | none => (.fail, s)

/-- Context virtual address of a window offset. -/
def State.winVa (s : State) (f : FnId) (off : Nat) : Nat := (s.fn f).winBase.toNat * 65536 + off

/-- The pieces of a run through the window, cut at pages, if every one is reached, and the D-bit writes that come first. -/
def State.winPieces (s : State) (f : FnId) (n : Need) : Nat → Nat → List Byte → Ans (List WinPiece × List Nat) × State
  | 0, _, _ => (.ok ([], []), s)
  | m + 1, va, bs =>
    if bs.isEmpty then (.ok ([], []), s)
    else
      let here := min bs.length (65536 - va % 65536)
      match s.winAddr f va n (bs.take here) with
      | (.wait, s) => (.wait, s)
      | (.fail, s) => (.fail, s)
      | (.ok (p, ds), s) =>
        match s.winPieces f n m (va + here) (bs.drop here) with
        | (.ok (t, es), s) => (.ok (p :: t, ds ++ es), s)
        | (.wait, s) => (.wait, s)
        | (.fail, s) => (.fail, s)

/-- The pieces of a run of bytes at a window offset. -/
def State.winRun (s : State) (f : FnId) (n : Need) (off : Nat) (bs : List Byte) : Ans (List WinPiece × List Nat) × State :=
  s.winPieces f n (bs.length / 65536 + 2) (s.winVa f off) bs

/-- Make the pieces of a host write: those of device memory are entered at the die of the port. -/
def State.hostPieces (s : State) (f : FnId) : List WinPiece → List Nat × State
  | [] => ([], s)
  | .dev pa key bs :: t =>
    let d := portDie f.port
    let (id, s) := s.putEng (fnCtx f) (engCore d) d pa key (.bytes (bs.map some)) [] .drop
    let (ids, s) := s.hostPieces f t
    (id :: ids, s)
  | .host addr bs :: t => (s.hostPut f addr (bs.map some)).hostPieces f t

/-! ## GO of a boot mailbox (R288) -/

/-- GO is cleared with a BSTAT. -/
def State.bootEnd (s : State) (f : FnId) (l bstat : Nat) : State :=
  s.modFn f fun x =>
    let b := x.boot l
    x.setBoot l { b with ctl := BitVec.ofNat 64 (bitsOf b.ctl.toNat 10 8 * 2 ^ 8 + bstat * 2 ^ 16), start := none }

/-- A logical core of a context is saved and not restored. -/
def Ctx.savedCore (x : Ctx) (l : Nat) : Bool := x.saved.any fun v => v.cores.any fun c => decide (c.lcore = l)

/-- The four sequencers of logical core l, on a physical core or in a save area, are IDLE. One that has lost its physical core with
nothing saved has none that runs. -/
def State.bootIdle (s : State) (n : Fin 32) (l : Nat) (c : CoreId) (y : Ctx) : Bool :=
  !y.savedCore l &&
    (decide ((s.core c).bind ≠ some (n, l)) || (s.core c).seqs.toList.all fun q => decide (q.st = .idle))

/-- A write with GO = 1 in the mailbox of logical core l: l, the context and the four sequencers are tested at the write, and the boot starts
with the mailbox as it stands. One that is on its way starts anew (DESIGN CHOICE, assumption log 42). -/
def State.bootAsk (s : State) (f : FnId) (l : Nat) : State :=
  let b := (s.fn f).boot l
  let m : Fin 8 := Fin.ofNat 8 (bitsOf b.ctl.toNat 10 8)
  match s.fnSlice f with
  | none => s.bootEnd f l 5
  | some (n, x) =>
    match x.cores[l]?, s.ctx? ⟨n, m⟩ with
    | some c, some y =>
      if s.bootIdle n l c y then s.modFn f fun x => x.setBoot l { b with start := some ⟨m, b.image, b.argbase⟩ }
      else s.bootEnd f l 4
    | _, _ => s.bootEnd f l 5

/-- The mailboxes whose GO a write sets. -/
def goesHit (off n : Nat) (v : Word) : List Nat :=
  (bootsHit off n).filter fun l => match hostByte off n v (bootBase l + 16) with
    | some b => b.getLsbD 0
    | none => false

/-- A host write of a register of the function block. -/
def State.hostReg (s : State) (f : FnId) (off n : Nat) (v : Word) : State :=
  (goesHit off n v).foldl (fun s l => s.bootAsk f l) (s.modFn f (·.regWrite (decide (f.fn = 0)) off n v))

/-! ## Applying host writes in order (R195) -/

/-- The mailbox waits for writes, and then for the write at its head again. -/
def State.hostHold (s : State) (f : FnId) (ids : List Nat) : State := s.modFn f fun x => { x with hostOut := ids }

/-- Begin one host write, in its turn: the window registers and the tables are those of now (R285). A register takes its value at once; a
write through the window that fails is dropped with an Unsupported Request (R259, R284). The Bool says that it has been applied: else its
D bits are not set yet (R200), or a line of a table may not be read until writes in flight are performed, and its turn comes again. -/
def State.hostStart (s : State) (f : FnId) (o : HostOp) : State × Bool :=
  let run (n : Need) (off : Nat) (bs : List Byte) (go : State → List WinPiece → State) : State × Bool :=
    match s.winRun f n off bs with
    | (.fail, s) => (s.refuse f, true)
    | (.wait, s) => (s.hostHold f (s.transit.map (·.id)), false)
    | (.ok (ps, ds), s) => if (s.stillOut ds).isEmpty then (go s ps, true) else (s.hostHold f (s.stillOut ds), false)
  match o with
  | .reg off n v => (s.hostReg f off n v, true)
  | .win off bs => run .w off bs fun s ps =>
      let (ids, s) := s.hostPieces f ps
      s.hostHold f (s.stillOut ids)
  | .add off v => run .rw off (toBytes 8 v.toNat) fun s ps =>
      match ps with
      | [.dev pa key _] =>
        let d := portDie f.port
        let (id, s) := s.putEng (fnCtx f) (engCore d) d pa key (.atom 8 (.fetchAdd v)) [] .reply
        s.modFn f fun x => { x with hostOut := [id], hostAdd := some id }
      | _ => s.refuse f

/-- Apply queued host writes until one is in flight or has to wait. Each is tagged with the Girth count at which it takes effect
(R285). -/
def State.hostDrain (s : State) (f : FnId) : List HostOp → State
  | [] => s.modFn f fun x => { x with hostQ := [] }
  | o :: t =>
    if !(s.fn f).hostOut.isEmpty then s.modFn f fun x => { x with hostQ := o :: t }
    else
      match s.hostStart f o with
      | (s, true) => (s.modFn f fun x => { x with tag := s.girth }).hostDrain f t
      | (s, false) => s.modFn f fun x => { x with hostQ := o :: t }

/-- A host write reaches the mailbox. -/
def State.hostArrive (s : State) (f : FnId) (o : HostOp) : State := s.hostDrain f ((s.fn f).hostQ ++ [o])

/-- A write of a mailbox is performed: when it was the last, the mailbox goes on. The old value of a FetchAdd returns to the host. -/
def State.mailDone (s : State) (f : FnId) (id : Nat) : State :=
  let x := s.fn f
  let out := x.hostOut.filter fun i => decide (i ≠ id)
  let s := if x.hostAdd = some id then
      ({ s with replies := mapDel s.replies id } : State).setFn f
        { x with hostOut := out, hostAdd := none, reply := .data ((mapGet s.replies id).getD []) }
    else s.setFn f { x with hostOut := out }
  if out.isEmpty then s.hostDrain f x.hostQ else s

/-- A write is performed: each mailbox that waits for it goes on. -/
def State.hostDone (s : State) (id : Nat) : State :=
  (s.fns.filter fun p => p.2.hostOut.contains id).foldl (fun s p => s.mailDone (fnOfNo p.1) id) s

end Sys2Proof.Machine
end

