-- ==== Sys2Proof/Machine/Coherence.lean ====
section
/-!
DEFINITION. The way of a write to device memory from its die to its home and to the other dies (10_memory_ordering R182 to R184,
R194; 14_slices R260), with what follows it: the credit or the old value of an element step (R148, R169), the bytes of a
completion step (R228), and the doorbell of a launch queue (R220).
-/
namespace Sys2Proof.Machine

/-! ## Leaving the die -/

/-- A load named by a write's `waits` is still open, or a write named there is not performed (R184, R200). -/
def State.loadOpen (s : State) (c : CoreId) (id : Nat) : Bool :=
  (s.core c).seqs.toList.any fun x => (x.a.loads ++ x.c.loads).any fun l => decide (l.id = id)

def State.writeFree (s : State) (w : WriteRec) : Bool := w.waits.all fun i => !s.inFlight i && !s.loadOpen w.core i

/-- Lines of a store still wait to enter the die behind its first write (R197). -/
def State.writeWhole (s : State) (w : WriteRec) : Bool :=
  !(s.core w.core).seqs.toList.any fun x => x.held.any fun h => h.effs.any fun
    | .stDev _ _ grp => decide (grp = some w.grp)
    | _ => false

/-- Some writes have left a die: the writes there that are one with them will be performed too (R197). -/
def Die.noteLeft (x : Die) (ws : List WriteRec) : Die :=
  { x with pend := x.pend.map fun w => if ws.any fun v => decide (v.grp = w.grp) then { w with torn := true } else w }

/-- The oldest write of a die toward a home that has not entered its cache enters it: from now on every agent of the die sees it
(R182 step 1). -/
def Die.enterWrite (x : Die) (w : WriteRec) : Die :=
  { x with pend := (x.pend.filter fun v => decide (v.id ≠ w.id)) ++ [{ w with entered := true }] }

/-- Split the writes pending on a die into those that may leave it toward a home now, in order, and the rest: a write waits
behind earlier ones to the same bytes. -/
def State.splitPend (s : State) (home : DieId) : List WriteRec → List WriteRec → List WriteRec × List WriteRec
  | _, [] => ([], [])
  | held, w :: t =>
    if decide (w.home = home) && s.writeFree w && s.writeWhole w && w.entered && !(held.any fun v => overlaps v.pa v.len w.pa w.len) then
      let (a, b) := s.splitPend home held t
      (w :: a, b)
    else
      let (a, b) := s.splitPend home (w :: held) t
      (a, w :: b)

/-! ## Applying -/

/-- Store bytes at an address of a view; a byte that is none is left. -/
def viewPut (m : Memory) (a : Nat) : List (Option Byte) → Memory
  | [] => m
  | b :: t => viewPut (match b with | some v => tblSet 0 m a v | none => m) (a + 1) t

def Die.apply (x : Die) (pa : Nat) (bs : List (Option Byte)) (vc : VClock) : Die := { x with view := viewPut x.view pa bs, vc := vc }

/-- The key a write was made under still stands in its slot (R260). -/
def State.keyLives (s : State) (gen : Nat) : Bool := s.keys.any fun p => decide (p.2 = gen)

/-- What a write does at its home, from the bytes it finds there (R194). -/
def WriteRec.result (w : WriteRec) (old : List Byte) (girth : Word) : List (Option Byte) :=
  match w.pay with
  | .bytes bs => bs
  | .atom _ op =>
    (match op with
      | .acc _ _ _ | .swap _ | .cas _ _ => stepElem op old
      | _ => engStep op old girth).map some

/-- The tag of a written line carries the key's generation (R260). A write that Bridle's slots carry reaches HBM4 with this, and starts the
fill of a cleared frame; one that a core's request carries does so in its slot. -/
def State.touchLine (s : State) (pa gen : Nat) (eng : Bool) : State :=
  let s := if s.tagGen pa = some gen then s else { s with lineGen := mapPut s.lineGen (pa / 128) gen }
  if eng then s.startFill (frameOf pa) 127 else s

/-- The issuing die has applied its own write: the element step is credited, or its old value reaches the scratchpad
(R148, R169). -/
def State.srcApplied (s : State) (w : WriteRec) : State :=
  match w.old with
  | .credit c ac n => s.credit c (some ac) n [w.id]
  | .back c off ac bs => (s.spadStore c off (bs.map some)).credit c ac bs.length [w.id]
  | .drop | .feed _ _ | .spad _ _ _ | .reply => s

/-- Any launch queue of the write's slice whose doorbell it touches begins a run (R217, R220). -/
def State.doorbell (s : State) (w : WriteRec) : State :=
  (List.finRange 8).foldl (fun s n =>
    let k : CtxId := ⟨w.ctx.slice, n⟩
    match s.ctx? k with
    | none => s
    | some x => (List.finRange 16).foldl (fun s q =>
        match x.lqs[q.val] with
        | some l => s.modLq k q fun _ => s.ring k l w.pa w.len
        | none => s) s) s

/-- A write of a peer package is performed: it is acknowledged, with the old value of a swap (R180). -/
def State.fabAck (s : State) (id : Nat) : State :=
  match mapGet s.fabWait id with
  | none => s
  | some r =>
    let bs := (mapGet s.replies id).getD []
    { s with
      fabBack := s.fabBack ++ [{ r with ans := some bs, flits := flitsOf bs.length }]
      fabWait := mapDel s.fabWait id
      replies := mapDel s.replies id }

/-- All four dies have applied a write. -/
def allSeen : BitVec 4 := BitVec.allOnes 4

/-- A die marks a write as applied; once all four have, it is performed at .p and is no longer in flight (R180). -/
def State.seenBy (s : State) (w : WriteRec) (d : DieId) : State :=
  let v := { w with seen := w.seen ||| BitVec.ofNat 4 (2 ^ d.val) }
  let s := if d = w.src then s.srcApplied v else s
  if v.seen = allSeen then (({ s with transit := s.transit.filter fun (x : WriteRec) => decide (x.id ≠ w.id) } : State).doorbell v).fabAck v.id |>.hostDone v.id
  else { s with transit := s.transit.map fun x => if x.id = w.id then v else x }

/-- The home of a write applies it and stamps it (R182 step 2). The write stands in `transit`. -/
def State.homeApply (s : State) (w : WriteRec) : State :=
  let h := w.home
  let live := s.keyLives w.gen
  let old := if live then tblGetRun 0 (s.die h).view w.pa w.len else List.replicate w.len 0
  let new := if live then w.result old (s.ctxGirth w.ctx) else List.replicate w.len none
  let vc := (s.die h).vc.set h.val ((s.die h).vc[h.val] + 1)
  let v := { w with
    pay := .bytes new
    stamp := some vc
    old := match w.old with
      | .spad c off ac => .back c off ac old
      | o => o }
  let s := s.modDie h (·.apply w.pa new vc)
  let s := if live then (linesOf w.pa w.len 0).foldl (fun s p => s.touchLine (p.1 * 128) w.gen w.eng) s else s
  let s := if w.old = .reply then { s with replies := s.replies ++ [(w.id, old)] } else s
  let s := { s with transit := s.transit.map fun (x : WriteRec) => if x.id = w.id then v else x }
  s.seenBy v h

/-- WRITE_APPLY_HOME: a write enters its die's cache; when none is to enter, writes that may leave their die toward a home do so with
the clock of that die; when none is to leave, the first that arrived is applied once the home's clock has reached the clock it
carries. A write whose home is its own die is applied there directly (R182). -/
def execWriteApplyHome (src home : DieId) (s : State) : Out :=
  let (out, rest) := s.splitPend home [] (s.die src).pend
  match (s.die src).pend.find? fun w => decide (w.home = home) && !w.entered with
  | some w => .next (s.modDie src (·.enterWrite w))
  | none =>
  if src = home then
    match out with
    | [] => .next s
    | w :: _ =>
      let s := s.modDie src fun x => ({ x with pend := x.pend.filter fun v => decide (v.id ≠ w.id) } : Die).noteLeft [w]
      .next (({ s with transit := s.transit ++ [w] } : State).homeApply w)
  else if !out.isEmpty then
    let dep := (s.die src).vc
    let s := s.modDie src fun x => ({ x with pend := rest } : Die).noteLeft out
    .next { s with transit := s.transit ++ out.map fun w => { w with dep := some dep } }
  else
    match s.transit.find? fun w => decide (w.src = src) && decide (w.home = home) && w.stamp.isNone with
    | none => .next s
    | some w =>
      match w.dep with
      | some dep => if VClock.le dep (s.die home).vc then .next (s.homeApply w) else .next s
      | none => .next (s.homeApply w)

/-- A die may apply a stamped write: the next one of its home, and everything that came before it is there (R182 step 3). -/
def stampNext (stamp vc : VClock) (h : DieId) : Bool :=
  (List.finRange 4).all fun i => if i = h then decide (vc[i.val] + 1 = stamp[i.val]) else decide (stamp[i.val] ≤ vc[i.val])

/-- A die sees the allocation entries of a home as they are, past the home's writes (R259, R264). -/
def State.allocSeen (s : State) (home d : DieId) : State :=
  { s with allocOld := s.allocOld.filter fun p =>
      !(decide (p.1 / 8388608 = d.val) && decide (homeOf (p.1 % 8388608 * 65536) = home)) }

/-- WRITE_APPLY_REMOTE: another die applies the next stamped write of a home, and after these the entries of the allocation table that
have changed there. -/
def execWriteApplyRemote (home d : DieId) (s : State) : Out :=
  if home = d then .next s
  else
    match s.transit.find? fun w => decide (w.home = home) && !w.seen.getLsbD d.val && match w.stamp with
      | some st => stampNext st (s.die d).vc home
      | none => false with
    | none => .next (s.allocSeen home d)
    | some w =>
      match w.pay, w.stamp with
      | .bytes bs, some st =>
        let s := s.modDie d fun x => x.apply w.pa bs (x.vc.set home.val st[home.val])
        .next (s.seenBy w d)
      | _, _ => .next s

end Sys2Proof.Machine
end

