-- ==== Sys2Proof/Machine/Faults.lean ====
section
/-!
DEFINITION. Walks and window fills as events, the fault queue, and what Bridle does about stage-2 faults (11_translation R199 to
R212). Writes that Bridle's firmware makes itself are performed at .p as one act (assumption log 30).
-/
namespace Sys2Proof.Machine

/-! ## Bridle's own writes -/

/-- Bridle writes bytes under a key: all four views take them at once. -/
def State.fwPut (s : State) (key pa : Nat) (bs : List (Option Byte)) : State :=
  match s.keyGen key with
  | none => s
  | some g =>
    let s := { s with dies := s.dies.map fun (x : Die) => { x with view := viewPut x.view pa bs } }
    (linesOf pa bs.length 0).foldl (fun s p => s.touchLine (p.1 * 128) g true) s

/-- Bridle writes bytes of a Keeper log, whose address lies in its own memory (R248, assumption log 64). -/
def State.logPut (s : State) (pa : Nat) (bs : List Byte) : State :=
  if s.owns 32 (frameOf pa) then s.fwPut 127 pa (bs.map some) else s

/-- Bridle writes entries of its stage-2 tables. -/
def State.fwTab (s : State) (tab : TabWrites) : State :=
  tab.foldl (fun s p => s.fwPut 127 p.1 ((toBytes 8 p.2.toNat).map some)) s

/-! ## Walks (R199, R205) -/

/-- TRANSLATION_WALK: a walk for a core completes and fills the TLB, with the D bit where it is for a write. A walk that fails
fills nothing; the access that needs it walks again and faults (R202). -/
def execTranslationWalk (c : CoreId) (va : BitVec 64) (wr : Bool) (s : State) : Out :=
  match (s.core c).ctxId with
  | none => .next s
  | some k => if 2 ^ 52 ≤ va.toNat then .next s else .next (s.walkFor c k va.toNat (if wr then .w else .r)).2

/-- PAGE_WINDOW_FILL: a port that has asked for the next page fills its next-page register through the TLB, or records the
failure (R205). -/
def execPageWindowFill (c : CoreId) (q : SeqId) (p : Fin 4) (s : State) : Out :=
  let w := (s.strm c q .a).port p
  match (s.core c).ctxId, w.want with
  | some k, some page =>
    let put (s : State) (r : WinReg) : State := s.modStrm c q .a fun x => x.setPort p { x.port p with nxt := r, want := none }
    match (s.core c).tlbFind k (page * 65536) with
    | some t => .next (put s (.ok page t))
    | none =>
      match s.walkFill c k (page * 65536) with
      | (.ok g, s) => .next (put s (.ok page g.t))
      | (.error (.fault cause _), s) => .next (put s (.bad page cause))
      | (.error .bad, s) => .next (put s (.bad page 0))
      | (.error .wait, s) => .next s
  | _, _ => .next s

/-! ## The fault queue (R209, R210) -/

/-- The 32 bytes of a descriptor (R209). -/
def Desc.bytes (d : Desc) : List Byte :=
  toBytes 8 d.addr ++ toBytes 8 d.sechdr.toNat ++
    toBytes 8 (d.word % 4096 + d.cause % 256 * 2 ^ 16 + b2n d.write * 2 ^ 24 + b2n d.exec * 2 ^ 25 + b2n d.straddle * 2 ^ 26 +
      b2n d.window * 2 ^ 27 + d.agent % 256 * 2 ^ 32 + d.lcore % 64 * 2 ^ 40) ++
    toBytes 4 d.fid.toNat ++ toBytes 4 d.offset

/-- The numbered descriptors that the cores hold for a context, each with its core. -/
def State.descsOf (s : State) (k : CtxId) : List (CoreId × Desc) :=
  allCores.flatMap fun c => ((s.core c).descs.filter fun d => decide (d.ctx = k) && decide (d.fid ≠ 0)).map fun d => (c, d)

/-- The oldest descriptor of a context: fault numbers count up to the next one, past the wrap (R209). -/
def oldestDesc (next : BitVec 32) : List (CoreId × Desc) → Option (CoreId × Desc)
  | [] => none
  | p :: t =>
    match oldestDesc next t with
    | none => some p
    | some r => if (r.2.fid - next).toNat < (p.2.fid - next).toNat then some r else some p

/-- A descriptor leaves its core. -/
def State.dropDesc (s : State) (c : CoreId) (fid : BitVec 32) (k : CtxId) : State :=
  s.modCore c fun x => { x with descs := x.descs.filter fun d => !(decide (d.fid = fid) && decide (d.ctx = k)) }

/-- The die that homes a context's fault-queue header. -/
def State.faultDie (s : State) (k : CtxId) (x : Ctx) : Ans DieId :=
  match s.devAddr 0 k x.faultHdr.toNat .r with
  | .ok p => .ok (homeOf p.1)
  | .wait => .wait
  | .fail => .fail

/-- The queue cannot be written: its descriptors wait (R210). -/
def State.faultStuck (s : State) (k : CtxId) : State := s.modCtx k fun x => { x with fqStuck := true }

/-- A write to the fault queue: made, held for a line that cannot be read yet, or refused. -/
def State.faultPut (s : State) (k : CtxId) (die : DieId) (va : Nat) (bs : List Byte) (go : Nat → State → State) : Out :=
  match s.engPut die k va bs with
  | (.ok id, t) => .next (go id t)
  | (.wait, _) => .next s
  | (.fail, _) => .next (s.faultStuck k)

/-- FAULT_DESCRIPTOR_WRITE: the oldest descriptor of a context is written at WIDX when there is room; once that is performed at
.p, WIDX rises (R210). -/
def execFaultDescriptorWrite (k : CtxId) (s : State) : Out :=
  match s.ctx? k with
  | none => .next s
  | some x =>
    match oldestDesc x.nextFid (s.descsOf k) with
    | none => .next s
    | some (c, d) =>
      if x.fqStuck then .next s
      else
        match s.faultDie k x with
        | .wait => .next s
        | .fail => .next (s.faultStuck k)
        | .ok die =>
          match s.engGet die k x.faultHdr.toNat 16 with
          | .wait => .next s
          | .fail => .next (s.faultStuck k)
          | .ok bs =>
            let widx := wordAt bs 0
            match d.sent with
            | some id =>
              if s.inFlight id then .next s
              else s.faultPut k die x.faultHdr.toNat (toBytes 8 (widx + 1)) fun _ s => s.dropDesc c d.fid k
            | none =>
              if 2 ^ x.faultLog2 ≤ (widx + 2 ^ 64 - wordAt bs 8) % 2 ^ 64 then .next s
              else
                s.faultPut k die (x.faultHdr.toNat + 64 + 32 * (widx % 2 ^ x.faultLog2)) d.bytes fun id s =>
                  s.modCore c fun y => { y with descs := y.descs.map fun e =>
                    if e.fid = d.fid ∧ e.ctx = k then { e with sent := some id } else e }

/-- FAULT_QUEUE_RETRY: at a multiple of 65,536 ticks an unwritable queue is tried again (R210). -/
def execFaultQueueRetry (k : CtxId) (s : State) : Out :=
  if s.girthOn && decide (s.girth % 65536 = 0) then .next (s.modCtx k fun x => { x with fqStuck := false }) else .next s

/-! ## Stage-2 faults (R207) and shoot-down (R204) -/

/-- Why an agent is parked. -/
def State.parkOf (s : State) (c : CoreId) : Agent → Option Park
  | .strm q st => if (s.strm c q st).st = .parked then (s.strm c q st).park else none
  | .queue n => (((s.core c).cq n).head).bind (·.park)

/-- Restart a parked agent (R211). -/
def State.unpark (s : State) (c : CoreId) : Agent → State
  | .strm q st => s.unparkStream c q st
  | .queue n => s.unparkQueue c n

/-- A context-fatal trap of a parked agent. -/
def State.trapParked (s : State) (c : CoreId) (a : Agent) (t : TrapInfo) : State :=
  match a with
  | .strm q st => s.trapStream c q st t ((s.curWord c (s.strm c q st)).getD 0)
  | .queue n => s.trapQueue c n t

/-- Bridle takes the descriptor of a parked agent off its queue (R207). -/
def State.dropS2 (s : State) (c : CoreId) (p : Park) : State :=
  match (s.core c).ctxId with
  | some k => { s with s2q := s.s2q.filter fun d => !(decide (d.ctx = k) && decide (d.fid = p.fid)) }
  | none => s

/-- Bridle may freeze the context of a stage-2 fault: the guest physical address lies outside every range it has granted the slice, or
the denial is the grant it intends (R207). -/
def State.mayFreeze (s : State) (c : CoreId) (p : Park) : Bool :=
  decide (p.cause = 4) ||
    match (s.core c).bind with
    | some b => match s.slice? b.1 with
      | some x => !x.gpas.any fun r => decide (r.1 ≤ p.gpa) && decide (p.gpa < r.1 + r.2)
      | none => true
    | none => true

/-- STAGE2_FAULT_RESOLVE: Bridle makes the page reachable and resumes the agent, or in the two cases that allow it freezes the context
with kind 15 (R207). -/
def execStage2FaultResolve (c : CoreId) (a : Agent) (fatal : Bool) (tab : TabWrites) (s : State) : Out :=
  match s.parkOf c a with
  | none => .next s
  | some p =>
    if p.cause ≠ 3 ∧ p.cause ≠ 4 then .next s
    else if fatal then
      .next (if s.mayFreeze c p then (s.dropS2 c p).trapParked c a ⟨15, p.cause, BitVec.ofNat 64 p.gpa, 0⟩ else s)
    else .next (((s.fwTab tab).dropS2 c p).unpark c a)

/-- Drop TLB entries and window registers of the contexts that p selects, on every core (R204). -/
def State.shootDown (s : State) (p : CtxId → Nat → Bool) (win : CtxId → Bool) : State :=
  { s with cores := s.cores.map fun (x : Core) =>
      let x := { x with tlb := tlbDrop p x.tlb }
      match x.ctxId with
      | some k => if win k then { x with seqs := x.seqs.map Seq.dropPorts } else x
      | none => x }

/-- The cores on which an invalidation of a slice, or of one context of it, acts. -/
def State.invalCores (s : State) (n : Fin 32) (m : Option (Fin 8)) : List CoreId :=
  match m with
  | some i => s.coresOf ⟨n, i⟩
  | none => (List.finRange 8).flatMap fun i => s.coresOf ⟨n, i⟩

/-- A held effect stores to memory. -/
def Eff.stores : Eff → Bool
  | .stDev _ _ _ | .stHost _ _ _ _ _ | .stFab _ _ _ _ _ _ => true
  | _ => false

/-- Writes and requests to peers that the streams and copy queues of a core have sent and that are not performed (R181). -/
def State.sentBy (s : State) (c : CoreId) : List Nat :=
  let k := s.core c
  s.stillOut (k.seqs.toList.flatMap (fun x => x.a.deps ++ x.c.deps ++ x.a.fdeps ++ x.c.fdeps) ++
    k.cqs.toList.flatMap fun q => q.cmds.flatMap fun m => m.outs.map (·.1))

/-- Loads of a core that are open. -/
def Core.loadIds (k : Core) : List Nat := k.seqs.toList.flatMap fun x => (x.a.loads ++ x.c.loads).map (·.id)

/-- Reads from the host or a peer that the copy units of a core have asked for. -/
def Core.unitIds (k : Core) : List Nat :=
  k.cqs.toList.flatMap fun q => q.cmds.flatMap fun m => match m.unit with
    | some u => u.ext.map (·.1)
    | none => []

/-- A read of the host or of a peer is open. -/
def State.readOpen (s : State) (id : Nat) : Bool :=
  (s.hostReads.any fun r => decide (r.id = id)) || s.fabOuts.any fun r => decide (r.id = id)

/-- An invalidation that begins now: what it waits for. -/
def State.newInval (s : State) (id : Nat) (n : Fin 32) (m : Option (Fin 8)) : Inval :=
  let cs := s.invalCores n m
  ⟨id, n, m,
    (cs.flatMap fun c => allSeqs.map fun q => (c, q)).filterMap fun p =>
      let x := s.seq p.1 p.2
      if x.held.any fun h => h.effs.any Eff.stores then some (p.1, p.2, x.wno) else none,
    cs.flatMap fun c => (s.core c).loadIds ++ (s.core c).unitIds ++ s.sentBy c⟩

/-- A sequencer still holds a store of a word before a number. -/
def State.holdsStore (s : State) (p : CoreId × SeqId × Nat) : Bool :=
  (s.seq p.1 p.2.1).held.any fun h => decide (h.no < p.2.2) && h.effs.any Eff.stores

/-- A tick of an invalidation: stores that were held have left, and then their writes are waited for; none once it is complete. -/
def State.stepInval (s : State) (v : Inval) : Option Inval :=
  let words := v.words.filter s.holdsStore
  let more := if words.isEmpty && !v.words.isEmpty then (s.invalCores v.slice v.ctx).flatMap s.sentBy else []
  let ids := (v.ids ++ more).filter fun i => s.inFlight i || s.fabOpen [i] || s.readOpen i || allCores.any fun c => s.loadOpen c i
  if words.isEmpty && ids.isEmpty then none else some { v with words := words, ids := ids }

/-- Invalidations go on as a tick ends (R204). -/
def State.stepInvals (s : State) : State := { s with invals := s.invals.filterMap s.stepInval }

/-- What every core holds of a slice's translations is dropped; the invalidation is complete once every access translated before has
been performed (R204). A TLB entry does not keep guest physical addresses, so all entries of the slice go. -/
def State.invalSlice (s : State) (n : Fin 32) : State :=
  let (id, s) := s.newId
  let v := s.newInval id n none
  let s := s.shootDown (fun k _ => decide (k.slice = n)) fun k => decide (k.slice = n)
  { s with invals := s.invals ++ [v] }

end Sys2Proof.Machine
end

