-- ==== Sys2Proof/Machine/Hbm.lean ====
section
/-!
DEFINITION. Token buckets, the calendar of an HBM4 channel, its refresh and refresh management, and the return of a load's data
(09_copy_engines R173 to R178, 10_memory_ordering R182, R183, 14_slices R265).
-/
namespace Sys2Proof.Machine

/-! ## Tokens (R173) -/

/-- Buckets of a port. -/
def atPort (p : Fin 8) (key : Nat) : Bool := decide (key / 256 = p.val) && decide (key < 2048)

/-- Sum of RATE over the contexts at a port. -/
def Die.rates (x : Die) (p : Fin 8) : Nat :=
  (x.buckets.filter fun b => atPort p b.1).foldl (fun n b => n + b.2.rate) 0

/-- TOKEN_BUCKET_REFILL: at a multiple of 256 ticks each bucket of a port gains RATE tokens and the pool the remainder. -/
def execTokenBucketRefill (d : DieId) (p : Fin 8) (s : State) : Out :=
  let x := s.die d
  if s.girthOn && decide (s.girth % 256 = 0) && decide (x.refilled[p.val] ≠ some s.girth) then
    .next (s.setDie d { x with
      buckets := x.buckets.map fun b =>
        if atPort p b.1 then (b.1, { b.2 with level := min b.2.depth (b.2.level + b.2.rate) }) else b
      pools := x.pools.set p.val (min 64 (x.pools[p.val] + (256 - x.rates p)))
      refilled := x.refilled.set p.val (some s.girth) })
  else .next s

/-! ## The calendar (R175 to R178) -/

/-- A refresh event voids a position of a rotation (R177). -/
def Channel.voids (x : Channel) (pos rot : Nat) : Bool :=
  x.voided.contains (pos, rot) || (decide (x.refRot = rot) && decide (pos / 4 = x.refN % 16))

/-- Give a calendar position of a channel to an owner; the reset owner is not listed (R175). -/
def Channel.setOwner (x : Channel) (p owner : Nat) : Channel :=
  { x with owner := if owner = p then mapDel x.owner p else mapPut x.owner p owner }

/-- Positions of a channel that a core owns. -/
def Channel.positions (x : Channel) (c : CoreId) : List Nat := (List.range 64).filter fun p => decide (x.ownerOf p = c.val)

/-- A request is bound to the slot that starts at a tick. -/
def HReq.boundTo (r : HReq) (start : Nat) : Bool := decide (r.start ≤ start) && decide ((start - r.start) % 320 = 0)

/-- A request misses its slot: it is bound to the same position one rotation later (R176 step 3). -/
def HReq.miss (r : HReq) (start : Nat) : HReq := { r with start := start + 320 }

/-- A request that a later slot carries than the one it was bound to first is one monitor event, with the whole delay (R176 step 4,
R420). -/
def State.countMiss (s : State) (r : HReq) (start : Nat) : State :=
  if r.bridle || decide (start ≤ r.first) then s else s.monitor r.core 9 (start - r.first)

/-- A request came while its row was in back-off, and has not yet been bound the one rotation later for it (R178). -/
def Channel.owesBackoff (x : Channel) (r : HReq) : Bool :=
  !r.backed && x.backoff.any fun b =>
    decide (b.bank = r.bank) && decide (b.row = r.row) && decide (b.fromTick ≤ r.due) && decide (r.due < b.untilTick)

/-- The core that an owner number names. -/
def ownerCore (owner : Nat) : Option CoreId := if h : owner < 64 then some ⟨owner, h⟩ else none

/-- A monitor event of an owner of slots (R265). -/
def State.ownerEvent (s : State) (owner src : Nat) : State :=
  match ownerCore owner with
  | some c => s.monitor c src 1
  | none => s

def bumpAt (t : List (Nat × Nat)) (k : Nat) : List (Nat × Nat) := mapPut t k ((mapGet t k).getD 0 + 1)

/-- Key of a row's activation counter. -/
def actKey (bank row : Nat) : Nat := bank * 65536 + row

/-- The stack of a channel reads 85 °C or above. -/
def State.stackHot (s : State) (stack : Fin 8) : Bool := (s.die ⟨stack.val / 2, by omega⟩).hot[stack.val % 2]

/-- An owner has refresh management pending on a channel (R178). -/
def Channel.rfmOf (x : Channel) (owner : Nat) : Option Rfm := x.rfm.find? fun r => decide (r.owner = owner)

/-- A request in an owner's slot opens a row: it is counted, and the count that reaches the threshold raises an alert (R178). -/
def Channel.opens (x : Channel) (owner bank row : Nat) (hot : Bool) : Channel :=
  let n := (mapGet x.acts (actKey bank row)).getD 0 + 1
  let alert := decide (n = x.actth) || (hot && decide (n = x.actth / 2))
  { x with
    acts := mapPut x.acts (actKey bank row) n
    rfm := if alert then x.rfm ++ [⟨owner, bank, row, 2⟩] else x.rfm }

/-- Carry a request. -/
def Channel.carry (x : Channel) (r : HReq) (hot : Bool) : Channel :=
  ({ x with reqs := x.reqs.filter fun q => decide (q.id ≠ r.id) } : Channel).opens (if r.bridle then 127 else r.core.val) r.bank r.row hot

/-- Every request bound to a slot but one is bound again one rotation later. -/
def Channel.displace (x : Channel) (start : Nat) (but : Option Nat) : Channel :=
  { x with reqs := x.reqs.map fun r => if r.boundTo start && decide (but ≠ some r.id) then r.miss start else r }

/-- The requests bound to a slot that pass it for the sake of a back-off have spent its rotation (R178). -/
def Channel.spendBackoff (x : Channel) (start : Nat) : Channel :=
  { x with reqs := x.reqs.map fun r => if r.boundTo start && x.owesBackoff r then { r with backed := true } else r }

/-- A request has reached the channel when a slot starts. -/
def HReq.reached (r : HReq) (start : Nat) : Bool :=
  match r.reach with
  | some t => decide (t ≤ start)
  | none => false

/-! ### Bursts that Bridle and fills open (R260, R263, R265) -/

/-- The bursts of a frame on one channel that a set does not hold, least first (R256). -/
def burstsLeft (set ch : Nat) : Option Nat := ((List.range 4).map fun i => 4 * ch + i).find? fun b => !set.testBit b

/-- Stack, bank and row of a frame (R256). -/
def frameStack (f : Nat) : Nat := bitsOf f 22 20
def frameBank (f : Nat) : Nat := bitsOf f 3 0
def frameRow (f : Nat) : Nat := bitsOf f 19 4

/-- The frame that a row of a bank of a stack is (R256). -/
def frameAt (stack bank row : Nat) : Nat := stack * 2 ^ 20 + row * 16 + bank

/-- Whose slots carry a fill on a channel: its owner's, or Bridle's where the owner holds no position there (any more). -/
def Channel.fillSlots (x : Channel) (owner : Nat) : Nat :=
  if (List.range 64).any fun p => decide (x.ownerOf p = owner) then owner else 127

/-- A fill has a burst to write on a channel in the slots of an owner (R260). -/
def State.fillOn (s : State) (stack : Fin 8) (ch : Fin 32) (owner : Nat) : Bool :=
  s.fills.any fun p => decide (frameStack p.1 = stack.val) &&
    decide ((s.chan (chanNo stack.val ch.val)).fillSlots p.2.2 = owner) && (burstsLeft p.2.1 ch.val).isSome

/-- A request is to a frame whose fill has still to write a burst on the channel (R260). -/
def State.behindFill (s : State) (stack : Fin 8) (ch : Fin 32) (r : HReq) : Bool :=
  s.fills.any fun p => decide (frameStack p.1 = stack.val) && decide (frameBank p.1 = r.bank) && decide (frameRow p.1 = r.row) &&
    (burstsLeft p.2.1 ch.val).isSome

/-- Note an access of Bridle to a run of device memory: its bursts wait for unassigned positions (R265). -/
def State.bridleRun (s : State) (pa n : Nat) : State :=
  if n = 0 then s
  else
    { s with bio := (List.range ((pa + n - 1) / 65536 + 1 - pa / 65536)).foldl (fun t i =>
        let f := pa / 65536 + i
        let lo := (max pa (f * 65536) - f * 65536) / 512
        let hi := (min (pa + n) ((f + 1) * 65536) - 1 - f * 65536) / 512
        mapPut t f ((mapGet t f).getD 0 ||| (2 ^ (hi + 1) - 2 ^ lo))) s.bio }

/-- The burst that burst b of a frame is in the order of its channel: channel b / 4 of the stack (R174, R256). -/
def bioOn (stack ch : Nat) (p : Nat × Nat) : Option Nat :=
  if frameStack p.1 = stack then ((List.range 4).map fun i => 4 * ch + i).find? fun b => p.2.testBit b else none

/-- One burst of Bridle's accesses is carried in an unassigned position of a channel, and opens its row there (R265). -/
def State.bridleBurst (s : State) (stack : Fin 8) (ch : Fin 32) : State :=
  match s.bio.find? fun p => (bioOn stack.val ch.val p).isSome with
  | none => s
  | some p =>
    let b := (bioOn stack.val ch.val p).getD 0
    let left := p.2 - 2 ^ b
    let n := chanNo stack.val ch.val
    ({ s with bio := if left = 0 then mapDel s.bio p.1 else mapPut s.bio p.1 left } : State).setChan n
      ((s.chan n).opens 127 (frameBank p.1) (frameRow p.1) (s.stackHot stack))

/-- A slot of an owner starts on a channel and nothing has taken it: no refresh voids it and no refresh management is due in it. -/
def State.slotOpen (s : State) (n owner : Nat) : Bool :=
  let x := s.chan n
  let g := s.girth
  let pos := g % 320 / 5
  s.girthOn && decide (g % 5 = 0) && decide (x.lastSlot ≠ some g) && !x.voids pos (g / 320) && decide (x.ownerOf pos = owner) &&
    (x.rfmOf owner).isNone && !(s.die (Fin.ofNat 4 (n / 64))).offline

/-- A slot is given to a burst that no request asked for: requests bound to it miss it. -/
def State.giveSlot (s : State) (n owner bank row : Nat) : State :=
  let y : Channel := { (s.chan n).displace s.girth none with lastSlot := some s.girth }
  s.setChan n (y.opens owner bank row (s.stackHot (Fin.ofNat 8 (n / 32))))

/-- HBM_SLOT: a slot starts. A voided slot carries nothing; a slot that refresh management or a fill is due in is left to it;
otherwise the first bound request that has reached the channel is carried, and its data or its acknowledgement is at the core 112
ticks later, or 136 on another die, and a write starts the fill of a cleared frame (R260); an unassigned position carries Bridle's accesses (R175, R176, R178, R265). -/
def execHbmSlot (stack : Fin 8) (ch : Fin 32) (s : State) : Out :=
  let n := chanNo stack.val ch.val
  let x := s.chan n
  let g := s.girth
  let pos := g % 320 / 5
  let owner := x.ownerOf pos
  if !s.girthOn || (s.die ⟨stack.val / 2, by omega⟩).offline || decide (g % 5 ≠ 0) || decide (x.lastSlot = some g) then .next s
  else if x.voids pos (g / 320) then
    let y := x.displace g none
    .next ((s.setChan n { y with lastSlot := some g, cntVoid := bumpAt y.cntVoid owner }).ownerEvent owner 10)
  else if (x.rfmOf owner).isSome || s.fillOn stack ch owner then .next s
  else
    let due := x.reqs.find? fun r => r.boundTo g && r.reached g && !x.owesBackoff r && !s.behindFill stack ch r
    let y := { (x.spendBackoff g).displace g (due.map (·.id)) with lastSlot := some g }
    match due with
    | none => .next (if owner = 127 then (s.setChan n y).bridleBurst stack ch else s.setChan n y)
    | some r =>
      let s := (s.setChan n (y.carry r (s.stackHot stack))).countMiss r g
      let at_ := g + if (dieOfCore r.core).val = stack.val / 2 then 112 else 136
      let s := if r.write then s.startFill (frameAt stack.val r.bank r.row) (if r.bridle then 127 else r.core.val) else s
      .next (if r.write then { s with acks := s.acks ++ [(r.id, at_)] } else { s with done := s.done ++ [(r.id, at_)] })

/-- Reset the counters of a row of a bank and of its neighbours within 2. -/
def clearActs (acts : List (Nat × Nat)) (bank row : Nat) : List (Nat × Nat) :=
  acts.filter fun p => !(decide (p.1 / 65536 = bank) && decide (row ≤ p.1 % 65536 + 2) && decide (p.1 % 65536 ≤ row + 2))

/-- REFRESH_MANAGEMENT: an owned slot is spent on it. After the second slot the neighbours have been refreshed and the row is in
back-off (R178). -/
def execRefreshManagement (stack : Fin 8) (ch : Fin 32) (s : State) : Out :=
  let n := chanNo stack.val ch.val
  let x := s.chan n
  let g := s.girth
  let pos := g % 320 / 5
  let owner := x.ownerOf pos
  if !s.girthOn || (s.die ⟨stack.val / 2, by omega⟩).offline || decide (g % 5 ≠ 0) || decide (x.lastSlot = some g) ||
      x.voids pos (g / 320) then .next s
  else
    match x.rfmOf owner with
    | none => .next s
    | some m =>
      let y := x.displace g none
      let rest := y.rfm.erase m
      let y := { y with lastSlot := some g, cntRfm := bumpAt y.cntRfm owner }
      let y : Channel :=
        if 1 < m.left then { y with rfm := y.rfm.map fun r => if r = m then { r with left := r.left - 1 } else r }
        else { y with
          rfm := rest
          acts := clearActs y.acts m.bank m.row
          backoff := ⟨m.bank, m.row, g, g + 320 * y.bowin⟩ :: y.backoff.filter fun b =>
            decide (g < b.untilTick) || y.reqs.any fun r => decide (r.bank = b.bank) && decide (r.row = b.row) }
      .next ((s.setChan n y).ownerEvent owner 11)

/-- HBM_REFRESH: a refresh event of a channel voids four positions of its rotation and refreshes sixteen rows of every bank; the
next comes 10 rotations later, or 5 while the stack is hot (R177). -/
def execHbmRefresh (stack : Fin 8) (ch : Fin 32) (s : State) : Out :=
  let n := chanNo stack.val ch.val
  let x := s.chan n
  if !s.girthOn || decide (s.girth / 320 < x.refRot) then .next s
  else
    let row := 16 * (x.refN % 4096)
    .next (s.setChan n { x with
      refN := x.refN + 1
      refRot := x.refRot + if s.stackHot stack then 5 else 10
      voided := (x.voided.filter fun p => decide (s.girth / 320 ≤ p.2)) ++
        (List.range 4).map fun i => (4 * x.refN % 64 + i, x.refRot)
      acts := x.acts.filter fun p => !(decide (row ≤ p.1 % 65536) && decide (p.1 % 65536 < row + 16)) })

/-! ## Data at the core (R176, R180, R182, R183) -/

/-- A request of a load to a host, a peer or an engine is still open. -/
def State.extOpen (s : State) (l : Load) : Bool :=
  l.ext.any fun i => decide (i = l.id) || s.inFlight i || (s.hostReads.any fun r => decide (r.id = i)) ||
    s.fabOuts.any fun r => decide (r.id = i)

/-- An earlier load of the stream reads some of the same bytes (R183). -/
def loadBehind (l : Load) : List Load → Bool
  | [] => false
  | m :: t =>
    if m.id = l.id then false
    else (m.segs.any fun a => l.segs.any fun b => overlaps a.pa a.n b.pa b.n) || loadBehind l t

/-- The bytes of a load's runs of device memory put in their places; none when a tag fails. -/
def State.loadBytes (s : State) (d : DieId) (buf : List Byte) : List LSeg → Option (List Byte)
  | [] => some buf
  | g :: t =>
    match s.readBytes d g.keyId g.pa g.n with
    | none => none
    | some bs => s.loadBytes d (buf.take g.off ++ bs ++ buf.drop (g.off + g.n)) t

/-- The address of the first run of a load whose tag fails (R213). -/
def State.badLoad (s : State) (d : DieId) (gs : List LSeg) : Word :=
  match gs.find? fun g => (s.readBytes d g.keyId g.pa g.n).isNone with
  | some g => BitVec.ofNat 64 g.va
  | none => 0

/-- Lines of a stream read allocate in the cache of its die; a dirty line that leaves uses the core's slots (R171). -/
def State.allocLines (s : State) (c : CoreId) (k : CtxId) : List (Nat × Nat) → State
  | [] => s
  | (line, keyId) :: t =>
    if (s.keyGen keyId).isNone then s.allocLines c k t
    else
      let (x, out) := (s.die (dieOfCore c)).allocLine k.slice line keyId false
      let s := s.setDie (dieOfCore c) x
      (match out with
        | some l => (s.request c k l.line true false true).2
        | none => s).allocLines c k t

/-- DATA_RETURN: the bytes of load n of a stream are at the core: the load is bound to the latest writes its die shows. -/
def execDataReturn (c : CoreId) (q : SeqId) (st : Strm) (n : Nat) (s : State) : Out :=
  let y := s.strm c q st
  match y.loads[n]?, (s.core c).ctxId with
  | some l, some k =>
    let d := dieOfCore c
    let (ls, s) := s.retryTokens c k l.lines
    let l := { l with lines := ls }
    let s := s.modStrm c q st fun y => { y with loads := y.loads.map fun m => if m.id = l.id then l else m }
    if !s.alive c || !ls.all s.lineReady || s.extOpen l || loadBehind l y.loads ||
        !l.segs.all (fun g => s.readableRun d g.keyId g.pa g.n) || decide (y.st = .trapped) then .next s
    else
      match s.loadBytes d l.buf l.segs with
      | none => .next (s.trapLoad c q st l ⟨10, 1, 0, s.badLoad d l.segs⟩)
      | some bs =>
        let cov := l.segs.flatMap fun g => s.writesAt d g.pa g.n
        let s := ((s.noteLines c ls).takeDone ls).allocLines c k (l.segs.flatMap fun g => linesOf g.pa g.n g.keyId)
        .next (s.landLoad c q st { l with buf := bs, cov := cov })
  | _, _ => .next s

end Sys2Proof.Machine
end

