-- ==== Sys2Proof/Machine/Sync.lean ====
section
/-!
DEFINITION. Synchronisation words (08_scratchpad R147 to R159, 10_memory_ordering R187, R190, 18_reference R321, R322, R342 to
R348, 19_reference R358, 20_reference R399): queues, feed queues, QFENCE, rings, arrival counters, barriers, tags, masks,
FENCE and WAIT.
-/
namespace Sys2Proof.Machine

/-! ## Queues (R342) -/

/-- QPUSH: a held push of X[XA] to a queue, discarded once its reader has ended (R76). -/
def execQpush (w : Wait) (q : QCode) (xa : XReg) (s : State) : Out :=
  .next <| match q with
  | .bq n => s.scalarWord w (.bq n) [xa.sop] fun xs => arg xs 0
  | .fq => s.scalarWord w .fq [xa.sop] fun xs => arg xs 0
  | .dq n => s.issueWord { wait := w, src := [xa.sop], vdst := [.dq n] } fun s xs _ =>
      let x := s.seq s.cur.core s.cur.seq
      (.go { effs := if x.readerEnded (.dq n) then [] else [.push (.dq n) (arg xs 0)] }, s)

/-- QPOP: one entry to a scalar register; of a data queue its low 64 bits. FQ is never named (R342). -/
def execQpop (w : Wait) (q : QCode) (xd : XReg) (s : State) : Out :=
  .next <| match q with
  | .bq n => s.scalarWord w xd.sop [.bq n] fun xs => arg xs 0
  | .fq => s.issueWord { wait := w } fun s _ _ => (.trap ⟨1, 6, 0, 0⟩, s)
  | .dq n => s.issueWord { wait := w, vsrc := [.dq n], dst := [xd.sop] } fun s _ vs =>
      (.go (retDst (s.seq s.cur.core s.cur.seq) xd.sop ((varg vs 0).setWidth 64) {}), s)

/-- QCNT: landed entries of a queue, after the stream's own held pops and pushes of it. -/
def execQcnt (w : Wait) (q : QCode) (xd : XReg) (s : State) : Out :=
  .next (s.issueWord { wait := w, dst := [xd.sop], own := [.queue q] } fun s _ _ =>
    let x := s.seq s.cur.core s.cur.seq
    (.go (retDst x xd.sop (BitVec.ofNat 64 (min (x.qCount q) 16)) {}), s))

/-- The feed queue of the running context. -/
def State.curFeed (s : State) (n : Fin 64) : Option (CtxId × Feed) :=
  match (s.core s.cur.core).ctxId with
  | some k => (s.feed k n).map fun f => (k, f)
  | none => none

/-- A word of another stream that has issued holds a pop of a feed queue of the context (R270): no two pops take one record. -/
def State.feedLocked (s : State) (k : CtxId) (n : Fin 64) : Bool :=
  (s.coresOf k).any fun c => clashes [.feedLock n] (s.core c).heldObjs

/-- QPUSH.fd: reads a record and pushes it; it waits while the queue is full or unregistered (R343). -/
def execQpushFd (w : Wait) (n : Fin 64) (xa : XReg) (s : State) : Out :=
  .next (s.issueWord { wait := w, src := [xa.sop] } fun s xs _ =>
    match s.curFeed n with
    | none => (.stall 0, s)
    | some (k, f) =>
      if f.room = 0 then (.stall 0, s)
      else
        match s.wordRead .tlb k (arg xs 0 &&& ~~~63) 64 with
        | (.error r, s) => (r, s)
        | (.ok bs, s) => (.go { effs := [.feedPush n bs], rel := some .p }, s))

/-- Discard the expired records at the head of a feed queue, each with a late credit (R232, R344); answers the first live
record. -/
def State.feedLive (s : State) (k : CtxId) (n : Fin 64) : Nat → Option (List Byte) × State
  | 0 => (none, s)
  | m + 1 =>
    match s.feed k n with
    | none => (none, s)
    | some f =>
      if f.count = 0 then (none, s)
      else
        match s.feedHead k f with
        | .ok bs =>
          let r := recOf bs 0
          if r.deadline ≠ 0 ∧ r.deadline.toNat ≤ (s.ctxGirth k).toNat then
            match s.feedTake k n f with
            | (.ok _, s) =>
              let s := if r.launch = 0 then s else s.addJob f.die k (.step (r.launch &&& ~~~63) .late false false) none
              s.feedLive k n m
            | (_, s) => (none, s)
          else (some bs, s)
        | .wait | .fail => (none, s)

/-- The writes in flight that a read of the head record of a feed queue returns (R180, R233). -/
def State.feedWrites (s : State) (k : CtxId) (n : Fin 64) : List Nat :=
  match s.feed k n with
  | none => []
  | some f =>
    match s.devAddr f.die k (f.base + 64 * (f.fr % f.m)) .r with
    | .ok p => s.writesAt f.die p.1 64
    | .wait | .fail => []

/-- QPOP.fd: the next live record into eight registers; its removal is held (R344). -/
def execQpopFd (w : Wait) (n : Fin 64) (xd : Fin 57) (s : State) : Out :=
  .next (s.issueWord { wait := w, dst := (List.range 8).map fun i => .x (Fin.ofNat 64 (xd.val + i)), own := [.feed n] }
    fun s _ _ =>
      match s.curFeed n with
      | none => (.stall 0, s)
      | some (k, f) =>
        if s.feedLocked k n then (.stall 107, s)
        else
        match s.feedLive k n (f.count + 1) with
        | (none, s) => (.stall 0, s)
        | (some bs, s) =>
          let r := recOf bs 0
          (.go { x := (List.finRange 8).map fun i => (Fin.ofNat 64 (xd.val + i.val), r.w[i.val])
                 effs := [.feedPop n]
                 acq := some (.p, s.feedWrites k n) }, s))

/-- QCNT.fd: as the feed unit holds the indexes; it never stalls, and an unregistered queue gives 0 (R345). -/
def execQcntFd (w : Wait) (n : Fin 64) (xd : XReg) (s : State) : Out :=
  .next (s.issueWord { wait := w, dst := [xd.sop] } fun s _ _ =>
    let v := match s.curFeed n with
      | some (_, f) => f.count
      | none => 0
    (.go (retDst (s.seq s.cur.core s.cur.seq) xd.sop (BitVec.ofNat 64 v) {}), s))

/-! ## QFENCE, FENCE and WAIT -/

/-- A QFENCE marks its queues (R190). -/
def Core.addFence (k : Core) (f : QFence) : Core :=
  { k with
    qfences := k.qfences ++ [f]
    cqs := Vector.ofFn fun i => if f.queues.getLsbD i.val then { k.cqs[i.val] with items := k.cqs[i.val].items ++ [.fence f.id] } else k.cqs[i.val] }

/-- QFENCE: marks the agents it names; with SELF the stream waits until all before is performed (R190, R192). -/
def execQfence (w : Wait) (cqs : BitVec 8) (mtx self : Bool) (s : State) : Out :=
  .next (s.issueWord
    { wait := w
      own := ((List.finRange 8).filter fun n => cqs.getLsbD n.val).map Obj.cq ++ (if mtx then [.cinch] else []) }
    fun s _ _ =>
      let c := s.cur.core
      let (id, s) := s.newId
      let f : QFence := ⟨id, cqs, if mtx then some (s.core c).mserial else none, if self then some (s.cur.seq, s.cur.strm) else none⟩
      (.go { qf := if self then some id else none }, s.modCore c (·.addFence f)))

/-- FENCE (R187, R309). -/
def execFence (w : Wait) (sc : Scope) (s : State) : Out :=
  .next (s.issueWord { wait := w } fun s _ _ =>
    if s.fenced s.cur.core s.cur.seq s.cur.strm sc then (.go {}, s) else (.stall 0, s))

/-- All that a sequencer has sent out is back (R399). -/
def State.seqDrained (s : State) (c : CoreId) (q : SeqId) : Bool :=
  let k := s.core c
  (k.seq q).held.isEmpty && ((List.finRange 8).all fun n => k.drained q n) &&
    (match k.front with | some m => decide (m.seq ≠ q) | none => true) &&
    (match k.shadow with | some m => decide (m.seq ≠ q) | none => true)

/-- WAIT (R399). The copies it has waited for are performed, so nothing of theirs is left to cover. -/
def execWait (w : Wait) (s : State) : Out :=
  .next (s.issueWord { wait := w } fun s _ _ =>
    if s.seqDrained s.cur.core s.cur.seq then (.go {}, s) else (.stall 0, s))

/-! ## Rings (R150 to R153, R348) -/

/-- Window address of a slot (R150). -/
def Ring.addr (r : Ring) (slot : Nat) : Word := BitVec.ofNat 64 (0xFFFFFFFFFFC00000 + 128 * (r.base + slot * r.slotr))

/-- Slot of an index. -/
def Ring.slotOf (r : Ring) (i : BitVec 32) : Nat := i.toNat % r.nslot

def Ring.state (r : Ring) (slot : Nat) : SlotSt := (r.slots[slot]?).getD .free
def Ring.setState (r : Ring) (slot : Nat) (v : SlotSt) : Ring := { r with slots := listSet r.slots slot v }

/-- The slot an address names; none outside the window or the ring. -/
def Ring.locate (r : Ring) (a : Nat) : Option Nat :=
  let o := a % 2 ^ 22
  if inWindow a ∧ 128 * r.base ≤ o ∧ o < 128 * (r.base + r.nslot * r.slotr) then some ((o - 128 * r.base) / (128 * r.slotr)) else none

/-- PUB passes every slot that is filled (R151). -/
def Ring.publish (r : Ring) : Nat → Ring
  | 0 => r
  | n + 1 => if r.pub ≠ r.clm ∧ r.state (r.slotOf r.pub) = .filled then ({ r with pub := r.pub + 1 } : Ring).publish n else r

/-- FRE passes every slot that is released (R151). -/
def Ring.collect (r : Ring) : Nat → Ring
  | 0 => r
  | n + 1 =>
    if r.fre ≠ r.tkn ∧ r.state (r.slotOf r.fre) = .released then
      ({ r.setState (r.slotOf r.fre) .free with fre := r.fre + 1 } : Ring).collect n
    else r

def Ring.claim (r : Ring) : Ring := { r.setState (r.slotOf r.clm) .claimed with clm := r.clm + 1 }
def Ring.take (r : Ring) : Ring := { r.setState (r.slotOf r.tkn) .taken with tkn := r.tkn + 1 }
def Ring.fill (r : Ring) (slot : Nat) (cov : List Nat) : Ring :=
  { (r.setState slot .filled).publish r.nslot with cov := cov }
def Ring.release (r : Ring) (slot : Nat) : Ring := (r.setState slot .released).collect r.nslot

/-- What a held effect will do to a ring. -/
def Ring.after (r : Ring) (n : Fin 64) : Eff → Ring
  | .rclaim m => if m = n then r.claim else r
  | .rtake m => if m = n then r.take else r
  | .rfill m i _ => if m = n then r.fill i r.cov else r
  | .rfree m i _ => if m = n then r.release i else r
  | _ => r

/-- The held effects of a stream, in the order in which they will take place (R316). -/
def Seq.ownEffs (x : Seq) (st : Strm) : List Eff := (x.held.filter fun h => decide (h.strm = st)).flatMap (·.effs)

/-- A ring as RFILL and RFREE find it: after the older held effects of their own stream, so that they never wait for them. What another
stream holds has not taken effect (R269). -/
def State.ringSeen (s : State) (n : Fin 64) : Ring :=
  ((s.seq s.cur.core s.cur.seq).ownEffs s.cur.strm).foldl (fun r e => r.after n e) ((s.core s.cur.core).ring n)

/-- RCLAIM: the slot of index CLM (R151, R152). DESIGN CHOICE (assumption log 93): where a ring instruction or a ring wait names no
address, the trap reports 0 for it. -/
def execRclaim (a : RingA) (s : State) : Out :=
  .next (s.issueWord { wait := a.w, dst := [a.x.sop], own := [.ring a.n], shared := [.ringLock a.n], lock := 102 } fun s _ _ =>
    let r := (s.core s.cur.core).ring a.n
    if !r.configured then (.trap ⟨7, a.n.val, 0, 0⟩, s)
    else if !r.free then (.stall 0, s)
    else
      let ret := retDst (s.seq s.cur.core s.cur.seq) a.x.sop (r.addr (r.slotOf r.clm)) {}
      (.go { ret with effs := [.rclaim a.n] }, s))

/-- RTAKE: the slot of index TKN; an acquire at core scope (R151 to R153). -/
def execRtake (a : RingA) (s : State) : Out :=
  .next (s.issueWord { wait := a.w, dst := [a.x.sop], own := [.ring a.n], shared := [.ringLock a.n], lock := 101 } fun s _ _ =>
    let r := (s.core s.cur.core).ring a.n
    if !r.configured then (.trap ⟨7, a.n.val, 0, 0⟩, s)
    else if !r.filled then (.stall 0, s)
    else
      let ret := retDst (s.seq s.cur.core s.cur.seq) a.x.sop (r.addr (r.slotOf r.tkn)) {}
      (.go { ret with effs := [.rtake a.n], cov := s.stillOut r.cov }, s))

/-- RFILL and RFREE name a slot that must be in a state; they never stall for the ring (R152). -/
def State.ringPut (s : State) (a : RingA) (from_ : SlotSt) (eff : Nat → Word → Eff) : State :=
  s.issueWord { wait := a.w, src := [a.x.sop] } fun s xs _ =>
    let r := s.ringSeen a.n
    let bad : Res := .trap ⟨7, a.n.val, arg xs 0, 0⟩
    if !r.configured then (bad, s)
    else
      match r.locate (arg xs 0).toNat with
      | none => (bad, s)
      | some i => if r.state i = from_ then (.go { effs := [eff i (arg xs 0)], rel := some .c }, s) else (bad, s)

def execRfill (a : RingA) (s : State) : Out := .next (s.ringPut a .claimed (.rfill a.n))
def execRfree (a : RingA) (s : State) : Out := .next (s.ringPut a .taken (.rfree a.n))

/-! ## Arrival counters and barriers (R149, R156, R301) -/

def execAcset (w : Wait) (n : Fin 64) (xa xb : XReg) (s : State) : Out :=
  .next (s.issueWord { wait := w, src := [xa.sop, xb.sop] } fun s xs _ =>
    (.go { effs := [.acset n ((arg xs 0).setWidth 32) ((arg xs 1).setWidth 32)] }, s))

/-- Scope of a barrier (R157). -/
def barScope : Bar → Scope
  | .ba _ => .c
  | .db _ => .d

def execBarr (w : Wait) (b : Bar) (s : State) : Out :=
  .next (s.issueWord { wait := w } fun s _ _ => (.go { effs := [.barr b], rel := some (barScope b) }, s))

def execBarrCfg (w : Wait) (b : Bar) (xa : XReg) (s : State) : Out :=
  .next (s.issueWord { wait := w, src := [xa.sop] } fun s xs _ => (.go { effs := [.barrCfg b ((arg xs 0).setWidth 16)] }, s))

/-- BWAIT: waits until the barrier is open; an acquire of its arrivals (R155 to R157, R192). -/
def execBwait (w : Wait) (b : Bar) (s : State) : Out :=
  .next (s.issueWord { wait := w, own := [.bar b] } fun s _ _ =>
    if s.barOpen s.cur.core s.cur.seq s.cur.strm b then (.go { cov := s.stillOut (s.barrier s.cur.core b).cov }, s)
    else (.stall 0, s))

/-! ## The tag table (R158, R159, R358) -/

/-- Ways of a set that hold something, with their entries. -/
def Core.tagSet (k : Core) (st : Nat) : List (Nat × TagEnt) :=
  (List.range k.tagWays).filterMap fun w => (mapGet k.tags (st * k.tagWays + w)).map fun e => (w, e)

def Core.tagFind (k : Core) (key : BitVec 48) : Option (Nat × TagEnt) :=
  (k.tagSet (tagSetOf k.tagWays key)).find? fun p => decide (p.2.key = key)

/-- The lowest-numbered way of a set that holds nothing. -/
def Core.tagFree (k : Core) (st : Nat) : Option Nat :=
  (List.range k.tagWays).find? fun w => (mapGet k.tags (st * k.tagWays + w)).isNone

/-- The set of the key in a register, at the number of ways of the issuing core. -/
def State.keySet (s : State) (v : Word) : Nat := tagSetOf (s.core s.cur.core).tagWays (v.setWidth 48)

/-- TINS (R159). -/
def Core.tagInsert (k : Core) (key : BitVec 48) (slot : BitVec 16) : Core :=
  let st := tagSetOf k.tagWays key
  match k.tagFind key with
  | some (w, _) => { k with tags := mapPut k.tags (st * k.tagWays + w) ⟨key, slot⟩ }
  | none =>
    match k.tagFree st with
    | some w => { k with tags := mapPut k.tags (st * k.tagWays + w) ⟨key, slot⟩ }
    | none => k

/-- TINV (R159). -/
def Core.tagDrop (k : Core) (key : BitVec 48) : Core :=
  match k.tagFind key with
  | some (w, _) => { k with tags := mapDel k.tags (tagSetOf k.tagWays key * k.tagWays + w) }
  | none => k

/-- TEVC of a way (R159). -/
def Core.tagEvict (k : Core) (st w : Nat) : Core :=
  { k with tags := mapDel k.tags (st * k.tagWays + w), tagPtr := mapPut k.tagPtr st ((w + 1) % max k.tagWays 1) }

/-- What a held effect will do to the tag table. -/
def Core.tagAfter (k : Core) : Eff → Core
  | .tins key slot => k.tagInsert key slot
  | .tinv key => k.tagDrop key
  | .tevc st w => k.tagEvict st w
  | .tinvAll => { k with tags := [], tagPtr := [] }
  | _ => k

/-- The tag table as a word of a stream finds it: after the older held effects of its own stream; what another stream holds has not taken
effect (R269). -/
def State.tagSeen (s : State) : Core := ((s.seq s.cur.core s.cur.seq).ownEffs s.cur.strm).foldl Core.tagAfter (s.core s.cur.core)

/-- Another sequencer's TEVC locks the set until it has taken effect: a TLOOK, TINS or TEVC on it stalls (R270, R358). -/
def State.tagLocked (s : State) (v : Word) : Bool :=
  let k := s.core s.cur.core
  clashes [.tagLock (s.keySet v)] (((allSeqs.filter fun r => decide (r ≠ s.cur.seq)).flatMap fun r =>
    (k.seq r).heldEffs).flatMap (Eff.objs k.tagWays))

def execTlook (w : Wait) (xd : SOp) (xa : XReg) (s : State) : Out :=
  .next (s.issueWord { wait := w, src := [xa.sop], dst := [xd] } fun s xs _ =>
    if s.tagLocked (arg xs 0) then (.stall 100, s)
    else
      let v := match s.tagSeen.tagFind ((arg xs 0).setWidth 48) with
        | some p => p.2.slot.setWidth 64
        | none => (0xFFFF : Word)
      (.go (retDst (s.seq s.cur.core s.cur.seq) xd v {}), s))

def execTins (w : Wait) (xa xb : XReg) (s : State) : Out :=
  .next (s.issueWord { wait := w, src := [xa.sop, xb.sop] } fun s xs _ =>
    let key : BitVec 48 := (arg xs 0).setWidth 48
    let slot : BitVec 16 := (arg xs 1).setWidth 16
    let k := s.tagSeen
    if s.tagLocked (arg xs 0) then (.stall 100, s)
    else if slot = 0xFFFF then (.trap ⟨8, 1, key.setWidth 64, 0⟩, s)
    else if (k.tagFind key).isNone && (k.tagFree (tagSetOf k.tagWays key)).isNone then (.trap ⟨8, 2, key.setWidth 64, 0⟩, s)
    else (.go { effs := [.tins key slot], rel := some .c }, s))

def execTevc (w : Wait) (xd : SOp) (xa : XReg) (s : State) : Out :=
  .next (s.issueWord { wait := w, src := [xa.sop], dst := [xd] } fun s xs _ =>
    let k := s.tagSeen
    let st := s.keySet (arg xs 0)
    let x := s.seq s.cur.core s.cur.seq
    if s.tagLocked (arg xs 0) then (.stall 100, s)
    else if (k.tagFree st).isSome then (.go (retDst x xd 0xFFFF {}), s)
    else
      let v := (mapGet k.tagPtr st).getD 0
      match mapGet k.tags (st * k.tagWays + v) with
      | some e =>
        let r := retDst x xd ((e.key.setWidth 64 <<< 16) ||| e.slot.setWidth 64) {}
        (.go { r with effs := r.effs ++ [.tevc st v] }, s)
      | none => (.go (retDst x xd 0xFFFF {}), s))

def execTinv (w : Wait) (xa : XReg) (s : State) : Out :=
  .next (s.issueWord { wait := w, src := [xa.sop] } fun s xs _ => (.go { effs := [.tinv ((arg xs 0).setWidth 48)] }, s))

def execTinvAll (w : Wait) (s : State) : Out :=
  .next (s.issueWord { wait := w } fun s _ _ => (.go { effs := [.tinvAll] }, s))

/-! ## Masks (R321, R322) -/

/-- A word that writes one mask register from the sequencer's masks. -/
def State.maskOp (s : State) (w : Wait) (kd : Fin 16) (f : Seq → BitVec 32) : State :=
  s.issueWord { wait := w } fun s _ _ => (.go { k := [(kd, f (s.seq s.cur.core s.cur.seq))] }, s)

def execKset (w : Wait) (kd : Fin 16) (xa : XReg) (s : State) : Out :=
  .next (s.issueWord { wait := w, src := [xa.sop] } fun s xs _ => (.go { k := [(kd, (arg xs 0).setWidth 32)] }, s))

def execKand (a : KA) (s : State) : Out := .next (s.maskOp a.w a.kd fun x => x.getK a.ka &&& x.getK a.kb)
def execKor (a : KA) (s : State) : Out := .next (s.maskOp a.w a.kd fun x => x.getK a.ka ||| x.getK a.kb)
def execKxor (a : KA) (s : State) : Out := .next (s.maskOp a.w a.kd fun x => x.getK a.ka ^^^ x.getK a.kb)
def execKandn (a : KA) (s : State) : Out := .next (s.maskOp a.w a.kd fun x => x.getK a.ka &&& ~~~x.getK a.kb)
def execKnot (w : Wait) (kd ka : Fin 16) (s : State) : Out := .next (s.maskOp w kd fun x => ~~~x.getK ka)

/-- A word that gives a scalar result from a mask. -/
def State.maskCount (s : State) (w : Wait) (xd : SOp) (ka : Fin 16) (f : Nat → Nat) : State :=
  s.issueWord { wait := w, dst := [xd] } fun s _ _ =>
    let x := s.seq s.cur.core s.cur.seq
    (.go (retDst x xd (BitVec.ofNat 64 (f (x.getK ka).toNat)) {}), s)

def execKpopc (w : Wait) (xd : SOp) (ka : Fin 16) (s : State) : Out := .next (s.maskCount w xd ka (popCount 32))
def execKfirst (w : Wait) (xd : SOp) (ka : Fin 16) (s : State) : Out := .next (s.maskCount w xd ka fun m => lowestBit 32 m 0)

end Sys2Proof.Machine
end

