-- ==== Sys2Proof/Machine/System.lean ====
section
/-!
DEFINITION. System words (05_registers R94 to R97, 17_reference R305, R308, 18_reference R320, R330, R331, R337, 19_reference
R354, R355, R360): special registers, time, continuation records and completion counters.
-/
namespace Sys2Proof.Machine

/-! ## Special registers -/

/-- Bridle-only registers (R94). -/
def sprBridle (n : Nat) : Bool := decide (n = 0x10) || decide (n = 0x12) || decide (n = 0x13)

/-- MONSELm as it reads: CLR reads 0 (R293). -/
def Monitor.selWord (m : Monitor) : Word := (m.sel &&& ~~~0x20000).setWidth 64

/-- The item at a monitor's index; an index above 18 reads 0 (R293). -/
def Monitor.item (m : Monitor) : Word := BitVec.ofNat 64 ((m.items.toList[m.ix.toNat]?).getD 0)

/-- COUNT in the present window (R273). -/
def Core.countNow (k : Core) : Nat := if k.cyc / 2 ^ 20 = k.repWin then k.count else 0

/-- Position of a stream (R79). -/
def secrWord (st : Strm) (y : Stream) : Word :=
  BitVec.ofNat 64 ((match st with | .a => 0 | .c => 1) * 2 ^ 44 + y.sec.toNat * 2 ^ 32 + y.off % 2 ^ 12 * 2 ^ 20 + y.nr.toNat % 2 ^ 20)

/-- The value of a special register for a stream (R94, R95, R330). -/
def State.sprRead (s : State) (c : CoreId) (q : SeqId) (st : Strm) (n : Nat) : Word :=
  let k := s.core c
  let x := k.seq q
  let y := x.strm st
  match n with
  | 0x00 => secrWord st y
  | 0x01 => x.slip.setWidth 64
  | 0x02 => y.pwdist.setWidth 64
  | 0x03 => x.flags.setWidth 64
  | 0x04 => match k.ctxId with
    | some i => s.ctxGirth i
    | none => BitVec.ofNat 64 s.girth
  | 0x05 => BitVec.ofNat 64 k.cyc
  | 0x06 => x.grpid
  | 0x07 => x.frame
  | 0x08 => BitVec.ofNat 64 k.lease
  | 0x09 => BitVec.ofNat 64 k.pace[0]
  | 0x0A => BitVec.ofNat 64 k.pace[1]
  | 0x0B => BitVec.ofNat 64 k.pace[2]
  | 0x0C => BitVec.ofNat 64 k.pace[3]
  | 0x11 => BitVec.ofNat 64 (k.esc * 2 ^ 48 + k.countNow)
  | 0x14 => x.deadln
  | n =>
    if 0x20 ≤ n ∧ n ≤ 0x2F then
      let m := (k.mons.toList[(n - 0x20) / 2]?).getD Monitor.reset
      if n % 2 = 0 then m.selWord else m.item
    else 0

/-- MFS (R330). The A-stream reads some value that FLAGS has held since the group began (R55). -/
def execMfs (w : Wait) (xd : SOp) (spr : BitVec 12) (s : State) : Out :=
  .next (s.issueWord { wait := w, dst := [xd], own := [.spr spr.toNat] } fun s _ _ =>
    let c := s.cur.core
    let q := s.cur.seq
    let x := s.seq c q
    if sprBridle spr.toNat then (.trap ⟨5, 0, spr.setWidth 64, 0⟩, s)
    else if spr = 3 ∧ s.cur.strm = .a then
      let (i, s) := s.free (max x.flagsHist.length 1)
      (.go (retDst x xd (((x.flagsHist[i]?).getD x.flags).setWidth 64) {}), s)
    else (.go (retDst x xd (s.sprRead c q s.cur.strm spr.toNat) {}), s))

/-- Registers that a write leaves alone (R95, R331). -/
def sprReadOnly (n : Nat) : Bool := [0x00, 0x04, 0x05, 0x06, 0x07, 0x11, 0x14].contains n

/-- MTS: a held write (R331). -/
def execMts (w : Wait) (xa : SOp) (spr : BitVec 12) (s : State) : Out :=
  .next (s.issueWord { wait := w, src := [xa] } fun s xs _ =>
    if sprBridle spr.toNat then (.trap ⟨5, 0, spr.setWidth 64, 0⟩, s)
    else if sprReadOnly spr.toNat || (decide (spr = 3) && decide (s.cur.strm = .a)) then (.go {}, s)
    else (.go { effs := [.mts spr (arg xs 0)] }, s))

/-- The value a monitor selector stores (R293). -/
def monSel (m : Monitor) (v : Word) : Monitor :=
  let src := bitsOf v.toNat 3 0
  let sel : BitVec 18 := BitVec.ofNat 18 (bitsOf v.toNat 16 16 * 2 ^ 16 + bitsOf v.toNat 11 8 * 2 ^ 8 +
    (if src = 2 then bitsOf v.toNat 7 4 * 16 else 0) + src)
  { m with sel := sel, items := if v.getLsbD 17 then Vector.replicate 19 0 else m.items }

/-- The effect of an MTS once its window has closed (R72, R96, R205, R293, R331). -/
def Core.putSpr (k : Core) (q : SeqId) (st : Strm) (n : Nat) (v : Word) : Core :=
  let x := k.seq q
  let pace (i : Fin 4) : Core := { k with pace := k.pace.set i.val (max (bitsOf v.toNat 15 0) k.paceLim[i.val]) }
  match n with
  | 0x01 => k.setSeq q { x with slip := BitVec.ofNat 7 (max 1 (min 64 (bitsOf v.toNat 6 0))) }
  | 0x02 => k.setSeq q (x.setStrm st { x.strm st with pwdist := BitVec.ofNat 17 (min (bitsOf v.toNat 16 0) 0x10000) })
  | 0x03 => k.setSeq q (x.setFlags (v.setWidth 5))
  | 0x08 => { k with lease := min (max 1 (min 256 (bitsOf v.toNat 8 0))) k.leaseLim }
  | 0x09 => pace 0
  | 0x0A => pace 1
  | 0x0B => pace 2
  | 0x0C => pace 3
  | n =>
    if 0x20 ≤ n ∧ n ≤ 0x2F then
      let i : Fin 8 := Fin.ofNat 8 ((n - 0x20) / 2)
      let m := k.mons[i.val]
      { k with mons := k.mons.set i.val (if n % 2 = 0 then monSel m v else { m with ix := v.setWidth 5 }) }
    else k

/-- The two samples of TSR on a stream (R360). -/
def State.tsrRet (s : State) (c : CoreId) (q : SeqId) (st : Strm) (xg xc : XReg) : Ret :=
  let x := s.seq c q
  retDst x xc.sop (s.sprRead c q st 5) (retDst x xg.sop (s.sprRead c q st 4) {})

/-- TSR: both counts at once (R360). -/
def execTsr (w : Wait) (xg xc : XReg) (s : State) : Out :=
  .next (s.issueWord { wait := w, dst := [xg.sop, xc.sop] } fun s _ _ =>
    (.go (s.tsrRet s.cur.core s.cur.seq s.cur.strm xg xc), s))

/-- A TSR that issues again after a strike samples again (R360); a register that a younger word has written since keeps that
(assumption log 84). -/
def State.tsrAgain (s : State) (c : CoreId) (q : SeqId) (w : Win) : State :=
  match decode w.strm (s.seq c q).resident w.word with
  | .ok (.tsr _ xg xc) =>
    let young := (s.seq c q).wins.filter fun v => decide (v.strm = w.strm) && decide (w.no < v.no)
    let xs := (s.tsrRet c q w.strm xg xc).x.filter fun p => !young.any fun v => v.wx.contains p.1
    s.modStrm c q w.strm fun y => y.setXs xs
  | _ => s

/-- NOP: its wait slot only (R337). -/
def execNop (w : Wait) (s : State) : Out := .next (s.issueWord { wait := w } fun s _ _ => (.go {}, s))

/-! ## Records and counters -/

/-- A place in a stream for what an engine will bring: an outstanding load that only the engine lands. -/
def State.engLoad (s : State) (dst : LDst) (ea : Word) (blk : Option Nat) : Load × State :=
  let (id, s) := s.newId
  let y := s.strm s.cur.core s.cur.seq s.cur.strm
  (⟨id, y.ne, dst, [], [], [id], none, [], s.girth, ea, [], (s.curWord s.cur.core y).getD 0, y.hdr, y.off, blk⟩, s)

/-- Translate a 64-byte block for read and write: a page of another kind than device memory traps (R320, R355). -/
def State.blockFor (s : State) (via : Via) (k : CtxId) (a : Word) : Except Res (Option (VSeg × List Nat)) × State :=
  match s.transAccess s.cur.core via k .rw a.toNat 64 with
  | (.error e, s) => (.error e.res, s)
  | (.ok (g :: _, ds), s) => if g.t.kind = .dev then (.ok (some (g, ds)), s) else (.error (.trap ⟨9, 4, a, 0⟩), s)
  | (.ok ([], _), s) => (.ok none, s)

/-- SPAWN: one arrival at a record, by the completion engine (R354, R355). -/
def execSpawn (w : Wait) (xa : XReg) (s : State) : Out :=
  .next (s.issueWord { wait := w, src := [xa.sop] } fun s xs _ =>
    let a := arg xs 0 &&& ~~~63
    match (s.core s.cur.core).ctxId with
    | none => (.stall 0, s)
    | some k =>
      match s.blockFor .tlb k a with
      | (.error r, s) => (r, s)
      | (.ok g, s) =>
        let (l, s) := s.engLoad (.none .d) a (g.map fun g => g.1.addr)
        (.go { effs := [.spawn a l.id], load := [l], rel := some .p }, s))

/-- JOIN: an ok credit, which answers word 0 of the counter after it (R320). -/
def execJoin (w : Wait) (xd : SOp) (xa : XReg) (s : State) : Out :=
  .next (s.issueWord { wait := w, src := [xa.sop], dst := [xd] } fun s xs _ =>
    let c := arg xs 0 &&& ~~~63
    match (s.core s.cur.core).ctxId with
    | none => (.stall 0, s)
    | some k =>
      if c = 0 then (.go (retDst (s.seq s.cur.core s.cur.seq) xd 0 {}), s)
      else
        match s.blockFor .tlb k c with
        | (.error r, s) => (r, s)
        | (.ok g, s) =>
          let (l, s) := s.engLoad (loadDst xd .d) c (g.map fun g => g.1.addr)
          (.go { effs := [.join c l.id], load := [l], rel := some .p }, s))

/-- Climb PARENT links from a counter (R305); none when a link is 0. -/
def State.climb (s : State) (k : CtxId) : Nat → Word → Except Res (Option Word) × State
  | 0, c => (.ok (some c), s)
  | n + 1, c =>
    match s.wordRead .tlb k (c + 0x20) 8 with
    | (.error r, s) => (.error r, s)
    | (.ok bs, s) =>
      let p : Word := BitVec.ofNat 64 (ofBytes bs) &&& ~~~63
      if p = 0 then (.ok none, s) else s.climb k n p

/-- The counter that CANCEL names; none when it retires with no effect (R305). -/
def State.cancelTarget (s : State) (k : CtxId) (v : Word) (lvl : Nat) : Except Res (Option Word) × State :=
  if v ≠ 0 then (.ok (some (v &&& ~~~63)), s)
  else
    let r := (s.seq s.cur.core s.cur.seq).rcd
    if r.launch = 0 ∨ lvl < r.level then (.ok none, s) else s.climb k (lvl - r.level) (r.launch &&& ~~~63)

/-- CANCEL (R305); level n names level n + 1 of R61. -/
def execCancel (w : Wait) (xa : XReg) (level : Fin 4) (s : State) : Out :=
  .next (s.issueWord { wait := w, src := [xa.sop] } fun s xs _ =>
    match (s.core s.cur.core).ctxId with
    | none => (.stall 0, s)
    | some k =>
      match s.cancelTarget k (arg xs 0) (level.val + 1) with
      | (.error r, s) => (r, s)
      | (.ok none, s) => (.go {}, s)
      | (.ok (some c), s) =>
        match s.blockFor .tlb k c with
        | (.error r, s) => (r, s)
        | (.ok none, s) => (.go {}, s)
        | (.ok (some (g, ds)), s) =>
          let (l, s) := s.engLoad (.none .d) c (some g.addr)
          (.go { effs := [.cancel g.addr g.t.keyId l.id ds], load := [l] }, s))

/-- The fault of a counter that lies on no page of device memory: DLCHK parks on it (R230). The cause is the model's: denied by the
leaf of stage 2 (DESIGN CHOICE, assumption log 97). -/
def State.kindFault (s : State) (k : CtxId) (va : Nat) : AccFault :=
  let gpa := match s.slice? k.slice, s.ctx? k with
    | some sl, some x =>
      match s.walk (dieOfCore s.cur.core) k sl x va with
      | .ok p => entryOa p.e1 * 65536
      | .error _ => 0
    | _, _ => 0
  ⟨4, va, gpa, false, false, false, false⟩

/-- A word of a counter on the chain of DLCHK: a plain load, which parks on a page of another kind than device memory (R230, R308). -/
def State.chainRead (s : State) (k : CtxId) (ea : Word) : Except Res (List Byte) × State :=
  if inWindow ea.toNat then s.wordRead .tlb k ea 8
  else
    match s.transAccess s.cur.core .tlb k .r ea.toNat 8 with
    | (.error e, s) => (.error e.res, s)
    | (.ok (gs, _), s) =>
      if gs.all fun g => decide (g.t.kind = .dev) then s.wordRead .tlb k ea 8
      else (.error (AErr.fault (s.kindFault k ea.toNat)).res, s)

/-- Some counter of a chain of at most n is cancelled (R308). -/
def State.chainCancelled (s : State) (k : CtxId) : Nat → Word → Except Res Bool × State
  | 0, _ => (.ok false, s)
  | n + 1, c =>
    if c = 0 then (.ok false, s)
    else
      match s.chainRead k c with
      | (.error r, s) => (.error r, s)
      | (.ok bs, s) =>
        if (ofBytes bs).testBit 33 then (.ok true, s)
        else if n = 0 then (.ok false, s)
        else
          match s.chainRead k (c + 0x20) with
          | (.error r, s) => (.error r, s)
          | (.ok ps, s) => s.chainCancelled k n (BitVec.ofNat 64 (ofBytes ps) &&& ~~~63)

/-- The result word of DLCHK (R308). -/
def dlchkWord (g dl : Nat) (canc : Bool) : Word :=
  let remain := if dl = 0 then 0xFFFFFFFF else min (dl - g) 0xFFFFFFFF
  BitVec.ofNat 64 (remain * 2 ^ 32 + b2n (decide (dl = 0)) * 4 + b2n canc * 2 + b2n (decide (dl ≠ 0 ∧ dl ≤ g)))

def execDlchk (w : Wait) (xd : SOp) (s : State) : Out :=
  .next (s.issueWord { wait := w, dst := [xd] } fun s _ _ =>
    let c := s.cur.core
    let x := s.seq c s.cur.seq
    match (s.core c).ctxId with
    | none => (.stall 0, s)
    | some k =>
      match s.chainCancelled k 4 (x.rcd.launch &&& ~~~63) with
      | (.error r, s) => (r, s)
      | (.ok canc, s) => (.go (retDst x xd (dlchkWord (s.ctxGirth k).toNat x.deadln.toNat canc) {}), s))

end Sys2Proof.Machine
end

