-- ==== Sys2Proof/Machine/Held.lean ====
section
/-!
DEFINITION. Held effects (15_margin R267 to R271, 17_reference R316): what each does once its shadow window has closed, the
release conditions that hold it back (R185, R187, R197), replay of a struck word, and escalation (R273, R274).
-/
namespace Sys2Proof.Machine

/-! ## Rings, barriers and tags -/

def Core.modRing (k : Core) (n : Fin 64) (f : Ring → Ring) : Core := { k with rings := k.rings.set n.val (f (k.ring n)) }

/-- A barrier whose arrivals have reached N completes (R156). -/
def Barrier.settle (b : Barrier) : Barrier := if b.n ≤ b.arr then { b with gen := b.gen + 1, arr := 0 } else b

/-- An arrival (R156). -/
def Barrier.arrive (b : Barrier) (cov : List Nat) : Barrier := ({ b with arr := b.arr + 1, cov := cov } : Barrier).settle

/-- A write of N (R156). -/
def Barrier.config (b : Barrier) (v : BitVec 16) : Barrier :=
  ({ b with n := if v = 0 then 1 else min v.toNat 4096 } : Barrier).settle

/-- Change a barrier as a core sees it. -/
def State.setBarrier (s : State) (c : CoreId) (b : Bar) (v : Barrier) : State :=
  match b with
  | .ba n => s.modCore c fun k => { k with bars := k.bars.set n.val v }
  | .db n =>
    match (s.core c).ctxId with
    | some k => s.modDie (dieOfCore c) fun d => { d with bars := mapPut d.bars (dbKey k n) v }
    | none => s

/-- A stream's arrival record for a barrier. -/
def Stream.setArr (y : Stream) (b : Bar) (r : ArrRec) : Stream := { y with arr := Vector.ofFn fun i => if i.val = barNo b then r else y.arr[i.val] }

/-- A die barrier that is switched out on the die of a core: its context (R248). -/
def State.switchedOut (s : State) (c : CoreId) (b : Bar) : Option (CtxId × Fin 16) :=
  match b, (s.core c).ctxId with
  | .db n, some k =>
    match s.ctx? k with
    | some x => if x.switched.getLsbD (dieOfCore c).val then some (k, n) else none
    | none => none
  | _, _ => none

/-- The 16 bytes of an entry of the Keeper log (R248). -/
def KEntry.bytes (e : KEntry) : List Byte :=
  toBytes 8 e.g.toNat ++ toBytes 8 (0x90 + e.bar.val + e.die.val * 2 ^ 8 + b2n e.cfg * 2 ^ 10 + e.lcore % 64 * 2 ^ 16 + e.agent % 8 * 2 ^ 24 +
    e.nval.toNat * 2 ^ 32)

/-- Append to a context's Keeper log, in Bridle's memory too; none when it is full (R248). -/
def State.logArrival (s : State) (k : CtxId) (e : KEntry) : Option (Nat × State) :=
  match s.ctx? k with
  | none => none
  | some x =>
    let n := x.klog.length
    if n < 4096 then
      let s := (s.logPut (x.klogPa + 64 + 16 * n) e.bytes).logPut x.klogPa (toBytes 4 (n + 1))
      some (n, s.modCtx k fun y => { y with klog := y.klog ++ [e] })
    else none

/-- BARR or BARR.cfg reaches its barrier, or the Keeper log; none when it must wait (R156, R248). -/
def State.reachBar (s : State) (c : CoreId) (q : SeqId) (st : Strm) (b : Bar) (cfg : Option (BitVec 16)) (cov : List Nat) : Option State :=
  match s.switchedOut c b with
  | some (k, n) =>
    let e : KEntry := ⟨s.ctxGirth k, n, dieOfCore c, cfg.isSome, (s.core c).lcore, c, strmCode q st, cfg.getD 0⟩
    match s.logArrival k e with
    | none => none
    | some (i, s) => some (if cfg.isSome then s else s.modStrm c q st (·.setArr b (.pending i)))
  | none =>
    let x := s.barrier c b
    match cfg with
    | some v => some (s.setBarrier c b (x.config v))
    | none => some ((s.setBarrier c b (x.arrive (s.stillOut x.cov ++ cov))).modStrm c q st (·.setArr b (.gen x.gen)))

/-! ## Stores -/

/-- The bytes of a run cut at 128-byte lines. -/
def linePieces (p : Piece) : List Piece :=
  (List.range ((p.pa + p.bs.length - 1) / 128 + 1 - p.pa / 128)).filterMap fun i =>
    let lo := max p.pa ((p.pa / 128 + i) * 128)
    let hi := min (p.pa + p.bs.length) ((p.pa / 128 + i + 1) * 128)
    let bs := (p.bs.drop (lo - p.pa)).take (hi - lo)
    if bs.any Option.isSome then some ⟨lo, p.keyId, bs, p.since⟩ else none

/-- A stream's write to one line comes to its die: its turn at the port with a token, the line's place in the cache with the eviction
it causes, and the write, which the die shows once it has entered (R171 to R173, R182); none while it is turned away, and the wait for a
token is monitor source 12. -/
def State.storeLine (s : State) (c : CoreId) (k : CtxId) (p : Piece) (waits : List Nat) : Option Nat × State :=
  let d := dieOfCore c
  let line := p.pa / 128
  match s.access d k line with
  | (false, s) => (none, s)
  | (true, s) =>
    let s := match p.since with
      | some t => s.monitor c 12 (s.girth - t)
      | none => s
    let (id, s) := s.putWrite k c d p.pa p.keyId (.bytes p.bs) waits .drop
    let s := s.modPend [id] fun w => { w with entered := false }
    if (s.keyGen p.keyId).isNone then (some id, s)
    else
      let (x, out) := (s.die d).allocLine k.slice line p.keyId true
      let s := s.setDie d x
      match out with
      | some l => (some id, (s.request c k l.line true false true).2)
      | none => (some id, if x.present line p.keyId then s else (s.request c k line true false true).2)

/-- Writes that are one write of a stream (R197). -/
def State.oneWrite (s : State) (grp : Option Nat) (ids : List Nat) : State :=
  match grp with
  | some g => s.modPend ids fun w => { w with grp := g }
  | none => s

/-- The writes by which a stream changes a feed queue: the last of them raises an index. A freeze discards them whole (R197). -/
def State.feedMarks (s : State) (c : CoreId) (n : Fin 64) (push : Bool) (ids : List Nat) : State :=
  match ids.getLast? with
  | some j => (s.oneWrite ids.head? ids).modPend ids fun w => { w with eng := false, core := c, old := if w.id = j then .feed n push else w.old }
  | none => s

/-- Enter the lines of a store in order; answers the writes made and the lines that still wait. -/
def State.storeLines (s : State) (c : CoreId) (k : CtxId) (waits : List Nat) : List Piece → List Nat × List Piece × State
  | [] => ([], [], s)
  | p :: t =>
    match s.storeLine c k p waits with
    | (none, s) => ([], { p with since := some (p.since.getD s.girth) } :: t, s)
    | (some id, s) =>
      let (ids, rest, s) := s.storeLines c k waits t
      (id :: ids, rest, s)

/-- Runs of bytes that are written, with their offsets. -/
def byteRuns : List (Option Byte) → Nat → List (Nat × List Byte)
  | [], _ => []
  | none :: t, i => byteRuns t (i + 1)
  | some b :: t, i =>
    match byteRuns t (i + 1) with
    | (j, bs) :: r => if j = i + 1 then (i, b :: bs) :: r else (i, [b]) :: (j, bs) :: r
    | [] => [(i, [b])]

/-- A store to a peer's page: one request for each run of bytes (R206). -/
def State.storeFab (s : State) (h : HeldWord) (k : CtxId) (peer epoch addr : Nat) (va : Word) : List (Nat × List Byte) → List Nat × State
  | [] => ([], s)
  | (o, bs) :: t =>
    let g : VSeg := ⟨va.toNat + o, bs.length, ⟨.fab, (addr + o) / 65536, true, true, false, peer, epoch, 0, true⟩⟩
    let (id, s) := s.fabSend k none 0 g (.write (addr + o) bs) h.word h.hdr h.off
    let (ids, s) := s.storeFab h k peer epoch addr va t
    (id :: ids, s)

/-! ## One effect -/

/-- An effect was made, a part of it still waits, it waits whole, or its word traps. -/
inductive Made where
  | done (s : State)
  | rest (e : Eff) (s : State)
  | wait
  | trap (t : TrapInfo) (s : State)
  deriving DecidableEq, Repr

def State.addDeps (s : State) (c : CoreId) (q : SeqId) (st : Strm) (ids : List Nat) : State :=
  s.modStrm c q st fun y => { y with deps := y.deps ++ ids }

/-- Writes and requests to peers that are earlier operations of a stream. -/
def State.strmOut (s : State) (c : CoreId) (q : SeqId) (st : Strm) : List Nat := (s.strm c q st).deps ++ (s.strm c q st).fdeps

/-- A push enters its queue, or is discarded (R76); the monitors take the occupancy. -/
def Core.pushOne (k : Core) (q : SeqId) (c : QCode) (f : Seq → Seq) : Core :=
  let x := k.seq q
  if x.readerEnded c then k
  else
    let x := f x
    (k.setSeq q x).monitor 3 (x.qCount c)

/-- Make one held effect of a word (R269). A tile command whose lease has ended since it issued raises its request again (R124); of one
that a stop found held the acceptance goes on (R238); MMAS reads its record without a test of the scoreboard, which its issue has passed
(R146). A word that pushes to a feed queue waits until FWIDX has risen at .p (R343). -/
def State.applyEff (s : State) (c : CoreId) (q : SeqId) (h : HeldWord) (k : CtxId) : Eff → Made
  | .stSpad off bs => .done (s.spadStore c off bs)
  | .stDev ps waits grp =>
    let (ids, rest, s) := s.storeLines c k (h.loads ++ waits) (ps.flatMap linePieces)
    let s := (s.addDeps c q h.strm ids).oneWrite (grp.or ids.head?) ids
    if rest.isEmpty then .done s else .rest (.stDev rest waits (grp.or ids.head?)) s
  | .stHost port sl addr bs waits => if s.allDone waits then .done (s.hostPut (vfOf port sl) addr bs) else .wait
  | .stFab peer epoch addr bs va waits =>
    if s.allDone waits then
      let (ids, s) := s.storeFab h k peer epoch addr va (byteRuns bs 0)
      .done (s.modStrm c q h.strm fun y => { y with fdeps := y.fdeps ++ ids })
    else .wait
  | .pop n => .done (s.modSeq c q (·.popQ n))
  | .push n v => .done (s.modCore c (·.pushOne q n (·.pushQ n v)))
  | .pushDq n v => .done (s.modCore c (·.pushOne q (.dq n) (·.pushDq n v)))
  | .rclaim n => .done (s.modCore c (·.modRing n Ring.claim))
  | .rtake n => .done (s.modCore c (·.modRing n Ring.take))
  | .rfill n i a =>
    let r := (s.core c).ring n
    if r.state i = .claimed then .done (s.modCore c (·.modRing n (·.fill i (s.stillOut (r.cov ++ s.strmOut c q h.strm)))))
    else .trap ⟨7, n.val, a, 0⟩ s
  | .rfree n i a =>
    if ((s.core c).ring n).state i = .taken then .done (s.modCore c (·.modRing n (·.release i))) else .trap ⟨7, n.val, a, 0⟩ s
  | .acset n t v => .done (s.modCore c fun x => { x with acs := x.acs.set n.val ⟨t, v, []⟩ })
  | .barr b =>
    match s.reachBar c q h.strm b none (s.stillOut (s.strmOut c q h.strm)) with
    | some s => .done s
    | none => .wait
  | .barrCfg b v =>
    match s.reachBar c q h.strm b (some v) [] with
    | some s => .done s
    | none => .wait
  | .tins key slot =>
    let x := s.core c
    if (x.tagFind key).isNone && (x.tagFree (tagSetOf x.tagWays key)).isNone then .trap ⟨8, 2, key.setWidth 64, 0⟩ s
    else .done (s.modCore c (·.tagInsert key slot))
  | .tevc st w => .done (s.modCore c (·.tagEvict st w))
  | .tinv key => .done (s.modCore c (·.tagDrop key))
  | .tinvAll => .done (s.modCore c fun x => { x with tags := [], tagPtr := [] })
  | .mts n v =>
    let s := s.modCore c (·.putSpr q h.strm n.toNat v)
    .done (if n = 3 then s.modSeq c q fun x => { x with held := x.held.map fun w => { w with flags := v.setWidth 5 } } else s)
  | .tile t vs => .done (s.modCore c (·.setTile t vs))
  | .copy n m => .done (s.modCq c n fun x => { x with items := x.items ++ [.cmd m] })
  | .uncinch => .done (s.modCore c (·.dropCinch q))
  | .mma m =>
    if (s.core c).cinchOf q ≠ .hold ∧ s.mayIssue c = true then .rest (.mma m) (s.modCore c (·.wantCinch q))
    else
      let s := s.modSeq c q (·.popQ .fq)
      match m.xs with
      | none => .done (s.modCore c (·.accept m))
      | some off =>
        match (s.core c).shapeRec off with
        | some g => .done (s.modCore c (·.accept { m with shape := g, xs := none }))
        | none => .trap ⟨4, 6, m.fmt, 0⟩ s
  | .cancel pa key load ds =>
    let (id, s) := s.putWrite k c (dieOfCore c) pa key (.atom 8 .setCancelled) ds .drop
    .done ((s.modPend [id] fun w => { w with entered := false }).modStrm c q h.strm fun y => { y with
      deps := y.deps ++ [id]
      loads := y.loads.map fun l => if l.id = load then { l with ext := [id] } else l })
  | .spawn va load => .done (s.addJob (dieOfCore c) k (.spawn va) (some (c, q, h.strm, load)))
  | .join va load => .done (s.addJob (dieOfCore c) k (.step va .ok false false) (some (c, q, h.strm, load)))
  | .feedPush n bs =>
    match s.feed k n with
    | none => .wait
    | some f =>
      if f.room = 0 then .wait
      else
        match s.feedPut k n f [bs] with
        | (.ok ids, s) => .rest (.feedWait n ids) ((s.addDeps c q h.strm ids).feedMarks c n true ids)
        | (_, _) => .wait
  | .feedWait _ ids => if s.allDone ids then .done s else .wait
  | .feedPop n =>
    match s.feed k n with
    | none => .wait
    | some f =>
      match s.feedTake k n f with
      | (.ok id, s) => .done (s.feedMarks c n false [id])
      | (_, _) => .wait
  | .land _ _ none => .wait
  | .land load dst (some bs) => .done (s.modCore c (·.landPush q load dst bs))

/-- Make the effects of a word in order; answers those that still wait, or the trap that its word takes. -/
def State.applyEffs (s : State) (c : CoreId) (q : SeqId) (h : HeldWord) (k : CtxId) :
    List Eff → Except TrapInfo (List Eff) × State
  | [] => (.ok [], s)
  | e :: t =>
    match s.applyEff c q h k e with
    | .done s => s.applyEffs c q h k t
    | .rest e s => (.ok (e :: t), s)
    | .wait => (.ok (e :: t), s)
    | .trap t s => (.error t, s)

/-- The release of a word allows its effects: every earlier operation of its stream is performed at the scope (R185, R187). -/
def State.released (s : State) (c : CoreId) (q : SeqId) (h : HeldWord) : Bool :=
  let y := s.strm c q h.strm
  let bound := !(y.loads.any fun l => h.loads.contains l.id)
  match h.rel with
  | none | some .s => true
  | some .c | some .d => bound && s.shown y.deps
  | some .p => bound && s.allDone y.deps
  | some .f => bound && s.allDone y.deps && !s.fabOpen y.fdeps

/-- The oldest held word of a sequencer has made all its effects: it leaves, its section instance may retire (R69), and a store
with .ar is from now on an acquire whose writes the stream waits for (R185). -/
def Seq.commit (x : Seq) (h : HeldWord) : Seq :=
  let y := x.strm h.strm
  let x := match h.ar with
    | some sc => x.setStrm h.strm { y with acq := some (sc, y.deps) }
    | none => x
  ({ x with held := x.held.drop 1 } : Seq).retire h.strm

/-- HELD_EFFECT_COMMIT: the oldest word of a sequencer makes its effects in the cycle after its window has closed clean, or later
when they still wait for something (R269, R316). -/
def execHeldEffectCommit (c : CoreId) (q : SeqId) (s : State) : Out :=
  let k := s.core c
  match (k.seq q).held, k.ctxId with
  | h :: _, some x =>
    if s.alive c && (k.seq q).closed h k.cyc && s.released c q h then
      let s := { s with cur := ⟨c, q, h.strm, dieOfCore c, s.cur.ctx⟩ }
      match s.applyEffs c q h x h.effs with
      | (.error t, s) => .next (s.trapHeld c q h t)
      | (.ok [], s) => .next ((s.modSeq c q (·.commit h)).sweep c)
      | (.ok es, s) => .next ((s.modSeq c q fun y => { y with held := { h with effs := es } :: y.held.drop 1 }).sweep c)
    else .next s
  | _, _ => .next s

/-! ## Escalation (R272 to R274) -/

/-- A change of BSTEP reaches the transistors 200 ticks later; changes before it reach them at their own ticks (R272). -/
def Core.setBstep (k : Core) (v now : Nat) : Core :=
  if v = k.bstep then k else { k with bstep := v, settle := k.settle ++ [(now + 200, v)] }

/-- A window overrun (R274). -/
def Core.overrun (k : Core) (now : Nat) : Core :=
  let esc := (k.esc + 1) % 65536
  match k.escal with
  | .run =>
    if k.bstep < k.btop then { k.setBstep (k.bstep + 1) now with esc := esc }
    else { k with escal := .qpend, qreq := true, esc := esc, guar := true, qtag := some now }
  | .qpend => { k with esc := esc }
  | .quar => k

/-- The window of a core ends at a multiple of 2^20 cycles: the monitors take its replays, and COUNT is 0 (R273). -/
def Core.endWindow (k : Core) : Core :=
  if k.cyc / 2 ^ 20 = k.repWin then k
  else { k.monitor 4 k.count with count := 0, overran := false, repWin := k.cyc / 2 ^ 20 }

/-- A replay is counted; COUNT passing LIMIT is a window overrun, once in a window (R273). -/
def Core.countReplay (k : Core) (now : Nat) : Core :=
  let k := k.endWindow
  let n := min (k.count + 1) 0xFFFFF
  let past := decide (k.count = k.limit) && decide (n = k.limit + 1) && !k.overran
  let k := { k with count := n }
  if past then ({ k with overran := true } : Core).overrun now else k

/-! ## Replay (R268, R271) -/

/-- A struck word and the younger words of its stream have to issue again; the strikes of the struck word rise, and those of a younger
word stay, since no clean window came between. -/
def reissue (st : Strm) (no : Nat) (ws : List Win) : List Win :=
  ws.map fun w =>
    if w.strm = st ∧ no ≤ w.no then { w with strikes := if w.no = no then w.strikes + 1 else w.strikes, again := true } else w

/-- A strike in cycle `cyc`: nothing issues up to cyc + 3; then the struck word issues again and the younger words of its stream
after it. They have the results they had, so that only time passes (R268). -/
def Seq.strike (x : Seq) (w : Win) (cyc : Nat) : Seq :=
  { x with wins := reissue w.strm w.no (x.liveWins cyc), bubble := cyc + 4 }

/-- A word of a sequencer is struck: a replay is counted; the 16th strike in a row traps a word with held effects, and is a window
overrun of one without (R268, R271). -/
def State.strikeWord (s : State) (c : CoreId) (q : SeqId) (w : Win) : State :=
  let s := s.modCore c fun k => (k.setSeq q ((k.seq q).strike w k.cyc)).countReplay s.girth
  match (s.seq c q).held.find? fun h => decide (h.no = w.no) with
  | some h => if 16 ≤ w.strikes + 1 then s.trapHeld c q h ⟨11, h.cls, 0, 0⟩ else s
  | none => if w.strikes + 1 = 16 then s.modCore c (·.overrun s.girth) else s

/-- A beat of the array is struck: it is made again after a bubble of three cycles, and has counted once (R268). -/
def Core.strikeBeat (k : Core) (now : Nat) : Core :=
  match k.lastBeat with
  | some b => if b ≤ k.cyc ∧ k.cyc ≤ b + 4 then ({ k with lastBeat := some (k.cyc + 4) } : Core).countReplay now else k
  | none => k

/-- REPLAY: a late transition strikes the n-th of a sequencer's words whose windows are open, oldest first; a greater n strikes a
beat of the matrix array. -/
def execReplay (c : CoreId) (q : SeqId) (n : Nat) (s : State) : Out :=
  let k := s.core c
  match ((k.seq q).wins.filter (·.isOpen k.cyc))[n]? with
  | some w => .next (s.strikeWord c q w)
  | none => .next (s.modCore c (·.strikeBeat s.girth))

end Sys2Proof.Machine
end

