-- ==== Sys2Proof/Machine/Fabric.lean ====
section
/-!
DEFINITION. The Autus fabric and the host port: requests to peers and their answers, the flit slots of a port, requests that
arrive from peers, and completions of reads of host memory (10_memory_ordering R180, R196; 11_translation R206; 14_slices R254;
18_reference R317).
-/
namespace Sys2Proof.Machine

/-! ## A request that fails -/

/-- A context-fatal trap of the agent that made a request: a copy queue at its head, or a stream at the word that made it. -/
def State.trapReq (s : State) (c : CoreId) (q : SeqId) (st : Strm) (queue : Option CqId) (t : TrapInfo) (word : IWord) (hdr : Word)
    (off : Nat) : State :=
  match queue with
  | some n => s.trapQueue c n t
  | none =>
    (s.trapAgent c (strmCode q st) t word hdr off).modStrm c q st fun y =>
      { y with st := .trapped, stall := none, pre := [], hdr := hdr, word := if off = 0xFFF then none else some off }

def State.fabOut (s : State) (id : Nat) : Option FabOut := s.fabOuts.find? fun r => decide (r.id = id)
def State.dropFab (s : State) (id : Nat) : State := { s with fabOuts := s.fabOuts.filter fun r => decide (r.id ≠ id) }

/-- A load of a stream by its name. -/
def State.loadOf (s : State) (c : CoreId) (q : SeqId) (st : Strm) (load : Option Nat) : Option Load :=
  load.bind fun i => (s.strm c q st).loads.find? fun l => decide (l.id = i)

/-- A request to a peer is answered by a trap (R206). -/
def State.fabTrap (s : State) (r : FabOut) (kind : Nat) (detail : Word) : State :=
  let t : TrapInfo := ⟨kind, r.peer, detail, r.va⟩
  let s := s.dropFab r.id
  match r.queue, s.loadOf r.core r.seq r.strm r.load with
  | none, some l => s.trapLoad r.core r.seq r.strm l t
  | queue, _ => s.trapReq r.core r.seq r.strm queue t r.word r.hdr r.woff

/-! ## Slots of a port (R254) -/

def FabPort.share (p : FabPort) (slice : Nat) : FabShare := (mapGet p.shares slice).getD ⟨0, 0, 0, 0, 0, 0⟩

/-- Sum of SHARE at a port. -/
def FabPort.shared (p : FabPort) : Nat := p.shares.foldl (fun n x => n + x.2.share) 0

/-- Slots that a slice has used of the present 256, and those back to back above its share, in or out. -/
def FabShare.gone (x : FabShare) (inward : Bool) : Nat := if inward then x.inUsed else x.used
def FabShare.over (x : FabShare) (inward : Bool) : Nat := if inward then x.inRun else x.run

/-- Slots of the present 256 used above a share, in or out. -/
def FabPort.above (p : FabPort) (inward : Bool) : Nat := p.shares.foldl (fun n x => n + (x.2.gone inward - x.2.share)) 0

/-- What takes the next slot, in or out: the oldest of a slice within its share, else one of a slice within its burst while the remainder
lasts. -/
def FabPort.pick {α : Type} (p : FabPort) (inward : Bool) (rs : List (Fin 32 × α)) : Option (Fin 32 × α) :=
  match rs.find? fun r => decide ((p.share r.1.val).gone inward < (p.share r.1.val).share) with
  | some r => some r
  | none =>
    if p.above inward < 256 - p.shared then rs.find? fun r => decide ((p.share r.1.val).over inward < (p.share r.1.val).burst) else none

/-- Slots used and those back to back above the share, after a slot that a slice takes or leaves. -/
def slotTaken (share used run : Nat) (taken : Bool) : Nat × Nat :=
  if taken then (used + 1, if used < share then 0 else run + 1) else (used, 0)

/-- One slot passes in each direction. -/
def FabPort.next (p : FabPort) (out into : Option Nat) : FabPort :=
  let shares := p.shares.map fun x =>
    let o := slotTaken x.2.share x.2.used x.2.run (decide (some x.1 = out))
    let i := slotTaken x.2.share x.2.inUsed x.2.inRun (decide (some x.1 = into))
    (x.1, { x.2 with used := o.1, run := o.2, inUsed := i.1, inRun := i.2 })
  if p.slot + 1 < 256 then { p with shares := shares, slot := p.slot + 1 }
  else { p with shares := shares.map fun x => (x.1, { x.2 with used := 0, inUsed := 0 }), slot := 0 }

/-- The die that holds a port (R18). -/
def portHome (port : Nat) : DieId := Fin.ofNat 4 (port / 6)

/-- A message reaches a port from outside: it comes in flit by flit, as its slice has slots (R254). The ports of a die that is offline have
left service (R30). -/
def State.fabArrive (s : State) (port : Nat) (m : FabIn) : State :=
  if (s.die (portHome port)).offline then s
  else s.setFabPort port { s.fabPort port with arriving := (s.fabPort port).arriving ++ [m] }

/-- A reply to a request is on its way in already. -/
def FabPort.hasReply (p : FabPort) (req : Nat) : Bool := p.arriving.any fun m => match m.msg with
  | .reply r _ | .trap r _ _ => decide (r = req)
  | .ask _ _ => false

/-- A reply to a request reaches the port by which the request left (R19). -/
def State.replyIn (s : State) (r : FabOut) (flits : Nat) (msg : FabMsg) : State :=
  if r.sent.isNone || (s.fabPort r.port).hasReply r.id then s else s.fabArrive r.port ⟨r.ctx.slice, flits, msg⟩

/-- STALE_EPOCH_REPLY: kind 12 (R206). -/
def execStaleEpochReply (req : Nat) (s : State) : Out :=
  match s.fabOut req with
  | some r => .next (s.replyIn r 1 (.trap req 12 (BitVec.ofNat 64 r.epoch)))
  | none => .next s

/-- NO_TARGET_REPLY: kind 16 (R206). -/
def execNoTargetReply (req : Nat) (s : State) : Out :=
  match s.fabOut req with
  | some r => .next (s.replyIn r 1 (.trap req 16 (BitVec.ofNat 64 r.addr)))
  | none => .next s

/-- FABRIC_LINK_TIMEOUT: no reply 2^22 ticks after the request left: kind 13 (R206). -/
def execFabricLinkTimeout (req : Nat) (s : State) : Out :=
  match s.fabOut req with
  | some r =>
    match r.sent with
    | some t => if t + 2 ^ 22 ≤ s.girth then .next (s.fabTrap r 13 0) else .next s
    | none => .next s
  | none => .next s

/-! ## Answers with data -/

/-- Bytes brought for a load take their place in it. -/
def State.fillLoad (s : State) (c : CoreId) (q : SeqId) (st : Strm) (load off : Nat) (bs : List Byte) : State :=
  s.modStrm c q st fun y => { y with loads := y.loads.map fun l =>
    if l.id = load then { l with buf := l.buf.take off ++ bs ++ l.buf.drop (off + bs.length) } else l }

/-- A request of a unit has brought its bytes. -/
def UnitReq.fill (u : UnitReq) (id : Nat) (bs : List Byte) : UnitReq :=
  match u.ext.find? (fun e => decide (e.1 = id)) with
  | some e => { u with ext := u.ext.filter (fun f => decide (f.1 ≠ id)), data := u.data ++ [(e.2, bs)] }
  | none => u

/-- Bytes brought for the next unit of a queue's head command. -/
def State.fillUnit (s : State) (c : CoreId) (n : CqId) (id : Nat) (bs : List Byte) : State :=
  s.modCq c n fun x => x.modHead fun m => { m with unit := m.unit.map (·.fill id bs) }

def State.fill (s : State) (c : CoreId) (q : SeqId) (st : Strm) (queue : Option CqId) (load off id : Nat) (bs : List Byte) : State :=
  match queue with
  | some n => s.fillUnit c n id bs
  | none => s.fillLoad c q st load off bs

/-- Bytes that the reply to a request returns. -/
def FabOut.back (r : FabOut) : Nat :=
  match r.req with
  | .read _ _ | .swap _ _ _ _ => r.n
  | .write _ _ | .atomic _ _ _ _ => 0

/-- The old value of an element step has come back: its bytes are credited (R148). -/
def State.creditSwap (s : State) (r : FabOut) : State :=
  match r.queue.bind fun n => ((s.core r.core).cq n).head with
  | some m => s.credit r.core m.ac r.n []
  | none => s

/-- A reply has come in: the bytes read, the old value of a swap, or an acknowledgement that a write is performed at its package scope
(R180). -/
def State.answered (s : State) (r : FabOut) (data : List Byte) : State :=
  match r.req with
  | .read _ _ => (s.dropFab r.id).fill r.core r.seq r.strm r.queue (r.load.getD 0) r.off r.id data
  | .write _ _ | .atomic _ _ _ _ => s.dropFab r.id
  | .swap _ _ _ _ => ((s.dropFab r.id).spadStore r.core r.off (data.map some)).creditSwap r

/-- FABRIC_REPLY: the reply to a request reaches its port. -/
def execFabricReply (req : Nat) (data : List Byte) (s : State) : Out :=
  match s.fabOut req with
  | none => .next s
  | some r =>
    if decide (data.length ≠ r.back) then .fault .badInput else .next (s.replyIn r (flitsOf data.length) (.reply req data))

/-! ## Reads of host memory (R317) -/

/-- A read that the port completes with an error or a timeout: nothing is delivered and kind 10 with cause 1 is raised. -/
def State.hostFail (s : State) (r : HostRead) : State :=
  let s := { s with hostReads := s.hostReads.filter fun (x : HostRead) => decide (x.id ≠ r.id) }
  match r.queue, s.loadOf r.core r.seq r.strm (some r.load) with
  | some n, _ => s.trapQueue r.core n ⟨10, 1, 0, r.va⟩
  | none, some l => s.trapLoad r.core r.seq r.strm l ⟨10, 1, 0, r.va⟩
  | none, none => s

/-- HOST_READ_COMPLETION: bytes, or none for a completion with an error. -/
def execHostReadCompletion (req : Nat) (data : Option (List Byte)) (s : State) : Out :=
  match s.hostReads.find? fun r => decide (r.id = req) with
  | none => .next s
  | some r =>
    match data with
    | none => .next (s.hostFail r)
    | some bs =>
      if bs.length = r.n then
        let s := { s with hostReads := s.hostReads.filter fun (x : HostRead) => decide (x.id ≠ req) }
        .next (s.fill r.core r.seq r.strm r.queue r.load r.off req bs)
      else .fault .badInput

/-- PCIE_COMPLETION_TIMEOUT. -/
def execPcieCompletionTimeout (req : Nat) (s : State) : Out :=
  match s.hostReads.find? fun r => decide (r.id = req) with
  | none => .next s
  | some r => .next (s.hostFail r)

/-! ## Flit slots (R254) -/

/-- What waits at a port to leave: slice, name and whether it is a reply to a peer, the oldest first (names rise in time). -/
def insertOut (p : Fin 32 × Nat × Bool) : List (Fin 32 × Nat × Bool) → List (Fin 32 × Nat × Bool)
  | [] => [p]
  | q :: t => if p.2.1 < q.2.1 then p :: q :: t else q :: insertOut p t

def State.fabQueue (s : State) (port : Nat) : List (Fin 32 × Nat × Bool) :=
  ((s.fabBack.filter fun r => decide (r.port = port)).map fun r => (r.slice, r.no, true)).foldl (fun l p => insertOut p l)
    ((s.fabOuts.filter fun r => decide (r.port = port) && r.sent.isNone).map fun r => (r.ctx.slice, r.id, false))

/-- A flit of a request leaves; the request has left with its last flit. The wait of the flit is monitor source 13. -/
def State.sendFlit (s : State) (r : FabOut) : State :=
  let s := { s with fabOuts := s.fabOuts.map fun (x : FabOut) =>
    if x.id = r.id then { x with flits := x.flits - 1, tick := s.girth, sent := if x.flits ≤ 1 then some s.girth else none } else x }
  s.monitor r.core 13 (s.girth - r.tick)

/-- A flit of a reply to a peer leaves. -/
def State.sendBack (s : State) (r : FabBack) : State :=
  if r.flits ≤ 1 then
    { s with
      fabBack := s.fabBack.filter fun (x : FabBack) => decide (x.no ≠ r.no)
      fabSent := s.fabSent ++ [(r.no, r.ans)] }
  else { s with fabBack := s.fabBack.map fun (x : FabBack) => if x.no = r.no then { x with flits := x.flits - 1 } else x }

/-! ## Requests from peers (R196) -/

def fabReqAddr : FabReq → Nat
  | .read a _ | .write a _ | .atomic a _ _ _ | .swap a _ _ _ => a

def fabReqNeed : FabReq → Need
  | .read _ _ => .r
  | .write _ _ => .w
  | .atomic _ _ _ _ | .swap _ _ _ _ => .rw

/-- Where a peer's request reaches: device physical address, KEYID, and the leaf whose D bit a write has still to set (R200). -/
structure FabTo where
  (pa key : Nat) (leaf : Option Nat)
  deriving DecidableEq, Repr

/-- The device physical address and KEYID of a slice's fabric address, which is a guest physical address of the slice. -/
def State.fabAddr (s : State) (sl : Fin 32) (addr : Nat) (n : Need) : Ans FabTo :=
  match s.slice? sl with
  | none => .fail
  | some x =>
    match s.walk2 0 x addr with
    | .ok l =>
      if bitsOf l.e 59 58 = 0 && s.leafOwned 0 sl l && n.ok (bitOf l.e 2) (bitOf l.e 3) false then
        .ok ⟨entryOa l.e * 65536 + addr % 65536, allocKey (s.allocAt 0 (entryOa l.e)), if n.writes && !bitOf l.e 6 then some l.addr else none⟩
      else .fail
    | .error .wait => .wait
    | .error _ => .fail

/-- The port by which a peer's traffic to a die goes. -/
def peerPort (d : DieId) (peer : BitVec 8) : Nat := d.val * 6 + peer.toNat % 6

/-- A reply to a peer takes its place at its port. -/
def State.fabAnswer (s : State) (no : Nat) (sl : Fin 32) (port : Nat) (ans : Option (List Byte)) : State :=
  { s with fabBack := s.fabBack ++ [⟨no, sl, port, ans, flitsOf (match ans with | some bs => bs.length | none => 0)⟩] }

/-- The D-bit write that comes before a peer's write to a page (R200). -/
def State.fabMark (s : State) (k : CtxId) (leaf : Option Nat) : List Nat × State :=
  match leaf with
  | some a =>
    let (id, s) := s.markD (engCore 0) k a
    ([id], s)
  | none => ([], s)

/-- Perform a request of a peer at an address, by the port it came in through; a write or a step is acknowledged once it is performed
at .p (R180). A read is answered at once with what the home's view holds (DESIGN CHOICE, assumption log 98). -/
def State.fabServe (s : State) (sl : Fin 32) (port : Nat) (r : FabReq) (to_ : FabTo) : State :=
  let pa := to_.pa
  let key := to_.key
  let d := homeOf pa
  let k : CtxId := ⟨sl, 0⟩
  if 65536 < pa % 65536 + fabReqLen r then s
  else
      let (ds, s) := s.fabMark k to_.leaf
      let (no, s) := s.newId
      let put (p : Payload) (old : OldTo) : State :=
        let (id, s) := s.putEng k (engCore d) d pa key p ds old
        if s.inFlight id then { s with fabWait := mapPut s.fabWait id ⟨no, sl, port, none, 1⟩ } else s.fabAnswer no sl port (some [])
      match r with
      | .read _ n =>
        match s.readBytes d key pa n with
        | some bs => s.fabAnswer no sl port (some bs)
        | none => s
      | .write _ bs => put (.bytes (bs.map some)) .drop
      | .atomic _ op et bs => put (.atom bs.length (.acc op et bs)) .drop
      | .swap _ _ none bs => put (.atom bs.length (.swap bs)) .reply
      | .swap _ _ (some cmp) bs => put (.atom bs.length (.cas cmp bs)) .reply

/-- The stop count of a slice's migration to another package has come: requests of peers wait for the switch (R251). -/
def State.movedSlice (s : State) (sl : Fin 32) : Bool :=
  s.migrating.any fun m => decide (m.1 = sl.val) && decide (m.2.s ≠ 0) && decide (m.2.s ≤ s.girth) && match m.2.dest with
    | .package _ => true
    | .here _ => false

/-- The port by which a peer's request comes in: that of its traffic to the die that its address lies on. -/
def State.askPort (s : State) (slice : Fin 32) (p : Asker) (r : FabReq) : Nat :=
  peerPort (match s.fabAddr slice (fabReqAddr r) (fabReqNeed r) with | .ok a => homeOf a.pa | .wait | .fail => 0) p.peer

/-- FABRIC_REQUEST: a request to a slice whose fabric addresses the switches map here reaches a port. -/
def execFabricRequest (slice : Fin 32) (p : Asker) (r : FabReq) (s : State) : Out :=
  if s.fabMap.contains slice then .next (s.fabArrive (s.askPort slice p r) ⟨slice, fabFlits r, .ask p r⟩) else .next s

/-- A request has come in by a port: it is performed, or held while the slice is being moved (R196, R251); one with another epoch than the
package's own is answered with a stale-epoch reply (R206). None while a line of a stage-2 table may not be read yet. -/
def State.serveAsk (s : State) (port : Nat) (slice : Fin 32) (p : Asker) (r : FabReq) : Option State :=
  if s.movedSlice slice then some { s with fabHeld := s.fabHeld ++ [(slice, p, r)] }
  else if p.epoch ≠ s.ownEpoch then some (s.newId.2.fabAnswer s.newId.1 slice port none)
  else
    match s.fabAddr slice (fabReqAddr r) (fabReqNeed r) with
    | .ok a => some (s.fabServe slice port r a)
    | .wait => none
    | .fail => some s

/-! ## Flit slots (R254) -/

/-- A message is in; none when it has to wait. A reply to a request that is no longer open brings nothing. -/
def State.deliver (s : State) (port : Nat) (m : FabIn) : Option State :=
  match m.msg with
  | .reply req data => some (match s.fabOut req with | some r => s.answered r data | none => s)
  | .trap req kind detail => some (match s.fabOut req with | some r => s.fabTrap r kind detail | none => s)
  | .ask p r => s.serveAsk port m.slice p r

/-- Deliver the messages of a port that are in, in order; those that wait, and those still on their way, stay. -/
def State.deliverAll (s : State) (port : Nat) : List FabIn → List FabIn × State
  | [] => ([], s)
  | m :: t =>
    match if m.flits = 0 then s.deliver port m else none with
    | some s => s.deliverAll port t
    | none =>
      let (r, s) := s.deliverAll port t
      (m :: r, s)

/-- A flit of the oldest message of a slice comes in. -/
def flitIn (slice : Fin 32) : List FabIn → List FabIn
  | [] => []
  | m :: t => if m.slice = slice ∧ m.flits ≠ 0 then { m with flits := m.flits - 1 } :: t else m :: flitIn slice t

/-- The flit of a request or of a reply to a peer that takes a slot leaves the package. -/
def State.sendOut (s : State) (id : Nat) (back : Bool) : State :=
  if back then
    match s.fabBack.find? fun r => decide (r.no = id) with
    | some r => s.sendBack r
    | none => s
  else
    match s.fabOut id with
    | some r => s.sendFlit r
    | none => s

/-- FABRIC_FLIT_SLOT: a port grants one slot in each direction; the flit that takes the one out leaves the package, and the message whose last
flit takes the one in is delivered (R254). -/
def execFabricFlitSlot (port : Fin 24) (s : State) : Out :=
  let p := s.fabPort port.val
  if (s.die (portHome port.val)).offline then .next s
  else
    let out := p.pick false (s.fabQueue port.val)
    let into := p.pick true ((p.arriving.filter fun m => decide (m.flits ≠ 0)).map fun m => (m.slice, ()))
    let y := p.next (out.map (·.1.val)) (into.map (·.1.val))
    let come := match into with
      | some i => flitIn i.1 p.arriving
      | none => p.arriving
    let s := s.setFabPort port.val { y with arriving := [] }
    let s := match out with
      | some o => s.sendOut o.2.1 o.2.2
      | none => s
    let (rest, s) := s.deliverAll port.val come
    .next (s.setFabPort port.val { s.fabPort port.val with arriving := rest ++ (s.fabPort port.val).arriving })

end Sys2Proof.Machine
end

