-- ==== Sys2Proof/Machine/Group.lean ====
section
/-!
DEFINITION. Groups and sections (04_groups_and_streams R61 to R73, 12_submission R226, R230, 16_host R289, 11_translation R208):
a pop, the start and the retire of a group, the fetch of a section and the entry into it.
-/
namespace Sys2Proof.Machine

/-! ## Fetching (R208, R289) -/

/-- What a fetch of a run of bytes gives. -/
inductive Fetch where
  | ok (bs : List Byte)
  | wait
  | fault (f : AccFault)
  | bad (va : Nat)
  deriving DecidableEq, Repr

/-- The bytes of translated runs: device memory in the die's view, others from what a request has brought. -/
def State.fetchRuns (s : State) (c : CoreId) (k : CtxId) : List VSeg → Fetch × State
  | [] => (.ok [], s)
  | g :: t =>
    let q := s.cur.seq
    let st := s.cur.strm
    let (r, s) : Fetch × State :=
      if g.t.kind = .dev then
        if s.readableRun (dieOfCore c) g.t.keyId g.addr g.n then
          match s.readBytes (dieOfCore c) g.t.keyId g.addr g.n with
          | some bs => (.ok bs, s)
          | none => (.bad g.va, s)
        else (.wait, s)
      else
        match mapGet (s.strm c q st).pre g.va with
        | some bs => (.ok bs, s)
        | none =>
          if (s.strm c q st).loads.any fun l => decide (l.dst = .pre) then (.wait, s)
          else
            let (l, s) := s.startLoad k .pre (List.replicate g.n 0) none (BitVec.ofNat 64 g.va) (placeSegs 0 [g])
            (.wait, s.modSeq c q (·.addLoad st l))
    match r with
    | .ok bs =>
      match s.fetchRuns c k t with
      | (.ok cs, s) => (.ok (bs ++ cs), s)
      | r => r
    | r => (r, s)

/-- Fetch n bytes of code through both stages; STRADDLE when only a later page fails (R208). -/
def State.fetch (s : State) (c : CoreId) (k : CtxId) (va n : Nat) : Fetch × State :=
  match s.transAccess c .tlb k .x va n with
  | (.error (.fault f), s) => (.fault { f with straddle := decide (f.addr / 65536 ≠ va / 65536) }, s)
  | (.error .wait, s) => (.wait, s)
  | (.error (.bad a), s) => (.bad a, s)
  | (.ok (gs, _), s) => s.fetchRuns c k gs

/-- Fetch word i of a section. -/
def State.fetchWord1 (s : State) (c : CoreId) (k : CtxId) (hdr i : Nat) : Fetch × State := s.fetch c k (hdr + 8 + 12 * i) 12

/-- The failure that a fetch leaves. -/
def Fetch.fail : Fetch → Option FetchFail
  | .fault f => some (.fault f)
  | .bad a => some (.bad a)
  | .ok _ | .wait => none

/-- Fetch the words of a section, from number i on, that are neither there yet nor known to fail. A word that cannot be fetched stays out,
and its failure is held until a stream reaches the word (R208). -/
def State.fetchWords (s : State) (c : CoreId) (k : CtxId) (hdr : Nat) (fails : List (Nat × FetchFail)) :
    List (Option IWord) → Nat → (List (Option IWord) × List (Nat × FetchFail)) × State
  | [], _ => (([], fails), s)
  | some w :: t, i =>
    let (r, s) := s.fetchWords c k hdr fails t (i + 1)
    ((some w :: r.1, r.2), s)
  | none :: t, i =>
    if (mapGet fails i).isSome then
      let (r, s) := s.fetchWords c k hdr fails t (i + 1)
      ((none :: r.1, r.2), s)
    else
      let (f, s) := s.fetchWord1 c k hdr i
      let w := match f with
        | .ok bs => some (BitVec.ofNat 96 (ofBytes bs))
        | .wait | .fault _ | .bad _ => none
      let fails := match f.fail with
        | some e => mapPut fails i e
        | none => fails
      let (r, s) := s.fetchWords c k hdr fails t (i + 1)
      ((w :: r.1, r.2), s)

/-- A stream of the core is in a section, or waits at its header. -/
def Core.holdsSec (k : Core) (e : ISec) : Bool :=
  k.seqs.toList.any fun x => [x.a, x.c].any fun y =>
    (decide (y.st = .run) || decide (y.st = .parked)) && decide (y.hdr = e.hdr) && decide (k.ctxId = some e.ctx)

/-- Bytes of a section in instruction memory. -/
def ISec.size (e : ISec) : Nat := 8 + 12 * bitsOf e.head.toNat 55 44

/-- Evict the least recently entered sections that no stream holds while more than 512 KiB are kept (R289). -/
def Core.evict (k : Core) : Nat → List ISec → List ISec
  | 0, es => es
  | n + 1, es =>
    if (es.map ISec.size).foldl (· + ·) 0 ≤ 2 ^ 19 then es
    else
      match es.reverse.find? fun e => !k.holdsSec e with
      | some e => k.evict n (es.filter fun d => !decide (d.ctx = e.ctx ∧ d.hdr = e.hdr))
      | none => es

/-- Keep a section, in front of the others. -/
def Core.putSec (k : Core) (e : ISec) : Core :=
  let es := e :: k.imem.filter fun d => !decide (d.ctx = e.ctx ∧ d.hdr = e.hdr)
  { k with imem := k.evict es.length es }

/-- How a failed fetch strikes the stream that has reached what failed, once its older words have retired (R80, R208). -/
def State.fetchStrike (s : State) (c : CoreId) (q : SeqId) (st : Strm) (r : Fetch) : State :=
  if !(s.seq c q).streamIdle st then s
  else
    match r with
    | .fault f => s.parkStream c q st f
    | .bad a => s.trapStream c q st ⟨10, 1, 0, BitVec.ofNat 64 a⟩ 0
    | .ok _ | .wait => s

/-- A stream restored inside a section learns the section's header again (R250 step 5). -/
def Stream.refetch (y : Stream) (head : Word) : Stream :=
  if y.word.isSome then
    let sec : BitVec 12 := BitVec.ofNat 12 (bitsOf head.toNat 43 32)
    { y with
      len := bitsOf head.toNat 55 44
      sec := sec
      last := bitOf head.toNat 17
      insts := y.insts.map fun i => if i.left then i else { i with sec := sec } }
  else y

/-- Keep the words that have been fetched of a section, and the failures that are held. -/
def Core.putWords (x : Core) (k : CtxId) (hdr : Word) (r : List (Option IWord) × List (Nat × FetchFail)) : Core :=
  { x with imem := x.imem.map fun d => if d.ctx = k ∧ d.hdr = hdr then { d with words := r.1, fails := r.2 } else d }

/-- The failure of a held word strikes the stream that has reached it, and is held no longer: a stream that is resumed there fetches the
word afresh (R208, R211). -/
def State.heldStrike (s : State) (c : CoreId) (q : SeqId) (st : Strm) (k : CtxId) (hdr : Word) (w : Nat) (e : FetchFail) : State :=
  if !(s.seq c q).streamIdle st then s
  else
    (s.modCore c fun x => { x with imem := x.imem.map fun d =>
      if d.ctx = k ∧ d.hdr = hdr then { d with fails := mapDel d.fails w } else d }).fetchStrike c q st
        (match e with | .fault f => .fault f | .bad a => .bad a)

/-- The overlay loader fetches the section a stream has reached, as far as it can; a stream that stands at a header or a word that cannot be
fetched is struck (R208, R289). -/
def State.fetchSection (s : State) (c : CoreId) (q : SeqId) (st : Strm) (k : CtxId) : State :=
  let y := s.strm c q st
  match s.curSec c y with
  | none =>
    match s.fetch c k y.hdr.toNat 8 with
    | (.ok bs, s) =>
      let head : BitVec 64 := BitVec.ofNat 64 (ofBytes bs)
      let (r, s) := s.fetchWords c k y.hdr.toNat [] (List.replicate (bitsOf head.toNat 55 44) none) 0
      (s.modCore c (·.putSec ⟨k, y.hdr, head, r.1, r.2⟩)).modStrm c q st (·.refetch head)
    | (r, s) => s.fetchStrike c q st r
  | some e =>
    let s := s.modStrm c q st (·.refetch e.head)
    if e.words.all (·.isSome) then s
    else
      let (r, s) := s.fetchWords c k y.hdr.toNat e.fails e.words 0
      let s := s.modCore c (·.putWords k y.hdr r)
      match y.word.bind (mapGet r.2), y.word with
      | some f, some w => s.heldStrike c q st k y.hdr w f
      | _, _ => s

/-- The stream that an agent number names (R248). -/
def agentStrm (n : Nat) : SeqId × Strm := (Fin.ofNat 4 n, if n < 4 then .a else .c)

/-- Every word of a section is there, or known to fail. -/
def ISec.whole (e : ISec) : Bool := e.words.zipIdx.all fun p => p.1.isSome || (mapGet e.fails p.2).isSome

/-- A restored stream, by its logical core and its number, still waits for its section (R250 step 5). -/
def State.awaitsSec (s : State) (k : CtxId) (p : Nat × Nat) : Bool :=
  (s.coresOf k).any fun c =>
    let y := s.strm c (agentStrm p.2).1 (agentStrm p.2).2
    decide ((s.core c).lcore = p.1) && decide (y.st = .run) && decide (y.hdr.toNat % 4 = 0) && !(s.curSec c y).any ISec.whole

/-- Once the sections of a context's restored streams are there, its units restart, all at the same tick (R250 steps 5 and 6). -/
def State.wake (s : State) (k : CtxId) : State :=
  match s.ctx? k with
  | none => s
  | some x =>
    if x.waking = 0 then s
    else
      let left := x.toFetch.filter (s.awaitsSec k)
      s.modCtx k fun y => { y with toFetch := left, waking := if left.isEmpty then 0 else y.waking }

/-- SECTION_FETCH: the overlay loader goes on with the section of a stream; the last that a restore waits for ends it (R208, R250, R289). -/
def execSectionFetch (c : CoreId) (q : SeqId) (st : Strm) (s : State) : Out :=
  let s := { s with cur := ⟨c, q, st, dieOfCore c, s.cur.ctx⟩ }
  let x := s.seq c q
  let y := x.strm st
  match (s.core c).ctxId with
  | none => .next s
  | some k =>
    if !(decide (x.st = .load) || decide (x.st = .run)) || decide (y.st ≠ .run) || !s.mayFetch c ||
        decide (y.hdr.toNat % 4 ≠ 0) then .next (s.wake k)
    else .next ((s.fetchSection c q st k).wake k)

/-! ## Sections (R67, R69, R73) -/

/-- Cause of an illegal header (R67); 0 for none. -/
def headCause (h : Word) (st : Strm) : Nat :=
  if bitsOf h.toNat 63 56 ≠ 0xC9 then 1
  else if bitsOf h.toNat 55 44 = 0 then 2
  else if bitsOf h.toNat 19 18 ≠ (match st with | .a => 0 | .c => 1) then 3
  else if bitsOf h.toNat 16 0 ≠ 0 then 4
  else 0

/-- DEP allows the entry (R69). -/
def depMet (dep : Nat) (sib : Stream) : Bool :=
  decide (dep = 0xFFF) || decide (sib.st = .ended) || (sib.rv && decide ((sib.rsec.toNat + 4096 - dep) % 4096 < 2048))

/-- SLIP allows the entry (R73): A's NE less C's NR, which is below zero while the C-stream is ahead. -/
def slipMet (x : Seq) (st : Strm) : Bool :=
  decide (st = .c) || decide (x.c.st = .ended) || decide ((x.a.ne - x.c.nr).toInt < Int.ofNat x.slip.toNat)

/-- A stream's own write of SLIP is held: it governs the next header of the A-stream, which waits for it (R72). -/
def Seq.slipHeld (x : Seq) (st : Strm) : Bool :=
  decide (st = .a) && x.held.any fun h => decide (h.strm = .a) && h.effs.any fun
    | .mts spr _ => decide (spr = 0x001)
    | _ => false

/-- What a Saddlebag shows for a header that is not aligned: the 8 bytes there, 0 where they are not fetched; none while the fetch has to
wait (assumption log 36). -/
def State.oddHead (s : State) (c : CoreId) (k : CtxId) (hdr : Word) : Option Word × State :=
  match s.fetch c k hdr.toNat 8 with
  | (.ok bs, s) => (some (BitVec.ofNat 64 (ofBytes bs)), s)
  | (.wait, s) => (none, s)
  | (.fault _, s) | (.bad _, s) => (some 0, s)

/-- The trap of a stream at a header that is not aligned (R213). -/
def State.oddTrap (s : State) (c : CoreId) (q : SeqId) (st : Strm) : State :=
  match (s.core c).ctxId with
  | none => s
  | some k =>
    match ({ s with cur := ⟨c, q, st, dieOfCore c, s.cur.ctx⟩ } : State).oddHead c k (s.strm c q st).hdr with
    | (some h, s) => s.trapStream c q st ⟨2, 5, h, 0⟩ 0
    | (none, s) => s

/-- Enter the section whose header a stream stands at. -/
def Stream.enter (y : Stream) (h : Word) : Stream :=
  let sec : BitVec 12 := BitVec.ofNat 12 (bitsOf h.toNat 43 32)
  { y with
    len := bitsOf h.toNat 55 44
    sec := sec
    last := bitOf h.toNat 17
    word := some 0
    stall := none
    ne := y.ne + 1
    insts := y.insts ++ [⟨y.ne + 1, sec, false⟩] }

/-- SECTION_ENTER: a stream at a resident header checks it and enters the section once DEP and SLIP allow (R67, R69, R73). A cycle in
which both hold it is one of a slip stall (R73). -/
def execSectionEnter (c : CoreId) (q : SeqId) (st : Strm) (s : State) : Out :=
  let x := s.seq c q
  let y := x.strm st
  if decide (x.st ≠ .run) || decide (y.st ≠ .run) || y.word.isSome || !s.mayIssue c then .next s
  else if y.hdr.toNat % 4 ≠ 0 then .next (s.oddTrap c q st)
  else
    match s.curSec c y with
    | none => .next (s.stallStream c q st 0 7)
    | some e =>
      if headCause e.head st ≠ 0 then .next (s.trapStream c q st ⟨2, headCause e.head st, e.head, 0⟩ 0)
      else if x.slipHeld st then .next (s.stallStream c q st 0 0)
      else if !slipMet x st then .next (s.stallStream c q st 0 3)
      else if !depMet (bitsOf e.head.toNat 31 20) (x.strm st.sibling) then .next (s.stallStream c q st 0 2)
      else
        let k := ((s.core c).stallEnd y 0).putSec e
        let x := k.seq q
        .next (s.setCore c (k.setSeq q (x.setStrm st (y.enter e.head))))

/-! ## Groups (R62, R63, R71) -/

/-- The chain of counters of a record has a cancelled one, as a pop reads it (R230): a failing read ends the chain; none while
a line cannot be read yet. -/
def State.popChain (s : State) (d : DieId) (k : CtxId) : Nat → Word → Option Bool
  | 0, _ => some false
  | n + 1, c =>
    if c = 0 then some false
    else
      match s.engGet d k (c.toNat / 64 * 64) 64 with
      | .wait => none
      | .fail => some false
      | .ok bs => if (wordAt bs 0).testBit 33 then some true else s.popChain d k n (BitVec.ofNat 64 (wordAt bs 0x20))

/-- A stream as a group enters LOAD (R63). -/
def startStream (r : Rec) (absent : Bool) (hdr : Word) : Stream :=
  { Stream.reset with
    st := if absent then .ended else .run
    hdr := hdr
    x := ((Stream.reset.x.set 1 r.w[7]).set 2 r.w[2]).set 3 r.addr }

/-- The state of a sequencer as a group enters LOAD (R63, R64). -/
def Seq.load (x : Seq) (r : Rec) (popg : Nat) : Seq :=
  let noa := r.flag 0
  let noc := r.flag 1
  { x with
    st := if noa && noc then .run else .load
    rcd := r
    popg := popg
    deadln := r.deadline
    grpid := r.addr
    frame := r.w[2]
    flags := 0
    flagsHist := [0]
    slip := 8
    dq := Vector.replicate 8 []
    bq := Vector.replicate 4 []
    fq := []
    alt := none
    held := []
    wins := []
    resident := r.flag 2
    a := startStream r noa r.w[0]
    c := startStream r noc r.w[1] }

/-- A boot has started on a core: its sequencers stay idle until the loader has placed the record (R288). -/
def State.booting (s : State) (c : CoreId) : Bool :=
  match (s.core c).bind with
  | none => false
  | some b =>
    match s.slice? b.1 with
    | some x => (((s.fn ⟨x.port, Fin.ofNat 33 (b.1.val + 1)⟩).boots.filter fun y => decide (y.1 = b.2)).any fun y => y.2.start.isSome)
    | none => false

/-- The context pops records on a core: it is not frozen, not held, no stop has told its pops to cease (R214, R237), and no boot has
started there (R288). -/
def State.mayPop (s : State) (c : CoreId) : Bool :=
  s.mayIssue c && s.railReady c && !s.booting c &&
    match (s.core c).ctxId with
    | none => false
    | some k =>
      match s.ctx? k with
      | none => false
      | some x => !x.hold && x.stops.all fun p => decide (s.girth < p.noPop) || !p.cores.getLsbD (s.core c).lcore

/-- The highest priority whose list is not empty. -/
def Die.topList (x : Die) (k : CtxId) : Option Nat := [7, 6, 5, 4, 3, 2, 1, 0].find? fun p => !(x.readyList k p).isEmpty

/-- Credit a record's level (R228); a LAUNCH of 0 credits nothing. -/
def State.creditRec (s : State) (d : DieId) (k : CtxId) (r : Rec) (st : CStat) (resid : Bool) : State :=
  if r.launch = 0 then s else s.addJob d k (.step r.launch st resid false) none

/-- GROUP_POP: an idle sequencer takes the head record of the highest list, discards it when its chain is cancelled or its
deadline has passed, else enters LOAD (R62, R63, R230). -/
def execGroupPop (c : CoreId) (q : SeqId) (s : State) : Out :=
  let d := dieOfCore c
  match (s.core c).ctxId with
  | none => .next s
  | some k =>
    if decide ((s.seq c q).st ≠ .idle) || !s.mayPop c then .next s
    else
      match (s.die d).topList k with
      | none => .next s
      | some p =>
        match (s.die d).readyList k p with
        | [] => .next s
        | r :: t =>
          match s.popChain d k 4 r.launch with
          | none => .next s
          | some canc =>
            let s := s.modDie d (·.setReady k p t)
            let g := (s.ctxGirth k).toNat
            if canc then .next (s.creditRec d k r .canc false)
            else if r.deadline ≠ 0 ∧ r.deadline.toNat ≤ g then .next (s.creditRec d k r .late false)
            else .next (s.modSeq c q (·.load r g))

/-- GROUP_START: both first headers are resident and valid (R61, R62, R67). -/
def execGroupStart (c : CoreId) (q : SeqId) (s : State) : Out :=
  let x := s.seq c q
  if decide (x.st ≠ .load) || !s.mayIssue c then .next s
  else
    let bad (st : Strm) : Option State :=
      let y := x.strm st
      if y.st ≠ .run then none
      else if y.hdr.toNat % 4 ≠ 0 then some (s.oddTrap c q st)
      else
        match s.curSec c y with
        | some e =>
          if headCause e.head st ≠ 0 then some (s.trapStream c q st ⟨2, headCause e.head st, e.head, 0⟩ 0) else none
        | none => none
    let ready (st : Strm) : Bool :=
      let y := x.strm st
      decide (y.st = .ended) || (decide (y.st = .run) && (s.curSec c y).isSome)
    match bad .a with
    | some t => .next t
    | none =>
      match bad .c with
      | some t => .next t
      | none => if ready .a && ready .c then .next (s.modSeq c q fun x => { x with st := .run }) else .next s

/-- Entries are left in a queue of the sequencer (R71). -/
def Seq.residue (x : Seq) : Bool :=
  x.dq.toList.any (fun l => !l.isEmpty) || x.bq.toList.any (fun l => !l.isEmpty) || !x.fq.isEmpty

/-- A sequencer without a group; X, V and K keep their values (R63). -/
def Seq.idle (x : Seq) : Seq :=
  { Seq.reset with
    a := { Stream.reset with x := x.a.x }, c := { Stream.reset with x := x.c.x }
    v := x.v, k := x.k, bubble := x.bubble, lastIssue := x.lastIssue, lastVec := x.lastVec, lanes := x.lanes }

/-- All work of a group has drained (R71, R197). -/
def State.groupDone (s : State) (c : CoreId) (q : SeqId) : Bool :=
  let x := s.seq c q
  decide (x.a.st = .ended) && decide (x.c.st = .ended) && s.seqDrained c q && x.a.loads.isEmpty && x.c.loads.isEmpty &&
    s.allDone (x.a.deps ++ x.c.deps) && !s.fabOpen (x.a.fdeps ++ x.c.fdeps)

/-- GROUP_RETIRE: the group's level is credited through the completion engine of its die and the sequencer is idle (R62, R71,
R228). -/
def execGroupRetire (c : CoreId) (q : SeqId) (s : State) : Out :=
  let x := s.seq c q
  match (s.core c).ctxId with
  | none => .next s
  | some k =>
    if decide (x.st ≠ .run) || !s.mayIssue c || !s.groupDone c q then .next s
    else
      let s := s.creditRec (dieOfCore c) k x.rcd .ok x.residue
      .next (s.modCore c fun y => (y.dropCinch q).setSeq q x.idle)

end Sys2Proof.Machine
end

