-- ==== Sys2Proof/Machine/Stops.lean ====
section
/-!
DEFINITION. Stopping a context: Bridle's choice of an action (13_preemption R236, R237), the stop (R238, R240), the discard of
work by a kill or a freeze (R197, R214, R245), and quiescence (R239).
-/
namespace Sys2Proof.Machine

/-! ## The state a core has at context creation (R245) -/

/-- A value brought to its floor or its ceiling (R96). -/
def Core.freshPace (k : Core) : Vector Nat 4 := k.paceLim

/-- The objects of the context leave a core; what belongs to the physical core stays. -/
def Core.fresh (k : Core) : Core :=
  { k with
    lease := min 16 k.leaseLim
    pace := k.freshPace
    mons := Core.reset.mons
    tiles := []
    spad := []
    rings := Core.reset.rings
    acs := Core.reset.acs
    bars := Core.reset.bars
    tags := []
    tagPtr := []
    cinch := Core.reset.cinch
    cinchN := 0
    cinchH := 3
    cinchOthers := none
    mheld := none
    front := none
    shadow := none
    cqs := Core.reset.cqs
    qfences := []
    imem := match k.ctxId with
      | some n => k.imem.filter fun e => decide (e.ctx ≠ n)
      | none => k.imem
    tlb := match k.ctxId with
      | some n => k.tlb.filter fun e => decide (e.ctx ≠ n)
      | none => k.tlb
    seqs := k.seqs.map fun (x : Seq) => { Seq.reset with bubble := x.bubble, lastIssue := x.lastIssue, lastVec := x.lastVec, lanes := x.lanes } }

/-- No context is on the core any more. -/
def Core.leave (k : Core) : Core := { k.fresh with ctx := none }

/-- Cores of a context whose logical numbers a set names, in logical order. -/
def State.coresIn (s : State) (k : CtxId) (set : BitVec 64) : List CoreId :=
  (s.coresOf k).filter fun c => set.getLsbD (s.core c).lcore

/-- The logical numbers of some cores as a set. -/
def State.lcoresOf (s : State) (cs : List CoreId) : BitVec 64 := cs.foldl (fun b c => b ||| BitVec.ofNat 64 (2 ^ (s.core c).lcore)) 0

/-- The logical cores of a context as a set. -/
def State.lcoreSet (s : State) (k : CtxId) : BitVec 64 := s.lcoresOf (s.coresOf k)

/-- A restore goes on without some logical cores that leave the context (R250). -/
def Ctx.unwake (x : Ctx) (ls : BitVec 64) : Ctx :=
  let left := x.toFetch.filter fun p => !ls.getLsbD p.1
  { x with toFetch := left, waking := if left.isEmpty then 0 else x.waking &&& ~~~ls }

/-! ## Requesting a stop (R238, R240) -/

/-- A stop without the cores of a set. -/
def Stop.without (p : Stop) (cs : BitVec 64) : Stop := { p with cores := p.cores &&& ~~~cs }

/-- A stop takes REASON 3 over from another, and with it freeze policy (R275). -/
def Stop.quar (p : Stop) (q : Stop) : Stop := if q.reason = 3 then { p with reason := 3, freeze := true } else p

/-- A stop meets a pending one: for the cores that both name the earlier count governs, a later request merges with the pending stop,
an earlier one replaces it, and REASON 3 is kept (R240, R275). Answers the new stop for the cores left to it and the pending one. -/
def mergeStop (q p : Stop) : Stop × Stop :=
  if q.cores &&& p.cores = 0 then (q, p)
  else if p.s ≤ q.s ∨ p.halted then (q.without p.cores, { p.quar q with noPop := min p.noPop q.noPop })
  else (q.quar p, p.without q.cores)

/-- Add a stop to the pending ones, which name disjoint cores. -/
def addStop (q : Stop) : List Stop → List Stop
  | [] => if q.cores = 0 then [] else [q]
  | p :: t =>
    let (q, p) := mergeStop q p
    if p.cores = 0 then addStop q t else p :: addStop q t

/-- Bridle names a stop of some logical cores of a context; a context that freezes or holds no such core is not stopped. -/
def State.requestStop (s : State) (k : CtxId) (p : Stop) : State :=
  if (s.coresIn k p.cores).isEmpty then s
  else s.modCtx k fun x => if x.freeze.isSome then x else { x with stops := addStop p x.stops }

/-- A checkpoint of a whole context at a count. -/
def State.checkpoint (s : State) (k : CtxId) (at_ reason : Nat) : State :=
  s.requestStop k ⟨at_, true, reason, .checkpoint, s.lcoreSet k, at_, false⟩

/-! ## The decision (R236, R237) -/

/-- Sequencers of a context that hold a group, with their core. -/
def State.groupsOf (s : State) (k : CtxId) : List Seq :=
  (s.coresOf k).flatMap fun c => (s.core c).seqs.toList.filter fun x => decide (x.st ≠ .idle)

/-- Beats left in the slots of a core. -/
def Core.beatsLeft (k : Core) : Nat :=
  let left (m : Option MCmd) : Nat := match m with
    | some m => m.beats - m.c
    | none => 0
  left k.front + left k.shadow

/-- The inputs of the rule: remaining time, checkpoint cost, tile time, slack, tokens. -/
structure Choice where
  (rem c tile : Nat) (slack : Int) (vtok : Nat)
  deriving DecidableEq, Repr

def State.choice (s : State) (k : CtxId) (cores : BitVec 64) (deadline : Word) (estimate : Nat) : Choice :=
  let t := (s.ctxGirth k).toNat
  let gs := s.groupsOf k
  let b := 0x1000 + (s.coresIn k cores).length * 0x598000
  { rem := (gs.map fun g => g.rcd.estimate - (t - g.popg)).foldl max 0
    c := 2 * ceilDiv b 2048 + 8192
    tile := ((s.coresOf k).map fun c => 2 * (s.core c).beatsLeft).foldl max 0
    slack := if deadline = 0 then 2 ^ 63 else Int.ofNat deadline.toNat - Int.ofNat t - Int.ofNat estimate
    vtok := (gs.map fun g => g.rcd.tokens).foldl max 0 }

/-- The action and the policy (R236). -/
def Choice.act (x : Choice) (tokens : Nat) : StopAct × Bool :=
  if x.rem ≤ x.c ∧ Int.ofNat x.rem ≤ x.slack then (.drain, false)
  else if Int.ofNat (x.c + x.tile) ≤ x.slack then (.checkpoint, false)
  else if Int.ofNat x.c ≤ x.slack then (.checkpoint, true)
  else if x.vtok < tokens then (.kill, true)
  else (.checkpoint, true)

/-- PREEMPT_DECISION: a waiting record of higher priority than every running group of a context needs some of its cores
(R236, R237). -/
def execPreemptDecision (k : CtxId) (cores : BitVec 64) (deadline : BitVec 64) (estimate : BitVec 32) (tokens prio : BitVec 8)
    (s : State) : Out :=
  if !(s.groupsOf k).all fun g => decide (g.rcd.prio < prio.toNat) then .next s
  else
    let x := s.choice k cores deadline estimate.toNat
    let a := x.act tokens.toNat
    let t := s.girth
    match a.1 with
    | .drain => .next (s.requestStop k ⟨t + x.rem + 256, false, 1, .drain, cores, t + 256, false⟩)
    | act => .next (s.requestStop k ⟨t + 256, a.2, 0, act, cores, t + 256, false⟩)

/-! ## Discarding work (R197, R214, R245) -/

/-- A freeze discards a feed write that has not left: the index it raises goes back with it (assumption log 72). -/
def State.dropFeed (s : State) (w : WriteRec) : State :=
  match w.old with
  | .feed n push =>
    match s.feed w.ctx n with
    | some f => s.setFeed w.ctx n
        (if push then { f with fw := (f.fw + 2 ^ 64 - 1) % 2 ^ 64 } else { f with fr := (f.fr + 2 ^ 64 - 1) % 2 ^ 64 })
    | none => s
  | _ => s

/-- Writes that no engine made and of which no part has left its die are discarded whole; those that have left bring nothing back;
requests to the host and to peers are forgotten. -/
def State.discardWrites (s : State) (k : CtxId) (cs : List CoreId) : State :=
  let mine (w : WriteRec) : Bool := decide (w.ctx = k) && cs.contains w.core && !w.eng
  let gone (w : WriteRec) : Bool := mine w && !w.torn
  let s := allDies.foldl (fun s d => ((s.die d).pend.filter gone).foldl State.dropFeed s) s
  { s with
    dies := s.dies.map fun (x : Die) => { x with pend := x.pend.filter fun w => !gone w }
    transit := s.transit.map fun (w : WriteRec) => if mine w then { w with old := .drop } else w
    fabOuts := s.fabOuts.filter fun (r : FabOut) => !(decide (r.ctx = k) && cs.contains r.core)
    hostReads := s.hostReads.filter fun (r : HostRead) => !cs.contains r.core }

/-- Every record that runs on a core is credited with a status (R228). -/
def State.creditGroups (s : State) (k : CtxId) (c : CoreId) (st : CStat) : List Seq → State
  | [] => s
  | x :: t => (if x.st = .idle then s else s.creditRec (dieOfCore c) k x.rcd st false).creditGroups k c st t

/-- A context's die barriers on a die are at their creation values. -/
def State.clearBars (s : State) (k : CtxId) (d : DieId) : State :=
  s.modDie d fun x => { x with bars := x.bars.filter fun p => !decide (p.1 / 16 = k.idx) }

/-- Discard what a context has on some cores: credits, writes, and the state of the cores, by `f`. -/
def State.discard (s : State) (k : CtxId) (cs : List CoreId) (st : CStat) (f : Core → Core) : State :=
  let s := cs.foldl (fun s c => s.creditGroups k c st (s.core c).seqs.toList) s
  let s := s.discardWrites k cs
  cs.foldl (fun s c => s.modCore c f) s

/-- A quarantined core at Q belongs to no slice (R274). -/
def Core.quarantined (k : Core) : Core := { k with bind := none, escal := .quar, guar := true, qtag := none }

/-- What goes with the logical core on a physical one (R26). -/
def Core.asLogical (k : Core) (c : CoreId) : LCore := ⟨dieOfCore c, k.mclass, k.margin, k.leaseLim, k.paceLim⟩

/-- How many calendar positions a core owns on each channel (R175). -/
def State.positionCounts (s : State) (c : CoreId) : List (Nat × Nat) :=
  ((List.range 256).map fun n => (n, ((s.chan n).positions c).length)).filter fun p => decide (p.2 ≠ 0)

/-- The calendar positions of a core are no core's (R175). -/
def State.freePositions (s : State) (c : CoreId) : State :=
  (List.range 256).foldl (fun s n =>
    match (s.chan n).positions c with
    | [] => s
    | ps => s.setChan n (ps.foldl (fun x p => x.setOwner p 127) (s.chan n))) s

/-- A core leaves service: it belongs to no slice, and Bridle keeps what belongs to its logical core, for a relocation (R25, R26, R255, R274). -/
def State.quarantine (s : State) (c : CoreId) : State :=
  let k := s.core c
  let s := match k.bind with
    | some (n, l) => (s.modSlice n fun x => { x with kept := (l, k.asLogical c, s.positionCounts c) :: x.kept }).freePositions c
    | none => s
  s.modCore c Core.quarantined

/-- No context is on a core any more, and a core that waits for its quarantine leaves service with the stop (R274). -/
def State.offStop (s : State) (c : CoreId) : State :=
  let s := s.modCore c Core.leave
  if (s.core c).escal = .qpend then s.quarantine c else s

/-- Dies of a list of cores, as a set. -/
def State.diesOf (cs : List CoreId) : BitVec 4 := cs.foldl (fun b c => b ||| BitVec.ofNat 4 (2 ^ (dieOfCore c).val)) 0

/-- An empty Keeper log in Bridle's memory (R248). -/
def State.newKlog (s : State) (pa : Nat) : State := s.logPut pa (toBytes 64 0)

/-- Where Bridle begins a Keeper log for a stop that no save follows: two frames of its own that hold nothing, are no root of stage 2 and
hold no other log; a place outside the device memory when it has none (DESIGN CHOICE, assumption log 64). -/
def State.bridleLog (s : State) : Nat :=
  let own := (s.alloc.filter fun p => decide (allocState p.2 = 1) && decide (allocOwner p.2 = 32)).map (·.1)
  let logs := s.allCtxs.filterMap fun k => (s.ctx? k).map fun x => frameOf x.klogPa
  let roots := s.slices.toList.filterMap fun x => x.map fun y => frameOf y.s2root
  let clear (f : Nat) : Bool := !roots.contains f && (tblSlice (s.die 0).view (f * 65536) ((f + 1) * 65536)).isEmpty
  match own.find? fun f => own.contains (f + 1) && clear f && clear (f + 1) && logs.all fun l => decide (l + 1 < f) || decide (f + 1 < l) with
  | some f => f * 65536
  | none => 2 ^ 39

/-- The die barriers of a context on some dies are switched out; the first of them begin a Keeper log (R248). -/
def State.switchOut (s : State) (k : CtxId) (out : BitVec 4) : State :=
  match s.ctx? k with
  | none => s
  | some x =>
    let pa := s.bridleLog
    let s := if x.switched = 0 ∧ out ≠ 0 then (s.newKlog pa).modCtx k fun y => { y with klogPa := pa } else s
    s.modCtx k fun y => { y with switched := y.switched ||| out }

/-- A kill takes a context off some cores (R245); its die barriers on a die left with none of its cores are switched out (R238,
R248). -/
def State.kill (s : State) (k : CtxId) (cs : List CoreId) : State :=
  let ls := s.lcoresOf cs
  let s := cs.foldl State.offStop (s.discard k cs .killed Core.leave)
  (s.modCtx k (·.unwake ls)).switchOut k (State.diesOf cs &&& ~~~State.diesOf (s.coresOf k))

/-- One stop whose count has come: every unit that it names halts, and leaves the Cinch (R125); a kill discards at once (R237, R238,
R245). Answers the stop that remains. -/
def State.haltStop (s : State) (k : CtxId) (p : Stop) : Option Stop × State :=
  let cs := s.coresIn k p.cores
  if s.girth < p.s ∨ p.halted then (some p, s)
  else if p.act = .kill then (none, s.kill k cs)
  else (some { p with halted := true }, cs.foldl (fun s c => s.modCore c fun y =>
    { (allSeqs.foldl (fun z q => z.dropCinch q) y) with seqs := (allSeqs.foldl (fun z q => z.dropCinch q) y).seqs.map Seq.dropPorts }) s)

def State.haltStops (s : State) (k : CtxId) : List Stop → List Stop × State
  | [] => ([], s)
  | p :: t =>
    let (r, s) := s.haltStop k p
    let (rs, s) := s.haltStops k t
    (r.toList ++ rs, s)

/-- STOP: at a stop count every unit that the stop names halts. -/
def execStop (k : CtxId) (s : State) : Out :=
  match s.ctx? k with
  | none => .next s
  | some x =>
    let (ps, s) := s.haltStops k x.stops
    .next (s.modCtx k fun y => { y with stops := ps })

/-! ## Quiescence (R239) -/

/-- A stream has nothing outstanding. -/
def State.strmQuiet (s : State) (y : Stream) : Bool := y.loads.isEmpty && s.allDone y.deps && !s.fabOpen y.fdeps

/-- A core has come to rest: words retired, held effects left, units performed, and under tile policy its slots empty. -/
def State.coreQuiet (s : State) (c : CoreId) (tile : Bool) : Bool :=
  let k := s.core c
  k.seqs.toList.all (fun x => x.held.isEmpty && s.strmQuiet x.a && s.strmQuiet x.c) &&
    k.cqs.toList.all (fun x => x.cmds.all fun m => !s.copyOut m.outs) &&
    (!tile || (k.front.isNone && k.shadow.isNone))

/-- No write of a context from some cores is in flight. -/
def State.writesQuiet (s : State) (k : CtxId) (cs : List CoreId) : Bool :=
  let mine (w : WriteRec) : Bool := decide (w.ctx = k) && cs.contains w.core && !w.eng
  !(s.transit.any mine) && allDies.all fun d => !(s.die d).pend.any mine

/-- Every fault of a core has its number. -/
def Core.numbered (k : Core) : Bool := k.descs.all fun d => decide (d.fid ≠ 0)

/-- Quiescence of a stop that has halted its units. -/
def State.quiescent (s : State) (k : CtxId) (p : Stop) : Bool :=
  let cs := s.coresIn k p.cores
  p.halted && cs.all (fun c => s.coreQuiet c (!p.freeze) && (s.core c).numbered) && s.writesQuiet k cs

end Sys2Proof.Machine
end

