-- ==== Sys2Proof/Machine/Save.lean ====
section
/-!
DEFINITION. The save area of a stopped context, byte for byte (13_preemption R241 to R246, R248), and the save at quiescence (R239).
-/
namespace Sys2Proof.Machine

/-- A part of a save area: offset and bytes. Bytes that no part holds are 0. -/
abbrev Part := Nat × List Byte

def shiftParts (d : Nat) (ps : List Part) : List Part := ps.map fun p => (p.1 + d, p.2)

/-- A word of 8 bytes at an offset. -/
def w8 (off v : Nat) : Part := (off, toBytes 8 v)

def coreArea : Nat := 0x598000
def saveSize (l : Nat) : Nat := 0x1000 + l * coreArea

/-! ## Streams and sequencers (R216, R243) -/

/-- STATE of a stream (R216). -/
def Stream.code (y : Stream) : Nat :=
  match y.st with
  | .ended => 0
  | .run => if y.stall.isSome then 2 else 1
  | .parked => 3
  | .trapped => 4
  | .none => 5

/-- Fault number of a parked stream. -/
def Stream.fid (y : Stream) : Nat :=
  match y.st, y.park with
  | .parked, some p => p.fid.toNat
  | _, _ => 0

def ArrRec.word : ArrRec → Nat
  | .empty => 0
  | .gen g => g.toNat + 2 ^ 32
  | .pending i => 2 ^ 33 + i * 2 ^ 40

def Stream.parts (y : Stream) : List Part :=
  (y.x.toList.zipIdx.map fun p => w8 (8 * p.2) p.1.toNat) ++
  [w8 0x200 y.hdr.toNat,
   w8 0x208 (y.off % 4096 + y.code * 2 ^ 12 + b2n y.rv * 2 ^ 16 + y.rsec.toNat * 2 ^ 32 + y.pwdist.toNat % 2 ^ 16 * 2 ^ 48),
   w8 0x210 (y.ne.toNat + y.nr.toNat * 2 ^ 32),
   w8 0x218 (y.pwdist.toNat / 2 ^ 16 + y.fid * 2 ^ 32)] ++
  (y.arr.toList.zipIdx.map fun p => w8 (0x220 + 8 * p.2) p.1.word)

/-- Values of a queue, oldest first; a place still reserved for a load counts as 0. -/
def qVals {α : Type} (d : α) (l : List (QEnt α)) : List α :=
  l.map fun
    | .val v => v
    | .rsv _ => d

/-- Byte n of a word is entry n of a list of counts. -/
def packBytes : List Nat → Nat
  | [] => 0
  | n :: t => n % 256 + 256 * packBytes t

/-- ALT: the stream that issues next when both are ready (R65). -/
def Seq.altBit (x : Seq) : Nat :=
  match x.alt with
  | some .c => 0
  | some .a => 1
  | none => 1

def Rec.parts (r : Rec) (off : Nat) : List Part := r.w.toList.zipIdx.map fun p => w8 (off + 8 * p.2) p.1.toNat

def Seq.parts (x : Seq) : List Part :=
  let res := decide (x.st ≠ .idle)
  (x.v.map fun p => (128 * p.1, toBytes 128 p.2.toNat)) ++
  (x.dq.toList.zipIdx.flatMap fun q => (qVals (0 : VWord) q.1).zipIdx.map fun p => (0x14000 + 0x800 * q.2 + 128 * p.2, toBytes 128 p.1.toNat)) ++
  (x.bq.toList.zipIdx.flatMap fun q => (qVals (0 : Word) q.1).zipIdx.map fun p => w8 (0x18000 + 0x80 * q.2 + 8 * p.2) p.1.toNat) ++
  ((qVals (0 : Word) x.fq).zipIdx.map fun p => w8 (0x18200 + 8 * p.2) p.1.toNat) ++
  ((x.k.toList.zipIdx.filter fun p => decide (p.2 ≠ 0)).map fun p => (0x18300 + 4 * p.2, toBytes 4 p.1.toNat)) ++
  [w8 0x18340 (x.flags.toNat + x.slip.toNat * 2 ^ 8 + x.altBit * 2 ^ 16),
   w8 0x18348 (packBytes (x.dq.toList.map List.length)),
   w8 0x18350 (packBytes (x.bq.toList.map List.length ++ [x.fq.length])),
   w8 0x18380 x.grpid.toNat,
   w8 0x18388 (b2n res)] ++
  (if res then x.rcd.parts 0x183C0 else []) ++
  shiftParts 0x18400 x.a.parts ++ shiftParts 0x18800 x.c.parts

/-! ## Matrix slots (R244) -/

def ShapeSeg.word (g : ShapeSeg) : Nat := g.lo + g.hi * 2 ^ 8 + g.klen * 2 ^ 16

/-- PC of a command: 0 for half a pass, else the pass count. -/
def MCmd.pc (m : MCmd) : Nat := if m.p2 = 1 then 0 else m.p2 / 2

def MCmd.parts (m : MCmd) (z : Bool) : List Part :=
  [w8 0 (1 + b2n z * 2 + m.seq.val * 2 ^ 2 + m.atd.val * 2 ^ 4 + m.pc * 2 ^ 12 + m.kb % 256 * 2 ^ 16 + m.kbe % 256 * 2 ^ 24 +
     m.c % 2 ^ 16 * 2 ^ 32 + m.beats % 2 ^ 16 * 2 ^ 48),
   w8 8 m.abase, w8 0x10 m.bbase, w8 0x18 m.fmt.toNat, w8 0x20 m.flags.toNat, w8 0x40 m.shape.length] ++
  (m.shape.zipIdx.map fun p => w8 (0x48 + 8 * p.2) p.1.word)

/-- The shadow command names the front command's tile (R131, R135). -/
def Core.sameTile (k : Core) : Bool :=
  match k.front, k.shadow with
  | some f, some m => decide (f.atd = m.atd)
  | _, _ => false

/-- The positions that a shadow command on the front command's tile has worked on. -/
def Core.writeWorked (k : Core) (m : MCmd) : Core :=
  { k with tiles := m.work.foldl (fun t p => tblSet 0 t (tileKey m.atd 0 0 + p.1) p.2) k.tiles }

/-- A command notes what its tile held at its acceptance, before a freeze writes over it (R140). -/
def Core.noteWas (k : Core) (m : MCmd) : MCmd :=
  if m.was.isEmpty then
    { m with was := allCells.filterMap fun p => (m.kbRow p.1).map fun _ => (64 * p.1 + p.2, k.tileGet m.atd p.1 p.2) }
  else m

/-- Freeze: each position of a covered row writes its value (R135). -/
def Core.freezeArray (k : Core) : Core :=
  let k := { k with front := k.front.map k.noteWas, shadow := k.shadow.map k.noteWas }
  let k := match k.front with
    | some f => k.writeResult f
    | none => k
  match k.shadow with
  | some m => if k.sameTile then k.writeWorked m else k.writeResult m
  | none => k

/-! ## Copy commands (R246) -/

def CopyOp.code : CopyOp → Nat
  | .copy | .str => 0x240
  | .acc => 0x241
  | .swap => 0x242
  | .cas => 0x243
  | .fill => 0x244
  | .plane => 0x245

def CopyCmd.parts (m : CopyCmd) (off : Nat) : List Part :=
  let sub := (if m.ac.isNone then 32 else 0) + (match m.op with | .str => 1 | _ => 0)
  let ac := match m.ac with | some a => a.val | none => 0
  [w8 off (m.op.code + sub * 2 ^ 10 + ac * 2 ^ 16 + m.aop.code * 2 ^ 22 + m.et.code * 2 ^ 26 + m.seq.val * 2 ^ 30),
   w8 (off + 8) m.dst.toNat, w8 (off + 0x10) m.src.toNat, w8 (off + 0x18) m.len.toNat, w8 (off + 0x20) m.desc.toNat,
   w8 (off + 0x28) m.offset,
   w8 (off + 0x30) (match m.park with | some p => 1 + p.fid.toNat * 2 ^ 32 | none => 0)]

/-! ## Rings, counters, barriers, tags, monitors -/

/-- SLOTBIT (R242). -/
def Ring.slotBits (r : Ring) : Nat :=
  let bit (i : BitVec 32) (v : SlotSt) (n : Nat) : Nat := if r.state (r.slotOf i) = v then n ||| 2 ^ r.slotOf i else n
  let a := (List.range (r.clm - r.pub).toNat).foldl (fun n i => bit (r.pub + BitVec.ofNat 32 i) .filled n) 0
  (List.range (r.tkn - r.fre).toNat).foldl (fun n i => bit (r.fre + BitVec.ofNat 32 i) .released n) a

def Ring.parts (r : Ring) (off : Nat) : List Part :=
  [w8 off (r.base + r.slotr * 2 ^ 15 + r.nslot * 2 ^ 24), w8 (off + 8) (r.fre.toNat + r.tkn.toNat * 2 ^ 32),
   w8 (off + 16) (r.pub.toNat + r.clm.toNat * 2 ^ 32), (off + 32, toBytes 32 r.slotBits)]

def ArrCnt.word (a : ArrCnt) : Nat := a.count.toNat + a.tgt.toNat * 2 ^ 32
def Barrier.word (b : Barrier) : Nat := b.n % 2 ^ 13 + b.arr % 2 ^ 12 * 2 ^ 16 + b.gen.toNat * 2 ^ 32

def Core.monParts (k : Core) : List Part :=
  k.mons.toList.zipIdx.flatMap fun p =>
    [w8 (0x580240 + 16 * p.2) p.1.sel.toNat, w8 (0x580248 + 16 * p.2) p.1.ix.toNat] ++
      p.1.items.toList.zipIdx.map fun i => w8 (0x580600 + 0x98 * p.2 + 8 * i.2) i.1

/-! ## One core (R242) -/

def Core.parts (k : Core) : List Part :=
  (k.spad.map fun p => (p.1, [p.2])) ++
  (k.tiles.map fun p => (0x400000 + 8 * p.1, toBytes 6 p.2.toNat)) ++
  (k.seqs.toList.zipIdx.flatMap fun p => shiftParts (0x500000 + 0x20000 * p.2) p.1.parts) ++
  (match k.front with | some m => shiftParts 0x580000 (m.parts false) | none => []) ++
  (match k.shadow with | some m => shiftParts 0x580100 (m.parts (k.sameTile && m.z)) | none => []) ++
  [w8 0x580200 k.lease] ++ (k.pace.toList.zipIdx.map fun p => w8 (0x580208 + 8 * p.2) p.1) ++
  [w8 0x580228 (packBytes (k.cqs.toList.map fun x => x.cmds.length))] ++
  k.monParts ++
  (k.acs.toList.zipIdx.map fun p => w8 (0x580300 + 8 * p.2) p.1.word) ++
  (k.bars.toList.zipIdx.map fun p => w8 (0x580500 + 8 * p.2) p.1.word) ++
  (k.rings.toList.zipIdx.flatMap fun p => p.1.parts (0x581000 + 64 * p.2)) ++
  (k.cqs.toList.zipIdx.flatMap fun q => q.1.cmds.zipIdx.flatMap fun p => p.1.parts (0x582000 + 0x800 * q.2 + 64 * p.2)) ++
  (k.tagPtr.map fun p => (0x586000 + p.1, toBytes 1 p.2)) ++
  (k.tags.flatMap fun p => [w8 (0x588000 + 16 * p.1) (p.2.key.toNat + 2 ^ 48), w8 (0x588008 + 16 * p.1) p.2.slot.toNat])

/-- What Bridle keeps of a core beside its record. -/
def Core.keep (k : Core) (c : CoreId) : SavedCore where
  lcore := k.lcore
  die := dieOfCore c
  prio := (k.seqs.toList.filter fun x => decide (x.st ≠ .idle)).foldl (fun n x => max n x.rcd.prio) 0
  popg := k.seqs.map Seq.popg
  parks := (allSeqs.flatMap fun q => [Strm.a, Strm.c].filterMap fun st =>
      (((k.seq q).strm st).park).map fun p => (strmCode q st, p)) ++
    ((List.finRange 8).filterMap fun (n : CqId) => (((k.cq n).head).bind (·.park)).map fun p => (8 + n.val, p))
  resumed := []
  fences := k.qfences
  marks := k.cqs.toList.zipIdx.flatMap fun q => q.1.items.zipIdx.filterMap fun p => match p.1 with
    | .fence id => some (q.2, p.2, id)
    | .cmd _ => none
  waits := allSeqs.flatMap fun q => [Strm.a, Strm.c].filterMap fun st =>
    (((k.seq q).strm st).qf).map fun id => (strmCode q st, id)
  slots := [k.front, k.shadow].map fun m => match m with
    | some m => (m.pins, m.was, m.seen)
    | none => ([], [], false)

/-! ## The save (R239, R241) -/

/-- Die barriers of a context as at Q. -/
def State.barParts (s : State) (k : CtxId) : List Part :=
  allDies.flatMap fun d => (List.finRange 16).map fun n =>
    w8 (0x100 + 0x80 * d.val + 8 * n.val) ((mapGet (s.die d).bars (dbKey k n)).getD Barrier.reset).word

/-- Entries of a table that are not 0: place and value. -/
def State.tableEntries (s : State) (pa : Nat) : List (Nat × Nat) :=
  ((tblSlice (s.die 0).view pa (pa + 32768)).foldl (fun t p => mapPut t (p.1 / 8) 0) []).map fun p =>
    (p.1, ofBytes (tblGetRun 0 (s.die 0).view (pa + 8 * p.1) 8))

/-- The stage-2 leaves of a slice: address and entry. -/
def State.s2Leaves (s : State) (x : Slice) : List (Nat × Nat) :=
  ((s.tableEntries x.s2root).filter fun e => plainEntryOk e.2).flatMap fun e0 =>
    let t1 := entryOa e0.2 * 65536
    ((s.tableEntries t1).filter fun e => plainEntryOk e.2).flatMap fun e1 =>
      let t2 := entryOa e1.2 * 65536
      ((s.tableEntries t2).filter fun e => leaf2Ok e.2).map fun e => (t2 + 8 * e.1, e.2)

/-- Lay parts over a cleared run of device memory, under a slice's key, in all four views: a cleared frame begins its fill in Bridle's
slots (R260), and the bursts of the run are carried in unassigned positions (R265). -/
def State.layArea (s : State) (key pa size : Nat) (ps : List Part) : State :=
  let f0 := frameOf pa
  let n := (pa + size - 1) / 65536 + 1 - f0
  let gen := (s.keyGen key).getD 0
  { s.bridleRun pa size with
    dies := s.dies.map fun (x : Die) =>
      { x with view := ps.foldl (fun m p => viewPut m (pa + p.1) (p.2.map some)) (tblClear x.view pa (pa + size)) }
    fills := (List.range n).foldl (fun t i =>
      if allocClr (s.allocGet (f0 + i)) && (mapGet t (f0 + i)).isNone then mapPut t (f0 + i) (0, 127) else t) s.fills
    lineGen := s.lineGen.filter fun p => !(decide (f0 * 512 ≤ p.1) && decide (p.1 < (f0 + n) * 512))
    frameGen := (List.range n).foldl (fun t i => mapPut t (f0 + i) gen) s.frameGen }

/-- Dies on which a context has a core that a stop does not name. -/
def State.diesLeft (s : State) (k : CtxId) (gone : List CoreId) : BitVec 4 :=
  ((s.coresOf k).filter fun c => !gone.contains c).foldl (fun b c => b ||| BitVec.ofNat 4 (2 ^ (dieOfCore c).val)) 0

/-- The header of a save area (R241). -/
def saveHead (x : Ctx) (k : CtxId) (p : Stop) (l klog rr : Nat) : List Part :=
  [w8 0 (wrapInt 64 (Int.ofNat p.s + x.goff)),
   w8 8 (b2n p.freeze + p.reason % 4 * 4 + k.ctx.val * 2 ^ 8 + l * 2 ^ 16),
   w8 0x10 rr, w8 0x18 (wrapInt 64 x.goff), w8 0x20 (saveSize l), w8 0x28 klog]

/-- A die takes part: it is neither being emptied nor offline (R30, R282). -/
def State.dieIn (s : State) (d : DieId) : Bool := !(s.die d).emptying && !(s.die d).offline

/-- Bridle may lay a save area: frames of the slice's partition, on dies that stay in service, that stage 2 maps into no context
(R30, R241). -/
def State.areaOk (s : State) (n : Fin 32) (sl : Slice) (pa size : Nat) : Bool :=
  let fs := (List.range ((pa + size - 1) / 65536 + 1 - frameOf pa)).map (frameOf pa + ·)
  let mapped := ((s.s2Leaves sl).filter fun l => decide (bitsOf l.2 59 58 = 0)).map fun l => entryOa l.2
  decide (pa % 64 = 0) && fs.all fun f => s.owns n.val f && decide (allocKey (s.allocGet f) = sl.keyId) && s.dieIn (homeOf (f * 65536)) && !mapped.contains f

/-- QUIESCENCE_SAVE: at the Q of a stop Bridle writes the save area, and the context leaves the stopped cores (R239, R241). -/
def execQuiescenceSave (k : CtxId) (pa klog : Nat) (s : State) : Out :=
  match s.slice? k.slice, s.ctx? k with
  | some sl, some x =>
    match x.stops.find? (s.quiescent k) with
    | none => .next s
    | some p =>
      let cs := s.coresIn k p.cores
      if !s.areaOk k.slice sl pa (saveSize cs.length) then .next s
      else
        let s := cs.foldl (fun s c => s.monitor c 15 (s.girth - p.s)) s
        let s := if p.freeze then cs.foldl (fun s c => s.modCore c Core.freezeArray) s else s
        let rr := match cs with
          | c :: _ => x.rr[(dieOfCore c).val]
          | [] => 0
        let log := if x.switched = 0 then klog else x.klogPa
        let parts := saveHead x k p cs.length log rr ++ s.barParts k ++
          cs.zipIdx.flatMap fun c => shiftParts (0x1000 + coreArea * c.2) (s.core c.1).parts
        let out := State.diesOf cs &&& ~~~(s.diesLeft k cs)
        let keep := cs.map fun c => (s.core c).keep c
        let s := s.layArea (s.keyOf k) pa (saveSize cs.length) parts
        let s := if x.switched = 0 then s.newKlog klog else s
        let s := { s with
          hostReads := s.hostReads.filter fun (r : HostRead) => !cs.contains r.core
          fabOuts := s.fabOuts.filter fun (r : FabOut) => !(decide (r.ctx = k) && cs.contains r.core) }
        let ls := s.lcoresOf cs
        let s := cs.foldl State.offStop s
        .next (s.modCtx k fun y => { y.unwake ls with
          stops := y.stops.filter fun q => decide (q.cores ≠ p.cores)
          saved := y.saved ++ [⟨pa, p.s, p.reason, keep, out, none⟩]
          klogPa := log
          switched := y.switched ||| out })
  | _, _ => .next s

end Sys2Proof.Machine
end

