-- ==== Sys2Proof/Machine/Slices.lean ====
section
/-!
DEFINITION. The physical allocation table (14_slices R256 to R258), cleared frames and the scrubber (R260, R263), and the shares
that Bridle grants a slice (R172, R173, R175, R254, R255, R279).
-/
namespace Sys2Proof.Machine

/-! ## The allocation table -/

/-- Frames of one stack and bank at most two rows from a frame (R256, R258). -/
def nearFrames (f : Nat) : List Nat :=
  let row := bitsOf f 19 4
  [1, 2].flatMap fun d => (if d ≤ row then [f - 16 * d] else []) ++ (if row + d < 65536 then [f + 16 * d] else [])

/-- The allocation unit accepts a write of an entry (R257). -/
def State.allocOk (s : State) (f : Nat) (v : BitVec 32) : Bool :=
  let old := s.allocGet f
  let o := allocOwner v
  let value := decide (allocState v ≠ 3) && (decide (o ≤ 32) || decide (o = 63))
  let apart := (nearFrames f).all fun n => !(decide (allocState (s.allocGet n) = 1) && decide (allocOwner (s.allocGet n) ≠ o))
  let kept := decide (allocState old = 1) && decide (allocOwner old = o) && decide (allocKey old = allocKey v)
  value && (decide (allocState v ≠ 1) || (apart && (allocClr v || kept)))

/-- Forget what a frame held: its bytes in every view, its tags, its fill and its scrub. -/
def State.clearFrame (s : State) (f : Nat) : State :=
  { s with
    dies := s.dies.map fun (x : Die) => { x with view := tblClear x.view (f * 65536) ((f + 1) * 65536) }
    lineGen := s.lineGen.filter fun p => decide (p.1 / 512 ≠ f)
    frameGen := mapDel s.frameGen f
    fills := mapDel s.fills f
    scrub := mapDel s.scrub f }

/-- Store an entry; one that equals the initial entry is not listed. -/
def State.allocSet (s : State) (f : Nat) (v : BitVec 32) : State :=
  { s with alloc := if v = allocFree then mapDel s.alloc f else mapPut s.alloc f v }

/-- A die other than the home of a frame sees its entry as it was until the write reaches it (R259, R264). -/
def State.allocLag (s : State) (f : Nat) : State :=
  let old := s.allocGet f
  { s with allocOld := (allDies.filter fun d => decide (d ≠ homeOf (f * 65536))).foldl (fun t d =>
      if (mapGet t (d.val * 8388608 + f)).isSome then t else mapPut t (d.val * 8388608 + f) old) s.allocOld }

/-- A write of an entry that the unit has accepted; an entry with CLR = 1 makes its frame read 0, and a frame that is not assigned is
filled no further. -/
def State.allocPut (s : State) (f : Nat) (v : BitVec 32) : State :=
  let v := BitVec.ofNat 32 (v.toNat / 65536 * 65536)
  let s := s.allocSet f v
  let s := if allocState v = 1 then s else { s with fills := mapDel s.fills f }
  let s := if allocState v = 2 then { s with bio := mapDel s.bio f } else s
  if allocClr v then s.clearFrame f else s

/-- A write of an entry that is performed at .p: every die sees it (R262, R263). -/
def State.allocPerf (s : State) (f : Nat) (v : BitVec 32) : State :=
  let s := s.allocPut f v
  { s with allocOld := s.allocOld.filter fun p => decide (p.1 % 8388608 ≠ f) }

/-- The fresh key under which a slice that moves inside the package holds frames already (R261). -/
def State.moveKey (s : State) (n : Fin 32) : Option Nat :=
  match mapGet s.migrating n.val with
  | some m => match m.dest with
    | .here g => some g.keyId
    | .package _ => none
  | none => none

/-- A frame of the live partition of a slice, which leaves it only when the whole partition is freed (R261). -/
def State.inPartition (s : State) (f : Nat) : Bool :=
  let e := s.allocGet f
  let n : Fin 32 := Fin.ofNat 32 (allocOwner e)
  decide (allocState e = 1) && decide (allocOwner e < 32) &&
    match s.slice? n with
    | some x => decide (allocKey e = x.keyId) || decide (x.oldKey = some (allocKey e)) || decide (s.moveKey n = some (allocKey e))
    | none => false

/-- A frame that a partition has given up is not yet in the free pool (R262). -/
def State.unreturned (s : State) (f : Nat) : Bool := s.slices.toList.any fun x => x.any fun y => y.unreturned.contains f

/-! ### Guard rows (R258) -/

/-- Bridle places guard rows beside frames of a partition: what is FREE two rows or fewer away is GUARD (R258, R287). -/
def State.placeGuards (s : State) (fs : List Nat) : State :=
  (fs.flatMap nearFrames).foldl (fun s f => if allocState (s.allocGet f) = 0 then s.allocPerf f (allocMk 2 true 63 0) else s) s

/-- Guard rows beside frames that have been freed are FREE again where no partition needs them. -/
def State.liftGuards (s : State) (fs : List Nat) : State :=
  (fs.flatMap nearFrames).foldl (fun s f =>
    if allocState (s.allocGet f) = 2 ∧ (nearFrames f).all (fun n => decide (allocState (s.allocGet n) ≠ 1)) = true then
      s.allocPerf f allocFree
    else s) s

/-- ALLOC_TABLE_WRITE: Bridle writes an entry; the unit refuses it or stores it (R257). Bridle takes no single frame out of a live
partition (R261), and none that is not back in the pool (R262): such a write is none of its own, and nothing happens. -/
def execAllocTableWrite (frame : Fin 8388608) (v : BitVec 32) (s : State) : Out :=
  let e := s.allocGet frame.val
  if s.inPartition frame.val && !(decide (allocState v = 1) && decide (allocOwner v = allocOwner e) && decide (allocKey v = allocKey e)) then
    .next s
  else if s.unreturned frame.val then .next s
  else if s.allocOk frame.val v then .next { (s.allocLag frame.val).allocPut frame.val v with allocRefused := false }
  else .next { s with allocRefused := true }

/-- Assign frames of the pool to an owner under a key, cleared, by writes performed at .p (R262, R263); none when the unit refuses one. -/
def State.assignFrames (s : State) (owner key : Nat) : List Nat → Option State
  | [] => some s
  | f :: t =>
    let v := allocMk 1 true owner key
    if s.allocOk f v && decide (allocState (s.allocGet f) = 0) && !s.unreturned f && decide (f < 8388608) then
      (s.allocPerf f v).assignFrames owner key t
    else none

/-- Frames that an owner holds. -/
def State.framesOf (s : State) (owner : Nat) : List Nat :=
  (s.alloc.filter fun p => decide (allocState p.2 = 1) && decide (allocOwner p.2 = owner)).map (·.1)

/-! ## Bursts (R260, R263) -/

/-- Channel, bank and row of a burst of a frame (R174, R256). -/
def burstChan (f burst : Nat) : Nat := chanNo (bitsOf f 22 20) (burst / 4)

/-- Every burst of a frame. -/
def allBursts : Nat := 2 ^ 128 - 1

/-- The fill of a frame writes its next burst on each channel whose slot its owner may use now; answers the bursts written. -/
def State.fillSlot (s : State) (f owner : Nat) : List Nat → Nat → Nat × State
  | [], set => (set, s)
  | ch :: t, set =>
    let n := chanNo (frameStack f) ch
    match burstsLeft set ch with
    | none => s.fillSlot f owner t set
    | some b =>
      let o := (s.chan n).fillSlots owner
      if s.slotOpen n o then (s.giveSlot n o (frameBank f) (frameRow f)).fillSlot f owner t (set + 2 ^ b)
      else s.fillSlot f owner t set

/-- The fill of a frame is over: CLR is 0, and every line that no write has touched has a tag of the frame's key (R260). -/
def State.fillDone (s : State) (f : Nat) : State :=
  let e := s.allocGet f
  { s.allocSet f (allocMk (allocState e) false (allocOwner e) (allocKey e)) with
    fills := mapDel s.fills f
    frameGen := match s.keyGen (allocKey e) with
      | some g => mapPut s.frameGen f g
      | none => s.frameGen }

/-- CLEARED_FRAME_FILL: a fill writes a burst in each slot that its owner has now; after the last of the 128 the frame is no longer
cleared (R260). -/
def execClearedFrameFill (frame : Fin 8388608) (s : State) : Out :=
  let f := frame.val
  match mapGet s.fills f with
  | none => .next s
  | some (set, owner) =>
    let (set, s) := s.fillSlot f owner (List.range 32) set
    .next (if set = allBursts then s.fillDone f else { s with fills := mapPut s.fills f (set, owner) })

/-- SCRUB_BURST: the scrubber overwrites one burst of a FREE frame in an unassigned position, each once in a pass; CLR stays 1
(R263). -/
def execScrubBurst (frame : Fin 8388608) (burst : Fin 128) (s : State) : Out :=
  let f := frame.val
  let set := (mapGet s.scrub f).getD 0
  let n := burstChan f burst.val
  if allocState (s.allocGet f) ≠ 0 ∨ set.testBit burst.val = true ∨ s.slotOpen n 127 = false then .next s
  else
    let s := s.giveSlot n 127 (frameBank f) (frameRow f)
    let set := set + 2 ^ burst.val
    .next { s with scrub := if set = allBursts then mapDel s.scrub f else mapPut s.scrub f set }

/-! ## Shares (R255, R287) -/

/-- Fields of the arguments of SLICEMAKE (R287). -/
def argShare (a : Vector Word 5) : Nat := bitsOf a[3].toNat 23 16
def argBurst (a : Vector Word 5) : Nat := bitsOf a[3].toNat 31 24
def argRate (a : Vector Word 5) : Nat := bitsOf a[3].toNat 40 32
def argDepth (a : Vector Word 5) : Nat := bitsOf a[3].toNat 63 48
def argVote (a : Vector Word 5) : Nat := bitsOf a[4].toNat 9 0

/-- Positions of each core on a channel, as Bridle grants them. -/
def posOn (g : Grant) (n : Nat) : List (CoreId × List Nat) := (mapGet g.onChan n).getD g.positions

/-- The cores of a grant take their positions on every channel of every stack (R175). -/
def State.takePositions (s : State) (g : Grant) : State :=
  if g.positions.isEmpty && g.onChan.isEmpty then s
  else (List.range 256).foldl (fun s n =>
    s.setChan n ((posOn g n).foldl (fun x p => p.2.foldl (fun x q => x.setOwner q p.1.val) x) (s.chan n))) s

/-- Channels that stand for all when a grant is looked at: those of which something is listed, and one of the others. -/
def State.someChans (s : State) (g : Grant) : List Nat :=
  let ls := (s.channels.map (·.1) ++ g.onChan.map (·.1)).eraseDups
  ls ++ ((List.range 256).find? fun n => !ls.contains n).toList

/-- The buckets of a slice's contexts on a die (R173). -/
def Die.setBuckets (x : Die) (n : Fin 32) (rate depth : Nat) : Die :=
  (List.finRange 8).foldl (fun x p => (List.finRange 8).foldl (fun x m =>
    let b := x.bucket p ⟨n, m⟩
    x.setBucket p ⟨n, m⟩ { depth := depth, rate := rate, level := min b.level depth }) x) x

/-- The share of a slice at the ports of a die (R254). -/
def State.setFabShares (s : State) (n : Fin 32) (d : DieId) (share burst : Nat) : State :=
  (List.range 6).foldl (fun s i =>
    let no := d.val * 6 + i
    let p := s.fabPort no
    s.setFabPort no { p with shares := mapPut p.shares n.val { p.share n.val with share := share, burst := burst } }) s

/-- Dies that hold cores of a list. -/
def diesWith (cs : List CoreId) : List DieId := allDies.filter fun d => cs.any fun c => decide (dieOfCore c = d)

/-- The ways that a grant gives on a die. -/
def waysOn (g : Grant) (d : DieId) : BitVec 16 := ((g.ways.find? fun w => decide (w.1 = d)).map (·.2)).getD 0

/-- Grant a slice its shares on the cores and dies of a grant. -/
def State.grantShares (s : State) (n : Fin 32) (g : Grant) (a : Vector Word 5) : State :=
  (diesWith g.cores).foldl (fun s d =>
    let s := s.modDie d fun x => { (x.setBuckets n (argRate a) (argDepth a)) with
      votes := x.votes.set n.val (argVote a)
      dcway := x.dcway.set n.val (waysOn g d) }
    s.setFabShares n d (argShare a) (argBurst a)) (s.takePositions g)

/-- Take a slice's die-level shares away on some dies. -/
def State.dropDies (s : State) (n : Fin 32) (ds : List DieId) : State :=
  ds.foldl (fun s d =>
    let s := s.modDie d fun x => { (x.setBuckets n 0 0) with
      votes := x.votes.set n.val 0
      dcway := x.dcway.set n.val 0 }
    s.setFabShares n d 0 0) s

/-- Take a slice's shares away: the positions of those of some cores that are still its own, and what it has on the dies they lie on. -/
def State.dropShares (s : State) (n : Fin 32) (cs : List CoreId) : State :=
  ((cs.filter fun c => decide ((s.core c).bind.map (·.1) = some n)).foldl State.freePositions s).dropDies n (diesWith cs)

/-- A die takes over the shares that a slice had on another (R255): its token buckets, its shares at the Autus ports, its vote. -/
def State.carryDie (s : State) (n : Fin 32) (x : Die) (ports : Nat → FabShare) (d : DieId) (ways : BitVec 16) : State :=
  let s := s.modDie d fun y =>
    { (List.finRange 8).foldl (fun y p => (List.finRange 8).foldl (fun y m =>
        let b := x.bucket p ⟨n, m⟩
        y.setBucket p ⟨n, m⟩ { b with level := 0 }) y) y with
      votes := y.votes.set n.val x.votes[n.val]
      dcway := y.dcway.set n.val ways }
  (List.range 6).foldl (fun s i =>
    let no := d.val * 6 + i
    let p := s.fabPort no
    s.setFabPort no { p with shares := mapPut p.shares n.val { p.share n.val with share := (ports i).share, burst := (ports i).burst } }) s

end Sys2Proof.Machine
end

