-- ==== Sys2Proof/Machine/Relocate.lean ====
section
/-!
DEFINITION. Moving a slice: to other cores (01_architecture R26, R30; 14_slices R255), off the frames of a die that leaves service
(15_margin R282), and, by the steps of 13_preemption R251, to another package or onto a fresh key of this one (R261).
-/
namespace Sys2Proof.Machine

/-! ## Other cores (R26, R255) -/

/-- A new core and an old one, logical core by logical core, have equal shape (R26). -/
def shapeFits (old : List LCore) (new : List LCore) : Bool :=
  let ps := old.zip new
  decide (old.length = new.length) && ps.all (fun p => decide (p.1.mclass ≤ p.2.mclass)) &&
    ps.all fun p => ps.all fun q => decide (p.1.die = q.1.die) == decide (p.2.die = q.2.die)

/-- What goes with the logical cores that some cores are. -/
def State.asLogical (s : State) (cs : List CoreId) : List LCore := cs.map fun c => (s.core c).asLogical c

/-- Two lists of cores have equal shape (R26). -/
def State.sameShape (s : State) (old new : List CoreId) : Bool := decide new.Nodup && shapeFits (s.asLogical old) (s.asLogical new)

/-- Cores that a slice may be put on: free or its own, on dies in service (R25). -/
def State.coresFit (s : State) (n : Fin 32) (cs : List CoreId) : Bool :=
  cs.all fun c =>
    (match (s.core c).bind with
     | none => decide ((s.core c).escal ≠ .quar)
     | some b => decide (b.1 = n)) && s.dieIn (dieOfCore c)

/-- The rails of some cores' dies have reached the slice's votes (R280). -/
def State.railsUp (s : State) (n : Fin 32) (old new : List CoreId) : Bool :=
  (old.zip new).all fun p =>
    decide ((s.die (dieOfCore p.1)).votes[n.val] ≤ (s.die (dieOfCore p.2)).railMv) &&
      decide ((s.die (dieOfCore p.2)).votes[n.val] ≤ (s.die (dieOfCore p.2)).railMv)

/-- Bind cores to a slice in logical order. -/
def State.bindCores (s : State) (n : Fin 32) (cs : List CoreId) : State :=
  cs.zipIdx.foldl (fun s p => s.modCore p.1 fun k => { k with bind := some (n, p.2) }) s

/-- A logical core whose physical core a relocation changes: its number, the old one and the new one. -/
structure CoreMove where
  (l : Nat) (old new : CoreId)
  deriving DecidableEq, Repr

/-- A core still serves a slice as the logical core of a move. -/
def State.serves (s : State) (n : Fin 32) (m : CoreMove) : Bool := decide ((s.core m.old).bind = some (n, m.l))

/-- The logical cores that get another core, or that no core serves. -/
def State.coreMoves (s : State) (n : Fin 32) (old new : List CoreId) : List CoreMove :=
  ((old.zip new).zipIdx.map fun p => ⟨p.2, p.1.1, p.1.2⟩).filter fun m => decide (m.old ≠ m.new) || !s.serves n m

/-- Dies of a slice that a relocation renames (R26). -/
def dieMoves (old new : List CoreId) : List (DieId × DieId) :=
  (((old.zip new).map fun p => (dieOfCore p.1, dieOfCore p.2)).eraseDups).filter fun p => decide (p.1 ≠ p.2)

/-- What Bridle keeps of a logical core whose core has left service. -/
def Slice.keptOf (x : Slice) (l : Nat) : Option (LCore × List (Nat × Nat)) := mapGet x.kept l

/-- What goes with a logical core that moves (R26). -/
def State.goesAlong (s : State) (n : Fin 32) (x : Slice) (m : CoreMove) : LCore :=
  match s.serves n m, x.keptOf m.l with
  | false, some p => p.1
  | _, _ => (s.core m.old).asLogical m.old

/-- How many positions of a channel belong to a logical core that moves (R255). -/
def State.positionsOf (s : State) (n : Fin 32) (x : Slice) (m : CoreMove) (ch : Nat) : Nat :=
  match s.serves n m, x.keptOf m.l with
  | false, some p => (mapGet p.2 ch).getD 0
  | _, _ => ((s.chan ch).positions m.old).length

/-- The positions of a grant fit on a channel: as many for each logical core that moves, and none of a core of a slice that stays. -/
def State.positionsFit (s : State) (n : Fin 32) (x : Slice) (g : Grant) (ms : List CoreMove) (ch : Nat) : Bool :=
  let ps := posOn g ch
  let qs := ps.flatMap (·.2)
  decide qs.Nodup && (ps.all fun p => ms.any fun m => decide (m.new = p.1)) &&
    (ms.all fun m => decide (s.positionsOf n x m ch = ((ps.filter fun p => decide (p.1 = m.new)).flatMap (·.2)).length)) &&
    qs.all fun q => decide (q < 64) && match ownerCore ((s.chan ch).ownerOf q) with
      | some c => (s.core c).bind.isNone || ms.any fun m => decide (m.old = c) && s.serves n m
      | none => true

/-- A die can take over what a slice has on another: as many ways, that no other slice has, and room for the rates and the shares. -/
def State.dieFits (s : State) (n : Fin 32) (g : Grant) (m : DieId × DieId) : Bool :=
  let x := s.die m.1
  let y := s.die m.2
  let w := waysOn g m.2
  decide (popCount 16 w.toNat = popCount 16 (x.dcway[n.val]).toNat) &&
    ((List.finRange 32).all fun j => decide (j = n) || decide (y.dcway[j.val] &&& w = 0)) &&
    ((List.finRange 8).all fun p =>
      let mine (d : Die) : Nat := (List.finRange 8).foldl (fun t k => t + (d.bucket p ⟨n, k⟩).rate) 0
      decide (y.rates p - mine y + mine x ≤ 256)) &&
    (List.range 6).all fun i =>
      let p := s.fabPort (m.2.val * 6 + i)
      decide (p.shared - (p.share n.val).share + ((s.fabPort (m.1.val * 6 + i)).share n.val).share ≤ 256)

/-- Bridle can make all the grants again that the slice had (R255). -/
def State.sharesFit (s : State) (n : Fin 32) (x : Slice) (g : Grant) : Bool :=
  let ms := s.coreMoves n x.cores g.cores
  ((s.someChans g).all fun ch => s.positionsFit n x g ms ch) && (dieMoves x.cores g.cores).all (s.dieFits n g)

/-- A core takes a logical core over, with its MARGIN and its limits (R26). -/
def Core.takeLogical (k : Core) (o : LCore) : Core := { k with margin := o.margin, leaseLim := o.leaseLim, paceLim := o.paceLim }

/-- Move a slice to other cores: every share goes with the logical core or the die it belongs to, and each logical core keeps its
MARGIN and limits (R26, R255). Cores that the relocation does not change go on. -/
def State.moveSlice (s : State) (n : Fin 32) (x : Slice) (g : Grant) : State :=
  let s0 := s
  let ms := s.coreMoves n x.cores g.cores
  let ds := dieMoves x.cores g.cores
  let mine := ms.filter (s.serves n)
  let s := (mine.foldl (fun s m => s.freePositions m.old) s).dropDies n (ds.map (·.1))
  let s := mine.foldl (fun s m => s.modCore m.old fun k => { k.leave with bind := none }) s
  let s := s.bindCores n g.cores
  let s := ms.foldl (fun s m => s.modCore m.new (·.takeLogical (s0.goesAlong n x m))) s
  let s := s.takePositions g
  let s := ds.foldl (fun s m => s.carryDie n (s0.die m.1) (fun i => (s0.fabPort (m.1.val * 6 + i)).share n.val) m.2 (waysOn g m.2)) s
  s.modSlice n fun y => { y with cores := g.cores, maps := (s.girth, g.cores) :: y.maps, kept := [] }

/-! ## The order of relocation (R30, R282) -/

/-- A slice's priority: the highest PRIO among its running, saved and ready records. -/
def State.slicePrio (s : State) (n : Fin 32) (x : Slice) : Nat :=
  (List.finRange 8).foldl (fun m j =>
    let k : CtxId := ⟨n, j⟩
    match x.ctxs[j.val] with
    | none => m
    | some y =>
      let a := ((s.groupsOf k).map fun g => g.rcd.prio).foldl max m
      let a := ((y.saved.flatMap (·.cores)).map (·.prio)).foldl max a
      allDies.foldl (fun a d => match (s.die d).topList k with | some p => max a p | none => a) a) 0

/-- A core of a slice lies on a die that leaves service, or serves it no more. -/
def State.losesCore (s : State) (n : Fin 32) (x : Slice) : Bool :=
  x.cores.any fun c => !s.dieIn (dieOfCore c) || decide ((s.core c).bind.map (·.1) ≠ some n)

/-- A slice waits to be moved: it loses a core, or a die went offline before it was placed, and a context of it is saved or is being
stopped. -/
def State.uprooted (s : State) (n : Fin 32) (x : Slice) : Bool :=
  (x.parked || s.losesCore n x) && x.ctxs.toList.any fun y => y.any fun z => !z.saved.isEmpty || !z.stops.isEmpty

/-- The injective maps of dies to dies. -/
def dieMaps : List (List DieId) :=
  allDies.flatMap fun a => allDies.flatMap fun b => allDies.flatMap fun c => allDies.filterMap fun d =>
    if [a, b, c, d].Nodup then some [a, b, c, d] else none

/-- Cores of equal shape remain for a slice, free or its own (R26). -/
def State.placeable (s : State) (n : Fin 32) (x : Slice) : Bool :=
  let free (d : DieId) (m : Nat) : Nat :=
    (allCores.filter fun c => decide (dieOfCore c = d) && s.coresFit n [c] && decide (m ≤ (s.core c).mclass.val)).length
  let need (d : DieId) (m : Nat) : Nat := (x.cores.filter fun c => decide (dieOfCore c = d) && decide (m ≤ (s.core c).mclass.val)).length
  dieMaps.any fun f => allDies.all fun d => (List.range 4).all fun m => decide (need d m ≤ free ((f[d.val]?).getD d) m)

/-- No slice of higher priority meets a condition. -/
def State.noneAbove (s : State) (n : Fin 32) (x : Slice) (p : Fin 32 → Slice → Bool) : Bool :=
  (List.finRange 32).all fun m => decide (m = n) || match s.slice? m with
    | some y => !(p m y && decide (s.slicePrio n x < s.slicePrio m y))
    | none => true

/-- No slice of higher priority that could be placed waits to be moved. -/
def State.turnToMove (s : State) (n : Fin 32) (x : Slice) : Bool :=
  !s.uprooted n x || s.noneAbove n x fun m y => s.uprooted m y && s.placeable m y

/-! ## Moving frames (R261, R282) -/

/-- A generation of one key as it is under another: what was readable stays so. -/
def State.reKey (s : State) (old new g : Nat) : Nat :=
  if s.keyGen old = some g then (s.keyGen new).getD g else g

/-- Copy the content of a frame into another under its key, in unassigned positions (R265): the first bytes that reach a cleared frame start its
fill (R260). -/
def State.copyFrame (s : State) (f t : Nat) : State :=
  let re := s.reKey (allocKey (s.allocGet f)) (allocKey (s.allocGet t))
  let lines := (s.lineGen.filter fun p => decide (p.1 / 512 = f)).map fun (p : Nat × Nat) => (t * 512 + p.1 % 512, re p.2)
  let blank := allocClr (s.allocGet f) && lines.isEmpty && (tblSlice (s.die 0).view (f * 65536) ((f + 1) * 65536)).isEmpty
  let gen := mapGet s.frameGen f
  let s := { s with
    dies := s.dies.map fun (x : Die) =>
      { x with view := tblPaste 0 x.view (t * 65536) 65536 (tblSlice x.view (f * 65536) ((f + 1) * 65536)) }
    lineGen := lines.foldl (fun l (p : Nat × Nat) => mapPut l p.1 p.2) (s.lineGen.filter fun p => decide (p.1 / 512 ≠ t))
    frameGen := match gen with
      | some g => mapPut s.frameGen t (re g)
      | none => mapDel s.frameGen t }
  let s := (s.bridleRun (f * 65536) 65536).bridleRun (t * 65536) 65536
  if blank then s else s.startFill t 127

/-- Frames that an owner holds under a key. -/
def State.framesUnder (s : State) (n : Fin 32) (key : Nat) : List Nat :=
  (s.framesOf n.val).filter fun f => decide (allocKey (s.allocGet f) = key)

/-- Move a frame to a FREE one under its owner and key, with its guard rows (R258, R282 step 2); none when the unit refuses. -/
def State.moveFrame (s : State) (f t : Nat) : Option State :=
  let e := s.allocGet f
  (s.assignFrames (allocOwner e) (allocKey e) [t]).map fun s =>
    (((s.copyFrame f t).allocPerf f allocFree).placeGuards [t]).liftGuards [f]

def State.moveFrames (s : State) : List (Nat × Nat) → Option State
  | [] => some s
  | (f, t) :: r => (s.moveFrame f t).bind fun s => s.moveFrames r

/-- Frames of a slice that lie on dies that leave service. -/
def State.leavingFrames (s : State) (n : Fin 32) : List Nat :=
  (s.framesOf n.val).filter fun f => !s.dieIn (homeOf (f * 65536))

/-- No write to a frame is on its way, so that its copy is whole. -/
def State.frameQuiet (s : State) (f : Nat) : Bool :=
  let meets (w : WriteRec) : Bool := overlaps w.pa w.len (f * 65536) 65536
  !(s.transit.any meets) && allDies.all fun d => !(s.die d).pend.any meets

/-- Where a save area goes as frames move; none when its frames would not stay together. -/
def moveArea (ms : List (Nat × Nat)) (pa size : Nat) : Option Nat :=
  let to_ (f : Nat) : Nat := match ms.find? fun m => decide (m.1 = f) with
    | some m => m.2
    | none => f
  let f0 := frameOf pa
  if (List.range ((pa + size - 1) / 65536 + 1 - f0)).all fun (i : Nat) => to_ (f0 + i) == to_ f0 + i then
    some (to_ f0 * 65536 + pa % 65536)
  else none

/-- The save areas of a context after frames have moved. -/
def moveAreas (ms : List (Nat × Nat)) : List Saved → Option (List Saved)
  | [] => some []
  | v :: t =>
    match moveArea ms v.pa (saveSize v.cores.length), moveAreas ms t with
    | some pa, some r => some ({ v with pa := pa } :: r)
    | _, _ => none

/-- The save areas of every context of a slice move with their frames. -/
def State.moveSaved (s : State) (n : Fin 32) (ms : List (Nat × Nat)) : Option State :=
  (List.finRange 8).foldl (fun r m =>
    r.bind fun s => match s.ctx? ⟨n, m⟩ with
      | none => some s
      | some x => (moveAreas ms x.saved).map fun vs => s.modCtx ⟨n, m⟩ fun y => { y with saved := vs }) (some s)

/-- Frames are whole rows across all 16 banks (R258). -/
def wholeRows (fs : List Nat) : Bool := fs.all fun f => (List.range 16).all fun b => fs.contains (f / 16 * 16 + b)

/-- The stage-2 leaves of a slice that map frames. -/
def State.devLeaves (s : State) (x : Slice) : List (Nat × Nat) := (s.s2Leaves x).filter fun l => decide (bitsOf l.2 59 58 = 0)

/-- Frames that the save areas of a slice touch. -/
def State.areaFrames (s : State) (n : Fin 32) : List Nat :=
  (List.finRange 8).flatMap fun m => match s.ctx? ⟨n, m⟩ with
    | some x => x.saved.flatMap fun v =>
        (List.range ((v.pa + saveSize v.cores.length - 1) / 65536 + 1 - frameOf v.pa)).map (frameOf v.pa + ·)
    | none => []

/-! ### Off a die that leaves service (R30, R282) -/

/-- FREE frames of the dies in service. -/
def State.freeCount (s : State) : Nat :=
  (allDies.filter s.dieIn).length * 2 ^ 21 -
    (s.alloc.filter fun p => decide (allocState p.2 ≠ 0) && s.dieIn (homeOf (p.1 * 65536))).length

/-- The dies in service have room for the frames that a slice must move. -/
def State.roomFor (s : State) (n : Fin 32) : Bool := decide ((s.leavingFrames n).length ≤ s.freeCount)

/-- No slice of higher priority has frames that could still be moved (R282 step 2). -/
def State.turnToCopy (s : State) (n : Fin 32) (x : Slice) : Bool :=
  s.noneAbove n x fun m _ => !(s.leavingFrames m).isEmpty && s.roomFor m

/-- Frames that a change of stage-2 entries moves with it: the entry of a frame on a die that leaves service comes to name a FREE frame. -/
def State.leafMoves (s : State) (n : Fin 32) (tab : TabWrites) : List (Nat × Nat) :=
  tab.filterMap fun p =>
    match s.readBytes 0 127 p.1 8 with
    | none => none
    | some bs =>
      let f := entryOa (ofBytes bs)
      let t := entryOa p.2.toNat
      if bitOf (ofBytes bs) 0 && bitOf p.2.toNat 0 && decide (bitsOf p.2.toNat 59 58 = 0) && (s.leavingFrames n).contains f &&
          decide (allocState (s.allocGet t) = 0) then some (f, t)
      else none

/-- Every frame that a change moves: with an entry, or one that stage 2 does not map. -/
def State.tabMoves (s : State) (n : Fin 32) (ch : Stage2Change) : List (Nat × Nat) :=
  let ms := s.leafMoves n ch.tab
  ms ++ ch.moves.filter fun m => !ms.contains m

/-- No access of a slice that was translated before is open (R204). -/
def State.accessesDone (s : State) (n : Fin 32) : Bool := (s.stepInval (s.newInval 0 n none)).isNone

/-- Frames may move together: off dies that leave service, whole rows, to dies that stay, with the entries of those that stage 2 maps, in
the order of the slices, and once no access to them is open. -/
def State.mayMove (s : State) (n : Fin 32) (x : Slice) (ch : Stage2Change) : Bool :=
  let ms := s.tabMoves n ch
  let mapped := (s.devLeaves x).map fun l => entryOa l.2
  (ms.all fun m => (s.leavingFrames n).contains m.1 && s.dieIn (homeOf (m.2 * 65536)) && s.frameQuiet m.1 &&
    (!mapped.contains m.1 || (s.leafMoves n ch.tab).contains m)) &&
    wholeRows (ms.map (·.2)) && s.turnToCopy n x && s.accessesDone n

/-- BRIDLE_STAGE2_INVAL: Bridle changes stage-2 entries of a slice and invalidates what the cores hold of them (R204). The frames that
the change moves off a die that leaves service are copied with it (R282 step 2). -/
def execBridleStage2Inval (slice : Fin 32) (_gpa : BitVec 52) (_pages : Nat) (ch : Stage2Change) (s : State) : Out :=
  match s.slice? slice with
  | none => .next s
  | some sl =>
    let ms := s.tabMoves slice ch
    if ms.isEmpty then .next ((s.fwTab ch.tab).invalSlice slice)
    else if !s.mayMove slice sl ch then .next s
    else
      match (s.moveSaved slice ms).bind (·.moveFrames ms) with
      | some s => .next ((s.fwTab ch.tab).invalSlice slice)
      | none => .next s

/-! ## Keys and freeing (R260 to R262) -/

/-- A key slot is free (R260, R262). -/
def State.keyFree (s : State) (key : Nat) : Bool :=
  decide (key < 127) && (s.keyGen key).isNone &&
    s.slices.all fun y => match y with
      | some y => decide (y.keyId ≠ key) && decide (y.oldKey ≠ some key)
      | none => true

/-- A key slot takes a fresh key (R260). -/
def State.loadKey (s : State) (key : Nat) : State := { s with keys := mapPut s.keys key s.keyCtr, keyCtr := s.keyCtr + 1 }

/-- Every die cache drops the lines of a key, dirty ones too, without writing them back (R262 step 5). -/
def State.dropLines (s : State) (key : Nat) : State :=
  { s with dies := s.dies.map fun (y : Die) => { y with cache := y.cache.filter fun l => decide (l.keyId ≠ key) } }

/-- The frames of a partition become FREE by writes performed at .p; they are in the free pool once the last step is done (R262 step 6). -/
def State.freeFrames (s : State) (n : Fin 32) (key : Nat) : State :=
  let fs := s.framesUnder n key
  (fs.foldl (fun s f => s.allocPerf f allocFree) s).modSlice n fun y => { y with unreturned := y.unreturned ++ fs }

/-- The frames that a slice has given up return to the free pool, with the guard rows beside them (R258, R262 step 7). -/
def State.returnFrames (s : State) (n : Fin 32) : State :=
  match s.slice? n with
  | none => s
  | some x => (s.modSlice n fun y => { y with unreturned := [] }).liftGuards x.unreturned

/-- The next step of freeing the old partition of a slice that has moved: key, cache, table, key number (R261, R262). -/
def State.stepOld (s : State) (n : Fin 32) : State :=
  match (s.slice? n).bind (·.oldKey) with
  | none => s
  | some key =>
    if (s.keyGen key).isSome then { s with keys := mapDel s.keys key }
    else if allDies.any fun d => (s.die d).cache.any fun l => decide (l.keyId = key) then s.dropLines key
    else if !(s.framesUnder n key).isEmpty then s.freeFrames n key
    else (s.modSlice n fun y => { y with oldKey := none }).returnFrames n

/-! ## The steps of a move (R251) -/

def State.setMoving (s : State) (n : Fin 32) (m : Moving) : State := { s with migrating := mapPut s.migrating n.val m }
def State.endMoving (s : State) (n : Fin 32) : State := { s with migrating := mapDel s.migrating n.val }

/-- The contexts a slice has. -/
def Slice.ctxIds (x : Slice) (n : Fin 32) : List CtxId := (List.finRange 8).filterMap fun m => (x.ctx? m).map fun _ => (⟨n, m⟩ : CtxId)

/-- No write of a slice is in flight. -/
def State.sliceQuiet (s : State) (n : Fin 32) : Bool :=
  let mine (w : WriteRec) : Bool := decide (w.ctx.slice = n)
  !(s.transit.any mine) && allDies.all fun d => !(s.die d).pend.any mine

/-- No context of a slice is on a core, and its writes are performed. -/
def State.sliceStill (s : State) (n : Fin 32) (x : Slice) : Bool :=
  (x.ctxIds n).all (fun k => (s.coresOf k).isEmpty) && s.sliceQuiet n

/-- Copy a page of a move: to another package in unassigned positions (R265), where the last bytes go with the transfer; to the fresh partition of
this one at once. -/
def State.copyPage (s : State) (m : Moving) (f : Nat) : State :=
  match m.dest with
  | .package _ => s.bridleRun (f * 65536) 65536
  | .here g => match mapGet g.moves f with
    | some t => s.copyFrame f t
    | none => s

/-- A round of pre-copy begins: of the pages whose D bit is set, or of every page in round 0, which it clears with an invalidation before the
copy (R251 step 2). -/
def State.beginRound (s : State) (n : Fin 32) (x : Slice) (m : Moving) : State :=
  let ls := s.devLeaves x
  let dirty := ls.filter fun l => bitOf l.2 6
  let s := dirty.foldl (fun s l => s.fwPut 127 l.1 ((toBytes 8 (l.2 - 64)).map some)) s
  (s.invalSlice n).setMoving n { m with pages := some ((if m.step = 0 then ls else dirty).map fun l => entryOa l.2) }

/-- A round of pre-copy ends with the copies; rounds stop when one is no larger than DIRTYMAX, or after 16 (R251 step 2). -/
def State.endRound (s : State) (n : Fin 32) (m : Moving) (fs : List Nat) : State :=
  (fs.foldl (fun s f => s.copyPage m f) s).setMoving n
    { m with pages := none, step := if 65536 * fs.length ≤ s.dirtyMax then 16 else m.step + 1 }

/-- The stop: every context is checkpointed with REASON 2 under freeze policy, at one count (R251 step 3); one that is on a core still, or again,
without a stop is stopped too. -/
def State.stopSlice (s : State) (n : Fin 32) (x : Slice) (m : Moving) : State :=
  let count := if s.girth < m.s then m.s else s.girth + 256
  let s := (x.ctxIds n).foldl (fun s k =>
    if decide (m.s = 0) || (s.ctx? k).all (fun y => y.stops.isEmpty) then s.checkpoint k count 2 else s) s
  if m.s = 0 then s.setMoving n { m with s := count } else s

/-- The next of steps 2 to 4 of a move, and whether they are done: the slice's contexts are saved, and S has passed. -/
def State.moveStep (s : State) (n : Fin 32) (x : Slice) (m : Moving) : State × Bool :=
  if m.step < 16 then
    if s.invals.any fun v => decide (v.slice = n) then (s, false)
    else match m.pages with
      | none => (s.beginRound n x m, false)
      | some fs => (s.endRound n m fs, false)
  else if m.s ≠ 0 ∧ m.s ≤ s.girth ∧ s.sliceStill n x = true then (s, true)
  else (s.stopSlice n x m, false)

/-! ## A move onto a fresh key (R261) -/

/-- Frames that the move of a slice must copy: those that stage 2 maps, and those of its save areas. -/
def State.framesToMove (s : State) (n : Fin 32) (x : Slice) : List Nat := ((s.devLeaves x).map fun l => entryOa l.2) ++ s.areaFrames n

/-- Step 1 may be taken: the key is free, the slice holds one key, the new partition is whole rows on dies in service, and has a place for every
frame to move. -/
def State.movePlanOk (s : State) (n : Fin 32) (x : Slice) (g : Grant) : Bool :=
  s.keyFree g.keyId && x.oldKey.isNone && decide (x.freeing = 0) && wholeRows g.frames && decide g.frames.Nodup &&
    (g.frames.all fun f => s.dieIn (homeOf (f * 65536))) && decide (g.moves.map (·.1)).Nodup && decide (g.moves.map (·.2)).Nodup &&
    (g.moves.all fun m => (s.framesUnder n x.keyId).contains m.1 && g.frames.contains m.2) &&
    (s.framesToMove n x).all fun f => (mapGet g.moves f).isSome

/-- Step 1: a fresh key, and the new partition under it beside the old one. -/
def State.startMove (s : State) (n : Fin 32) (x : Slice) (g : Grant) : State :=
  if s.movePlanOk n x g then
    match (s.loadKey g.keyId).assignFrames n.val g.keyId g.frames with
    | some s => (s.placeGuards g.frames).setMoving n ⟨.here g, 0, none, 0⟩
    | none => s
  else s

/-- The frames whose copy is not the last: those whose D bit has been set since the last round, and those that stage 2 does not map. -/
def State.lateFrames (s : State) (n : Fin 32) (x : Slice) (g : Grant) : List Nat :=
  let ls := s.devLeaves x
  (g.moves.map (·.1)).filter fun f =>
    (ls.any fun l => decide (entryOa l.2 = f) && bitOf l.2 6) || !ls.any fun l => decide (entryOa l.2 = f)

/-- Every page that the slice's new stage 2 maps lies in its new partition. -/
def State.leavesMoved (s : State) (n : Fin 32) (x : Slice) (g : Grant) : Bool :=
  ((s.fwTab g.tables).devLeaves { x with s2root := g.s2root }).all fun l =>
    s.owns n.val (entryOa l.2) && decide (allocKey (s.allocGet (entryOa l.2)) = g.keyId)

/-- Steps 5 and 6: the pages still to be sent are copied, the save areas lie in the new partition, and the slice is under its fresh key, beside that
of the old partition; none while something of it has no place there. -/
def State.switchKey (s : State) (n : Fin 32) (x : Slice) (m : Moving) (h g : Grant) : Option State :=
  if s.leavesMoved n x g && (s.framesToMove n x).all fun f => (mapGet h.moves f).isSome then
    (((s.lateFrames n x h).foldl (fun s f => s.copyPage m f) s).moveSaved n h.moves).map fun s =>
      ((s.endMoving n).modSlice n fun y => { y with keyId := h.keyId, oldKey := some x.keyId })
  else none

end Sys2Proof.Machine
end

