-- ==== Sys2Proof/Machine/Restore.lean ====
section
/-!
DEFINITION. Restoring a context (13_preemption R247, R249, R250, R252): reading its save area back into cores, the Keeper log's
replay, and the moves of a slice that a restore makes (R26, R261, R282).
-/
namespace Sys2Proof.Machine

/-! ## Reading a save area -/

/-- A view of the area of one object: its bytes from an address. -/
structure Area where
  (m : Memory) (pa : Nat)

def Area.at (a : Area) (off : Nat) : Area := ⟨a.m, a.pa + off⟩
def Area.word (a : Area) (off : Nat) : Nat := ofBytes (tblGetRun 0 a.m (a.pa + off) 8)

/-- The values of w bytes that are not 0 in a run, by their place. -/
def Area.sparse (a : Area) (off len w : Nat) : List (Nat × Nat) :=
  (tblSlice a.m (a.pa + off) (a.pa + off + len)).foldl (fun t p =>
    mapPut t (p.1 / w) ((mapGet t (p.1 / w)).getD 0 + p.2.toNat * 256 ^ (p.1 % w))) []

/-- Entries of a queue of values of w bytes. -/
def Area.entries (a : Area) (off w n : Nat) : List Nat :=
  (List.range n).map fun i => ofBytes (tblGetRun 0 a.m (a.pa + off + w * i) w)

def byteOf (v n : Nat) : Nat := bitsOf v (8 * n + 7) (8 * n)

/-! ## Streams and sequencers -/

def restoreArr (v : Nat) : ArrRec :=
  if bitOf v 33 then .pending (bitsOf v 63 40) else if bitOf v 32 then .gen (BitVec.ofNat 32 v) else .empty

def restoreSt (n : Nat) : StrmSt :=
  match n with
  | 0 => .ended
  | 3 => .parked
  | 4 => .trapped
  | 5 => .none
  | _ => .run

/-- A stream from its part. Its section is fetched afresh before it issues (R250 step 5). -/
def restoreStream (a : Area) (sv : SavedCore) (code : Nat) : Stream :=
  let w := a.word 0x208
  let n := a.word 0x210
  let e := a.word 0x218
  let off := bitsOf w 11 0
  let st := if sv.resumed.contains code then StrmSt.run else restoreSt (bitsOf w 15 12)
  let fid : BitVec 32 := BitVec.ofNat 32 (e / 2 ^ 32)
  let ne : BitVec 32 := BitVec.ofNat 32 n
  { Stream.reset with
    st := st
    x := Vector.ofFn fun i => BitVec.ofNat 64 (a.word (8 * i.val))
    hdr := BitVec.ofNat 64 (a.word 0x200)
    word := if off = 0xFFF then none else some off
    ne := ne
    nr := BitVec.ofNat 32 (n / 2 ^ 32)
    rsec := BitVec.ofNat 12 (bitsOf w 43 32)
    rv := bitOf w 16
    insts := if off = 0xFFF ∨ st = .ended ∨ st = .none then [] else [⟨ne, 0, false⟩]
    pwdist := BitVec.ofNat 17 (bitsOf w 63 48 + e % 2 * 2 ^ 16)
    arr := Vector.ofFn fun i => restoreArr (a.word (0x220 + 8 * i.val))
    park := if st = .parked then some { (mapGet sv.parks code).getD ⟨fid, 0, 0, 0⟩ with fid := fid } else none
    qf := mapGet sv.waits code }

def restoreSeq (a : Area) (sv : SavedCore) (q : SeqId) (old : Seq) : Seq :=
  let f := a.word 0x18340
  let dn := a.word 0x18348
  let bn := a.word 0x18350
  let res := bitOf (a.word 0x18388) 0
  let grp : Word := BitVec.ofNat 64 (a.word 0x18380)
  let r : Rec := ⟨Vector.ofFn fun i => BitVec.ofNat 64 (a.word (0x183C0 + 8 * i.val)), grp⟩
  let x : Seq := { Seq.reset with
    v := (a.sparse 0 0x14000 128).filterMap fun p => let v : VWord := BitVec.ofNat 1024 p.2; if v = 0 then none else some (p.1, v)
    k := Vector.ofFn fun i => if i.val = 0 then 0 else BitVec.ofNat 32 (ofBytes (tblGetRun 0 a.m (a.pa + 0x18300 + 4 * i.val) 4))
    bubble := old.bubble, lastIssue := old.lastIssue, lastVec := old.lastVec, lanes := old.lanes }
  if res then
    { x with
      st := .run
      rcd := r
      popg := sv.popg[q.val]
      deadln := r.deadline
      grpid := grp
      frame := r.w[2]
      flags := BitVec.ofNat 5 f
      flagsHist := [BitVec.ofNat 5 f]
      slip := BitVec.ofNat 7 (bitsOf f 14 8)
      alt := some (if bitOf f 16 then Strm.a else Strm.c)
      dq := Vector.ofFn fun i => (a.entries (0x14000 + 0x800 * i.val) 128 (byteOf dn i.val)).map fun v => QEnt.val (BitVec.ofNat 1024 v)
      bq := Vector.ofFn fun i => (a.entries (0x18000 + 0x80 * i.val) 8 (byteOf bn i.val)).map fun v => QEnt.val (BitVec.ofNat 64 v)
      fq := (a.entries 0x18200 8 (byteOf bn 4)).map fun v => QEnt.val (BitVec.ofNat 64 v)
      resident := r.flag 2
      a := restoreStream (a.at 0x18400) sv q.val
      c := restoreStream (a.at 0x18800) sv (4 + q.val) }
  else x

/-! ## The matrix engine -/

/-- A slot from its part: it goes on from its own beat p times C/p (R136, R250), and with what Bridle has kept of it (R48, R140). -/
def restoreSlot (a : Area) (serial : Nat) (after : List Nat) (kept : List (Nat × Byte) × List (Nat × Acc) × Bool) : Option MCmd :=
  let w := a.word 0
  if !bitOf w 0 then none
  else
    let segs := (List.range (bitsOf (a.word 0x40) 4 0)).map fun i =>
      let v := a.word (0x48 + 8 * i)
      (⟨bitsOf v 5 0, bitsOf v 13 8, bitsOf v 28 16⟩ : ShapeSeg)
    let m : MCmd := {
      serial := serial
      atd := Fin.ofNat 32 (bitsOf w 8 4)
      abase := bitsOf (a.word 8) 21 0
      bbase := bitsOf (a.word 0x10) 21 0
      kb := bitsOf w 23 16
      z := bitOf w 1
      fmt := BitVec.ofNat 64 (a.word 0x18)
      shape := segs
      seq := Fin.ofNat 4 (bitsOf w 3 2)
      c := bitsOf w 47 32
      work := []
      flags := BitVec.ofNat 5 (a.word 0x20)
      after := if bitsOf w 47 32 = 0 then after else []
      xs := none
      pins := kept.1
      was := kept.2.1
      seen := kept.2.2 }
    some { m with c := m.p2 * m.times m.c / 2 }

/-- A shadow command on the front command's tile holds the positions it has worked on (R135, R136). -/
def Core.refillShadow (k : Core) (m : MCmd) : MCmd :=
  { m with work := allCells.foldl (fun t p =>
      match m.kbRow p.1 with
      | some kb => if 0 < consumedAt (m.times m.c) p.1 p.2 kb then mapPut t (64 * p.1 + p.2) (k.tileGet m.atd p.1 p.2) else t
      | none => t) [] }

/-! ## Copy commands -/

def copyOpOf (opc sub : Nat) : CopyOp :=
  match opc with
  | 0x241 => .acc
  | 0x242 => .swap
  | 0x243 => .cas
  | 0x244 => .fill
  | 0x245 => .plane
  | _ => if bitOf sub 0 then .str else .copy

def restoreCmd (a : Area) (park : Option Park) (resumed : Bool) : CopyCmd :=
  let w := a.word 0
  let p := a.word 0x30
  let sub := bitsOf w 15 10
  let fid : BitVec 32 := BitVec.ofNat 32 (p / 2 ^ 32)
  { op := copyOpOf (bitsOf w 9 0) sub
    aop := (aopOf (bitsOf w 25 22)).getD .add
    et := (etOf (bitsOf w 29 26)).getD .f32
    ac := if bitOf sub 5 then none else some (Fin.ofNat 64 (bitsOf w 21 16))
    seq := Fin.ofNat 4 (bitsOf w 31 30)
    dst := BitVec.ofNat 64 (a.word 8)
    src := BitVec.ofNat 64 (a.word 0x10)
    len := BitVec.ofNat 64 (a.word 0x18)
    desc := BitVec.ofNat 64 (a.word 0x20)
    offset := a.word 0x28
    park := if bitOf p 0 && !resumed then some { park.getD ⟨fid, 0, 0, 0⟩ with fid := fid } else none
    outs := []
    unit := none
    rows := [] }

/-- Put the marks of QFENCEs back in their places. -/
def putMarks (q : Nat) (items : List CqItem) (marks : List (Nat × Nat × Nat)) : List CqItem :=
  (marks.filter fun m => decide (m.1 = q)).foldl (fun l m => l.take m.2.1 ++ [.fence m.2.2] ++ l.drop m.2.1) items

/-! ## Rings and the rest -/

def restoreRing (a : Area) : Ring :=
  let w0 := a.word 0
  let w1 := a.word 8
  let w2 := a.word 16
  let bits := ofBytes (tblGetRun 0 a.m (a.pa + 32) 32)
  let fre : BitVec 32 := BitVec.ofNat 32 w1
  let tkn : BitVec 32 := BitVec.ofNat 32 (w1 / 2 ^ 32)
  let pub : BitVec 32 := BitVec.ofNat 32 w2
  let clm : BitVec 32 := BitVec.ofNat 32 (w2 / 2 ^ 32)
  let n := bitsOf w0 32 24
  let r : Ring := ⟨clm, pub, tkn, fre, n, bitsOf w0 23 15, bitsOf w0 14 0, List.replicate n .free, []⟩
  let span (r : Ring) (lo hi : BitVec 32) (f : Bool → SlotSt) : Ring :=
    (List.range (hi - lo).toNat).foldl (fun r i =>
      let s := r.slotOf (lo + BitVec.ofNat 32 i)
      r.setState s (f (bitOf bits s))) r
  let r := span r fre tkn fun b => if b then .released else .taken
  let r := span r tkn pub fun _ => .filled
  span r pub clm fun b => if b then .filled else .claimed

def restoreBar (v : Nat) : Barrier := ⟨BitVec.ofNat 32 (v / 2 ^ 32), bitsOf v 27 16, bitsOf v 12 0, []⟩

def restoreMon (a : Area) (m : Nat) : Monitor :=
  ⟨BitVec.ofNat 18 (a.word (0x580240 + 16 * m)), BitVec.ofNat 5 (a.word (0x580248 + 16 * m)),
    Vector.ofFn fun i => a.word (0x580600 + 0x98 * m + 8 * i.val)⟩

/-! ## One core -/

/-- A core from its record; the scoreboard rows of its copy commands come after. -/
def Core.restore (k : Core) (a : Area) (sv : SavedCore) : Core :=
  let after := (sv.fences.filter fun f => f.mtx.isSome).map QFence.id
  let tags := (a.sparse 0x588000 0x10000 16).filterMap fun p =>
    if bitOf p.2 48 then some (p.1, (⟨BitVec.ofNat 48 p.2, BitVec.ofNat 16 (p.2 / 2 ^ 64)⟩ : TagEnt)) else none
  let counts := a.word 0x580228
  let k : Core := { k.fresh with
    spad := tblSlice a.m a.pa (a.pa + 0x400000)
    tiles := (a.sparse 0x400000 0x100000 8).filterMap fun p => let v : Acc := BitVec.ofNat 48 p.2; if v = 0 then none else some (p.1, v)
    lease := a.word 0x580200
    pace := Vector.ofFn fun i => a.word (0x580208 + 8 * i.val)
    mons := Vector.ofFn fun i => restoreMon a i.val
    acs := Vector.ofFn fun i =>
      let v := a.word (0x580300 + 8 * i.val)
      ⟨BitVec.ofNat 32 (v / 2 ^ 32), BitVec.ofNat 32 v, []⟩
    bars := Vector.ofFn fun i => restoreBar (a.word (0x580500 + 8 * i.val))
    rings := Vector.ofFn fun i => restoreRing (a.at (0x581000 + 64 * i.val))
    cqs := Vector.ofFn fun i =>
      ⟨putMarks i.val ((List.range (byteOf counts i.val)).map fun j =>
        .cmd (restoreCmd (a.at (0x582000 + 0x800 * i.val + 64 * j)) (if j = 0 then mapGet sv.parks (8 + i.val) else none)
          (sv.resumed.contains (8 + i.val)))) sv.marks, none⟩
    qfences := sv.fences
    tagPtr := a.sparse 0x586000 0x1000 1
    tags := tags
    front := restoreSlot (a.at 0x580000) k.mserial after ((sv.slots[0]?).getD ([], [], false))
    shadow := restoreSlot (a.at 0x580100) (k.mserial + 1) after ((sv.slots[1]?).getD ([], [], false))
    mserial := k.mserial + 2
    seqs := Vector.ofFn fun i => restoreSeq (a.at (0x500000 + 0x20000 * i.val)) sv i k.fresh.seqs[i.val] }
  { k with shadow := if k.sameTile then k.shadow.map k.refillShadow else k.shadow }

/-- The scoreboard entries of restored copy commands are made again (R145, R250 step 4). -/
def State.remakeRows (s : State) (c : CoreId) : State :=
  s.modCore c fun k => { k with cqs := k.cqs.map fun (x : CopyQ) => { x with items := x.items.map fun
    | .cmd m => .cmd { m with rows := s.copyRows c m }
    | .fence id => .fence id } }

/-! ## Placing a context on cores -/

/-- The rings of a logical core from the image it was booted from (R150, R245). -/
def ringOf (r : Nat × Nat × Nat × Nat) : Ring :=
  ⟨0, 0, 0, 0, r.2.2.1, r.2.2.2 / 128, r.2.1 / 128, List.replicate r.2.2.1 .free, []⟩

/-- The overlay loader sets the rings of a core; of two records that name one ring the first counts (DESIGN CHOICE, assumption log 105). -/
def Core.putRings (k : Core) (rs : List (Nat × Nat × Nat × Nat)) : Core :=
  { k with rings := Vector.ofFn fun i => match rs.find? (fun r => decide (r.1 = i.val)) with
      | some r => ringOf r
      | none => Ring.reset }

/-- A core that no context uses takes a context, in the state of its creation. -/
def State.place (s : State) (k : CtxId) (c : CoreId) : State :=
  match s.ctx? k with
  | none => s
  | some x => s.modCore c fun y =>
      ({ y.fresh with ctx := some k.ctx, tagWays := x.ways } : Core).putRings ((mapGet x.rings y.lcore).getD [])

/-! ## The Keeper log (R249) -/

def KEntry.before (a b : KEntry) : Bool :=
  decide (a.g.toNat < b.g.toNat) ||
    (decide (a.g = b.g) && (decide (a.lcore < b.lcore) || (decide (a.lcore = b.lcore) && decide (a.agent ≤ b.agent))))

def insertEntry (e : Nat × KEntry) : List (Nat × KEntry) → List (Nat × KEntry)
  | [] => [e]
  | x :: t => if x.2.before e.2 then x :: insertEntry e t else e :: x :: t

/-- The die to which the barriers of a die go: the one that now holds the logical cores that were on it (R241). -/
def barDie (cores : List CoreId) (sv : List SavedCore) (d : DieId) : DieId :=
  match sv.find? fun v => decide (v.die = d) with
  | some v => match cores[v.lcore]? with
    | some c => dieOfCore c
    | none => d
  | none => d

/-- Replay one entry into the restored barriers. -/
def State.replayEntry (s : State) (k : CtxId) (cores : List CoreId) (sv : List SavedCore) (e : Nat × KEntry) : State :=
  let d := barDie cores sv e.2.die
  let key := dbKey k e.2.bar
  let b := (mapGet (s.die d).bars key).getD Barrier.reset
  let put (v : Barrier) : State := s.modDie d fun x => { x with bars := mapPut x.bars key v }
  if e.2.cfg then put (b.config e.2.nval)
  else
    let s := put (b.arrive [])
    match cores[e.2.lcore]? with
    | none => s
    | some c =>
      let a := agentStrm e.2.agent
      s.modStrm c a.1 a.2 fun y =>
        if y.arr.toList[16 + e.2.bar.val]? = some (.pending e.1) then y.setArr (.db e.2.bar) (.gen b.gen) else y

/-! ## RESTORE (R250) -/

/-- The die barriers of a context are cleared on the dies that its saves switched out. -/
def State.clearOut (s : State) (k : CtxId) (vs : List Saved) : State :=
  let out := vs.foldl (fun b v => b ||| v.out) (0 : BitVec 4)
  (allDies.filter fun d => out.getLsbD d.val).foldl (fun s d => s.clearBars k d) s

/-- The barriers of the dies that a save switched out: each die's go to the die that now holds its logical cores. -/
def State.restoreBars (s : State) (k : CtxId) (cores : List CoreId) (v : Saved) (m : Memory) : State :=
  (allDies.filter fun d => v.out.getLsbD d.val).foldl (fun s d => (List.finRange 16).foldl (fun s n =>
    let b := restoreBar ((⟨m, v.pa⟩ : Area).word (0x100 + 0x80 * d.val + 8 * n.val))
    s.modDie (barDie cores v.cores d) fun x => { x with bars := mapPut x.bars (dbKey k n) b }) s) s

/-- One save area goes back into the cores that hold its logical cores. -/
def State.restoreArea (s : State) (k : CtxId) (cores : List CoreId) (v : Saved) : State :=
  let m := (s.die 0).view
  let s := s.bridleRun v.pa (saveSize v.cores.length)
  v.cores.zipIdx.foldl (fun s p =>
    match cores[p.1.lcore]? with
    | none => s
    | some c =>
      let s := s.place k c
      let s := s.modCore c (·.restore ⟨m, v.pa + 0x1000 + coreArea * p.2⟩ p.1)
      s.remakeRows c) s

/-- The offset of a context's Girth count after a restore: unchanged on its own package; on another it keeps real time, and never
takes the count back (R252). -/
def State.restoreGoff (s : State) (x : Ctx) (v : Saved) : Int :=
  match v.moved with
  | none => x.goff
  | some (delta, elapsed, g0) =>
    let a : Area := ⟨(s.die 0).view, v.pa⟩
    let g := signedOf 64 (a.word 0x18) + delta
    let least := Int.ofNat (a.word 0 + elapsed + (s.girth - g0))
    if Int.ofNat s.girth + g < least then least - Int.ofNat s.girth else g

/-- Cores that a restore puts a context on: those of its save areas, or all that no context uses. -/
def State.restoreCores (s : State) (x : Ctx) (cores : List CoreId) : List CoreId :=
  if x.saved.isEmpty then cores.filter fun c => (s.core c).ctx.isNone
  else (x.saved.flatMap (·.cores)).filterMap fun v => cores[v.lcore]?

/-- The preconditions of a restore, but for the rails: nothing of the context stops or freezes and its slice does not leave, the new cores have
equal shape, are fit and free of other contexts, no context of the slice runs on a core that it leaves, every share can be granted
again, and it is the slice's turn. -/
def State.restorable (s : State) (k : CtxId) (sl : Slice) (x : Ctx) (g : Grant) : Bool :=
  x.freeze.isNone && x.stops.isEmpty && decide (sl.freeing = 0) && s.sameShape sl.cores g.cores && s.coresFit k.slice g.cores &&
    ((s.coreMoves k.slice sl.cores g.cores).all fun m => !s.serves k.slice m || (s.core m.old).ctx.isNone) &&
    s.sharesFit k.slice sl g && s.turnToMove k.slice sl &&
    (s.restoreCores x g.cores).all (fun c => (s.core c).ctx.isNone) && !(s.restoreCores x g.cores).isEmpty

/-- The streams whose sections the loader is to fetch before the units restart, by logical core and number (R250 step 5). -/
def State.streamsToFetch (s : State) (cs : List CoreId) : List (Nat × Nat) :=
  cs.flatMap fun c => (List.range 8).filterMap fun a =>
    if (s.strm c (agentStrm a).1 (agentStrm a).2).st = .run then some ((s.core c).lcore, a) else none

/-- The state of a context whose save areas have gone back into some cores; its units wait for their sections, if there are any (R22, R250). -/
def State.resumed (s : State) (k : CtxId) (vs : List Saved) (cs : List CoreId) : State :=
  let last := vs.getLast?
  let todo := s.streamsToFetch cs
  (s.modSlice k.slice fun y => { y with parked := false }).modCtx k fun y => { y with
    saved := []
    klog := []
    switched := 0
    awaits := 0
    waking := if todo.isEmpty then 0 else s.lcoresOf cs
    toFetch := todo
    goff := match last with
      | some v => s.restoreGoff y v
      | none => y.goff
    rr := match last.bind (·.moved), last with
      | some _, some v => Vector.replicate 4 ((⟨(s.die 0).view, v.pa⟩ : Area).word 0x10)
      | _, _ => y.rr }

/-- Steps 1 to 4 of a restore: Bridle maps the logical cores and loads stage 2, writes the cores and the die barriers, and replays the Keeper
log; the sections come next (R250). -/
def State.putBack (s : State) (k : CtxId) (sl : Slice) (x : Ctx) (g : Grant) : State :=
  let cs := s.restoreCores x g.cores
  let s := if (s.coreMoves k.slice sl.cores g.cores).isEmpty then s else s.moveSlice k.slice sl g
  let s := (s.fwTab g.tables).modSlice k.slice fun y => { y with s2root := g.s2root, gpas := g.gpas }
  let s := s.shootDown (fun j _ => decide (j.slice = k.slice)) fun j => decide (j.slice = k.slice)
  let vs := match s.ctx? k with
    | some y => y.saved
    | none => []
  let s := if vs.isEmpty then cs.foldl (fun s c => s.place k c) s else vs.foldl (fun s v => s.restoreArea k g.cores v) s
  let s := vs.foldl (fun s v => s.restoreBars k g.cores v (s.die 0).view) (s.clearOut k vs)
  let log := (x.klog.zipIdx.map fun (p : KEntry × Nat) => (p.2, p.1)).foldl (fun l e => insertEntry e l) []
  let s := log.foldl (fun s e => s.replayEntry k g.cores (vs.flatMap (·.cores)) e) s
  (if x.switched = 0 then s else s.newKlog x.klogPa).resumed k vs cs

/-- A restore under the slice's own key. It moves the frames of dies that leave service (R282); while the rails rise it is pending (R279,
R280). -/
def State.restoreSame (s : State) (k : CtxId) (sl : Slice) (x : Ctx) (g : Grant) : State :=
  let ms := (s.leavingFrames k.slice).zip g.frames
  if !s.restorable k sl x g || decide (ms.length < (s.leavingFrames k.slice).length) || !wholeRows (ms.map (·.2)) ||
      !(ms.all fun m => s.frameQuiet m.1 && s.dieIn (homeOf (m.2 * 65536))) then s
  else if !s.railsUp k.slice sl.cores g.cores then s.modCtx k fun y => { y with awaits := State.diesOf g.cores }
  else
    match (s.moveSaved k.slice ms).bind (·.moveFrames ms) with
    | none => s
    | some s => s.putBack k sl x g

/-- A restore onto a fresh key moves the slice inside the package, a step at each event: room for it, the rounds of pre-copy, the stop, and once
its contexts are saved the switch and the restore of this one (R251, R261). -/
def State.restoreFresh (s : State) (k : CtxId) (sl : Slice) (x : Ctx) (g : Grant) : State :=
  match mapGet s.migrating k.slice.val with
  | none => s.startMove k.slice sl g
  | some m =>
    match m.dest with
    | .package _ => s
    | .here h =>
      if h.keyId ≠ g.keyId then s
      else
        let r := s.moveStep k.slice sl m
        if !r.2 then r.1
        else if !s.restorable k sl x g || !s.railsUp k.slice sl.cores g.cores then s
        else
          match s.switchKey k.slice sl m h g with
          | none => s
          | some s => s.putBack k { sl with keyId := h.keyId, oldKey := some sl.keyId } x g

/-- RESTORE: Bridle puts a context back on cores (R250). No context of a slice that has stopped for a move is restored before the move is over
(R251). -/
def execRestore (k : CtxId) (g : Grant) (s : State) : Out :=
  match s.slice? k.slice, s.ctx? k with
  | some sl, some x =>
    .next (if g.keyId ≠ sl.keyId then s.restoreFresh k sl x g
      else if (mapGet s.migrating k.slice.val).any fun m => decide (m.s ≠ 0) then s
      else s.restoreSame k sl x g)
  | _, _ => .next s

end Sys2Proof.Machine
end

