-- ==== Sys2Proof/Machine/Freeze.lean ====
section
/-!
DEFINITION. The freeze of a context after a context-fatal trap and its Saddlebag (11_translation R213 to R216).
-/
namespace Sys2Proof.Machine

/-! ## The Saddlebag -/

/-- Row of R82's table that holds a stream; a wait on a locked object counts as one on the object (R270). A stream that is
parked or trapped shows 0, as STATE tells it (DESIGN CHOICE, assumption log 108). -/
def Stream.stallRow (y : Stream) : Nat :=
  match y.st, y.stall with
  | .run, some (n, _) => if 100 ≤ n then 1 else n
  | _, _ => 0

/-- One stream of a sequencer part (R216). -/
def Stream.bagParts (y : Stream) (off : Nat) : List Part :=
  [w8 off y.hdr.toNat, w8 (off + 8) (y.off % 4096 + y.code * 2 ^ 12 + y.stallRow * 2 ^ 16 + y.nr.toNat * 2 ^ 32)]

/-- Entries of a queue; a place reserved for a load that has not landed is none (R75). -/
def qLanded {α : Type} (l : List (QEnt α)) : Nat := (l.filter fun e => match e with | .val _ => true | .rsv _ => false).length

def CinchSt.code : CinchSt → Nat
  | .free => 0
  | .want => 1
  | .hold => 2

/-- A sequencer part of 64 bytes. -/
def Seq.bagParts (x : Seq) (cinch : CinchSt) : List Part :=
  if x.st = .idle then [w8 8 (5 * 2 ^ 12), w8 0x18 (5 * 2 ^ 12)]
  else
    let dq := (x.dq.toList.zipIdx.map fun p => qLanded p.1 * 2 ^ (5 * p.2)).foldl (· + ·) 0
    let bq := (x.bq.toList.zipIdx.map fun p => qLanded p.1 * 2 ^ (40 + 5 * p.2)).foldl (· + ·) 0
    x.a.bagParts 0 ++ x.c.bagParts 0x10 ++
      [w8 0x20 (dq + bq), w8 0x28 (qLanded x.fq + cinch.code * 2 ^ 5), w8 0x30 x.grpid.toNat,
       w8 0x38 (x.flags.toNat + x.slip.toNat * 2 ^ 8)]

/-- The matrix part. -/
def Core.bagMatrix (k : Core) : List Part :=
  let one (m : Option MCmd) (f : MCmd → Nat) : Nat := match m with
    | some m => f m
    | none => 0
  [w8 0 (b2n k.front.isSome + b2n k.shadow.isSome * 2 + one k.front (·.atd.val) * 2 ^ 8 + one k.shadow (·.atd.val) * 2 ^ 16 +
     one k.front (·.seq.val) * 2 ^ 24 + one k.shadow (·.seq.val) * 2 ^ 26),
   w8 8 (one k.front (·.c) % 2 ^ 16 + one k.shadow (·.c) % 2 ^ 16 * 2 ^ 16 + one k.front MCmd.beats % 2 ^ 16 * 2 ^ 32 +
     one k.shadow MCmd.beats % 2 ^ 16 * 2 ^ 48),
   w8 0x10 (one k.front (·.fmt.toNat)), w8 0x18 (one k.shadow (·.fmt.toNat))]

/-- A copy-queue part. -/
def CopyQ.bagParts (x : CopyQ) (pc : CopyCmd → Nat) (off : Nat) : List Part :=
  match x.cmds with
  | [] => []
  | m :: _ =>
    [w8 off (x.cmds.length + (if m.park.isSome then 2 else 1) * 2 ^ 6 + pc m % 2 ^ 32 * 2 ^ 32), w8 (off + 8) m.dst.toNat]

/-- The record of a core that holds the context. -/
def Core.bagParts (k : Core) (pc : CopyCmd → Nat) : List Part :=
  (k.seqs.toList.zipIdx.flatMap fun p => shiftParts (64 * p.2) (p.1.bagParts ((k.cinch.toList[p.2]?).getD .free))) ++
    shiftParts 0x100 k.bagMatrix ++ k.cqs.toList.zipIdx.flatMap fun p => p.1.bagParts pc (0x140 + 16 * p.2)

/-- The record of a logical core that holds nothing of the context. -/
def bagEmpty : List Part := (List.range 4).flatMap fun i => shiftParts (64 * i) [w8 8 (5 * 2 ^ 12), w8 0x18 (5 * 2 ^ 12)]

/-- The header of a Saddlebag (R215); its counts are context Girth counts (R235). -/
def Freeze.parts (f : Freeze) (goff : Int) (l : Nat) : List Part :=
  let g (n : Nat) : Nat := wrapInt 64 (Int.ofNat n + goff)
  [w8 0 (g f.f), w8 8 (g f.g),
   w8 0x10 (f.kind % 256 + f.cause % 256 * 2 ^ 8 + f.lcore % 64 * 2 ^ 16 + f.agent % 256 * 2 ^ 24 + l * 2 ^ 32 + f.second * 2 ^ 48),
   w8 0x18 f.addr.toNat, w8 0x20 f.detail.toNat,
   w8 0x28 (bitsOf f.word.toNat 95 64 + bitsOf f.word.toNat 63 32 * 2 ^ 32),
   w8 0x30 f.sechdr.toNat, w8 0x38 (f.off % 4096)]

/-- The parts of a whole Saddlebag. -/
def State.bagParts (s : State) (k : CtxId) (sl : Slice) (x : Ctx) (f : Freeze) : List Part :=
  f.parts x.goff sl.cores.length ++ sl.cores.zipIdx.flatMap fun p =>
    shiftParts (0x40 + 512 * p.2) (if (s.core p.1).ctxId = some k then (s.core p.1).bagParts s.microPc else bagEmpty)

/-- A byte of a list of parts. -/
def partByte (ps : List Part) (i : Nat) : Byte :=
  match ps.find? fun p => decide (p.1 ≤ i) && decide (i < p.1 + p.2.length) with
  | some p => (p.2[i - p.1]?).getD 0
  | none => 0

/-- The pages of a run of a context's memory: place, length, device physical address and KEYID, and the D-bit writes asked for. -/
def State.bagPages (s : State) (k : CtxId) : Nat → Nat → Nat → Nat → Ans (List (Nat × Nat × Nat × Nat) × List Nat) × State
  | 0, _, _, _ => (.ok ([], []), s)
  | m + 1, va, off, n =>
    if n = 0 then (.ok ([], []), s)
    else
      let here := min n (65536 - va % 65536)
      match s.engPage 0 k va .w with
      | (.wait, s) => (.wait, s)
      | (.fail, s) => (.fail, s)
      | (.ok (a, ds), s) =>
        match s.bagPages k m (va + here) (off + here) (n - here) with
        | (.ok (r, es), s) => (.ok ((off, here, a.1, a.2) :: r, ds ++ es), s)
        | r => r

/-- Write the Saddlebag, in unassigned positions (R265); nothing of it when a page fails (R215). `wait` while a line of a table may not be read
yet, or a D bit is not set (R200). -/
def State.writeBag (s : State) (k : CtxId) (sl : Slice) (x : Ctx) (f : Freeze) : Ans Unit × State :=
  let n := 64 + 512 * sl.cores.length
  let ps := s.bagParts k sl x f
  match s.bagPages k 3 x.saddlebag.toNat 0 n with
  | (.wait, s) => (.wait, s)
  | (.fail, s) => (.fail, s)
  | (.ok (pages, ds), s) =>
    if s.allDone ds then
      (.ok (), pages.foldl (fun s p => (s.bridleRun p.2.2.1 p.2.1).fwPut p.2.2.2 p.2.2.1
        ((List.range p.2.1).map fun i => some (partByte ps (p.1 + i)))) s)
    else (.wait, s)

/-! ## CONTEXT_FREEZE (R214) -/

/-- The records of the groups in a save area. -/
def State.savedRecs (s : State) (v : Saved) : List (DieId × Rec) :=
  let m := (s.die 0).view
  v.cores.zipIdx.flatMap fun p => allSeqs.filterMap fun q =>
    let a : Area := ⟨m, v.pa + 0x1000 + coreArea * p.2 + 0x500000 + 0x20000 * q.val⟩
    if bitOf (a.word 0x18388) 0 then some (p.1.die, ⟨Vector.ofFn fun i => BitVec.ofNat 64 (a.word (0x183C0 + 8 * i.val)), 0⟩) else none

/-- What a freeze discards, once the Saddlebag is written: all work in flight, each record that was running credited fatal, the core
state. Cores of a die that is being emptied are left (R282). -/
def State.freezeCtx (s : State) (k : CtxId) (x : Ctx) : State :=
  let s := (x.saved.flatMap s.savedRecs).foldl (fun s p => s.creditRec p.1 k p.2 .fatal false) s
  let cs := s.coresOf k
  let s := s.discard k cs .fatal Core.fresh
  let s := cs.foldl (fun s c => if s.dieIn (dieOfCore c) then s else s.offStop c) s
  let s := allDies.foldl (fun s d => s.clearBars k d) s
  s.modCtx k fun y => { y with
    freeze := none
    stops := []
    hold := true
    saved := []
    klog := []
    switched := 0
    awaits := 0
    waking := 0
    toFetch := [] }

/-- CONTEXT_FREEZE: at F Bridle writes the Saddlebag from the state at F, which no unit of the context changes any more; then comes
the discard, and the ready lists pop none until a THAW. -/
def execContextFreeze (k : CtxId) (s : State) : Out :=
  match s.slice? k.slice, s.ctx? k with
  | some sl, some x =>
    match x.freeze with
    | none => .next s
    | some f =>
      if s.girth < f.f then .next s
      else
        match s.writeBag k sl x f with
        | (.wait, s) => .next s
        | (_, s) => .next (s.freezeCtx k x)
  | _, _ => .next s

end Sys2Proof.Machine
end

