-- ==== Sys2Proof/Machine/Margin.lean ====
section
/-!
DEFINITION. Margin, droop, rail and heat (15_margin R272 to R282): Bridle's margin register, the replay window, the droop
sequence, the rail votes, and the passing of one tick (00_scope R1 to R3).
-/
namespace Sys2Proof.Machine

/-! ## Margin -/

/-- REPLAY_WINDOW_END: at a multiple of 2^20 cycles COUNT returns to 0 (R273). -/
def execReplayWindowEnd (c : CoreId) (s : State) : Out := .next (s.modCore c Core.endWindow)

/-- MCR as a core stores a write of it: BSTEP at most BTOP, MARGIN at most 4m + 3, QREQ cleared by a 1 (R272, R274). -/
def Core.putMcr (k : Core) (v : Word) (now : Nat) : Core :=
  let btop := bitsOf v.toNat 15 12
  let k := { k with btop := btop, margin := min (bitsOf v.toNat 11 8) (4 * k.mclass.val + 3), guar := v.getLsbD 2 || k.qtag.isSome }
  let k := k.setBstep (min (bitsOf v.toNat 19 16) btop) now
  if v.getLsbD 3 then { k with qreq := false, escal := if k.escal = .quar then .run else k.escal } else k

/-- MCR_WRITE by Bridle. -/
def execMcrWrite (c : CoreId) (v : BitVec 64) (s : State) : Out := .next (s.modCore c (·.putMcr v s.girth))

/-- BIAS_SETTLE: changes of BSTEP that are due reach the transistors (R272). -/
def execBiasSettle (c : CoreId) (s : State) : Out :=
  .next (s.modCore c fun k => { k with
    bstepEff := (k.settle.filter fun p => decide (p.1 ≤ s.girth)).foldl (fun _ p => p.2) k.bstepEff
    settle := k.settle.filter fun p => decide (s.girth < p.1) })

/-! ## Droop (R276, R277) -/

/-- The activity step of a core's cycle. -/
def Core.activity (k : Core) : Nat :=
  ((k.wakes.filter fun w => decide (k.cyc ≤ w.1 + 3)).map (·.2)).foldl (· + ·) 0

/-- A trigger: counted once in a cycle; it begins a sequence unless one is in its stretch (R277). -/
def Core.droop (k : Core) (mv : Nat) : Core :=
  if k.trig = some k.cyc then k
  else
    let k := { k.monitor 5 mv with trig := some k.cyc }
    match k.droopAt with
    | some n => if k.cyc ≤ n + 6 then k else { k with phase := .stretch k.cyc, half := false }
    | none => { k with phase := .stretch k.cyc, half := false }

/-- DROOP_TRIGGER: the detector finds a measured droop or an activity step at its threshold. -/
def execDroopTrigger (c : CoreId) (mv : BitVec 8) (s : State) : Out :=
  .next (s.modCore c fun k =>
    if (k.vth ≠ 0 ∧ k.vth ≤ mv.toNat) ∨ (k.stepth ≠ 0 ∧ k.stepth ≤ k.activity) then k.droop mv.toNat else k)

/-- DROOP_STRETCH_END: after six stretched cycles halved issue begins. -/
def execDroopStretchEnd (c : CoreId) (s : State) : Out :=
  .next (s.modCore c fun k =>
    match k.phase with
    | .stretch n => if n + 7 ≤ k.cyc then { k with phase := .halved n } else k
    | _ => k)

/-- HALVED_ISSUE_END: after 64 cycles of halved issue the core is normal. -/
def execHalvedIssueEnd (c : CoreId) (s : State) : Out :=
  .next (s.modCore c fun k =>
    match k.droopAt with
    | some n => if n + 71 ≤ k.cyc then { k with phase := .normal } else k
    | none => k)

/-! ## Time (R1 to R3) -/

/-- A core lives through one tick: the second tick of a stretched cycle, or a new cycle. As a cycle ends, the Cinch's lease is renewed
or ends (R125) and a trigger by activity begins; phases that have run out end. -/
def Core.tick (k : Core) : Core :=
  if k.stretched && !k.half then { k with half := true }
  else
    let trig := decide (k.stepth ≠ 0) && decide (k.stepth ≤ k.activity)
    let k := (if trig then k.droop 0 else k).cinchTick
    let k := { k with cyc := k.cyc + 1, half := false }
    match k.phase with
    | .stretch n => if n + 7 ≤ k.cyc then { k with phase := .halved n } else k
    | .halved n => if n + 71 ≤ k.cyc then { k with phase := .normal } else k
    | .normal => k

/-- One tick passes: its faults take their numbers, invalidations go on, every core's clock runs, and the Girth count once it has been
started; write acknowledgements whose tick has come are at their cores (R176). -/
def State.tick (s : State) : State :=
  let s := s.numberFaults.stepInvals
  let s := { s with acks := s.acks.filter fun p => decide (s.girth < p.2) }
  let s := { s with cores := s.cores.map Core.tick }
  if s.girthOn then { s with girth := s.girth + 1 } else s

/-! ## The rail (R279, R280) -/

/-- Slices that vote on a die. -/
def State.voters (s : State) (d : DieId) : List (Fin 32) :=
  (List.finRange 32).filter fun n => s.voting d n && decide ((s.die d).votes[n.val] ≠ 0)

/-- The rail set point: the highest vote of a voting slice, or 650 mV. -/
def State.setPoint (s : State) (d : DieId) : Nat :=
  match (s.voters d).map fun n => (s.die d).votes[n.val] with
  | [] => 650
  | v :: t => t.foldl max v

/-- The highest voters of a die. -/
def State.topVoters (s : State) (d : DieId) : List (Fin 32) :=
  (s.voters d).filter fun n => decide ((s.die d).votes[n.val] = s.setPoint d)

/-- The rail follows a set point that has changed: it rises towards a higher one; when the highest voter has stopped voting it is held; in a
hold or a fall a lower vote changes only the target, and a hold begins anew when the highest voter next exits, `exits` (R280). -/
def Die.follow (x : Die) (sp now : Nat) (exits : Bool) : Die :=
  let y := { x with setp := sp }
  match x.rail with
  | .rise _ => if sp < x.setp then (if sp ≤ x.railMv then { y with rail := .hold (now + 8000) false } else y) else y
  | .hold _ _ | .fall _ _ =>
    if x.railMv < sp then { y with rail := .rise (now + 400) }
    else if exits && decide (sp < x.setp) then { y with rail := .hold (now + 8000) false }
    else y
  | .steady | .stopped =>
    if x.railMv < sp then { y with rail := .rise (now + 400) }
    else if sp < x.setp then { y with rail := .hold (now + 8000) false }
    else y

/-- The rail makes the step that is due (R280). -/
def Die.railMove (x : Die) (now : Nat) : Die :=
  match x.rail with
  | .rise next =>
    if x.setp ≤ x.railMv then { x with rail := .steady }
    else if next ≤ now then
      { x with railMv := x.railMv + 10, rail := if x.setp ≤ x.railMv + 10 then .steady else .rise (next + 400) }
    else x
  | .fall next raised =>
    if x.railMv < x.setp + 10 then { x with rail := .steady }
    else if raised && decide (next ≤ now) then
      { x with railMv := x.railMv - 10, rail := if x.railMv < x.setp + 20 then .steady else .fall (next + 800) false }
    else x
  | .steady | .hold _ _ | .stopped => x

/-- RAIL_STEP: the rail follows its set point and moves one step when that is due (R280). -/
def execRailStep (d : DieId) (s : State) : Out :=
  if (s.die d).offline then .next s
  else
    let x := s.die d
    let exits := x.tops.any fun n => !(s.voters d).contains n
    .next (s.setDie d { (x.follow (s.setPoint d) s.girth exits).railMove s.girth with tops := s.topVoters d })

/-- RAIL_HOLD_END: the hold is over and the rail may begin to fall. -/
def execRailHoldEnd (d : DieId) (s : State) : Out :=
  .next (s.modDie d fun x =>
    match x.rail with
    | .hold till raised => if till ≤ s.girth then { x with rail := .fall till raised } else x
    | _ => x)

/-- The remaining cores of a die: those in service (R274, R280). -/
def State.dieCores (s : State) (d : DieId) : List CoreId :=
  allCores.filter fun c => decide (dieOfCore c = d) && decide ((s.core c).escal ≠ .quar)

/-- The tick of the downward step for which the bias is still to be raised. -/
def Die.fallDue (x : Die) : Option Nat :=
  if x.railMv < x.setp + 10 then none
  else match x.rail with
    | .hold till false => some till
    | .fall next false => some next
    | _ => none

/-- BIAS_RAISE_FOR_FALL: 100 ticks before a downward step every remaining core of the die rises one bias step; a core at BTOP
stops the fall, which is recorded (R280). -/
def execBiasRaiseForFall (d : DieId) (s : State) : Out :=
  let x := s.die d
  match x.fallDue with
  | none => .next s
  | some t =>
    if s.girth + 100 < t then .next s
    else if (s.dieCores d).any fun c => decide ((s.core c).btop ≤ (s.core c).bstep) then
      .next (s.setDie d { x with rail := .stopped, stops := x.stops + 1 })
    else
      let s := (s.dieCores d).foldl (fun s c => s.modCore c fun k => k.setBstep (k.bstep + 1) s.girth) s
      .next (s.setDie d { x with rail := match x.rail with | .hold till _ => .hold till true | _ => .fall t true })

end Sys2Proof.Machine
end

