-- ==== Sys2Proof/Machine/Bridle.lean ====
section
/-!
DEFINITION. Bridle's registers (R12, R172 to R178, R254, R272 to R281), quarantine (15_margin R275), heat and the loss of a die
(R30, R281 to R283).
-/
namespace Sys2Proof.Machine

/-! ## Registers -/

/-- VOTE as stored: 0, or 600 to 900 (R279). -/
def voteVal (v : Nat) : Nat := if v = 0 then 0 else min (max v 600) 900

/-- Tokens a bucket would add beside those of the others at its port: at most 256 in 256 ticks (R173). -/
def Die.rateFits (x : Die) (p : Fin 8) (k : CtxId) (rate : Nat) : Bool := decide (x.rates p - (x.bucket p k).rate + rate ≤ 256)

/-- A share of a port fits beside those of the other slices (R254). -/
def FabPort.shareFits (p : FabPort) (sl : Fin 32) (share : Nat) : Bool := decide (p.shared - (p.share sl.val).share + share ≤ 256)

/-- BRIDLE_REGISTER_WRITE: Bridle writes a register that no other row writes. A rate or a share that would take the sum over 256 is no
write of Bridle's (assumption log 89). -/
def execBridleRegisterWrite (r : BridleReg) (v : BitVec 64) (s : State) : Out :=
  let n := v.toNat
  .next <| match r with
  | .dcway d sl => s.modDie d fun x => { x with dcway := x.dcway.set sl.val (BitVec.ofNat 16 n) }
  | .dctb d p k => s.modDie d fun x =>
      let b := x.bucket p k
      let depth := bitsOf n 31 16
      let rate := min (bitsOf n 15 0) 256
      if x.rateFits p k rate then x.setBucket p k { depth := depth, rate := rate, level := min b.level depth } else x
  | .hcal st ch pos =>
      let c := chanNo st.val ch.val
      s.setChan c ((s.chan c).setOwner pos.val (bitsOf n 6 0))
  | .actcfg st ch =>
      let c := chanNo st.val ch.val
      s.setChan c { s.chan c with bowin := bitsOf n 23 16, actth := max (bitsOf n 15 0) 8 }
  | .fabsh port sl =>
      let p := s.fabPort port.val
      if p.shareFits sl (bitsOf n 7 0) then
        s.setFabPort port.val { p with shares := mapPut p.shares sl.val { p.share sl.val with share := bitsOf n 7 0, burst := bitsOf n 15 8 } }
      else s
  | .replim c => s.modCore c fun k => { k with limit := bitsOf n 19 0 }
  | .droopth c => s.modCore c fun k => { k with vth := bitsOf n 31 24, stepth := bitsOf n 15 0 }
  | .vote d sl => s.modDie d fun x => { x with votes := x.votes.set sl.val (voteVal (bitsOf n 9 0)) }
  | .therm d => s.modDie d fun x => { x with twarn := bitsOf n 15 8, temerg := bitsOf n 7 0 }
  | .leaseLimit c => s.modCore c fun k => { k with leaseLim := max 1 (min (bitsOf n 8 0) 256) }
  | .paceLimit c i => s.modCore c fun k => { k with paceLim := k.paceLim.set i.val (bitsOf n 15 0) }
  | .dirtyMax => { s with dirtyMax := n }

/-! ## Quarantine (R240, R275) -/

/-- QUARANTINE_INPUT: Bridle checkpoints the context of a core whose margin is exhausted, on all its cores, at the tagged count plus
256. A core with no context leaves service at once. -/
def execQuarantineInput (c : CoreId) (s : State) : Out :=
  match (s.core c).qtag with
  | none => .next s
  | some t =>
    match (s.core c).ctxId with
    | some k => .next (s.checkpoint k (t + 256) 3)
    | none => .next (s.quarantine c)

/-! ## Heat (R281, R282) and faults (R30) -/

/-- Contexts with a core on a die. -/
def State.ctxsOn (s : State) (d : DieId) : List CtxId :=
  s.allCtxs.filter fun k => (s.coresOf k).any fun c => decide (dieOfCore c = d)

/-- A die begins to be emptied: every context with a core on it is checkpointed on all its cores (R282 step 1). -/
def State.emptyDie (s : State) (d : DieId) : State :=
  let s := s.modDie d fun x => { x with emptying := true }
  (s.ctxsOn d).foldl (fun s k => s.checkpoint k (s.girth + 256) 0) s

/-- Frames of a slice on the stacks of a die. -/
def State.framesAt (s : State) (n : Fin 32) (d : DieId) : List Nat := (s.framesOf n.val).filter fun f => decide (homeOf (f * 65536) = d)

/-- A context of a slice is on a core. -/
def State.sliceRuns (s : State) (n : Fin 32) (x : Slice) : Bool := (x.ctxIds n).any fun k => !(s.coresOf k).isEmpty

/-- A slice keeps a die that is being emptied in service (R282 steps 2, 3, 5): its frames there have still to be copied and there is room for them,
or for those of its save areas; its frames stay there and a context of it still runs; or it could be restored elsewhere now. -/
def State.owesDie (s : State) (d : DieId) (n : Fin 32) (x : Slice) : Bool :=
  let stay := s.framesAt n d
  let areas := (s.areaFrames n).filter stay.contains
  (!stay.isEmpty && (s.roomFor n || s.sliceRuns n x)) || (!areas.isEmpty && decide (areas.length ≤ s.freeCount)) ||
    (s.uprooted n x && (s.leavingFrames n).isEmpty && s.placeable n x)

/-- The slices, with their numbers. -/
def State.allSlices (s : State) : List (Fin 32 × Slice) := (List.finRange 32).filterMap fun n => (s.slice? n).map fun x => (n, x)

/-- Contexts of slices whose frames must stay on a die that is being emptied are stopped: these slices stay parked (R282 step 5). -/
def State.stopStranded (s : State) (d : DieId) : State :=
  s.allSlices.foldl (fun s p =>
    if (s.framesAt p.1 d).isEmpty || s.roomFor p.1 then s
    else (p.2.ctxIds p.1).foldl (fun s k =>
      if (s.ctx? k).all fun y => y.stops.isEmpty then s.checkpoint k (s.girth + 256) 0 else s) s) s

/-- The slices that a die leaves unplaced, with frames on it or cores to come, stay parked until there is room again (R30, R282 step 5). -/
def State.parkOn (s : State) (d : DieId) : State :=
  s.allSlices.foldl (fun s p =>
    if !(s.framesAt p.1 d).isEmpty || s.uprooted p.1 p.2 then s.modSlice p.1 fun y => { y with parked := true } else s) s

/-- An emptied die goes offline once no context is on it and every slice has been moved that can be: its cores and rail power down, and its Bridle
core stops (R282 step 4). -/
def State.settleDie (s : State) (d : DieId) : State :=
  if !(s.die d).emptying || (s.die d).offline then s
  else if !(s.ctxsOn d).isEmpty || s.allSlices.any fun p => s.owesDie d p.1 p.2 then s.stopStranded d
  else (s.parkOn d).modDie d fun x => { x with offline := true, bridle := false, rail := .steady, railMv := 0, cache := [] }

/-- Dies in service whose last reading, taken at a count, has reached TEMERG. -/
def State.hotDies (s : State) (g : Nat) : List DieId :=
  allDies.filter fun d => s.dieIn d && decide ((s.die d).readAt = some g) && decide ((s.die d).temerg ≤ (s.die d).tnow)

/-- The hottest of some dies, the lowest-numbered among equals. -/
def State.hottest (s : State) : List DieId → Option DieId
  | [] => none
  | d :: t =>
    match s.hottest t with
    | none => some d
    | some e => if (s.die d).tnow < (s.die e).tnow then some e else some d

/-- When every die in service has reported at a count, an emergency is taken, one die at a time (R281): the hottest first, and when that
is offline the next of the same count. -/
def State.takeEmergency (s : State) (g : Nat) : State :=
  let all := allDies.all fun d => (s.die d).offline || decide ((s.die d).readAt = some g)
  let busy := allDies.any fun d => (s.die d).emptying && !(s.die d).offline
  if !all || busy then s
  else
    match s.hottest (s.hotDies g) with
    | some d => s.emptyDie d
    | none => s

/-- THERMAL_READING: every 8,192 ticks a die reports its hottest sensor; one at TWARN or above is counted, and halves issue on the die's
cores from then on (R281). Both stacks of the die count as hot from 85 °C. -/
def execThermalReading (d : DieId) (celsius : BitVec 8) (s : State) : Out :=
  let g := s.girth
  if !s.girthOn || decide (g % 8192 ≠ 0) then .next s
  else
    let t := celsius.toNat
    let w := decide ((s.die d).twarn ≤ t)
    let s := s.settleDie d
    let s := s.modDie d fun x => { x with
      tnow := t
      warned := w
      readAt := some g
      hot := Vector.replicate 2 (decide (85 ≤ t))
      coolSince := if 85 ≤ t then none else match x.coolSince with
        | some n => some n
        | none => some g }
    let s := if w then s.modDie d fun x => { x with warns := x.warns + 1 } else s
    let s := allCores.foldl (fun s c => if dieOfCore c = d then
      s.modCore c fun k => { k with warn := if w then some (k.warn.getD k.cyc) else none } else s) s
    .next (s.takeEmergency g)

/-- DIE_FAULT: a die is taken offline after a fault; every context with cores on it is stopped and saved (R30). For a die that is being
emptied it goes on: once no context is left there the die is offline, and the next emergency of its readings is taken. -/
def execDieFault (d : DieId) (s : State) : Out :=
  if s.dieIn d then .next (s.emptyDie d)
  else
    match (s.die d).readAt with
    | some g => .next ((s.settleDie d).takeEmergency g)
    | none => .next (s.settleDie d)

/-- DIE_RETURN: after 8,000,000 ticks below 85 °C an offline die returns, its Bridle core first; parked slices are restored as any that wait, in
descending priority (R282). -/
def execDieReturn (d : DieId) (s : State) : Out :=
  let x := s.die d
  match x.coolSince with
  | some t =>
    if x.offline && decide (t + 8000000 ≤ s.girth) then
      .next (s.setDie d { x with bridle := true, offline := false, emptying := false, railMv := 650, setp := 650, rail := .steady })
    else .next s
  | none => .next s

end Sys2Proof.Machine
end

