-- ==== Sys2Proof/Machine/HostCmd.lean ====
section
/-!
DEFINITION. Host access and commands (16_host R284 to R287; R204, R211, R214, R217, R219, R225, R229, R231, R251, R253, R262):
function registers, the memory window, and the commands of virtual and physical functions. A command is in progress from its
doorbell until its event has written STATUS; an event that cannot finish yet leaves BUSY set and is repeated.
-/
namespace Sys2Proof.Machine

/-! ## Functions -/

/-- A function is there for the host: the physical function once exposed, a virtual one while bound (R290). -/
def State.fnVisible (s : State) (f : FnId) : Bool :=
  s.linksUp && (if f.fn = 0 then s.pfVisible else (s.fnSlice f).isSome)

/-- FUNCTION_REGISTER_WRITE: a host write to the function block takes its turn at the mailbox (R195, R284). -/
def execFunctionRegisterWrite (f : FnId) (off : BitVec 16) (n : Fin 9) (v : BitVec 64) (s : State) : Out :=
  if s.fnVisible f then .next ((s.answer f .none).hostArrive f (.reg off.toNat n.val v)) else .next (s.refuse f)

/-! ## The memory window (R259, R284) -/

/-- HOST_WINDOW_WRITE: it takes its turn at the mailbox, and is translated and checked there (R195, R259, R284). -/
def execHostWindowWrite (f : FnId) (off : BitVec 32) (bytes : List Byte) (s : State) : Out :=
  if s.fnVisible f then .next ((s.answer f .none).hostArrive f (.win off.toNat bytes)) else .next (s.refuse f)

/-- Read the pieces of a run: device memory in the view of the port's die, host memory as the function reaches it. -/
def State.winRead (s : State) (f : FnId) : List WinPiece → EngRes
  | [] => .ok []
  | o :: t =>
    let d := portDie f.port
    let here : EngRes := match o with
      | .dev pa key bs =>
        if s.readableRun d key pa bs.length then
          match s.readBytes d key pa bs.length with
          | some bs => .ok bs
          | none => .fail
        else .wait
      | .host addr bs => .ok (tblGetRun 0 s.hostMem (hostKey f addr) bs.length)
    match here, s.winRead f t with
    | .ok a, .ok b => .ok (a ++ b)
    | .fail, _ | .ok _, .fail => .fail
    | .wait, _ | .ok _, .wait => .wait

/-- HOST_WINDOW_READ: it comes behind the mailbox's writes; a read that fails completes with Completer Abort (R284); one that has to wait
comes again. -/
def execHostWindowRead (f : FnId) (off : BitVec 32) (n : Nat) (s : State) : Out :=
  if !s.fnVisible f then .next (s.refuse f)
  else if !(s.fn f).hostOut.isEmpty || !(s.fn f).hostQ.isEmpty then .next (s.answer f .none)
  else
    match s.winRun f .r off.toNat (List.replicate n 0) with
    | (.ok (ps, _), s) =>
      match s.winRead f ps with
      | .ok bs => .next (s.answer f (.data bs))
      | .wait => .next (s.answer f .none)
      | .fail => .next (s.answer f .abort)
    | (.wait, s) => .next (s.answer f .none)
    | (.fail, s) => .next (s.answer f .abort)

/-- PCIE_ATOMIC_FETCHADD: a 64-bit FetchAdd, one step at the home of its bytes, in its turn at the mailbox (R195, R219). -/
def execPcieAtomicFetchadd (f : FnId) (off : BitVec 32) (v : BitVec 64) (s : State) : Out :=
  if s.fnVisible f && decide (off.toNat % 8 = 0) then .next ((s.answer f .none).hostArrive f (.add off.toNat v)) else .next (s.refuse f)

/-! ## Commands in progress (R285, R286) -/

/-- The command of a code that a function has in progress. -/
def State.cmdOf (s : State) (f : FnId) (code : Nat) : Option FnBlk :=
  let x := s.fn f
  if x.busy && decide (x.code = code) then some x else none

/-- A command ends. -/
def State.finish (s : State) (f : FnId) (status : Nat) (result : Word) : State :=
  s.modFn f fun x => { x with busy := false, status := BitVec.ofNat 8 status, result := result, waits := [] }

/-- Run a command of a virtual function; the slice it belongs to comes with it. -/
def vfCmd (f : FnId) (code : Nat) (s : State) (go : FnBlk → Fin 32 → Slice → State) : Out :=
  match s.cmdOf f code, s.fnSlice f with
  | some b, some (n, x) => .next (go b n x)
  | _, _ => .next s

/-- A context named by an argument word: a number above 7 is outside its range and gives STATUS 2, an absent context STATUS 4
(R286). -/
def State.withCmdCtx (s : State) (f : FnId) (n : Fin 32) (arg : Word) (go : CtxId → Ctx → State) : State :=
  let k : CtxId := ⟨n, Fin.ofNat 8 arg.toNat⟩
  if 8 ≤ arg.toNat then s.finish f 2 0
  else
    match s.ctx? k with
    | some x => go k x
    | none => s.finish f 4 0

/-! ### Contexts -/

/-- log2 of the fault queue's entry count, and log2 of the tag table's ways, as CTXCREATE's words 4 and 5 give them; the words'
other bits are ignored (R286, R11). -/
def FnBlk.faultLog2 (b : FnBlk) : Nat := (b.arg 4).toNat % 16
def FnBlk.wayLog2 (b : FnBlk) : Nat := (b.arg 5).toNat % 4

/-- Arguments of CTXCREATE in their ranges; a Saddlebag address off its 64-byte alignment (R215) is outside its range (DEDUCED,
assumption log 40). -/
def ctxArgsOk (b : FnBlk) : Bool :=
  decide ((b.arg 0).toNat < 8) && decide ((b.arg 2).toNat % 64 = 0) && decide (4 ≤ b.faultLog2) && decide (b.faultLog2 ≤ 12) &&
    decide (b.wayLog2 ≤ 2)

/-- Cores of a slice that a new context takes: those no context uses that serve the slice, on dies in service (assumption log 40). -/
def State.freeCores (s : State) (n : Fin 32) (x : Slice) : List CoreId :=
  x.cores.filter fun c => (s.core c).ctx.isNone && s.dieIn (dieOfCore c) && decide ((s.core c).bind.map (·.1) = some n)

/-- A context as CTXCREATE makes it. -/
def Ctx.create (root saddlebag faultHdr : Word) (faultLog2 ways : Nat) : Ctx where
  root := root
  saddlebag := saddlebag
  faultHdr := faultHdr
  faultLog2 := faultLog2
  ways := ways
  goff := 0
  rr := Vector.replicate 4 0
  lqs := Vector.replicate 16 none
  fds := Vector.replicate 64 none
  nextFid := 1
  fqStuck := false
  freeze := none
  hold := false
  stops := []
  awaits := 0
  waking := 0
  toFetch := []
  saved := []
  klog := []
  klogPa := 0
  switched := 0
  rings := []

/-- CTXCREATE (R286): the context with the reset state of its objects. -/
def execCtxcreate (f : FnId) (s : State) : Out :=
  vfCmd f 0x01 s fun b n x =>
    let k : CtxId := ⟨n, Fin.ofNat 8 (b.arg 0).toNat⟩
    if !ctxArgsOk b || (s.ctx? k).isSome then s.finish f 2 0
    else
      let ways := 2 ^ b.wayLog2
      let y := Ctx.create (b.arg 1) (b.arg 2) (b.arg 3) b.faultLog2 ways
      let s := s.modSlice n fun z => z.setCtx k.ctx (some y)
      let s := (s.freeCores n x).foldl (fun s c => s.place k c) s
      s.finish f 0 (BitVec.ofNat 64 ways)

/-- The next job of a completion engine can never be begun: the page of its counter fails (R228). -/
def State.jobStuck (s : State) (d : DieId) (k : CtxId) : Bool :=
  match s.jobs d k with
  | [] => true
  | w :: _ =>
    match w.job.atom, w.sent with
    | some (va, n, op), none => decide ((s.engAtom d k va n op .reply).1 = .fail)
    | _, _ => false

/-- A context holds no core, none of its writes is in flight, and its completion engines have done what they can. -/
def State.ctxGone (s : State) (k : CtxId) : Bool :=
  let mine (w : WriteRec) : Bool := decide (w.ctx = k)
  (s.coresOf k).isEmpty && !(s.transit.any mine) && (allDies.all fun d => !((s.die d).pend.any mine) && s.jobStuck d k)

/-- Kill a context at a count 256 ticks on; it merges with the stops that are on their way (R237, R240). -/
def State.askKill (s : State) (k : CtxId) : State :=
  s.requestStop k ⟨s.girth + 256, true, 0, .kill, s.lcoreSet k, s.girth + 256, false⟩

/-- Remove a context: what dies and cores keep under its number goes with it. -/
def State.removeCtx (s : State) (k : CtxId) : State :=
  let s := s.setCtx k none
  { s with
    s2q := s.s2q.filter fun d => decide (d.ctx ≠ k)
    dies := s.dies.map fun (x : Die) => { x with
      ready := x.ready.filter fun p => !decide (p.1 / 8 = k.idx)
      runs := mapDel x.runs k.idx
      cwork := mapDel x.cwork k.idx
      bars := x.bars.filter fun p => !decide (p.1 / 16 = k.idx) }
    cores := s.cores.map fun (x : Core) => { x with
      descs := x.descs.filter fun d => decide (d.ctx ≠ k)
      imem := x.imem.filter fun e => decide (e.ctx ≠ k)
      tlb := x.tlb.filter fun e => decide (e.ctx ≠ k) } }

/-- CTXKILL (R245, R286). -/
def execCtxkill (f : FnId) (s : State) : Out :=
  vfCmd f 0x02 s fun b n _ => s.withCmdCtx f n (b.arg 0) fun k _ =>
    if s.ctxGone k then (s.removeCtx k).finish f 0 0 else s.askKill k

/-! ### Queues (R217, R225, R231) -/

/-- Bytes of a context's memory as registration reads them, inside one page, in the view of a die. -/
def State.regRead (s : State) (d : DieId) (k : CtxId) (va n : Nat) : EngRes :=
  if va % 65536 + n ≤ 65536 then s.engGet d k va n else .fail

def scOp (w : BitVec 32) : Nat := bitsOf w.toNat 31 28
def scImm (w : BitVec 32) : Nat := bitsOf w.toNat 18 0

/-- Fields a word does not use are 0 (R223): the mask of those it uses. -/
def scUsed (op : Nat) : Nat :=
  let d := 7 * 2 ^ 25
  let a := 7 * 2 ^ 22
  let b := 7 * 2 ^ 19
  let i := 2 ^ 19 - 1
  0xF * 2 ^ 28 + match op with
    | 0x0 => 0
    | 0x1 => d + 63
    | 0x2 => d + i
    | 0x3 => d + 7
    | 0x4 | 0x6 | 0x9 | 0xA => d + a + b
    | 0x5 => d + a + i
    | 0x7 | 0x8 => d + a + 63
    | 0xB => a + 7
    | 0xC => a + b + 7 * 2 ^ 16 + 255
    | 0xD => 127 * 2 ^ 12 + 255
    | 0xE => a + b
    | _ => 0

/-- Loop bodies of a script: first word of the body, and the word after it. -/
def scBodies (ws : List (BitVec 32)) : List (Nat × Nat) :=
  (ws.zipIdx.filter fun p => decide (scOp p.1 = 0xD)).map fun p => (p.2 + 1, p.2 + 1 + scImm p.1 % 256)

/-- The body a word stands in, if any. -/
def scBody (bs : List (Nat × Nat)) (i : Nat) : Option (Nat × Nat) := bs.find? fun b => decide (b.1 ≤ i) && decide (i < b.2)

/-- What the words of a script so far ask of its last word, which stands at or beyond it: the farthest jump target, and the word after the
farthest loop body. -/
structure ScEnd where
  (far out : Nat)
  deriving DecidableEq, Repr

/-- Word i is the last of a script: the first END outside every loop body and at or beyond every jump target of the words before it (R225). -/
def ScEnd.isLast (e : ScEnd) (i : Nat) (w : BitVec 32) : Bool := decide (scOp w = 0 ∧ e.out ≤ i ∧ e.far ≤ i)

/-- With word i read. -/
def ScEnd.word (e : ScEnd) (i : Nat) (w : BitVec 32) : ScEnd :=
  if scOp w = 0xC then { e with far := max e.far (i + scImm w % 256) }
  else if scOp w = 0xD then { e with out := max e.out (i + 1 + scImm w % 256) }
  else e

/-- Read the script word by word from word i on, at most m words; nothing is read after the last word, nor where a page fails (R225). -/
def State.regWords (s : State) (d : DieId) (k : CtxId) : Nat → Nat → Nat → ScEnd → Ans (List (BitVec 32))
  | 0, _, _, _ => .ok []
  | m + 1, va, i, e =>
    match s.regRead d k va 4 with
    | .fail => .ok []
    | .wait => .wait
    | .ok bs =>
      let w := BitVec.ofNat 32 (ofBytes bs)
      if e.isLast i w then .ok [w]
      else
        match s.regWords d k m (va + 4) (i + 1) (e.word i w) with
        | .ok ws => .ok (w :: ws)
        | r => r

/-- The number of the last word of a script from word i on. -/
def scLast : List (BitVec 32) → Nat → ScEnd → Option Nat
  | [], _, _ => none
  | w :: t, i, e => if e.isLast i w then some i else scLast t (i + 1) (e.word i w)

/-- Steps of the words up to and with word i, in word order (R225 cause 8). -/
def scSteps (bs : List (Nat × Nat)) : List (BitVec 32) → Nat → Nat → List Nat
  | [], _, _ => []
  | w :: t, i, n =>
    let n := if (scBody bs i).isSome then n else n + 1 + (if scOp w = 0xD then bitsOf (scImm w) 18 12 * (scImm w % 256) else 0)
    n :: scSteps bs t (i + 1) n

/-- Cause of R225 for word i of a script with last word `last`, 0 for none; causes 7 and 8 apart. -/
def scCause (bs : List (Nat × Nat)) (last i : Nat) (w : BitVec 32) : Nat :=
  let op := scOp w
  let imm := scImm w
  if w.toNat &&& scUsed op ≠ w.toNat then 1
  else if op = 0x1 ∧ 62 < imm % 64 then 2
  else if op = 0xC ∧ (4 < bitsOf imm 18 16 ∨ imm % 256 = 0 ∨ last < i + imm % 256) then 3
  else if op = 0xD ∧ (bitsOf imm 18 12 = 0 ∨ 64 < bitsOf imm 18 12 ∨ imm % 256 = 0 ∨ last < i + imm % 256) then 4
  else if op = 0xD ∧ (scBody bs i).isSome then 5
  else if op = 0xC ∧ bs.any (fun b =>
      let t := i + imm % 256
      if b.1 ≤ i ∧ i < b.2 then decide (t < b.1 ∨ b.2 < t) else decide (b.1 ≤ t ∧ t < b.2)) = true then 6
  else 0

/-- The first failing word of a script and its cause; the script when it passes (R225). -/
def verifyScript (ws : List (BitVec 32)) : Except (Nat × Nat) (List (BitVec 32)) :=
  let ws := ws.take 256
  let last := scLast ws 0 ⟨0, 0⟩
  let n := match last with
    | some i => i
    | none => 255
  let ss := ws.take (n + 1)
  let bs := scBodies ss
  let steps := scSteps bs ss 0 0
  let bad := (ss.zip steps).zipIdx.find? fun p => decide (scCause bs n p.2 p.1.1 ≠ 0) || decide (256 < p.1.2)
  match bad, last with
  | some p, _ => .error (p.2, let c := scCause bs n p.2 p.1.1; if c ≠ 0 then c else 8)
  | none, some _ => .ok ss
  | none, none => .error (255, 7)

/-- LQREG: registers a launch queue with RIDX as it stands, and verifies its script (R217, R225); its front end runs with the next write
to DOORBELL or the next multiple of 65,536 ticks (R220). A queue number that is registered takes the new queue in place of the old one
(DESIGN CHOICE, assumption log 100). It waits, BUSY, while a line may not be read yet. -/
def execLqreg (f : FnId) (s : State) : Out :=
  vfCmd f 0x03 s fun b n _ => s.withCmdCtx f n (b.arg 0) fun k _ =>
    let desc := b.arg 2
    let d := portDie f.port
    match s.regRead d k desc.toNat 64 with
    | .wait => s
    | .fail => s.finish f 2 0
    | .ok bs =>
      let lg := wordAt bs 8
      if 15 < (b.arg 1).toNat ∨ lg < 1 ∨ 16 < lg ∨ wordAt bs 0x38 ≠ 0 then s.finish f 2 0
      else
        match s.regWords d k 256 (wordAt bs 0x28) 0 ⟨0, 0⟩ with
        | .wait => s
        | .fail => s.finish f 2 0
        | .ok ws =>
          match verifyScript ws with
          | .error (w, c) => s.finish f 2 (BitVec.ofNat 64 (w * 256 + c))
          | .ok ws =>
            let q : LaunchQ := ⟨desc, ws, wordAt bs 0x18 % 2 ^ 32, false, []⟩
            (s.modCtx k fun y => { y with lqs := y.lqs.set (Fin.ofNat 16 (b.arg 1).toNat) (some q) }).finish f 0 0

/-- A feed queue as its descriptor gives it (R231): its feed unit stands on the die that homes the descriptor (R343), and entry 0 is
64-byte aligned. `fail` where the descriptor is not reached or LOG2M is above 12. -/
def State.readFeed (s : State) (d : DieId) (k : CtxId) (desc : Word) : Ans Feed :=
  match s.devAddr d k desc.toNat .r, s.regRead d k desc.toNat 64 with
  | .ok p, .ok bs =>
    let m := bitsOf (wordAt bs 8) 3 0
    if 12 < m then .fail else .ok ⟨desc, homeOf p.1, wordAt bs 0 / 64 * 64, 2 ^ m, wordAt bs 0x10, wordAt bs 0x18⟩
  | .fail, _ | .ok _, .fail => .fail
  | .wait, _ | .ok _, .wait => .wait

/-- FDREG: registers a feed queue (R231); reserved bits of the descriptor are ignored (R11). -/
def execFdreg (f : FnId) (s : State) : Out :=
  vfCmd f 0x04 s fun b n _ => s.withCmdCtx f n (b.arg 0) fun k _ =>
    if 63 < (b.arg 1).toNat then s.finish f 2 0
    else
      match s.readFeed (portDie f.port) k (b.arg 2) with
      | .wait => s
      | .fail => s.finish f 2 0
      | .ok x => (s.setFeed k (Fin.ofNat 64 (b.arg 1).toNat) x).finish f 0 0

/-! ### Invalidation, resume, cancel, thaw -/

/-- INVAL: what the context's cores hold of the pages is dropped; it completes once every access translated before has been
performed (R204). -/
def execInval (f : FnId) (s : State) : Out :=
  vfCmd f 0x05 s fun b n _ => s.withCmdCtx f n (b.arg 0) fun k _ =>
    match b.waits with
    | [] =>
      let first := (b.arg 1).toNat / 65536
      let pages := (b.arg 2).toNat
      let hit (p : Nat) : Bool := decide (pages = 0) || (decide (first ≤ p) && decide (p < first + pages))
      let (id, s) := s.newId
      let v := s.newInval id n (some k.ctx)
      let s := s.shootDown (fun j p => decide (j = k) && hit p) fun j => decide (j = k)
      let s := s.modCtx k fun y => { y with fqStuck := false }
      ({ s with invals := s.invals ++ [v] } : State).modFn f fun x => { x with waits := [id] }
    | id :: _ => if s.invals.any fun v => decide (v.id = id) then s else s.finish f 0 0

/-- The parked agent of a context that a fault number names. -/
def State.findFid (s : State) (k : CtxId) (fid : BitVec 32) : Option (CoreId × Agent) :=
  let agents : List Agent := (allSeqs.flatMap fun q => [.strm q .a, .strm q .c]) ++ (List.finRange 8).map .queue
  ((s.coresOf k).flatMap fun c => agents.map fun a => (c, a)).find? fun p =>
    match s.parkOf p.1 p.2 with
    | some x => decide (x.fid = fid)
    | none => false

/-- Resume an agent that is saved parked: it goes on when its context is restored (R211). -/
def SavedCore.resume (v : SavedCore) (fid : BitVec 32) : SavedCore :=
  { v with
    parks := v.parks.filter fun p => decide (p.2.fid ≠ fid)
    resumed := v.resumed ++ (v.parks.filter fun p => decide (p.2.fid = fid)).map (·.1) }

/-- RESUME (R211). -/
def execResume (f : FnId) (s : State) : Out :=
  vfCmd f 0x06 s fun b n _ => s.withCmdCtx f n (b.arg 0) fun k x =>
    let fid : BitVec 32 := BitVec.ofNat 32 (b.arg 1).toNat
    if fid = 0 ∨ 2 ^ 32 ≤ (b.arg 1).toNat then s.finish f 4 0
    else
      match s.findFid k fid with
      | some p => (s.unpark p.1 p.2).finish f 0 0
      | none =>
        if x.saved.any fun v => v.cores.any fun c => c.parks.any fun p => decide (p.2.fid = fid) then
          (s.modCtx k fun y => { y with saved := y.saved.map fun (v : Saved) =>
            { v with cores := v.cores.map fun (c : SavedCore) => c.resume fid } }).finish f 0 0
        else s.finish f 4 0

/-- CANCEL by the host: CANCELLED is set in a counter, performed at .p before STATUS (R229, R285). -/
def execHostCancel (f : FnId) (s : State) : Out :=
  vfCmd f 0x07 s fun b n _ => s.withCmdCtx f n (b.arg 1) fun k _ =>
    match b.waits with
    | [] =>
      match s.engAtom (portDie f.port) k ((b.arg 0).toNat / 64 * 64) 8 .setCancelled .drop with
      | (.ok id, s) => s.modFn f fun x => { x with waits := [id] }
      | (.wait, s) => s
      | (.fail, s) => s.finish f 2 0
    | ids => if s.allDone ids then s.finish f 0 0 else s

/-- THAW: the hold of a freeze ends (R214, R286). -/
def execThaw (f : FnId) (s : State) : Out :=
  vfCmd f 0x08 s fun b n _ => s.withCmdCtx f n (b.arg 0) fun k _ =>
    (s.modCtx k fun y => { y with hold := false }).finish f 0 0

/-! ## Slices (R262, R287) -/

/-- Bits of the argument words of SLICEMAKE that are listed. -/
def sliceBitsOk (b : FnBlk) : Bool :=
  let a (i : Nat) : Nat := (b.arg i).toNat
  decide (bitsOf (a 1) 63 41 = 0) && decide (bitsOf (a 1) 39 34 = 0) && decide (bitsOf (a 1) 31 29 = 0) &&
    decide (bitsOf (a 1) 23 21 = 0) && decide (bitsOf (a 1) 15 13 = 0) && decide (bitsOf (a 1) 7 5 = 0) &&
    decide (bitsOf (a 2) 63 40 = 0) && decide (bitsOf (a 3) 47 41 = 0) && decide (bitsOf (a 3) 15 13 = 0) &&
    decide (bitsOf (a 3) 7 6 = 0) && decide (bitsOf (a 4) 63 10 = 0)

/-- Cores asked for on a die. -/
def argCores (b : FnBlk) (d : DieId) : Nat := bitsOf (b.arg 1).toNat (8 * d.val + 4) (8 * d.val)

/-- Values in their ranges. -/
def sliceRangesOk (b : FnBlk) : Bool :=
  let w3 := (b.arg 3).toNat
  decide ((b.arg 0).toNat < 32) && (allDies.all fun d => decide (argCores b d ≤ 16)) && (allDies.any fun d => decide (0 < argCores b d)) &&
    decide (1 ≤ bitsOf (b.arg 2).toNat 31 0) && decide (1 ≤ bitsOf w3 5 0) && decide (bitsOf w3 12 8 ≤ 16) &&
    decide (bitsOf w3 40 32 ≤ 256) && decide (600 ≤ (b.arg 4).toNat) && decide ((b.arg 4).toNat ≤ 900)

def coresOn (cs : List CoreId) (d : DieId) : Nat := (cs.filter fun c => decide (dieOfCore c = d)).length

/-- The cores of a grant are those asked for: free, in service, of the class, so many on each die or on some renaming of dies. -/
def State.grantCoresOk (s : State) (b : FnBlk) (g : Grant) : Bool :=
  let cls := bitsOf (b.arg 1).toNat 33 32
  let want := allDies.map (argCores b)
  let got := allDies.map (coresOn g.cores)
  decide g.cores.Nodup &&
    (g.cores.all fun c => (s.core c).bind.isNone && decide ((s.core c).escal ≠ .quar) && s.dieIn (dieOfCore c) &&
      decide (cls ≤ (s.core c).mclass.val)) &&
    (if (b.arg 1).getLsbD 40 then got.isPerm want else decide (got = want))

/-- A calendar position of a channel that no core of a slice owns. -/
def State.positionFree (s : State) (ch p : Nat) : Bool :=
  match ownerCore ((s.chan ch).ownerOf p) with
  | some c => (s.core c).bind.isNone
  | none => true

/-- The positions of a grant on a channel: so many for each core, all free (R175). -/
def State.grantPositionsOk (s : State) (g : Grant) (count ch : Nat) : Bool :=
  let ps := posOn g ch
  let qs := ps.flatMap (·.2)
  (g.cores.all fun c => match ps.find? fun p => decide (p.1 = c) with
    | some p => decide (p.2.length = count)
    | none => false) &&
    decide (ps.length = g.cores.length) && decide qs.Nodup && qs.all fun p => decide (p < 64) && s.positionFree ch p

/-- Positions a core owns and ways on a die, of the arguments of SLICEMAKE (R287). -/
def argPos (a : Vector Word 5) : Nat := bitsOf a[3].toNat 5 0
def argWays (a : Vector Word 5) : Nat := bitsOf a[3].toNat 12 8

/-- Positions, ways and shares of a grant fit (R172, R173, R175, R254). -/
def State.grantSharesOk (s : State) (n : Fin 32) (a : Vector Word 5) (g : Grant) : Bool :=
  ((s.someChans g).all fun ch => s.grantPositionsOk g (argPos a) ch) &&
    ((diesWith g.cores).all fun d =>
      (match g.ways.find? fun w => decide (w.1 = d) with
       | some w => decide (popCount 16 w.2.toNat = argWays a) &&
           ((List.finRange 32).all fun m => decide (m = n) || decide ((s.die d).dcway[m.val] &&& w.2 = 0))
       | none => decide (argWays a = 0)) &&
      ((List.finRange 8).all fun p => decide ((s.die d).rates p + 8 * argRate a ≤ 256)) &&
      ((List.range 6).all fun i => decide ((s.fabPort (d.val * 6 + i)).shared + argShare a ≤ 256)))

/-- Frames of a grant: 16 for each MiB, whole rows across the 16 banks (R258), on the stacks allowed. -/
def grantFramesOk (b : FnBlk) (g : Grant) : Bool :=
  let st := bitsOf (b.arg 2).toNat 39 32
  let onDie (f : Nat) : Bool := g.cores.any fun c => (dieOfCore c).val = bitsOf f 22 20 / 2
  decide (g.frames.length = 16 * bitsOf (b.arg 2).toNat 31 0) && decide g.frames.Nodup && wholeRows g.frames &&
    g.frames.all fun f => if st = 0 then onDie f else bitOf st (bitsOf f 22 20)

/-- Create a slice: its cores, key, partition with its guard rows, tables and shares (R25, R258, R260, R263, R286); none when the table refuses
a frame. -/
def State.makeSlice (s : State) (n : Fin 32) (port : Fin 2) (args : Vector Word 5) (g : Grant) : Option State :=
  match s.assignFrames n.val g.keyId g.frames with
  | none => none
  | some s =>
    let s := (((s.placeGuards g.frames).loadKey g.keyId).fwTab g.tables).bindCores n g.cores
    let x : Slice := {
      cores := g.cores, maps := [(s.girth, g.cores)], port := port, accept := true, s2root := g.s2root, gpas := g.gpas
      keyId := g.keyId, oldKey := none, freeing := 0, unreturned := [], kept := [], parked := false, args := args, ctxs := Vector.replicate 8 none }
    let s := (s.setSlice n (some x)).grantShares n g args
    some { s with fabMap := if s.fabMap.contains n then s.fabMap else s.fabMap ++ [n] }

/-- SLICEMAKE (R287). The grant is what Bridle's firmware picks; one that does not fit the request is STATUS 3. -/
def execSlicemake (f : FnId) (g : Grant) (s : State) : Out :=
  match s.cmdOf f 0x20 with
  | none => .next s
  | some b =>
    let n : Fin 32 := Fin.ofNat 32 (b.arg 0).toNat
    if f.fn ≠ 0 then .next s
    else if !sliceBitsOk b || !sliceRangesOk b || (s.slice? n).isSome then .next (s.finish f 2 0)
    else if !s.grantCoresOk b g || !s.grantSharesOk n b.args g || !grantFramesOk b g || !s.keyFree g.keyId then .next (s.finish f 3 0)
    else
      match s.makeSlice n f.port b.args g with
      | some s => .next (s.finish f 0 (BitVec.ofNat 64 g.keyId))
      | none => .next (s.finish f 3 0)

/-- Step 3 of R262: stage 2 is withdrawn with the contexts, the shoot-down begins on every core, and the switches drop the slice's
fabric addresses. -/
def State.withdraw (s : State) (n : Fin 32) (x : Slice) : State :=
  let s := (x.ctxIds n).foldl (fun s k => s.removeCtx k) (s.invalSlice n)
  { s with
    fabMap := s.fabMap.filter fun m => decide (m ≠ n)
    fabHeld := s.fabHeld.filter fun r => decide (r.1 ≠ n)
    fabOuts := s.fabOuts.filter fun (r : FabOut) => decide (r.ctx.slice ≠ n) }

/-- The keys of a slice. -/
def State.sliceKeys (s : State) (n : Fin 32) (x : Slice) : List Nat := x.keyId :: x.oldKey.toList ++ (s.moveKey n).toList

/-- Step 7 of R262: the slice is gone, with its shares, its cores and its function's block; its key numbers are free, and its frames are back in
the pool. -/
def State.dissolve (s : State) (n : Fin 32) (x : Slice) : State :=
  let s := ((s.returnFrames n).endMoving n).dropShares n x.cores
  let s := x.cores.foldl (fun s c => s.modCore c fun k => if k.bind.map (·.1) = some n then { k.leave with bind := none } else k) s
  let fn : FnId := ⟨x.port, Fin.ofNat 33 (n.val + 1)⟩
  (s.setFn fn FnBlk.reset).setSlice n none

/-- The next step of freeing a slice, in the order of R262, and whether it was the last: 1 its contexts are killed; 2 its function stops
accepting writes, and those applied are performed; 3 its translation is withdrawn; 4 its keys are erased; 5 the caches drop its lines;
6 its frames are free; 7 its key numbers are. Steps 1 to 3 take as many events as their waits need. -/
def State.freeStep (s : State) (n : Fin 32) (x : Slice) : State × Bool :=
  let at_ (s : State) (m : Nat) : State := s.modSlice n fun y => { y with freeing := m }
  let fn : FnId := ⟨x.port, Fin.ofNat 33 (n.val + 1)⟩
  match x.freeing with
  | 0 | 1 =>
    if s.sliceStill n x then (s.modSlice n fun y => { y with freeing := 2, accept := false }, false)
    else (at_ ((x.ctxIds n).foldl (fun s k => s.askKill k) s) 1, false)
  | 2 => if (s.fn fn).hostOut.isEmpty && (s.fn fn).hostQ.isEmpty && s.sliceStill n x then (at_ (s.withdraw n x) 3, false) else (s, false)
  | 3 => if s.invals.any fun v => decide (v.slice = n) then (s, false) else (at_ s 4, false)
  | 4 => (at_ { s with keys := (s.sliceKeys n x).foldl mapDel s.keys } 5, false)
  | 5 => (at_ ((s.sliceKeys n x).foldl State.dropLines s) 6, false)
  | 6 => (at_ ((s.sliceKeys n x).foldl (fun s key => s.freeFrames n key) s) 7, false)
  | _ => (s.dissolve n x, true)

/-- The slice that a command of the physical function names. -/
def pfSlice (f : FnId) (code : Nat) (s : State) (go : FnBlk → Fin 32 → Slice → State) : Out :=
  match s.cmdOf f code with
  | none => .next s
  | some b =>
    if f.fn ≠ 0 then .next s
    else if 32 ≤ (b.arg 0).toNat then .next (s.finish f 2 0)
    else
      let n : Fin 32 := Fin.ofNat 32 (b.arg 0).toNat
      match s.slice? n with
      | some x => .next (go b n x)
      | none => .next (s.finish f 4 0)

/-- SLICEFREE (R262). -/
def execSlicefree (f : FnId) (s : State) : Out :=
  pfSlice f 0x21 s fun _ n x =>
    let r := s.freeStep n x
    if r.2 then r.1.finish f 0 0 else r.1

/-- FUNCTION_LEVEL_RESET: of a virtual function, its slice is freed by the steps of R262, which go on from event to event; of the physical
function, its block is reset (R253). -/
def execFunctionLevelReset (f : FnId) (s : State) : Out :=
  if f.fn = 0 then .next (s.setFn f FnBlk.reset)
  else
    let n : Fin 32 := Fin.ofNat 32 (f.fn.val - 1)
    match s.slice? n with
    | some x => if x.port = f.port then .next (s.freeStep n x).1 else .next s
    | none => .next s

/-! ## Live migration (R251) -/

/-- A completion step that was performed and not yet answered, with the bytes that it found (R228). -/
def State.jobImage (s : State) (w : CWork) : CJob × Option (List Byte) :=
  (w.job, w.sent.bind fun id => if s.inFlight id then none else mapGet s.replies id)

/-- A context as it moves. -/
def State.image (s : State) (k : CtxId) (x : Ctx) : CtxImage where
  ctx := k.ctx
  root := x.root
  saddlebag := x.saddlebag
  faultHdr := x.faultHdr
  faultLog2 := x.faultLog2
  ways := x.ways
  nextFid := x.nextFid
  goff := x.goff
  rr := x.rr[0]
  hold := x.hold
  lqs := (List.finRange 16).filterMap fun i => (x.lqs[i.val]).map fun q => (i, { q with run := q.run || !q.rung.isEmpty, rung := [] })
  fds := (List.finRange 64).filterMap fun i => (x.fds[i.val]).map fun f => (i, f)
  saved := x.saved
  klogPa := x.klogPa
  rings := x.rings
  ready := allDies.flatMap fun d => (List.range 8).filterMap fun p =>
    let l := (s.die d).readyList k p
    if l.isEmpty then none else some (d, p, l)
  runs := allDies.filterMap fun d => (mapGet (s.die d).runs k.idx).map fun l => (d, l)
  jobs := allDies.filterMap fun d => if (s.jobs d k).isEmpty then none else some (d, (s.jobs d k).map s.jobImage)
  descs := (s.cores.toList.flatMap (·.descs)).filter fun d => decide (d.ctx = k)
  elapsed := 0
  girthDelta := 0

/-- A Keeper log's bytes. -/
def State.klogBytes (s : State) (x : Ctx) : List (Nat × Byte) :=
  let n := if x.switched = 0 then 0 else 64 + 16 * x.klog.length
  (tblSlice (s.die 0).view x.klogPa (x.klogPa + n)).map fun p => (x.klogPa + p.1, p.2)

/-- What goes with the logical cores of a slice, as its cores have it or as Bridle has kept it (R26). -/
def State.logicalCores (s : State) (n : Fin 32) (x : Slice) : List LCore :=
  x.cores.zipIdx.map fun p => s.goesAlong n x ⟨p.2, p.1, p.1⟩

/-- Step 5 of R251: the pages of a slice, its save areas and Keeper logs, and its contexts go to the target. -/
def State.transfer (s : State) (n : Fin 32) (x : Slice) (target : Nat) : State :=
  let frames := s.framesOf n.val
  let bytes := frames.flatMap fun f => (tblSlice (s.die 0).view (f * 65536) ((f + 1) * 65536)).map fun p => (f * 65536 + p.1, p.2)
  let cs := (x.ctxIds n).filterMap fun k => (s.ctx? k).map fun y => (k, y)
  let s := frames.foldl (fun s f => s.bridleRun (f * 65536) 65536) s
  { s with sentCtxs := s.sentCtxs ++
      [⟨n, target, s.logicalCores n x, cs.map fun p => s.image p.1 p.2, bytes ++ cs.flatMap fun p => s.klogBytes p.2⟩] }

/-- Step 6 of R251: the switches map the slice's addresses to the target, which takes the requests held. -/
def State.switchOver (s : State) (n : Fin 32) (target : Nat) : State :=
  { s with
    fabMap := s.fabMap.filter fun m => decide (m ≠ n)
    fabHeld := s.fabHeld.filter fun r => decide (r.1 ≠ n)
    forwarded := s.forwarded ++ (s.fabHeld.filter fun r => decide (r.1 = n)).map fun r => (n, target, r.2) }

/-- MIGRATE: each event takes one step of R251 for the slice: one of at most 16 rounds of pre-copy, each when the invalidation of the
one before is complete; the stop of every context with REASON 2 under freeze policy; once all are saved, the transfer and the
switch; then the release, by the steps of R262. A move of the slice inside the package ends first. -/
def execMigrate (f : FnId) (s : State) : Out :=
  pfSlice f 0x22 s fun b n x =>
    if 256 ≤ (b.arg 1).toNat then s.finish f 2 0
    else
      match mapGet s.migrating n.val with
      | none => s.setMoving n ⟨.package (b.arg 1).toNat, 0, none, 0⟩
      | some m =>
        match m.dest with
        | .here _ => s
        | .package target =>
          if m.step = 17 then
            let r := s.freeStep n x
            if r.2 then r.1.finish f 0 0 else r.1
          else
            let r := s.moveStep n x m
            if r.2 then ((r.1.transfer n x target).switchOver n target).setMoving n { m with step := 17 } else r.1

/-- Entries of a Keeper log that was received (R248). -/
def State.readKlog (s : State) (pa : Nat) : List KEntry :=
  let a : Area := ⟨(s.die 0).view, pa⟩
  (List.range (min (a.word 0 % 2 ^ 32) 4096)).map fun i =>
    let w := a.word (64 + 16 * i + 8)
    ⟨BitVec.ofNat 64 (a.word (64 + 16 * i)), Fin.ofNat 16 (bitsOf w 3 0), Fin.ofNat 4 (bitsOf w 9 8), bitOf w 10, bitsOf w 21 16, 0,
      bitsOf w 26 24, BitVec.ofNat 16 (bitsOf w 47 32)⟩

/-- The die here that holds the logical cores which were on a die at the source (R26). -/
def dieHere (m : Incoming) (d : DieId) : DieId :=
  match (m.src.zip m.grant.cores).find? fun p => decide (p.1.die = d) with
  | some p => dieOfCore p.2
  | none => d

/-- A context that arrives, with its counters, its save areas and its Keeper log; its Girth count goes on (R251, R252). -/
def State.arrived (s : State) (c : CtxImage) : Ctx :=
  let out := c.saved.foldl (fun b v => b ||| v.out) 0
  { Ctx.create c.root c.saddlebag c.faultHdr c.faultLog2 c.ways with
    goff := c.goff + c.girthDelta
    rr := Vector.replicate 4 c.rr
    lqs := c.lqs.foldl (fun t p => t.set p.1.val (some p.2)) (Vector.replicate 16 none)
    nextFid := c.nextFid
    hold := c.hold
    saved := c.saved.map fun (v : Saved) => { v with moved := some (c.girthDelta, c.elapsed, s.girth) }
    klog := if out = 0 then [] else s.readKlog c.klogPa
    klogPa := c.klogPa
    switched := out
    rings := c.rings }

/-- Completion work that arrives: a step that was performed at the source is not sent again (R228, R251). -/
def State.arriveJobs (s : State) (d : DieId) (k : CtxId) : List (CJob × Option (List Byte)) → State
  | [] => s
  | (j, old) :: t =>
    let (sent, s) : Option Nat × State := match old with
      | some bs =>
        let (id, s) := s.newId
        (some id, { s with replies := s.replies ++ [(id, bs)] })
      | none => (none, s)
    (s.setJobs d k (s.jobs d k ++ [⟨j, sent, none⟩])).arriveJobs d k t

/-- What a context that arrives has on one die and on the cores: ready lists, script runs, whose T is of this package's Girth count,
completion work, and descriptors that wait. -/
def State.arriveWork (s : State) (k : CtxId) (m : Incoming) (c : CtxImage) : State :=
  let s := c.ready.foldl (fun s p => s.modDie (dieHere m p.1) fun x => x.setReady k p.2.1 p.2.2) s
  let s := c.runs.foldl (fun s p => s.modDie (dieHere m p.1) fun x => { x with
    runs := mapPut x.runs k.idx (p.2.map fun (r : Run) => { r with t := (Int.ofNat r.t - c.girthDelta).toNat, outs := [] }) }) s
  let s := c.jobs.foldl (fun s p => s.arriveJobs (dieHere m p.1) k p.2) s
  match m.grant.cores with
  | [] => s
  | o :: _ => s.modCore o fun x => { x with descs := x.descs ++ c.descs.map fun (d : Desc) => { d with ctx := k, sent := none } }

/-- A context arrives with its queues (R251). -/
def State.arriveCtx (s : State) (n : Fin 32) (m : Incoming) (c : CtxImage) : State :=
  let k : CtxId := ⟨n, c.ctx⟩
  let s := s.modSlice n fun z => z.setCtx c.ctx (some (s.arrived c))
  c.fds.foldl (fun s p =>
    let die := match s.readFeed (portDie m.port) k p.2.desc with
      | .ok f => f.die
      | .wait | .fail => dieHere m p.2.die
    s.setFeed k p.1 { p.2 with die := die }) (s.arriveWork k m c)

/-- Bytes that a migration brings: pages and save areas under the slice's fresh key, a Keeper log under Bridle's. -/
def State.arriveBytes (s : State) (m : Incoming) : State :=
  let s := m.bytes.foldl (fun s p =>
    if s.owns m.slice.val (frameOf p.1) then s.fwPut m.grant.keyId p.1 [some p.2]
    else if s.owns 32 (frameOf p.1) then s.fwPut 127 p.1 [some p.2]
    else s) s
  m.grant.frames.foldl (fun s f => s.bridleRun (f * 65536) 65536) s

/-- INCOMING_MIGRATION: this package is the target: on cores of equal shape the slice is created with a fresh key, its logical cores keep their
MARGIN and limits, its pages and save areas are received, and its contexts wait for their restore (R26, R251). -/
def execIncomingMigration (m : Incoming) (s : State) : Out :=
  let g := m.grant
  if (s.slice? m.slice).isSome || !s.keyFree g.keyId || !s.grantSharesOk m.slice m.args g || !wholeRows g.frames || !decide g.cores.Nodup ||
      !shapeFits m.src (s.asLogical g.cores) ||
      !(g.cores.all fun c => (s.core c).bind.isNone && decide ((s.core c).escal ≠ .quar) && s.dieIn (dieOfCore c)) then .next s
  else
    match s.makeSlice m.slice m.port m.args g with
    | none => .next s
    | some s =>
      let s := (g.cores.zip m.src).foldl (fun s p => s.modCore p.1 (·.takeLogical p.2)) s
      .next (m.ctxs.foldl (fun s c => s.arriveCtx m.slice m c) (s.arriveBytes m))

end Sys2Proof.Machine
end

