-- ==== Sys2Proof/Machine/Shake.lean ====
section
/-!
DEFINITION. SHAKE256, by which Thefort takes the digest of the firmware image (16_host R292). The spec names the function; what it computes
is that of its public standard, FIPS 202 (PRESUMED, assumption log 103).
-/
namespace Sys2Proof.Machine

/-- Keccak's state: lane (x, y) is entry x + 5y. -/
abbrev Lanes := Vector (BitVec 64) 25

def Lanes.at (a : Lanes) (x y : Nat) : BitVec 64 := a[(x % 5 + 5 * (y % 5)) % 25]'(Nat.mod_lt _ (by decide))

/-- Rotation of each lane. -/
def laneRot : List Nat := [0, 1, 62, 28, 27, 36, 44, 6, 55, 20, 3, 10, 43, 25, 39, 41, 45, 15, 21, 8, 18, 2, 61, 56, 14]

/-- Round constants. -/
def roundConsts : List (BitVec 64) := [
  0x0000000000000001, 0x0000000000008082, 0x800000000000808A, 0x8000000080008000, 0x000000000000808B, 0x0000000080000001,
  0x8000000080008081, 0x8000000000008009, 0x000000000000008A, 0x0000000000000088, 0x0000000080008009, 0x000000008000000A,
  0x000000008000808B, 0x800000000000008B, 0x8000000000008089, 0x8000000000008003, 0x8000000000008002, 0x8000000000000080,
  0x000000000000800A, 0x800000008000000A, 0x8000000080008081, 0x8000000000008080, 0x0000000080000001, 0x8000000080008008]

/-- Each lane takes the parity of two columns. -/
def Lanes.theta (a : Lanes) : Lanes :=
  let col (x : Nat) : BitVec 64 := (List.range 5).foldl (fun c y => c ^^^ a.at x y) 0
  let mix : Vector (BitVec 64) 5 := Vector.ofFn fun x => col (x.val + 4) ^^^ (col (x.val + 1)).rotateLeft 1
  Vector.ofFn fun i => a[i] ^^^ mix[i.val % 5]'(Nat.mod_lt _ (by decide))

/-- Lanes are rotated and change places. -/
def Lanes.rhoPi (a : Lanes) : Lanes :=
  Vector.ofFn fun i =>
    let x := i.val % 5
    let y := i.val / 5
    let u := (x + 3 * y) % 5
    (a.at u x).rotateLeft ((laneRot[u + 5 * x]?).getD 0)

/-- Rows are mixed, and the round constant enters lane 0. -/
def Lanes.chiIota (a : Lanes) (rc : BitVec 64) : Lanes :=
  Vector.ofFn fun i =>
    let x := i.val % 5
    let y := i.val / 5
    let v := a.at x y ^^^ (~~~(a.at (x + 1) y) &&& a.at (x + 2) y)
    if i.val = 0 then v ^^^ rc else v

def Lanes.permute (a : Lanes) : Lanes := roundConsts.foldl (fun a rc => a.theta.rhoPi.chiIota rc) a

/-- Bytes absorbed by one permutation. -/
def shakeRate : Nat := 136

/-- Absorb one block. -/
def Lanes.absorb (a : Lanes) (bs : List Byte) : Lanes :=
  Lanes.permute (Vector.ofFn fun i => a[i] ^^^ BitVec.ofNat 64 (ofBytes ((bs.drop (8 * i.val)).take 8)))

/-- The bytes after the message: the suffix of SHAKE, zeros, and the last bit. -/
def shakePad (n : Nat) : List Byte :=
  let m := shakeRate - n % shakeRate
  if m = 1 then [0x9F] else [0x1F] ++ List.replicate (m - 2) 0 ++ [0x80]

def absorbAll (bs : List Byte) : Nat → Lanes → Lanes
  | 0, a => a
  | n + 1, a => absorbAll (bs.drop shakeRate) n (a.absorb (bs.take shakeRate))

/-- The 64-byte digest of SHAKE256. -/
def shake256 (bs : List Byte) : List Byte :=
  let all := bs ++ shakePad bs.length
  let a := absorbAll all (all.length / shakeRate) (Vector.replicate 25 0)
  (a.toList.take 8).flatMap fun w => toBytes 8 w.toNat

end Sys2Proof.Machine
end

