-- ==== Sys2Proof/Machine/Boot.lean ====
section
/-!
DEFINITION. Boot mailboxes and the overlay loader's boot (16_host R288), bring-up, Thefort and the side-band (R290 to R293).
-/
namespace Sys2Proof.Machine

/-! ## Boot mailboxes (R288) -/

/-- Bytes of a context's memory, cut at pages, as the loader of a die reads them. -/
def State.loaderRead (s : State) (d : DieId) (k : CtxId) : Nat → Nat → Nat → EngRes
  | 0, _, _ => .ok []
  | m + 1, va, n =>
    if n = 0 then .ok []
    else
      let here := min n (65536 - va % 65536)
      match s.regRead d k va here, s.loaderRead d k m (va + here) (n - here) with
      | .ok a, .ok b => .ok (a ++ b)
      | .fail, _ | .ok _, .fail => .fail
      | .wait, _ | .ok _, .wait => .wait

/-- A ring record: number, base, slot count, slot size in bytes. -/
def ringRec (bs : List Byte) : Nat × Nat × Nat × Nat := (wordAt bs 0, wordAt bs 8, wordAt bs 16, wordAt bs 24)

/-- A ring record keeps the rules of R150. -/
def ringRecOk (r : Nat × Nat × Nat × Nat) : Bool :=
  let n := r.2.2.1
  decide (r.1 < 64) && ([1, 2, 4, 8, 16, 32, 64, 128, 256].contains n) && decide (r.2.1 % 128 = 0) && decide (r.2.2.2 % 128 = 0) &&
    decide (128 ≤ r.2.2.2) && decide (r.2.2.2 ≤ 32768) && decide (r.2.1 / 128 + n * (r.2.2.2 / 128) ≤ 32768)

/-- The ring records of an image, in order: those read, or the BSTAT of the first that fails. -/
def State.ringRecs (s : State) (d : DieId) (k : CtxId) : Nat → Nat → Ans (Except Nat (List (Nat × Nat × Nat × Nat)))
  | 0, _ => .ok (.ok [])
  | m + 1, va =>
    match s.loaderRead d k 2 va 32 with
    | .wait => .wait
    | .fail => .ok (.error 3)
    | .ok bs =>
      if !ringRecOk (ringRec bs) then .ok (.error 2)
      else
        match s.ringRecs d k m (va + 32) with
        | .ok (.ok t) => .ok (.ok (ringRec bs :: t))
        | r => r

/-- The record that the loader builds from the first group of an image. -/
def bootRec (image argbase : Word) (asec csec : Nat) : Rec :=
  let none_ := 2 ^ 64 - 1
  let flags := (if asec = none_ then 1 else 0) + (if csec = none_ then 2 else 0)
  ⟨#v[image + BitVec.ofNat 64 asec, image + BitVec.ofNat 64 csec, argbase, BitVec.ofNat 64 (flags * 2 ^ 32), 0,
      BitVec.ofNat 64 (7 * 2 ^ 32), 0, argbase], 0⟩

/-- The steps of a boot that has started. While a line may not be read yet it stays as it is, and goes on later. -/
def State.boot (s : State) (f : FnId) (l : Nat) (k : CtxId) (c : CoreId) (b : BootStart) : State :=
  let d := dieOfCore c
  match s.loaderRead d k 2 b.image.toNat 64 with
  | .wait => s
  | .fail => s.bootEnd f l 3
  | .ok h =>
    if wordAt h 0 % 2 ^ 32 ≠ 0x54464C46 ∨ half h 4 ≠ 1 then s.bootEnd f l 1
    else
      match s.ringRecs d k (half h 0x24) ((b.image + BitVec.ofNat 64 (half h 0x20)).toNat) with
      | .wait | .fail => s
      | .ok (.error e) => s.bootEnd f l e
      | .ok (.ok rs) =>
        let s := s.modCtx k fun y => { y with rings := mapPut y.rings l rs }
        let s := if (s.core c).ctx = some k.ctx then s else s.place k c
        let s := s.modCore c fun y => y.putRings rs
        let s := s.modSeq c 0 (·.load (bootRec b.image b.argbase (wordAt h 0x10) (wordAt h 0x18)) (s.ctxGirth k).toNat)
        s.bootEnd f l 0

/-- Another context of the slice is on a core: it leaves through a save (R22), which is asked for unless one is on its way
(assumption log 42). -/
def State.clearCore (s : State) (n : Fin 32) (m : Fin 8) (l : Nat) : State :=
  let set : BitVec 64 := BitVec.ofNat 64 (2 ^ l)
  s.requestStop ⟨n, m⟩ ⟨s.girth + 256, true, 0, .checkpoint, set, s.girth + 256, false⟩

/-- BOOT_GO: the boot that a write of GO has started on logical core l goes on (R288). A logical core that has lost its physical one waits for
another, and one that another context holds for that context's save. -/
def execBootGo (f : FnId) (l : Fin 64) (s : State) : Out :=
  match ((s.fn f).boot l.val).start with
  | none => .next s
  | some b =>
    match s.fnSlice f with
    | none => .next (s.bootEnd f l.val 5)
    | some (n, x) =>
      let k : CtxId := ⟨n, b.ctx⟩
      match x.cores[l.val]?, s.ctx? k with
      | some c, some y =>
        let z := s.core c
        if decide (z.bind ≠ some (n, l.val)) || !s.bootIdle n l.val c y then .next s
        else
          match z.ctx with
          | some m => if m = k.ctx then .next (s.boot f l.val k c b) else .next (s.clearCore n m l.val)
          | none => .next (s.boot f l.val k c b)
      | _, _ => .next (s.bootEnd f l.val 5)

/-! ## Bring-up (R290, R291) -/

/-- Thefort accepts a firmware image: its 2,820-byte XMSS signature leads to the root of the key, its version is at least the fused counter,
and the signature index is new (R291). -/
def Thefort.accepts (t : Thefort) (sigIndex version : Nat) (fw : FwOffer) : Bool :=
  decide (fw.sig.length = 2820) && decide (toBytes 32 (Config.xmssRoot (t.key.drop 32) fw.image fw.sig) = t.key.take 32) &&
    decide (t.fused ≤ version) && !t.used.contains sigIndex

/-- An accepted image is the one Thefort holds. -/
def Thefort.store (t : Thefort) (sigIndex version : Nat) (fw : FwOffer) : Thefort :=
  { t with version := version, used := t.used ++ [sigIndex], image := fw.image, sig := fw.sig, recovery := false, failed := none }

/-- Verification has failed: the device stays in recovery, and Thefort reports step 1 of bring-up (R290, R291). -/
def Thefort.reject (t : Thefort) : Thefort := { t with recovery := true, failed := some 1 }

/-- Steps 2 to 6 of bring-up (R290): Bridle runs, and the package's epoch has risen with the reset before it (R206); the rails stand at
650 mV, the allocation table is set and Bridle's key drawn; the Girth count starts at 0; the links are up; the physical function is
exposed. -/
def bringSteps : List (State → State) := [
  fun s => { s with ownEpoch := s.ownEpoch + 1, dies := s.dies.map fun (x : Die) => { x with bridle := true } },
  fun s => { s with
    dies := s.dies.map fun (x : Die) => { x with railMv := 650, setp := 650, rail := .steady }
    alloc := []
    keys := [(127, s.keyCtr)]
    keyCtr := s.keyCtr + 1 },
  fun s => { s with girth := 0, girthOn := true },
  fun s => { s with linksUp := true },
  fun s => { s with pfVisible := true }]

/-- Bring-up after verification: its steps in order, or those before the one that fails, which leaves PCI Express down and is reported
(R290). -/
def State.bringUp (s : State) (fails : Option (Fin 5)) : State :=
  match fails with
  | none => bringSteps.foldl (fun s g => g s) s
  | some i =>
    let s := (bringSteps.take i.val).foldl (fun s g => g s) s
    { s with linksUp := false, thefort := { s.thefort with failed := some (i.val + 2) } }

/-- POWER_ON: Thefort verifies the firmware; on success bring-up follows, else the device stays in recovery with PCI Express down
(R290, R291). It takes effect on a package that is not yet up. -/
def execPowerOn (sigIndex version : Nat) (fw : FwOffer) (s : State) : Out :=
  if s.girthOn || s.thefort.recovery then .next s
  else if s.thefort.accepts sigIndex version fw then
    .next (({ s with thefort := s.thefort.store sigIndex version fw } : State).bringUp fw.fails)
  else .next { s with thefort := s.thefort.reject }

/-- PLDM_FIRMWARE_UPDATE: a verified image replaces the one that Thefort holds; a device in recovery goes on with bring-up (R291). It is served
while PCI Express is down (R292). -/
def execPldmFirmwareUpdate (sigIndex version : Nat) (fw : FwOffer) (s : State) : Out :=
  if !(s.girthOn || s.thefort.recovery || s.thefort.failed.isSome) || !s.thefort.accepts sigIndex version fw then .next s
  else
    let up := s.thefort.recovery
    let s := { s with thefort := s.thefort.store sigIndex version fw }
    .next (if up then s.bringUp fw.fails else s)

/-! ## The side-band (R292, R293) -/

/-- Thefort answers. -/
def State.sideReply (s : State) (r : Reply) : State := { s with thefort := { s.thefort with reply := r } }

/-- A measurement, signed with the device's key (R292). -/
def State.measure (s : State) (index : Nat) (bs : List Byte) : State :=
  ({ s with freeCtr := s.freeCtr + 1 } : State).sideReply (.digest index bs (toBytes 96 (Config.signature s.freeCtr bs)))

/-- What Bridle is configured to: the dies on which it runs, and the slices with their argument words and their cores (DESIGN CHOICE, assumption
log 103). -/
def State.bridleConf (s : State) : List Nat :=
  ((allDies.filter fun d => (s.die d).bridle).map (·.val)) ++ (List.finRange 32).flatMap fun n => match s.slice? n with
    | some x => n.val :: (x.args.toList.map (·.toNat) ++ x.cores.map (·.val))
    | none => []

/-- SPDM_REQUEST: a measurement by its index: the digest of the firmware image, the fuse configuration, the digest of Bridle's
configuration (R292). -/
def execSpdmRequest (index : Nat) (s : State) : Out :=
  match index with
  | 1 => .next (s.measure 1 (shake256 s.thefort.image))
  | 2 => .next (s.measure 2 s.thefort.fuseConf)
  | 3 => .next (s.measure 3 (toBytes 64 (Config.bridleDigest s.bridleConf)))
  | _ => .next (s.sideReply .unsupported)

/-- What a sensor or a monitor reads: 8 bytes for each item. -/
def State.sensor (s : State) (core : CoreId) (m : Sensor) : List Nat :=
  let d := s.die (dieOfCore core)
  match m with
  | .monitor m => (s.core core).mons[m.val].items.toList
  | .temperature => [d.tnow]
  | .rail => [d.railMv]
  | .warnings => [d.warns]
  | .stopped => [d.stops]

/-- PLDM_SENSOR_REQUEST: a sensor of a core's die, or the items of a monitor of a core (R292). -/
def execPldmSensorRequest (core : CoreId) (m : Sensor) (s : State) : Out :=
  .next (s.sideReply (.data ((s.sensor core m).flatMap fun v => toBytes 8 v)))

end Sys2Proof.Machine
end

