-- ==== Sys2Proof/Machine/VectorMem.lean ====
section
/-!
DEFINITION. The vector memory words VLD, VST, VLDP, VGATHER and VSCATTER (20_reference R379, R380, R383 to R385): lane by lane,
every page of an unmasked lane translated before a byte moves.
-/
namespace Sys2Proof.Machine

/-- Where a lane's four bytes lie: in the own scratchpad, or at an address outside the window (R323). -/
inductive Place where
  | spad (off : Nat)
  | mem (va : Nat)
  deriving DecidableEq, Repr

/-- The place of an address decided by itself (R379). -/
def placeOf (a : Word) : Place := if inWindow a.toNat then .spad (spadOff a.toNat) else .mem a.toNat

/-- The place of lane i of a vector access at ea, decided by ea (R383). -/
def lanePlace (ea : Word) (i : Nat) : Place :=
  if inWindow ea.toNat then .spad ((spadOff ea.toNat + 4 * i) % 2 ^ 22) else .mem (ea.toNat + 4 * i)

/-- The unmasked lanes. -/
def lanesOf (m : BitVec 32) : List Nat := (List.range 32).filter fun i => m.getLsbD i

/-- What translating a list of lanes gives: the runs of each with their place in the vector, the D-bit writes, the failures. -/
structure LaneTrans where
  segs : List (Nat × VSeg)
  ds : List Nat
  errs : List (Nat × AErr)

/-- Translate the four bytes of each lane (R207, R380). -/
def State.transLanes (s : State) (c : CoreId) (v : Via) (k : CtxId) (n : Need) : List (Nat × Nat) → LaneTrans × State
  | [] => (⟨[], [], []⟩, s)
  | (i, va) :: t =>
    match s.transAccess c v k n va 4 with
    | (.ok (gs, ds), s) =>
      let (r, s) := s.transLanes c v k n t
      (⟨placeSegs (4 * i) gs ++ r.segs, ds ++ r.ds, r.errs⟩, s)
    | (.error e, s) =>
      let (r, s) := s.transLanes c v k n t
      (⟨r.segs, r.ds, (i, e) :: r.errs⟩, s)

def AErr.addr : AErr → Nat
  | .fault f => f.addr
  | .wait => 0
  | .bad a => a

def AErr.cause : AErr → Nat
  | .fault f => f.cause
  | _ => 0

/-- The failure that is reported: a line not readable yet, then a failed tag, then the fault at the lowest byte (R207). -/
def pickErr : List AErr → Option AErr
  | [] => none
  | e :: t =>
    match pickErr t with
    | none => some e
    | some f =>
      match e, f with
      | .wait, _ | _, .wait => some .wait
      | .bad a, _ | _, .bad a => some (.bad a)
      | .fault a, .fault b => some (.fault (if a.addr ≤ b.addr then a else b))

/-- Lanes in memory and lanes in the scratchpad. -/
def memLanes (ls : List (Nat × Place)) : List (Nat × Nat) :=
  ls.filterMap fun p => match p.2 with | .mem a => some (p.1, a) | .spad _ => none

def spadLanes (ls : List (Nat × Place)) : List (Nat × Nat) :=
  ls.filterMap fun p => match p.2 with | .spad o => some (p.1, o) | .mem _ => none

/-- Put bytes at a place of a list. -/
def putBytes (buf : List Byte) (off : Nat) (bs : List Byte) : List Byte :=
  buf.take off ++ bs ++ buf.drop (off + bs.length)

/-- A vector load of lanes (R379, R383, R385). `ahead` is the run-ahead form, `five` prefers cause 5. -/
def State.loadLanes (s : State) (via : Via) (ls : List (Nat × Place)) (dst : LDst) (acq : Option Scope) (ea : Word)
    (ahead five : Bool) (done : State → List Byte → Ret) : Res × State :=
  let c := s.cur.core
  let k := s.core c
  let sp := spadLanes ls
  let me := memLanes ls
  if sp.any fun p => k.sbHit p.2 4 then (.stall 6, s)
  else if s.ownClash (sp.map fun p => .spad p.2 4) then (.stall 0, s)
  else
    let buf := sp.foldl (fun b p => putBytes b (4 * p.1) (k.spadRead p.2 4)) (List.replicate 128 0)
    if me.isEmpty then (.go (done s buf), s)
    else
      match k.ctxId with
      | none => (.stall 0, s)
      | some ctx =>
        let (r, s) := s.transLanes c via ctx .r me
        let bad := r.errs.filter fun e => !(ahead && (decide (e.2.cause = 1) || decide (e.2.cause = 2) || decide (e.2.cause = 5)))
        let fives := bad.filter fun e => decide (e.2.cause = 5)
        match pickErr ((if five && !fives.isEmpty then fives else bad).map (·.2)) with
        | some e => (e.res, s)
        | none =>
          let gs := r.segs.filter fun g => !(r.errs.any fun e => decide (g.1 / 4 = e.1))
          if s.ownClash (gs.map fun g => segObj (s.portOfCtx ctx) g.2) then (.stall 0, s)
          else if gs.isEmpty then (.go (done s buf), s)
          else
            let (l, s) := s.startLoad ctx dst buf acq ea gs
            (.go { load := [l] }, s)

/-- Join runs that continue one another on one page, so that a whole vector is one write of each page. -/
def joinRuns : List (VSeg × List (Option Byte)) → List (VSeg × List (Option Byte))
  | [] => []
  | (g, bs) :: t =>
    match joinRuns t with
    | (h, cs) :: u =>
      if g.va + g.n = h.va ∧ g.t = h.t ∧ (g.va + g.n) % 65536 ≠ 0 then (⟨g.va, g.n + h.n, g.t⟩, bs ++ cs) :: u
      else (g, bs) :: (h, cs) :: u
    | [] => [(g, bs)]

/-- A vector store of lanes (R379, R383). -/
def State.storeLanes (s : State) (via : Via) (ls : List (Nat × Place)) (data : VWord) (rel : Option Scope) (five : Bool) :
    Res × State :=
  let c := s.cur.core
  let k := s.core c
  let sp := spadLanes ls
  let me := memLanes ls
  let laneBytes (i : Nat) : List Byte := toBytes 4 (elemOf 32 i data.toNat)
  if sp.any fun p => k.sbHit p.2 4 then (.stall 6, s)
  else if s.ownClash (sp.map fun p => .spad p.2 4) then (.stall 0, s)
  else
    let se := sp.map fun p => Eff.stSpad p.2 ((laneBytes p.1).map some)
    if me.isEmpty then (.go { effs := se, rel := rel }, s)
    else
      match k.ctxId with
      | none => (.stall 0, s)
      | some ctx =>
        let (r, s) := s.transLanes c via ctx .w me
        let fives := r.errs.filter fun e => decide (e.2.cause = 5)
        match pickErr ((if five && !fives.isEmpty then fives else r.errs).map (·.2)) with
        | some e => (e.res, s)
        | none =>
          match s.badStore (dieOfCore c) (r.segs.map (·.2)) with
          | some va => (.trap ⟨10, 2, 0, BitVec.ofNat 64 va⟩, s)
          | none =>
          if segsMeetLoads (s.strm c s.cur.seq s.cur.strm) (r.segs.map (·.2)) then (.stall 0, s)
          else
            let ps := r.segs.map fun g =>
              (g.2, (((laneBytes (g.1 / 4)).drop (g.1 % 4)).take g.2.n).map some)
            (.go { effs := se ++ storeEffs (s.portOfCtx ctx) ctx.slice r.ds (joinRuns ps), rel := rel }, s)

/-- The result of a vector load whose bytes are all at hand: a register by lanes, a data queue whole (R89, R383). -/
def retVec (x : Seq) (d : VOp) (m : BitVec 32) (bs : List Byte) : Ret :=
  let v : VWord := BitVec.ofNat 1024 (ofBytes bs)
  match d with
  | .v n => { v := [(n, mergeLanes m (x.getV n) v)] }
  | .dq n => if x.readerEnded (.dq n) then {} else { effs := [.pushDq n v] }

/-- Where a vector load lands. -/
def vloadLDst (d : VOp) (m : BitVec 32) : LDst :=
  match d with
  | .v n => .v n m
  | .dq n => .dq n

/-- VLD and VLDP (R383, R385). -/
def vloadWord (a : VMemA) (ahead : Bool) (s : State) : Out :=
  .next (s.issueWord { wait := a.w, src := [a.base.sop, a.idx.sop], vdst := [a.d], own := s.portUse } fun s xs _ =>
    let ea := effAddr (arg xs 0) (arg xs 1) a.off
    let m := (s.seq s.cur.core s.cur.seq).getK a.km
    s.loadLanes (s.via a.base) ((lanesOf m).map fun i => (i, lanePlace ea i)) (vloadLDst a.d m)
      (acqScope a.ord a.scope) ea ahead true
      fun s bs => retVec (s.seq s.cur.core s.cur.seq) a.d m bs)

def execVld (a : VMemA) (s : State) : Out := vloadWord a false s
def execVldp (a : VMemA) (s : State) : Out := vloadWord a true s

def execVst (a : VMemA) (s : State) : Out :=
  .next (s.issueWord { wait := a.w, src := [a.base.sop, a.idx.sop], vsrc := [a.d] } fun s xs vs =>
    let ea := effAddr (arg xs 0) (arg xs 1) a.off
    let m := (s.seq s.cur.core s.cur.seq).getK a.km
    s.storeLanes (s.via a.base) ((lanesOf m).map fun i => (i, lanePlace ea i)) (varg vs 0) (relScope a.ord a.scope) true)

/-- The two registers of a pair (R379). -/
def pairLo (p : Fin 320) : Fin 640 := ⟨2 * p.val, by omega⟩
def pairHi (p : Fin 320) : Fin 640 := ⟨2 * p.val + 1, by omega⟩

/-- The addresses of the unmasked lanes of a gather or scatter (R379). -/
def gatherPlaces (base : Word) (off : BitVec 20) (offs : VWord) (m : BitVec 32) : List (Nat × Place) :=
  (lanesOf m).map fun i => (i, placeOf (base + off.signExtend 64 + sext64 32 (elemOf 32 i offs.toNat)))

def execVgather (a : GatA) (s : State) : Out :=
  .next (s.issueWord { wait := a.w, src := [a.base.sop], vsrc := [.v (pairHi a.pair)], vdst := [.v (pairLo a.pair)] }
    fun s xs vs =>
      let m := (s.seq s.cur.core s.cur.seq).getK a.km
      s.loadLanes .tlb (gatherPlaces (arg xs 0) a.off (varg vs 0) m) (.v (pairLo a.pair) m) none (arg xs 0) false false
        fun s bs => retVec (s.seq s.cur.core s.cur.seq) (.v (pairLo a.pair)) m bs)

def execVscatter (a : GatA) (s : State) : Out :=
  .next (s.issueWord { wait := a.w, src := [a.base.sop], vsrc := [.v (pairLo a.pair), .v (pairHi a.pair)] }
    fun s xs vs =>
      let m := (s.seq s.cur.core s.cur.seq).getK a.km
      s.storeLanes .tlb (gatherPlaces (arg xs 0) a.off (varg vs 1) m) (varg vs 0) none false)

end Sys2Proof.Machine
end

