-- ==== Sys2Proof/Machine/VectorInt.lean ====
section
/-!
DEFINITION. The vector integer, logic and permute words (R115, 19_reference R362 to R367, 20_reference R381 to R398).
-/
namespace Sys2Proof.Machine

/-! ## Integer arithmetic (R381) -/

/-- A code as the integer of its element type. -/
def ivOf (t : ET) (c : Nat) : Int := intOf t.bits t.isSigned c

/-- A result as a code: clamped under .sat, else modulo 2^w. -/
def intResult (t : ET) (sat : Bool) (i : Int) : Nat :=
  wrapInt t.bits (if sat then min (max i (intLo t.bits t.isSigned)) (intHi t.bits t.isSigned) else i)

def execViadd (a : V2) (sat : Bool) (s : State) : Out :=
  bits2 a (fun x y => intResult a.et sat (ivOf a.et x + ivOf a.et y)) s
def execVisub (a : V2) (sat : Bool) (s : State) : Out :=
  bits2 a (fun x y => intResult a.et sat (ivOf a.et x - ivOf a.et y)) s
def execVimul (a : V2) (hi : Bool) (s : State) : Out :=
  bits2 a (fun x y =>
    let p := ivOf a.et x * ivOf a.et y
    wrapInt a.et.bits (if hi then p / Int.ofNat (2 ^ a.et.bits) else p)) s
def execVimad (a : V3) (sat : Bool) (s : State) : Out :=
  bits3 a (fun x y z => intResult a.et sat (ivOf a.et x * ivOf a.et y + ivOf a.et z)) s
def execVimin (a : V2) (s : State) : Out := bits2 a (fun x y => if ivOf a.et y < ivOf a.et x then y else x) s
def execVimax (a : V2) (s : State) : Out := bits2 a (fun x y => if ivOf a.et x < ivOf a.et y then y else x) s

/-- Left shift; a count of the width or more gives 0. -/
def elemShl (t : ET) (x n : Nat) : Nat := if t.bits ≤ n then 0 else x * 2 ^ n % 2 ^ t.bits

/-- Right shift, arithmetic for a signed type. -/
def elemShr (t : ET) (x n : Nat) : Nat := wrapInt t.bits (ivOf t x / Int.ofNat (2 ^ min n t.bits))

def execVshl (a : V2) (s : State) : Out := bits2 a (elemShl a.et) s
def execVshr (a : V2) (s : State) : Out := bits2 a (elemShr a.et) s
def execViaddI (a : VI) (sat : Bool) (s : State) : Out :=
  bitsI a (fun x y => intResult a.et sat (ivOf a.et x + ivOf a.et y)) s
def execVshlI (a : VI) (s : State) : Out := bitsI a (elemShl a.et) s
def execVshrI (a : VI) (s : State) : Out := bitsI a (elemShr a.et) s
def execVpopc (a : V1) (s : State) : Out := bits1 a (popCount a.et.bits) s

/-- An integer condition (R382). -/
def vicondHolds (c : ICond) (t : ET) (x y : Nat) : Bool :=
  match c with
  | .eq => decide (x = y)
  | .ne => decide (x ≠ y)
  | .lt | .ltu => decide (ivOf t x < ivOf t y)
  | .le | .leu => decide (ivOf t x ≤ ivOf t y)

def execVicmp (a : VK2) (c : ICond) (s : State) : Out :=
  .next (s.maskWord a.w a.kd [a.va, a.vb] a.km a.et fun vs i j =>
    vicondHolds c a.et (elemAt a.et i j (varg vs 0)) (elemAt a.et i j (varg vs 1)))

def execVicmpI (a : VKI) (c : ICond) (s : State) : Out :=
  .next (s.maskWord a.w a.kd [a.va] a.km a.et fun vs i j =>
    vicondHolds c a.et (elemAt a.et i j (varg vs 0)) (elemAt a.et i j (immVec a.et a.imm)))

/-! ## Whole lanes -/

/-- A word whose unmasked lanes take the lanes of a value (R89). -/
def laneWord (w : Wait) (vd : Fin 640) (src : List VOp) (km : Fin 16) (f : List VWord → VWord) (s : State) : Out :=
  .next (s.vecWord w vd src km false false fun m old vs => (mergeLanes m old (f vs), 0))

def execVand (a : V2) (s : State) : Out := laneWord a.w a.vd [a.va, a.vb] a.km (fun vs => varg vs 0 &&& varg vs 1) s
def execVor (a : V2) (s : State) : Out := laneWord a.w a.vd [a.va, a.vb] a.km (fun vs => varg vs 0 ||| varg vs 1) s
def execVxor (a : V2) (s : State) : Out := laneWord a.w a.vd [a.va, a.vb] a.km (fun vs => varg vs 0 ^^^ varg vs 1) s
def execVandI (a : VI) (s : State) : Out :=
  laneWord a.w a.vd [a.va] a.km (fun vs => varg vs 0 &&& immVec a.et a.imm) s
def execVmov (a : V1) (s : State) : Out := laneWord a.w a.vd [a.va] a.km (fun vs => varg vs 0) s
def execVmovI (w : Wait) (vd : Fin 640) (imm : BitVec 16) (km : Fin 16) (et : ET) (s : State) : Out :=
  laneWord w vd [] km (fun _ => immVec et imm) s
def execVbcast (a : V1) (lane : Fin 32) (s : State) : Out :=
  laneWord a.w a.vd [a.va] a.km
    (fun vs => BitVec.ofNat 1024 (packElems 32 (List.replicate 32 (elemOf 32 lane.val (varg vs 0).toNat)))) s
def execVrot (a : V1) (n : Fin 32) (s : State) : Out :=
  laneWord a.w a.vd [a.va] a.km (fun vs => (varg vs 0).rotateRight (32 * n.val)) s

/-! ## Elements moved -/

/-- VSEL (R398). -/
def execVsel (a : V3) (s : State) : Out := bits3 a (fun x y z => if z = 0 then y else x) s

/-- VPERM (R392). -/
def execVperm (a : V2) (s : State) : Out :=
  .next (s.vecWord a.w a.vd [a.va, a.vb] a.km false false fun m old vs =>
    mapLanes a.et m old fun i j =>
      (elemOf a.et.bits (elemAt a.et i j (varg vs 1) % a.et.count) (varg vs 0).toNat, 0))

/-- The order of VMINMAX (R386): a stands strictly below b. -/
def keyBelow (t : ET) (x y : Nat) : Bool :=
  match etNum t with
  | .flt F =>
    let a := F.decode x
    let b := F.decode y
    if a.isNan then false else if b.isNan then true else a.below b
  | .int w sg => decide (intOf w sg x < intOf w sg y)

/-- VMINMAX (R386). -/
def execVminmax (w : Wait) (pair : Fin 320) (va vb : VOp) (km : Fin 16) (et : ET) (s : State) : Out :=
  .next (s.issueWord { wait := w, vsrc := [va, vb], vdst := [.v (pairLo pair), .v (pairHi pair)], vec := some (km, false) }
    fun s _ vs =>
      let x := s.seq s.cur.core s.cur.seq
      let m := x.getK km
      let one (big : Bool) (old : VWord) : VWord :=
        (mapLanes et m old fun i j =>
          let a := elemAt et i j (varg vs 0)
          let b := elemAt et i j (varg vs 1)
          (if keyBelow et b a then (if big then a else b) else (if big then b else a), 0)).1
      (.go { v := [(pairLo pair, one false (x.getV (pairLo pair))), (pairHi pair, one true (x.getV (pairHi pair)))] }, s))

/-- Magnitude order of R365: x ranks strictly before y. -/
def magAbove (t : ET) (x y : Nat) : Bool :=
  match etNum t with
  | .flt F =>
    let a := F.decode (x % 2 ^ (F.ew + F.mw))
    let b := F.decode (y % 2 ^ (F.ew + F.mw))
    if a.isNan then !b.isNan else if b.isNan then false else FVal.lt b a
  | .int w sg => decide ((intOf w sg y).natAbs < (intOf w sg x).natAbs)

/-- How many members of a list of (index, code) rank before an element: greater magnitude, or equal and a lower index. -/
def rankOf (t : ET) (cs : List (Nat × Nat)) (p : Nat × Nat) : Nat :=
  (cs.filter fun q => magAbove t q.2 p.2 || (!magAbove t p.2 q.2 && decide (q.1 < p.1))).length

/-- VCMPR (R364): the kept elements packed toward element 0. -/
def execVcmpr (a : V1) (cnt : BitVec 6) (s : State) : Out :=
  .next (s.vecWord a.w a.vd [a.va] a.km true false fun m _ vs =>
    let cs := ((List.range a.et.count).filter fun e => m.getLsbD (e / a.et.per)).map fun e =>
      (e, elemOf a.et.bits e (varg vs 0).toNat)
    let keep := if cnt = 0 then cs else cs.filter fun p => decide (rankOf a.et cs p < cnt.toNat)
    (BitVec.ofNat 1024 (packElems a.et.bits (keep.map (·.2))), 0))

/-- Selected lanes below lane i. -/
def lanesBelow (m : BitVec 32) (i : Nat) : Nat := popCount i m.toNat

/-- VEXPD (R367). -/
def execVexpd (a : V1) (s : State) : Out :=
  .next (s.vecWord a.w a.vd [a.va] a.km false false fun m old vs =>
    mapLanes a.et m old fun i j => (elemOf a.et.bits (lanesBelow m i * a.et.per + j) (varg vs 0).toNat, 0))

/-! ## Packing and planes -/

/-- VPACK (R389). -/
def execVpack (w : Wait) (vd : Fin 640) (va vb : VOp) (et : ET) (fmt : Fmt) (r : Rnd) (s : State) : Out :=
  .next (s.vecWord w vd (va :: vb :: rndSrc r) 0 true true fun _ _ vs =>
    let el (v : VWord) : List FVal := (List.range 32).map fun e => (etNum et).decode (elemOf et.bits e v.toNat)
    let p := packVals fmt (fun e => rndAt r (varg vs 2).toNat (e / 2) (16 * (e % 2))) (el (varg vs 0) ++ el (varg vs 1))
    (BitVec.ofNat 1024 p.1, p.2))

/-- VUNPK (R391). -/
def execVunpk (w : Wait) (vd : Fin 640) (va : VOp) (et : ET) (fmt : Fmt) (s : State) : Out :=
  .next (s.vecWord w vd [va] 0 true true fun m old vs =>
    mapLanes et m old fun i j =>
      let e := i * et.per + j
      if e < fmt.capacity then (etNum et).convert .rne (packedVal fmt (varg vs 0).toNat e) else (0, 0))

/-- VPLANE (R393). -/
def execVplane (w : Wait) (vd : Fin 640) (va : VOp) (fmt : Fmt) (s : State) : Out :=
  .next (s.vecWord w vd [va] 0 true false fun _ _ vs =>
    let v := (varg vs 0).toNat
    let sh := packedShared v 0
    (BitVec.ofNat 1024 (packElems 32 (planeLanes fmt ((List.range 32).map fun e => planeOf fmt (packedGet fmt v e)) sh.1 sh.2)), 0))

/-- VUNPL (R394). -/
def execVunpl (w : Wait) (vd : Fin 640) (va : VOp) (fmt : Fmt) (s : State) : Out :=
  .next (s.vecWord w vd [va] 0 true false fun _ _ vs =>
    let v := (varg vs 0).toNat
    let cs := (List.range 32).map fun e => ofPlane fmt (lanePlane fmt v e)
    let ex := if fmt.bx?.isSome then elemOf 16 (2 * (fmt.planes + 2)) v * 2 ^ (8 * 124) else 0
    (BitVec.ofNat 1024 (packedPut fmt cs + ex), 0))

end Sys2Proof.Machine
end

