-- ==== Sys2Proof/Machine/Dispatch.lean ====
section
/-!
DEFINITION. One arm for each constructor of Instr: the meaning it calls, or its rejection by name.
-/
namespace Sys2Proof.Machine

/-- The meaning of every instruction, operation and event. -/
def exec (i : Instr) (s : State) : Host.Outcome State Fault Refusal :=
  match i with
  | .iadd x0 => Sys2Proof.Machine.execIadd x0 s
  | .isub x0 => Sys2Proof.Machine.execIsub x0 s
  | .iaddi x0 => Sys2Proof.Machine.execIaddi x0 s
  | .imul x0 => Sys2Proof.Machine.execImul x0 s
  | .imulh x0 x1 => Sys2Proof.Machine.execImulh x0 x1 s
  | .idiv x0 x1 => Sys2Proof.Machine.execIdiv x0 x1 s
  | .irem x0 x1 => Sys2Proof.Machine.execIrem x0 x1 s
  | .and x0 => Sys2Proof.Machine.execAnd x0 s
  | .andn x0 => Sys2Proof.Machine.execAndn x0 s
  | .andi x0 => Sys2Proof.Machine.execAndi x0 s
  | .or x0 => Sys2Proof.Machine.execOr x0 s
  | .ori x0 => Sys2Proof.Machine.execOri x0 s
  | .xor x0 => Sys2Proof.Machine.execXor x0 s
  | .xori x0 => Sys2Proof.Machine.execXori x0 s
  | .shl x0 => Sys2Proof.Machine.execShl x0 s
  | .shr x0 => Sys2Proof.Machine.execShr x0 s
  | .shra x0 => Sys2Proof.Machine.execShra x0 s
  | .rot x0 => Sys2Proof.Machine.execRot x0 s
  | .popc x0 => Sys2Proof.Machine.execPopc x0 s
  | .clz x0 => Sys2Proof.Machine.execClz x0 s
  | .min x0 x1 => Sys2Proof.Machine.execMin x0 x1 s
  | .max x0 x1 => Sys2Proof.Machine.execMax x0 x1 s
  | .sel x0 => Sys2Proof.Machine.execSel x0 s
  | .icmp x0 x1 => Sys2Proof.Machine.execIcmp x0 x1 s
  | .icmpi x0 x1 => Sys2Proof.Machine.execIcmpi x0 x1 s
  | .mov x0 => Sys2Proof.Machine.execMov x0 s
  | .bfx x0 x1 => Sys2Proof.Machine.execBfx x0 x1 s
  | .bfi x0 x1 x2 x3 x4 => Sys2Proof.Machine.execBfi x0 x1 x2 x3 x4 s
  | .li x0 x1 x2 => Sys2Proof.Machine.execLi x0 x1 x2 s
  | .liHi x0 x1 x2 => Sys2Proof.Machine.execLiHi x0 x1 x2 s
  | .b x0 => Sys2Proof.Machine.execB x0 s
  | .bq x0 x1 x2 x3 x4 x5 => Sys2Proof.Machine.execBq x0 x1 x2 x3 x4 x5 s
  | .loop x0 x1 x2 x3 => Sys2Proof.Machine.execLoop x0 x1 x2 x3 s
  | .j x0 x1 x2 => Sys2Proof.Machine.execJ x0 x1 x2 s
  | .jal x0 x1 x2 x3 => Sys2Proof.Machine.execJal x0 x1 x2 x3 s
  | .halt x0 => Sys2Proof.Machine.execHalt x0 s
  | .trap x0 x1 => Sys2Proof.Machine.execTrap x0 x1 s
  | .ld x0 => Sys2Proof.Machine.execLd x0 s
  | .st x0 => Sys2Proof.Machine.execSt x0 s
  | .probe x0 x1 x2 x3 x4 => Sys2Proof.Machine.execProbe x0 x1 x2 x3 x4 s
  | .vld x0 => Sys2Proof.Machine.execVld x0 s
  | .vst x0 => Sys2Proof.Machine.execVst x0 s
  | .vldp x0 => Sys2Proof.Machine.execVldp x0 s
  | .vgather x0 => Sys2Proof.Machine.execVgather x0 s
  | .vscatter x0 => Sys2Proof.Machine.execVscatter x0 s
  | .vfadd x0 x1 => Sys2Proof.Machine.execVfadd x0 x1 s
  | .vfsub x0 x1 => Sys2Proof.Machine.execVfsub x0 x1 s
  | .vfmul x0 x1 => Sys2Proof.Machine.execVfmul x0 x1 s
  | .vfaddI x0 x1 => Sys2Proof.Machine.execVfaddI x0 x1 s
  | .vfmulI x0 x1 => Sys2Proof.Machine.execVfmulI x0 x1 s
  | .vfma x0 x1 => Sys2Proof.Machine.execVfma x0 x1 s
  | .vfms x0 x1 => Sys2Proof.Machine.execVfms x0 x1 s
  | .vfmaI x0 x1 => Sys2Proof.Machine.execVfmaI x0 x1 s
  | .vfmin x0 x1 => Sys2Proof.Machine.execVfmin x0 x1 s
  | .vfmax x0 x1 => Sys2Proof.Machine.execVfmax x0 x1 s
  | .vfminI x0 x1 => Sys2Proof.Machine.execVfminI x0 x1 s
  | .vfmaxI x0 x1 => Sys2Proof.Machine.execVfmaxI x0 x1 s
  | .vfabs x0 => Sys2Proof.Machine.execVfabs x0 s
  | .vfneg x0 => Sys2Proof.Machine.execVfneg x0 s
  | .vfnabs x0 => Sys2Proof.Machine.execVfnabs x0 s
  | .vfrcp x0 x1 => Sys2Proof.Machine.execVfrcp x0 x1 s
  | .vfrsq x0 x1 => Sys2Proof.Machine.execVfrsq x0 x1 s
  | .vfexp2 x0 x1 => Sys2Proof.Machine.execVfexp2 x0 x1 s
  | .vflog2 x0 x1 => Sys2Proof.Machine.execVflog2 x0 x1 s
  | .vfcmp x0 x1 => Sys2Proof.Machine.execVfcmp x0 x1 s
  | .vfcmpI x0 x1 => Sys2Proof.Machine.execVfcmpI x0 x1 s
  | .vfcvt x0 x1 x2 => Sys2Proof.Machine.execVfcvt x0 x1 x2 s
  | .vfscl x0 x1 => Sys2Proof.Machine.execVfscl x0 x1 s
  | .vdot x0 x1 x2 x3 x4 => Sys2Proof.Machine.execVdot x0 x1 x2 x3 x4 s
  | .vred x0 x1 x2 => Sys2Proof.Machine.execVred x0 x1 x2 s
  | .viadd x0 x1 => Sys2Proof.Machine.execViadd x0 x1 s
  | .visub x0 x1 => Sys2Proof.Machine.execVisub x0 x1 s
  | .vimul x0 x1 => Sys2Proof.Machine.execVimul x0 x1 s
  | .vimad x0 x1 => Sys2Proof.Machine.execVimad x0 x1 s
  | .vimin x0 => Sys2Proof.Machine.execVimin x0 s
  | .vimax x0 => Sys2Proof.Machine.execVimax x0 s
  | .vshl x0 => Sys2Proof.Machine.execVshl x0 s
  | .vshr x0 => Sys2Proof.Machine.execVshr x0 s
  | .viaddI x0 x1 => Sys2Proof.Machine.execViaddI x0 x1 s
  | .vshlI x0 => Sys2Proof.Machine.execVshlI x0 s
  | .vshrI x0 => Sys2Proof.Machine.execVshrI x0 s
  | .vand x0 => Sys2Proof.Machine.execVand x0 s
  | .vor x0 => Sys2Proof.Machine.execVor x0 s
  | .vxor x0 => Sys2Proof.Machine.execVxor x0 s
  | .vandI x0 => Sys2Proof.Machine.execVandI x0 s
  | .vicmp x0 x1 => Sys2Proof.Machine.execVicmp x0 x1 s
  | .vicmpI x0 x1 => Sys2Proof.Machine.execVicmpI x0 x1 s
  | .vsel x0 => Sys2Proof.Machine.execVsel x0 s
  | .vperm x0 => Sys2Proof.Machine.execVperm x0 s
  | .vrot x0 x1 => Sys2Proof.Machine.execVrot x0 x1 s
  | .vbcast x0 x1 => Sys2Proof.Machine.execVbcast x0 x1 s
  | .vmov x0 => Sys2Proof.Machine.execVmov x0 s
  | .vmovI x0 x1 x2 x3 x4 => Sys2Proof.Machine.execVmovI x0 x1 x2 x3 x4 s
  | .vminmax x0 x1 x2 x3 x4 x5 => Sys2Proof.Machine.execVminmax x0 x1 x2 x3 x4 x5 s
  | .vcmpr x0 x1 => Sys2Proof.Machine.execVcmpr x0 x1 s
  | .vexpd x0 => Sys2Proof.Machine.execVexpd x0 s
  | .vpopc x0 => Sys2Proof.Machine.execVpopc x0 s
  | .vpack x0 x1 x2 x3 x4 x5 x6 => Sys2Proof.Machine.execVpack x0 x1 x2 x3 x4 x5 x6 s
  | .vunpk x0 x1 x2 x3 x4 => Sys2Proof.Machine.execVunpk x0 x1 x2 x3 x4 s
  | .vplane x0 x1 x2 x3 => Sys2Proof.Machine.execVplane x0 x1 x2 x3 s
  | .vunpl x0 x1 x2 x3 => Sys2Proof.Machine.execVunpl x0 x1 x2 x3 s
  | .cinch x0 => Sys2Proof.Machine.execCinch x0 s
  | .uncinch x0 => Sys2Proof.Machine.execUncinch x0 s
  | .mma x0 => Sys2Proof.Machine.execMma x0 s
  | .mmas x0 x1 => Sys2Proof.Machine.execMmas x0 x1 s
  | .mzero x0 x1 => Sys2Proof.Machine.execMzero x0 x1 s
  | .mwait x0 x1 => Sys2Proof.Machine.execMwait x0 x1 s
  | .mrd x0 x1 x2 x3 => Sys2Proof.Machine.execMrd x0 x1 x2 x3 s
  | .mwr x0 x1 => Sys2Proof.Machine.execMwr x0 x1 s
  | .msave x0 => Sys2Proof.Machine.execMsave x0 s
  | .mload x0 => Sys2Proof.Machine.execMload x0 s
  | .fqpush x0 x1 => Sys2Proof.Machine.execFqpush x0 x1 s
  | .xcopy x0 => Sys2Proof.Machine.execXcopy x0 s
  | .xcopyStr x0 x1 => Sys2Proof.Machine.execXcopyStr x0 x1 s
  | .xfill x0 => Sys2Proof.Machine.execXfill x0 s
  | .xacc x0 x1 x2 => Sys2Proof.Machine.execXacc x0 x1 x2 s
  | .xswap x0 x1 => Sys2Proof.Machine.execXswap x0 x1 s
  | .xcas x0 x1 x2 => Sys2Proof.Machine.execXcas x0 x1 x2 s
  | .xplane x0 x1 => Sys2Proof.Machine.execXplane x0 x1 s
  | .qpush x0 x1 x2 => Sys2Proof.Machine.execQpush x0 x1 x2 s
  | .qpop x0 x1 x2 => Sys2Proof.Machine.execQpop x0 x1 x2 s
  | .qcnt x0 x1 x2 => Sys2Proof.Machine.execQcnt x0 x1 x2 s
  | .qpushFd x0 x1 x2 => Sys2Proof.Machine.execQpushFd x0 x1 x2 s
  | .qpopFd x0 x1 x2 => Sys2Proof.Machine.execQpopFd x0 x1 x2 s
  | .qcntFd x0 x1 x2 => Sys2Proof.Machine.execQcntFd x0 x1 x2 s
  | .qfence x0 x1 x2 x3 => Sys2Proof.Machine.execQfence x0 x1 x2 x3 s
  | .rclaim x0 => Sys2Proof.Machine.execRclaim x0 s
  | .rfill x0 => Sys2Proof.Machine.execRfill x0 s
  | .rtake x0 => Sys2Proof.Machine.execRtake x0 s
  | .rfree x0 => Sys2Proof.Machine.execRfree x0 s
  | .acset x0 x1 x2 x3 => Sys2Proof.Machine.execAcset x0 x1 x2 x3 s
  | .barr x0 x1 => Sys2Proof.Machine.execBarr x0 x1 s
  | .barrCfg x0 x1 x2 => Sys2Proof.Machine.execBarrCfg x0 x1 x2 s
  | .bwait x0 x1 => Sys2Proof.Machine.execBwait x0 x1 s
  | .tlook x0 x1 x2 => Sys2Proof.Machine.execTlook x0 x1 x2 s
  | .tins x0 x1 x2 => Sys2Proof.Machine.execTins x0 x1 x2 s
  | .tevc x0 x1 x2 => Sys2Proof.Machine.execTevc x0 x1 x2 s
  | .tinv x0 x1 => Sys2Proof.Machine.execTinv x0 x1 s
  | .tinvAll x0 => Sys2Proof.Machine.execTinvAll x0 s
  | .kset x0 x1 x2 => Sys2Proof.Machine.execKset x0 x1 x2 s
  | .kand x0 => Sys2Proof.Machine.execKand x0 s
  | .kor x0 => Sys2Proof.Machine.execKor x0 s
  | .kxor x0 => Sys2Proof.Machine.execKxor x0 s
  | .kandn x0 => Sys2Proof.Machine.execKandn x0 s
  | .knot x0 x1 x2 => Sys2Proof.Machine.execKnot x0 x1 x2 s
  | .kpopc x0 x1 x2 => Sys2Proof.Machine.execKpopc x0 x1 x2 s
  | .kfirst x0 x1 x2 => Sys2Proof.Machine.execKfirst x0 x1 x2 s
  | .fence x0 x1 => Sys2Proof.Machine.execFence x0 x1 s
  | .wait x0 => Sys2Proof.Machine.execWait x0 s
  | .mfs x0 x1 x2 => Sys2Proof.Machine.execMfs x0 x1 x2 s
  | .mts x0 x1 x2 => Sys2Proof.Machine.execMts x0 x1 x2 s
  | .tsr x0 x1 x2 => Sys2Proof.Machine.execTsr x0 x1 x2 s
  | .spawn x0 x1 => Sys2Proof.Machine.execSpawn x0 x1 s
  | .join x0 x1 x2 => Sys2Proof.Machine.execJoin x0 x1 x2 s
  | .cancel x0 x1 x2 => Sys2Proof.Machine.execCancel x0 x1 x2 s
  | .dlchk x0 x1 => Sys2Proof.Machine.execDlchk x0 x1 s
  | .nop x0 => Sys2Proof.Machine.execNop x0 s
  | .scriptEnd => Sys2Proof.Machine.execScriptEnd s
  | .scriptLdp x0 x1 => Sys2Proof.Machine.execScriptLdp x0 x1 s
  | .scriptLdi x0 x1 => Sys2Proof.Machine.execScriptLdi x0 x1 s
  | .scriptLde x0 x1 => Sys2Proof.Machine.execScriptLde x0 x1 s
  | .scriptAdd x0 => Sys2Proof.Machine.execScriptAdd x0 s
  | .scriptAddi x0 x1 x2 => Sys2Proof.Machine.execScriptAddi x0 x1 x2 s
  | .scriptMul x0 => Sys2Proof.Machine.execScriptMul x0 s
  | .scriptShl x0 x1 x2 => Sys2Proof.Machine.execScriptShl x0 x1 x2 s
  | .scriptShr x0 x1 x2 => Sys2Proof.Machine.execScriptShr x0 x1 x2 s
  | .scriptAnd x0 => Sys2Proof.Machine.execScriptAnd x0 s
  | .scriptMinu x0 => Sys2Proof.Machine.execScriptMinu x0 s
  | .scriptRset x0 x1 => Sys2Proof.Machine.execScriptRset x0 x1 s
  | .scriptJfw x0 x1 x2 x3 => Sys2Proof.Machine.execScriptJfw x0 x1 x2 x3 s
  | .scriptLoop x0 x1 => Sys2Proof.Machine.execScriptLoop x0 x1 s
  | .scriptEmit x0 x1 => Sys2Proof.Machine.execScriptEmit x0 x1 s
  | .scriptRclr => Sys2Proof.Machine.execScriptRclr s
  | .ctxcreate x0 => Sys2Proof.Machine.execCtxcreate x0 s
  | .ctxkill x0 => Sys2Proof.Machine.execCtxkill x0 s
  | .lqreg x0 => Sys2Proof.Machine.execLqreg x0 s
  | .fdreg x0 => Sys2Proof.Machine.execFdreg x0 s
  | .inval x0 => Sys2Proof.Machine.execInval x0 s
  | .resume x0 => Sys2Proof.Machine.execResume x0 s
  | .hostCancel x0 => Sys2Proof.Machine.execHostCancel x0 s
  | .thaw x0 => Sys2Proof.Machine.execThaw x0 s
  | .slicemake x0 x1 => Sys2Proof.Machine.execSlicemake x0 x1 s
  | .slicefree x0 => Sys2Proof.Machine.execSlicefree x0 s
  | .migrate x0 => Sys2Proof.Machine.execMigrate x0 s
  | .functionRegisterWrite x0 x1 x2 x3 => Sys2Proof.Machine.execFunctionRegisterWrite x0 x1 x2 x3 s
  | .bootGo x0 x1 => Sys2Proof.Machine.execBootGo x0 x1 s
  | .hostWindowWrite x0 x1 x2 => Sys2Proof.Machine.execHostWindowWrite x0 x1 x2 s
  | .hostWindowRead x0 x1 x2 => Sys2Proof.Machine.execHostWindowRead x0 x1 x2 s
  | .pcieAtomicFetchadd x0 x1 x2 => Sys2Proof.Machine.execPcieAtomicFetchadd x0 x1 x2 s
  | .functionLevelReset x0 => Sys2Proof.Machine.execFunctionLevelReset x0 s
  | .powerOn x0 x1 x2 => Sys2Proof.Machine.execPowerOn x0 x1 x2 s
  | .pldmFirmwareUpdate x0 x1 x2 => Sys2Proof.Machine.execPldmFirmwareUpdate x0 x1 x2 s
  | .spdmRequest x0 => Sys2Proof.Machine.execSpdmRequest x0 s
  | .pldmSensorRequest x0 x1 => Sys2Proof.Machine.execPldmSensorRequest x0 x1 s
  | .frontEndRun x0 x1 => Sys2Proof.Machine.execFrontEndRun x0 x1 s
  | .frontEndPoll x0 => Sys2Proof.Machine.execFrontEndPoll x0 s
  | .feedPacket x0 x1 => Sys2Proof.Machine.execFeedPacket x0 x1 s
  | .scriptRun x0 x1 => Sys2Proof.Machine.execScriptRun x0 x1 s
  | .readyPush x0 x1 => Sys2Proof.Machine.execReadyPush x0 x1 s
  | .completionStep x0 x1 => Sys2Proof.Machine.execCompletionStep x0 x1 s
  | .groupPop x0 x1 => Sys2Proof.Machine.execGroupPop x0 x1 s
  | .groupStart x0 x1 => Sys2Proof.Machine.execGroupStart x0 x1 s
  | .groupRetire x0 x1 => Sys2Proof.Machine.execGroupRetire x0 x1 s
  | .sectionEnter x0 x1 x2 => Sys2Proof.Machine.execSectionEnter x0 x1 x2 s
  | .sectionFetch x0 x1 x2 => Sys2Proof.Machine.execSectionFetch x0 x1 x2 s
  | .heldEffectCommit x0 x1 => Sys2Proof.Machine.execHeldEffectCommit x0 x1 s
  | .replay x0 x1 x2 => Sys2Proof.Machine.execReplay x0 x1 x2 s
  | .replayWindowEnd x0 => Sys2Proof.Machine.execReplayWindowEnd x0 s
  | .quarantineInput x0 => Sys2Proof.Machine.execQuarantineInput x0 s
  | .mcrWrite x0 x1 => Sys2Proof.Machine.execMcrWrite x0 x1 s
  | .biasSettle x0 => Sys2Proof.Machine.execBiasSettle x0 s
  | .droopTrigger x0 x1 => Sys2Proof.Machine.execDroopTrigger x0 x1 s
  | .droopStretchEnd x0 => Sys2Proof.Machine.execDroopStretchEnd x0 s
  | .halvedIssueEnd x0 => Sys2Proof.Machine.execHalvedIssueEnd x0 s
  | .railStep x0 => Sys2Proof.Machine.execRailStep x0 s
  | .railHoldEnd x0 => Sys2Proof.Machine.execRailHoldEnd x0 s
  | .biasRaiseForFall x0 => Sys2Proof.Machine.execBiasRaiseForFall x0 s
  | .thermalReading x0 x1 => Sys2Proof.Machine.execThermalReading x0 x1 s
  | .dieReturn x0 => Sys2Proof.Machine.execDieReturn x0 s
  | .cinchGrant x0 => Sys2Proof.Machine.execCinchGrant x0 s
  | .cinchIdleExpiry x0 => Sys2Proof.Machine.execCinchIdleExpiry x0 s
  | .tileComplete x0 => Sys2Proof.Machine.execTileComplete x0 s
  | .copyUnit x0 x1 => Sys2Proof.Machine.execCopyUnit x0 x1 s
  | .copyComplete x0 x1 => Sys2Proof.Machine.execCopyComplete x0 x1 s
  | .tokenBucketRefill x0 x1 => Sys2Proof.Machine.execTokenBucketRefill x0 x1 s
  | .hbmSlot x0 x1 => Sys2Proof.Machine.execHbmSlot x0 x1 s
  | .refreshManagement x0 x1 => Sys2Proof.Machine.execRefreshManagement x0 x1 s
  | .hbmRefresh x0 x1 => Sys2Proof.Machine.execHbmRefresh x0 x1 s
  | .dataReturn x0 x1 x2 x3 => Sys2Proof.Machine.execDataReturn x0 x1 x2 x3 s
  | .writeApplyHome x0 x1 => Sys2Proof.Machine.execWriteApplyHome x0 x1 s
  | .writeApplyRemote x0 x1 => Sys2Proof.Machine.execWriteApplyRemote x0 x1 s
  | .translationWalk x0 x1 x2 => Sys2Proof.Machine.execTranslationWalk x0 x1 x2 s
  | .pageWindowFill x0 x1 x2 => Sys2Proof.Machine.execPageWindowFill x0 x1 x2 s
  | .faultDescriptorWrite x0 => Sys2Proof.Machine.execFaultDescriptorWrite x0 s
  | .faultQueueRetry x0 => Sys2Proof.Machine.execFaultQueueRetry x0 s
  | .stage2FaultResolve x0 x1 x2 x3 => Sys2Proof.Machine.execStage2FaultResolve x0 x1 x2 x3 s
  | .bridleStage2Inval x0 x1 x2 x3 => Sys2Proof.Machine.execBridleStage2Inval x0 x1 x2 x3 s
  | .contextFreeze x0 => Sys2Proof.Machine.execContextFreeze x0 s
  | .stop x0 => Sys2Proof.Machine.execStop x0 s
  | .clearedFrameFill x0 => Sys2Proof.Machine.execClearedFrameFill x0 s
  | .matrixBeat x0 => Sys2Proof.Machine.execMatrixBeat x0 s
  | .fabricFlitSlot x0 => Sys2Proof.Machine.execFabricFlitSlot x0 s
  | .dieFault x0 => Sys2Proof.Machine.execDieFault x0 s
  | .fabricLinkTimeout x0 => Sys2Proof.Machine.execFabricLinkTimeout x0 s
  | .staleEpochReply x0 => Sys2Proof.Machine.execStaleEpochReply x0 s
  | .noTargetReply x0 => Sys2Proof.Machine.execNoTargetReply x0 s
  | .fabricRequest x0 x1 x2 => Sys2Proof.Machine.execFabricRequest x0 x1 x2 s
  | .preemptDecision x0 x1 x2 x3 x4 x5 => Sys2Proof.Machine.execPreemptDecision x0 x1 x2 x3 x4 x5 s
  | .quiescenceSave x0 x1 x2 => Sys2Proof.Machine.execQuiescenceSave x0 x1 x2 s
  | .restore x0 x1 => Sys2Proof.Machine.execRestore x0 x1 s
  | .allocTableWrite x0 x1 => Sys2Proof.Machine.execAllocTableWrite x0 x1 s
  | .scrubBurst x0 x1 => Sys2Proof.Machine.execScrubBurst x0 x1 s
  | .bridleRegisterWrite x0 x1 => Sys2Proof.Machine.execBridleRegisterWrite x0 x1 s
  | .hostReadCompletion x0 x1 => Sys2Proof.Machine.execHostReadCompletion x0 x1 s
  | .pcieCompletionTimeout x0 => Sys2Proof.Machine.execPcieCompletionTimeout x0 s
  | .fabricReply x0 x1 => Sys2Proof.Machine.execFabricReply x0 x1 s
  | .incomingMigration x0 => Sys2Proof.Machine.execIncomingMigration x0 s

end Sys2Proof.Machine
end

