-- ==== Sys2Proof/Machine/Place.lean ====
section
/-!
DEFINITION. Laying one instruction where the next step fetches it: a program comes to run only through a packet, a script and
a group (12_submission); these operations stand for that whole load (assumption log 6).
-/
namespace Sys2Proof.Machine

/-- A context with nothing registered. -/
def Ctx.blank : Ctx where
  root := 0
  saddlebag := 0
  faultHdr := 0
  faultLog2 := 0
  ways := 1
  goff := 0
  rr := Vector.replicate 4 0
  lqs := Vector.replicate 16 none
  fds := Vector.replicate 64 none
  nextFid := 1
  fqStuck := false
  freeze := none
  hold := false
  stops := []
  awaits := 0
  waking := 0
  toFetch := []
  saved := []
  klog := []
  klogPa := 0
  switched := 0
  rings := []

/-- A slice of some cores with no context. -/
def Slice.blank (cs : List CoreId) : Slice where
  cores := cs
  maps := [(0, cs)]
  port := 0
  accept := false
  s2root := 0
  gpas := []
  keyId := 0
  oldKey := none
  freeing := 0
  unreturned := []
  kept := []
  parked := false
  args := Vector.replicate 5 0
  ctxs := Vector.replicate 8 none

/-- Slice 0 with context 0 that holds core 0, where the state has none. -/
def State.withCtx (s : State) : State :=
  let s := match s.slice? 0 with
    | some _ => s
    | none => s.setSlice 0 (some (Slice.blank [0]))
  let s := match s.ctx? ⟨0, 0⟩ with
    | some _ => s
    | none => s.setCtx ⟨0, 0⟩ (some Ctx.blank)
  s.modCore 0 fun k => { k with bind := some (0, 0), ctx := some 0 }

/-- One word as the only word of a last section of both streams of sequencer 0 of core 0, which runs a resident group; the
stream st stands at it and the other has ended. -/
def State.placeWord (s : State) (st : Strm) (w : IWord) : State :=
  let s := s.withCtx
  let y : Stream := { Stream.reset with st := .run, len := 1, sec := 1, last := true, word := some 0, ne := 1, insts := [⟨1, 1, false⟩] }
  let e : Stream := { Stream.reset with st := .ended }
  let x : Seq := { Seq.reset with st := .run, resident := true, a := if st = .a then y else e, c := if st = .c then y else e }
  let s := s.modCore 0 fun k => { k.setSeq 0 x with imem := [⟨⟨0, 0⟩, 0, 0, [some w], []⟩] }
  { s with agenda := [.issue 0 0] }

/-- One word as the script of the packet that die 0 runs for context 0 of slice 0 (R222). -/
def State.placeScript (s : State) (w : BitVec 32) : State :=
  let s := s.withCtx
  let z : Vector Word 8 := Vector.replicate 8 0
  let r : Run := ⟨s.girth, 0, 0, 0, [], [w], z, z, 0, none, 0, 0, true, []⟩
  let s := s.modDie 0 fun d => { d with runs := mapPut d.runs 0 [r] }
  { s with agenda := [.script 0 ⟨0, 0⟩] }

/-- One instruction of the opcode table placed: 32 bits or fewer are a script word; more are a word of the C-stream, or of the A-stream
where the C-stream may not hold it. -/
def State.fetchWord (s : State) (nbits w : Nat) : State :=
  if nbits ≤ 32 then s.placeScript (BitVec.ofNat 32 w)
  else
    let v : IWord := BitVec.ofNat 96 w
    match decode .c true v with
    | .ok _ => s.placeWord .c v
    | .error _ => s.placeWord .a v

end Sys2Proof.Machine
end

