-- ==== Sys2Proof/Machine/Sched.lean ====
section
/-!
DEFINITION. What one act does (04_groups R65, R70; 12_submission R222): a sequencer's issue cycle, a word of a script, an event, a tick; and
the default order of acts of one tick (assumption log 2).
-/
namespace Sys2Proof.Machine

/-- Meanings by instruction. -/
abbrev Meaning := Instr → State → Out

/-! ## A sequencer's issue cycle (R65) -/

/-- The state in which a sequencer looks at its streams: QFENCEs that have been met are let go. -/
def State.onIssue (s : State) (c : CoreId) : State := s.sweep c

/-- A stream as the agent on whose behalf a word runs. -/
def State.asStream (s : State) (c : CoreId) (q : SeqId) (st : Strm) : State :=
  { s with cur := ⟨c, q, st, dieOfCore c, s.cur.ctx⟩ }

/-- The next word of a stream that has to issue again (R268). -/
def Seq.nextAgain (x : Seq) (st : Strm) : Option Win := x.wins.find? fun w => w.again && decide (w.strm = st)

/-- A word that was struck, or that was discarded behind one, issues again: its window opens, a TSR samples again (R360), and a vector word
keeps to the pace of its unit (R268, R277). -/
def State.issueAgain (s : State) (c : CoreId) (q : SeqId) (w : Win) : State :=
  if w.lanes.isSome && !s.vecPace c q then s.stallStream c q w.strm 0 0
  else
    let k := s.core c
    let (n, x) := match w.lanes with
      | some m => (k.seq q).wakeLanes k.cyc m
      | none => (0, k.seq q)
    let x := { x with
      lastIssue := some k.cyc
      wins := x.wins.map fun v => if v.no = w.no then { v with cyc := k.cyc, again := false } else v }
    (s.setCore c ((k.addWake n).setSeq q x)).tsrAgain c q w

/-- A stream has a word that it may try to issue: one that has to issue again comes first, and one that was issued before a stop still
does so (R238, R268). -/
def State.canTry (s : State) (c : CoreId) (q : SeqId) (st : Strm) : Bool :=
  if ((s.seq c q).nextAgain st).isSome then s.alive c && decide ((s.seq c q).st = .run) else s.atWord c q st

/-- A stream tries its word: it is decoded and given its meaning; a word that does not decode traps (R121); one that is not in
instruction memory stalls (R289). -/
def State.tryWord (ex : Meaning) (s : State) (c : CoreId) (q : SeqId) (st : Strm) : Out :=
  match (s.seq c q).nextAgain st with
  | some w => .next (s.issueAgain c q w)
  | none =>
    match s.curWord c (s.strm c q st) with
    | none => .next (s.stallStream c q st 0 7)
    | some w =>
      match decode st (s.seq c q).resident w with
      | .ok i => ex i (s.asStream c q st)
      | .error n => .next (s.trapStream c q st ⟨1, n, 0, 0⟩ w)

/-- A stream that tries its word does not stall. -/
def outReady (o : Out) (c : CoreId) (q : SeqId) (st : Strm) : Bool :=
  match o with
  | .next s => (s.strm c q st).stall.isNone || decide ((s.seq c q).lastIssue = some (s.core c).cyc)
  | .fault _ | .refused _ => true

/-- The state after an outcome; a stop leaves the state before. -/
def outState (o : Out) (s : State) : State :=
  match o with
  | .next t => t
  | .fault _ | .refused _ => s

/-- Which of two ready streams issues (R65). -/
def Seq.turn (x : Seq) : Strm :=
  match x.alt with
  | none => .c
  | some st => st.sibling

/-- The sequencer may issue a word in the present cycle: none has issued in it, no bubble is open, and the cycle begins: a stretched one
lasts two ticks (R65, R268, R278). -/
def State.issueOpen (s : State) (c : CoreId) (q : SeqId) : Bool :=
  decide ((s.seq c q).lastIssue ≠ some (s.core c).cyc) && decide ((s.seq c q).bubble ≤ (s.core c).cyc) && !(s.core c).half

/-- Both streams have a word: a stream that stalls leaves the cycle to the other; of two that are ready one issues by turn. -/
def State.issueBoth (ex : Meaning) (s : State) (c : CoreId) (q : SeqId) : Out :=
  let rc := s.tryWord ex c q .c
  if outReady rc c q .c then
    let ra := s.tryWord ex c q .a
    if outReady ra c q .a then
      let p := (s.seq c q).turn
      (s.modSeq c q fun x => { x with alt := some p }).tryWord ex c q p
    else (outState ra s).tryWord ex c q .c
  else (outState rc s).tryWord ex c q .a

/-- One issue cycle of a sequencer. -/
def State.issueAct (ex : Meaning) (s : State) (c : CoreId) (q : SeqId) : Out :=
  let s := s.onIssue c
  if !s.issueOpen c q then .next s
  else if !s.canTry c q .a then (if s.canTry c q .c then s.tryWord ex c q .c else .next s)
  else if !s.canTry c q .c then s.tryWord ex c q .a
  else s.issueBoth ex c q

/-! ## A word of a script (R222) -/

/-- A die's script engine as the agent on whose behalf a script word runs. -/
def State.asScript (s : State) (d : DieId) (k : CtxId) : State := { s with cur := { s.cur with die := d, ctx := k } }

/-- One word of the run at the head of a context's queue on a die. -/
def State.scriptAct (ex : Meaning) (s : State) (d : DieId) (k : CtxId) : Out :=
  match s.runsOf d k with
  | r :: _ =>
    if r.started then
      match (r.script[r.pc]?).bind decodeScript with
      | some i => ex i (s.asScript d k)
      | none => .next s
    else .next s
  | [] => .next s

/-! ## Acts -/

/-- The instruction is a word of a stream or of a script: only an issue cycle or a script engine runs it. -/
def Instr.isWord (i : Instr) : Bool := (encodeNat i).isSome || (encodeScriptNat i).isSome

/-- A tick passes, and Bridle takes the next step of freeing each old partition (R261). -/
def State.passTick (s : State) : State := (List.finRange 32).foldl State.stepOld s.tick

/-- What one act does. -/
def State.runAct (ex : Meaning) (s : State) : Act → Out
  | .issue c q => s.issueAct ex c q
  | .script d k => s.scriptAct ex d k
  | .ev i => if Instr.isWord i then .next s else ex i s
  | .tick => .next s.passTick

/-! ## The default order of acts -/

/-- Acts of one sequencer. -/
def State.seqActs (s : State) (c : CoreId) (q : SeqId) : List Act :=
  let x := s.seq c q
  let loads (st : Strm) : List Act := (List.range (x.strm st).loads.length).reverse.map fun n => .ev (.dataReturn c q st n)
  let sec (st : Strm) : List Act := [.ev (.sectionFetch c q st), .ev (.sectionEnter c q st)]
  match x.st with
  | .idle => [.ev (.groupPop c q)]
  | .load => [.ev (.sectionFetch c q .a), .ev (.sectionFetch c q .c)] ++ loads .a ++ loads .c ++ [.ev (.groupStart c q)]
  | .run =>
    loads .a ++ loads .c ++ [.ev (.heldEffectCommit c q)] ++ (List.finRange 4).map (fun p => Act.ev (.pageWindowFill c q p)) ++
      sec .a ++ sec .c ++ [.issue c q, .ev (.groupRetire c q)]
  | .retire | .saved | .frozen => []

/-- Acts of one core: what a context that holds it has there, and what goes on in any core. -/
def State.coreActs (s : State) (c : CoreId) : List Act :=
  let k := s.core c
  (if k.ctxId.isNone then []
   else
    [.ev (.cinchIdleExpiry c), .ev (.cinchGrant c), .ev (.matrixBeat c), .ev (.tileComplete c)] ++
      ((List.finRange 8).filter fun q => !(k.cq q).items.isEmpty).flatMap (fun q => [Act.ev (.copyComplete c q), .ev (.copyUnit c q)]) ++
      allSeqs.flatMap (s.seqActs c)) ++
    (if k.qtag.isSome then [.ev (.quarantineInput c)] else []) ++ (if k.settle.isEmpty then [] else [.ev (.biasSettle c)]) ++
    (if k.cyc % 2 ^ 20 = 0 then [.ev (.replayWindowEnd c)] else [])

/-- Acts of one context. -/
def State.ctxActs (s : State) (k : CtxId) : List Act :=
  match s.ctx? k with
  | none => []
  | some x =>
    (if !x.stops.isEmpty then [.ev (.stop k)] else []) ++ (if x.freeze.isSome then [.ev (.contextFreeze k)] else []) ++
      [.ev (.faultQueueRetry k), .ev (.faultDescriptorWrite k)] ++
      ((List.finRange 16).filter fun n => match x.lqs[n.val] with | some q => q.run || !q.rung.isEmpty | none => false).flatMap
        (fun n => [Act.ev (.frontEndRun k n), .ev (.feedPacket k n)]) ++
      allDies.flatMap fun d =>
        (if (s.runsOf d k).isEmpty then [] else [.ev (.scriptRun d k), .script d k]) ++
        (if (s.jobs d k).isEmpty then [] else [.ev (.completionStep d k), .ev (.readyPush d k)])

/-- Acts of one die. -/
def State.dieActs (s : State) (d : DieId) : List Act :=
  (if s.girth % 65536 = 0 then [.ev (.frontEndPoll d)] else []) ++
    (if s.girth % 256 = 0 then (List.finRange 8).map (fun p => Act.ev (.tokenBucketRefill d p)) else []) ++
    (if (s.die d).emptying && !(s.die d).offline then [.ev (.dieFault d)] else []) ++
    [.ev (.biasRaiseForFall d), .ev (.railHoldEnd d), .ev (.railStep d)]

/-- A channel has something to do in a slot: a request, refresh management, a fill, Bridle's bursts, or a refresh that voids it. -/
def State.chanBusy (s : State) (n : Nat) : Bool :=
  let x := s.chan n
  !x.reqs.isEmpty || !x.rfm.isEmpty || x.voids (s.girth % 320 / 5) (s.girth / 320) ||
    (s.fills.any fun p => decide (frameStack p.1 = n / 32)) || s.bio.any fun p => (bioOn (n / 32) (n % 32) p).isSome

/-- At the start of a rotation every channel looks for its refresh; in a slot those that have something to do. -/
def State.chanActs (s : State) : List Act :=
  if s.girth % 5 ≠ 0 then []
  else
    let at_ (n : Nat) : Fin 8 × Fin 32 := (Fin.ofNat 8 (n / 32), Fin.ofNat 32 n)
    (if s.girth % 320 = 0 then (List.range 256).map fun n => Act.ev (.hbmRefresh (at_ n).1 (at_ n).2) else []) ++
      ((List.range 256).filter s.chanBusy).flatMap fun n =>
        [.ev (.hbmRefresh (at_ n).1 (at_ n).2), .ev (.refreshManagement (at_ n).1 (at_ n).2), .ev (.hbmSlot (at_ n).1 (at_ n).2)]

/-- Writes on their way. -/
def State.writeActs (s : State) : List Act :=
  let pairs := allDies.flatMap fun a => allDies.map fun b => (a, b)
  pairs.flatMap (fun p => if (s.die p.1).pend.isEmpty && s.transit.isEmpty then [] else
      [Act.ev (.writeApplyHome p.1 p.2), .ev (.writeApplyHome p.1 p.2)]) ++
    (if s.transit.isEmpty && s.allocOld.isEmpty then [] else pairs.map fun p => .ev (.writeApplyRemote p.1 p.2))

/-- The event by which a command in progress goes on; none for SLICEMAKE, which needs Bridle's choice. -/
def cmdEvent (f : FnId) (code : Nat) : Option Instr :=
  match code with
  | 0x01 => some (.ctxcreate f)
  | 0x02 => some (.ctxkill f)
  | 0x03 => some (.lqreg f)
  | 0x04 => some (.fdreg f)
  | 0x05 => some (.inval f)
  | 0x06 => some (.resume f)
  | 0x07 => some (.hostCancel f)
  | 0x08 => some (.thaw f)
  | 0x21 => some (.slicefree f)
  | 0x22 => some (.migrate f)
  | _ => none

/-- A command of a physical function frees a slice. -/
def State.beingFreed (s : State) (n : Fin 32) : Bool :=
  s.fns.any fun p => p.2.busy && decide (0x21 ≤ p.2.code) && decide ((p.2.arg 0).toNat = n.val)

/-- Commands in progress, boots that have started, and slices that are freed by a function-level reset. -/
def State.hostActs (s : State) : List Act :=
  (s.fns.flatMap fun p =>
    let f := fnOfNo p.1
    (if p.2.busy then (cmdEvent f p.2.code).toList.map Act.ev else []) ++
      (p.2.boots.filter fun b => b.2.start.isSome).map fun b => .ev (.bootGo f (Fin.ofNat 64 b.1))) ++
  (List.finRange 32).filterMap fun n => (s.slice? n).bind fun x =>
    if x.freeing ≠ 0 ∧ s.beingFreed n = false then some (.ev (.functionLevelReset ⟨x.port, Fin.ofNat 33 (n.val + 1)⟩)) else none

/-- Messages that wait at the fabric ports, requests that have waited too long, and fills that are under way. -/
def State.otherActs (s : State) : List Act :=
  (if s.fabOuts.isEmpty && s.fabBack.isEmpty && s.fabPorts.all (fun p => p.2.arriving.isEmpty) then []
   else (List.finRange 24).map fun p => Act.ev (.fabricFlitSlot p)) ++
    ((s.fabOuts.filter fun r => match r.sent with | some t => decide (t + 2 ^ 22 ≤ s.girth) | none => false).map fun r =>
      Act.ev (.fabricLinkTimeout r.id)) ++
    s.fills.map fun p => .ev (.clearedFrameFill (Fin.ofNat 8388608 p.1))

/-- The acts of one tick, in the order the model takes when nothing else is set: the units of the package once each, then the tick. -/
def State.round (s : State) : List Act :=
  (if s.girthOn then
    s.hostActs ++ s.allCtxs.flatMap s.ctxActs ++ allDies.flatMap s.dieActs ++ s.chanActs ++ s.otherActs ++ s.writeActs ++
      allCores.flatMap s.coreActs
  else []) ++ [.tick]

/-! ## The order within a tick (R13, R23, R62, R125, R144, R149, R156, R268, R274) -/

/-- The first word whose held effects wait on a sequencer has an OPC. -/
def Seq.headIs (x : Seq) (opc : Nat) : Bool :=
  match x.held with
  | [] => false
  | h :: _ => decide (bitsOf h.word.toNat 83 74 = opc)

/-- Place of a sequencer's commit: MRD before the copy engines, ACSET before the credits, UNCINCH after every request, grant and acceptance;
the others by core and sequencer, each before the word that its sequencer issues (R23, R125, R144, R149, R156). -/
def State.commitPlace (s : State) (c : CoreId) (q : SeqId) : Nat :=
  let x := s.seq c q
  if x.headIs 0x206 then q.val else if x.headIs 0x288 then 4 + q.val else if x.headIs 0x201 then 610 + q.val
  else 16 + 8 * c.val + 2 * q.val

/-- The place of an act in its tick, for acts whose order the spec states; an act with a lower place takes effect first. CE0 comes before CE1,
and the old values that a step brings back to a scratchpad come between them (R144); a grant before the acceptances, these before the end of
an idle lease, UNCINCH and the retire of a group (R125); a sequencer's issue before a strike (R268), an overrun before Bridle's write of MCR
(R274); whatever may trap before a stop (R62). -/
def State.actPlace (s : State) : Act → Option Nat
  | .ev (.heldEffectCommit c q) => some (s.commitPlace c q)
  | .ev (.copyUnit _ n) | .ev (.copyComplete _ n) => some (8 + 2 * (n.val / 4))
  | .ev (.writeApplyHome _ _) | .ev (.writeApplyRemote _ _) | .ev (.fabricReply _ _) | .ev (.fabricFlitSlot _) => some 9
  | .ev (.dataReturn _ _ _ _) | .ev (.hostReadCompletion _ _) | .ev (.pcieCompletionTimeout _) | .ev (.staleEpochReply _)
  | .ev (.noTargetReply _) | .ev (.fabricLinkTimeout _) | .ev (.stage2FaultResolve _ _ _ _) => some 11
  | .ev (.cinchGrant _) => some 12
  | .issue c q => some (17 + 8 * c.val + 2 * q.val)
  | .ev (.cinchIdleExpiry _) => some 600
  | .ev (.groupRetire _ q) => some (620 + q.val)
  | .ev (.replay _ _ _) => some 630
  | .ev (.mcrWrite _ _) => some 640
  | .ev (.stop _) => some 650
  | _ => none

/-- Act b takes effect before act a when both are of one cycle. -/
def State.goesBefore (s : State) (b a : Act) : Bool :=
  match s.actPlace b, s.actPlace a with
  | some m, some n => decide (m < n)
  | _, _ => false

/-- Place of the act that moves next among the acts before the next tick: the first of them, or one that goes before it. -/
def State.nextIx (s : State) : Nat → Nat → Act → List Act → Nat
  | best, _, _, [] => best
  | best, i, a, b :: t =>
    if b = .tick then best
    else if s.goesBefore b a then s.nextIx i (i + 1) b t
    else s.nextIx best (i + 1) a t

/-- The act that moves next of a list, and the others. -/
def State.pickAct (s : State) : List Act → Act × List Act
  | [] => (.tick, [])
  | a :: t =>
    let i := s.nextIx 0 1 a t
    (((a :: t)[i]?).getD a, (a :: t).eraseIdx i)

/-- What moves next and what follows it. -/
def State.nextAct (s : State) : Act × List Act := s.pickAct (if s.agenda.isEmpty then s.round else s.agenda)

/-- One step: the next act, with the rest left in the agenda. -/
def stepWith (ex : Meaning) (s : State) : Out :=
  let p := s.nextAct
  ({ s with agenda := p.2 } : State).runAct ex p.1

end Sys2Proof.Machine
end

