-- ==== Sys2Proof/Machine/Step.lean ====
section
/-!
DEFINITION. One step of the package, and the placement of one instruction where the next step runs it.
-/
namespace Sys2Proof.Machine

/-- One step: what moves next moves (assumption log 2). -/
def step (s : State) : Host.Outcome State Fault Refusal := stepWith exec s

/-- The state with one instruction where the next step runs it (assumption log 6): a queue-script word as the script of a packet that
is running, a 96-bit word as the only word of a section of a running group. -/
def State.withFetchWord (s : State) (nbits w : Nat) : State := s.fetchWord nbits w

end Sys2Proof.Machine
end

