-- ==== Sys2Proof/Safety.lean ====
section
/-!
DEFINITION. What counts as a safe outcome and a sound state, and the terms in which the statements speak of the word that runs.
-/
namespace Sys2Proof.Machine

/-- The outcome is a next state: the machine goes on. -/
def Goes (o : Out) : Prop := ∃ t, o = .next t

/-- The outcome is a next state of which p holds. -/
def GoesTo (o : Out) (p : State → Prop) : Prop := ∃ t, o = .next t ∧ p t

/-- Whatever the next state is, p holds of it. -/
def Ensures (o : Out) (p : State → Prop) : Prop := ∀ t, o = .next t → p t

/-- The memories of a core are in their canonical form: its scratchpad, its tiles and the vector registers of its sequencers. -/
def Core.memOk (k : Core) : Bool := Memory.wf k.spad && tblWf 0 k.tiles && k.seqs.toList.all fun x => tblWf 0 x.v

/-- Every memory of the package is in its canonical form: device memory as each die has it, host memory, and those of each core. -/
def State.memOk (s : State) : Bool :=
  s.dies.toList.all (fun d => Memory.wf d.view) && Memory.wf s.hostMem && s.cores.toList.all Core.memOk

/-- One byte of device memory as a die has it. -/
def State.byteAt (s : State) (d : DieId) (a : Nat) : Byte := tblGet 0 (s.die d).view a

/-- One byte of a scratchpad. -/
def State.spadAt (s : State) (c : CoreId) (a : Nat) : Byte := tblGet 0 (s.core c).spad a

/-- One byte of the host memory that a function reaches (R253). -/
def State.hostAt (s : State) (f : FnId) (a : Nat) : Byte := tblGet 0 s.hostMem (hostKey f a)

/-- Every byte of memory reads as before: device memory on every die, every scratchpad, host memory. -/
def State.sameBytes (s t : State) : Prop :=
  (∀ d a, t.byteAt d a = s.byteAt d a) ∧ (∀ c a, t.spadAt c a = s.spadAt c a) ∧ ∀ f a, t.hostAt f a = s.hostAt f a

/-! ## The word that runs -/

/-- Sequencer and stream on whose behalf a word runs. -/
def State.curSeq (s : State) : Seq := s.seq s.cur.core s.cur.seq
def State.curStrm (s : State) : Stream := s.strm s.cur.core s.cur.seq s.cur.strm

/-- The running stream's word may issue (R65, R82): the stream stands at a word, and its wait slot, its queues, its registers and
the earlier held effects it waits for all let it. -/
def State.canIssue (s : State) (u : Uses) : Prop :=
  s.atWord s.cur.core s.cur.seq s.cur.strm = true ∧ s.blocked s.cur.core s.cur.seq s.cur.strm u = none

/-- The state once the running stream's word has issued with an effect. -/
def State.issues (s : State) (u : Uses) (r : Ret) : State := s.doRet s.cur.core s.cur.seq s.cur.strm u r

/-- The values that source fields supply: the i-th of some scalar fields, and of some vector fields (R85, R86). -/
def State.src (s : State) (os : List SOp) (i : Nat) : Word := arg (s.curSeq.srcVals s.cur.strm os) i
def State.vsrc (s : State) (os : List VOp) (i : Nat) : VWord := varg (s.curSeq.vsrcVals os) i

/-- What a word uses that takes scalar sources to one scalar destination. -/
def scalarUses (w : Wait) (d : SOp) (src : List SOp) : Uses := { wait := w, src := src, dst := [d] }

/-- The running word issues and gives its scalar destination a value: a register at once, a queue by a held push, XZ nothing. -/
def State.gives (s : State) (u : Uses) (d : SOp) (v : Word) : Out := .next (s.issues u (retDst s.curSeq d v {}))

/-- What a vector word uses that writes one V register; `flags` when it may raise flags. -/
def vecUses (w : Wait) (vd : Fin 640) (src : List VOp) (km : Fin 16) (whole flags : Bool) : Uses :=
  { wait := w, vsrc := src, vdst := [.v vd], own := if flags then [.spr 3] else [], vec := some (km, whole) }

/-- The running vector word issues and gives a V register a value and FLAGS some more flags. -/
def State.vgives (s : State) (u : Uses) (vd : Fin 640) (v : VWord) (fl : BitVec 5) : Out :=
  .next (s.issues u { v := [(vd, v)], fl := fl })

/-- The running word issues with held effects alone. -/
def State.holds (s : State) (u : Uses) (es : List Eff) : Out := .next (s.issues u { effs := es })

/-- The running word waits under a row of R82. -/
def State.waitsAt (s : State) (w : Wait) (row : Nat) : Out := .next (s.stallStream s.cur.core s.cur.seq s.cur.strm (waitKind w) row)

/-- The running word traps. -/
def State.traps (s : State) (i : TrapInfo) : Out :=
  .next (s.trapStream s.cur.core s.cur.seq s.cur.strm i ((s.curWord s.cur.core s.curStrm).getD 0))

/-! What the running word answers when its own conditions have changed the state to `t`: they walked a table, filled a window, asked
for lines or took a name. -/

/-- It issues with an effect. -/
def State.goesIn (s t : State) (u : Uses) (r : Ret) : Out := .next (t.doRet s.cur.core s.cur.seq s.cur.strm u r)

/-- It waits under a row of R82. -/
def State.waitsIn (s t : State) (w : Wait) (row : Nat) : Out :=
  .next (t.stallStream s.cur.core s.cur.seq s.cur.strm (waitKind w) row)

/-- It traps. -/
def State.trapsIn (s t : State) (i : TrapInfo) : Out :=
  .next (t.trapStream s.cur.core s.cur.seq s.cur.strm i
    ((t.curWord s.cur.core (t.strm s.cur.core s.cur.seq s.cur.strm)).getD 0))

/-- It faults: its stream parks once every older word of it has retired, and until then the word waits (R80). -/
def State.parksIn (s t : State) (w : Wait) (f : AccFault) : Out :=
  if (t.seq s.cur.core s.cur.seq).streamIdle s.cur.strm = true then .next (t.parkStream s.cur.core s.cur.seq s.cur.strm f)
  else s.waitsIn t w 0

/-- It comes to one of the four results a word has. -/
def State.answers (s t : State) (u : Uses) : Res → Out
  | .go r => s.goesIn t u r
  | .stall row => s.waitsIn t u.wait row
  | .trap i => s.trapsIn t i
  | .park f => s.parksIn t u.wait f

/-- The failure that a vector load or store reports of those of its lanes: of cause 5 if there is any (R207, R383). -/
def laneFail (errs : List (Nat × AErr)) : Option AErr :=
  let fives := errs.filter fun e => decide (e.2.cause = 5)
  pickErr ((if fives.isEmpty then errs else fives).map (·.2))

/-- An access of it has failed: at a fault it parks (R207), behind a table line that cannot be read yet it waits, and at a line that
cannot be corrected it traps with kind 10 and cause 3 (R213). -/
def State.failsIn (s t : State) (w : Wait) : AErr → Out
  | .fault f => s.parksIn t w f
  | .wait => s.waitsIn t w 8
  | .bad a => s.trapsIn t ⟨10, 3, 0, BitVec.ofNat 64 a⟩

/-- The value that an element of its tile has when a command in a slot completes (R140), once its slabs have their bytes: it starts from the
tile's value or, in the shadow slot, from that which the command before it on the tile completes with. -/
def Core.endsAt (k : Core) (m : MCmd) (i j : Nat) (v : Acc) : Prop :=
  let b := k.tileGet m.atd i j
  k.settled m = true ∧
    ((k.front = some m ∧ v = m.finalVal k i j b) ∨
     (k.shadow = some m ∧
       (((∀ f, k.front = some f → f.atd ≠ m.atd) ∧ v = m.finalVal k i j b) ∨
        ∃ f, k.front = some f ∧ f.atd = m.atd ∧ k.settled f = true ∧ v = m.finalVal k i j (f.finalVal k i j b))))

/-- What a read of a whole tile that is owned may return (R140): of each element the value at the acceptance of a command on the tile, or
that at the completion of one; the tile's own while none is in a slot. -/
def Core.tileReadOf (k : Core) (t : Fin 32) (vs : List Acc) : Prop :=
  vs.length = 4096 ∧ ∀ (i j : Fin 64), ∃ v, vs[64 * i.val + j.val]? = some v ∧
    ((v = k.tileGet t i j ∧ ∀ m, (k.front = some m ∨ k.shadow = some m) → m.atd ≠ t) ∨
     ∃ m, (k.front = some m ∨ k.shadow = some m) ∧ m.atd = t ∧ (v = k.tileWas m i j ∨ k.endsAt m i j v))

/-- Nothing but one sequencer of one core differs, with the monitors and wake units of that core, and with the Cinch where a sequencer
whose streams have both ended gives it up (R71). -/
def State.sameBut (s t : State) (c : CoreId) (q : SeqId) : Prop :=
  t = s.setCore c { s.core c with
    seqs := (t.core c).seqs, mons := (t.core c).mons, wakes := (t.core c).wakes
    cinch := (t.core c).cinch, cinchAt := (t.core c).cinchAt } ∧
  (∀ r, r ≠ q → t.seq c r = s.seq c r ∧ (t.core c).cinchOf r = (s.core c).cinchOf r) ∧
  (((t.seq c q).a.st ≠ .ended ∨ (t.seq c q).c.st ≠ .ended) →
    (t.core c).cinch = (s.core c).cinch ∧ (t.core c).cinchAt = (s.core c).cinchAt)

end Sys2Proof.Machine
end

