-- ==== Sys2Proof/Certificates/Slice0/Obligations.lean ====
section
/-!
DEFINITION. The statements for the provers. A statement about a word speaks of a state in which the running stream may issue it
(`State.canIssue`) and says the state that follows: `gives`, `vgives`, `holds` and `issues` name it by what the word does, and
`IssueRegisters`, `IssueControl`, `IssueHeldEffects` and `IssueFrame` say what that leaves in the state.
-/
open Sys2Proof Sys2Proof.Machine

/-! ## What an issue leaves in the state -/

/-- R84, R86, R88, R55: what a word writes of its registers, however many it writes. A register the word writes, once, is the value
written; every other is its last value; FLAGS keep what was raised and take what the word raises; K0 reads as all ones whatever is
written to it; the sibling stream's registers stay. -/
def Obligations.IssueRegisters : Prop :=
  ∀ (s : State) (u : Uses) (r : Ret), tblWf 0 s.curSeq.v = true →
    let t := s.issues u r
    t.cur = s.cur ∧
    (∀ n, (∀ p ∈ r.x, p.1 ≠ n) → t.curStrm.getX n = s.curStrm.getX n) ∧
    ((r.x.map (·.1)).Nodup → ∀ p ∈ r.x, t.curStrm.getX p.1 = p.2) ∧
    (∀ n, (∀ p ∈ r.v, p.1 ≠ n) → t.curSeq.getV n = s.curSeq.getV n) ∧
    ((r.v.map (·.1)).Nodup → ∀ p ∈ r.v, t.curSeq.getV p.1 = p.2) ∧
    (∀ n, (∀ p ∈ r.k, p.1 ≠ n) → t.curSeq.getK n = s.curSeq.getK n) ∧
    ((r.k.map (·.1)).Nodup → ∀ p ∈ r.k, p.1 ≠ 0 → t.curSeq.getK p.1 = p.2) ∧
    t.curSeq.getK 0 = BitVec.allOnes 32 ∧
    t.curSeq.flags = s.curSeq.flags ||| r.fl ∧
    t.curSeq.strm s.cur.strm.sibling = s.curSeq.strm s.cur.strm.sibling

/-- R68, R70: where control stands after a word that transfers it: the next word; past the last word the header that follows in memory,
or, of a LAST section, the end of the stream; the word of a branch; the header of a jump; the end of the stream. -/
def Obligations.IssueControl : Prop :=
  ∀ (s : State) (u : Uses) (r : Ret) (w : Nat), s.curStrm.word = some w →
    let y := s.curStrm
    let z := (s.issues u r).curStrm
    (r.ctl = .next → w + 1 < y.len → z.word = some (w + 1) ∧ z.hdr = y.hdr ∧ z.st = y.st) ∧
    (r.ctl = .next → y.len ≤ w + 1 → y.last = false → z.word = none ∧ z.hdr = y.hdr + 8 + BitVec.ofNat 64 (12 * y.len) ∧ z.st = y.st) ∧
    (r.ctl = .next → y.len ≤ w + 1 → y.last = true → z.word = some w ∧ z.hdr = y.hdr ∧ z.st = .ended) ∧
    (∀ n, r.ctl = .word n → z.word = some n ∧ z.hdr = y.hdr ∧ z.st = y.st) ∧
    (∀ a, r.ctl = .header a → z.word = none ∧ z.hdr = a ∧ z.st = y.st) ∧
    (r.ctl = .ended → z.word = some w ∧ z.hdr = y.hdr ∧ z.st = .ended)

/-- R267, R269, R270: the pops of a word, its held effects and those of its loads (a push or the write of a tile) are kept, in that
order, behind the earlier held words of the sequencer, under the number of the word; no queue moves at issue of a word that makes no
load; the word's window opens, which closes four cycles later or after them, and no window that is open, or whose word is to issue again,
is lost. That it closes as late as R267 says of a result of many cycles is read by inference: log entry 83. -/
def Obligations.IssueHeldEffects : Prop :=
  ∀ (s : State) (u : Uses) (r : Ret),
    let x := s.curSeq
    let z := (s.issues u r).curSeq
    let es := u.pops.map Eff.pop ++ r.effs ++ r.load.filterMap fun l =>
      match l.dst with
      | .q _ _ | .dq _ | .tile _ => some (.land l.id l.dst none)
      | .x _ _ | .none _ | .v _ _ | .pre => none
    (es = [] → z.held = x.held) ∧
    (es ≠ [] → ∃ h, z.held = x.held ++ [h] ∧ h.no = x.wno ∧ h.strm = s.cur.strm ∧ h.effs = es ∧ h.rel = r.rel ∧ h.ar = r.ar) ∧
    (r.load = [] → z.bq = x.bq ∧ z.dq = x.dq ∧ z.fq = x.fq) ∧
    z.wno = x.wno + 1 ∧
    ∃ ws n word, 4 ≤ n ∧
      z.wins = ws ++ [⟨x.wno, s.cur.strm, (s.core s.cur.core).cyc, n, 0, word, r.wx, false, u.vec.map (laneMask x)⟩] ∧
      (∀ w ∈ ws, w ∈ x.wins) ∧ ∀ w ∈ x.wins, (w.again = true ∨ (s.core s.cur.core).cyc ≤ w.cyc + w.len) → w ∈ ws

/-- The frame of every word (R84 to R96): no byte of memory changes when a word issues; nothing outside its sequencer changes but its
core's monitors and wake units, and the Cinch when the word ends the second stream of its group (R71); no other sequencer of the core
changes, none of the special registers of the sequencer, and none of those of the stream. -/
def Obligations.IssueFrame : Prop :=
  ∀ (s : State) (u : Uses) (r : Ret),
    let t := s.issues u r
    s.sameBytes t ∧ s.sameBut t s.cur.core s.cur.seq ∧
    (let x := s.curSeq
     let z := t.curSeq
     z.st = x.st ∧ z.rcd = x.rcd ∧ z.popg = x.popg ∧ z.deadln = x.deadln ∧ z.grpid = x.grpid ∧ z.frame = x.frame ∧
       z.slip = x.slip ∧ z.alt = x.alt ∧ z.bubble = x.bubble ∧ z.resident = x.resident) ∧
    (let y := s.curStrm
     let z := t.curStrm
     z.len = y.len ∧ z.sec = y.sec ∧ z.last = y.last ∧ z.ne = y.ne ∧ z.pwdist = y.pwdist ∧ z.arr = y.arr ∧ z.ports = y.ports ∧
       z.park = y.park)

/-! ## Scalar words -/

/-- R295 and the entries of the two-source words (R298, R312 to R315, R327, R329, R347, R353): each gives its destination the value its
entry states, modulo 2^64. -/
def Obligations.ScalarTwoSources : Prop :=
  ∀ (s : State) (a : Sc3), s.canIssue (scalarUses a.w a.xd [a.xa, a.xb]) →
    let x := s.src [a.xa, a.xb] 0
    let y := s.src [a.xa, a.xb] 1
    let r (v : Word) : Out := s.gives (scalarUses a.w a.xd [a.xa, a.xb]) a.xd v
    exec (.iadd a) s = r (x + y) ∧ exec (.isub a) s = r (x - y) ∧ exec (.imul a) s = r (x * y) ∧
    exec (.imulh a .ss) s = r (BitVec.ofInt 64 (x.toInt * y.toInt / 2 ^ 64)) ∧
    exec (.imulh a .uu) s = r (BitVec.ofInt 64 ((x.toNat : Int) * (y.toNat : Int) / 2 ^ 64)) ∧
    exec (.imulh a .su) s = r (BitVec.ofInt 64 (x.toInt * (y.toNat : Int) / 2 ^ 64)) ∧
    exec (.idiv a false) s = r (if y = 0 then BitVec.allOnes 64 else BitVec.ofInt 64 (x.toInt.tdiv y.toInt)) ∧
    exec (.idiv a true) s = r (if y = 0 then BitVec.allOnes 64 else BitVec.ofNat 64 (x.toNat / y.toNat)) ∧
    exec (.irem a false) s = r (if y = 0 then x else BitVec.ofInt 64 (x.toInt.tmod y.toInt)) ∧
    exec (.irem a true) s = r (if y = 0 then x else BitVec.ofNat 64 (x.toNat % y.toNat)) ∧
    exec (.and a) s = r (x &&& y) ∧ exec (.andn a) s = r (x &&& ~~~y) ∧ exec (.or a) s = r (x ||| y) ∧ exec (.xor a) s = r (x ^^^ y) ∧
    exec (.shl a) s = r (if 64 ≤ y.toNat then 0 else x <<< y.toNat) ∧
    exec (.shr a) s = r (if 64 ≤ y.toNat then 0 else x >>> y.toNat) ∧
    exec (.shra a) s = r (x.sshiftRight (min y.toNat 64)) ∧ exec (.rot a) s = r (x.rotateRight (y.toNat % 64)) ∧
    exec (.min a false) s = r (if x.toInt ≤ y.toInt then x else y) ∧ exec (.min a true) s = r (if x.toNat ≤ y.toNat then x else y) ∧
    exec (.max a false) s = r (if x.toInt ≤ y.toInt then y else x) ∧ exec (.max a true) s = r (if x.toNat ≤ y.toNat then y else x) ∧
    exec (.icmp a .eq) s = r (if x = y then 1 else 0) ∧ exec (.icmp a .ne) s = r (if x = y then 0 else 1) ∧
    exec (.icmp a .lt) s = r (if x.toInt < y.toInt then 1 else 0) ∧ exec (.icmp a .le) s = r (if x.toInt ≤ y.toInt then 1 else 0) ∧
    exec (.icmp a .ltu) s = r (if x.toNat < y.toNat then 1 else 0) ∧ exec (.icmp a .leu) s = r (if x.toNat ≤ y.toNat then 1 else 0)

/-- R295 and the entries of the one-source, immediate and field words (R298, R302, R307, R312, R313, R327, R330, R339, R352, R404): the
immediate is sign-extended to 64 bits; the position of a field is XB mod 64, its width is XC mod 128, cut at bit 63. -/
def Obligations.ScalarOneSource : Prop :=
  ((∀ (s : State) (a : Sc2), s.canIssue (scalarUses a.w a.xd [a.xa]) →
     let x := s.src [a.xa] 0
     let r (v : Word) : Out := s.gives (scalarUses a.w a.xd [a.xa]) a.xd v
     exec (.mov a) s = r x ∧ exec (.popc a) s = r (BitVec.ofNat 64 (popCount 64 x.toNat)) ∧
     exec (.clz a) s = r (BitVec.ofNat 64 (64 - bitLen x.toNat))) ∧
   (∀ (s : State) (a : ScI), s.canIssue (scalarUses a.w a.xd [a.xa]) →
     let x := s.src [a.xa] 0
     let y : Word := a.imm.signExtend 64
     let r (v : Word) : Out := s.gives (scalarUses a.w a.xd [a.xa]) a.xd v
     exec (.iaddi a) s = r (x + y) ∧ exec (.andi a) s = r (x &&& y) ∧ exec (.ori a) s = r (x ||| y) ∧ exec (.xori a) s = r (x ^^^ y) ∧
     exec (.icmpi a .eq) s = r (if x = y then 1 else 0) ∧ exec (.icmpi a .ne) s = r (if x = y then 0 else 1) ∧
     exec (.icmpi a .lt) s = r (if x.toInt < y.toInt then 1 else 0) ∧ exec (.icmpi a .le) s = r (if x.toInt ≤ y.toInt then 1 else 0) ∧
     exec (.icmpi a .ltu) s = r (if x.toNat < y.toNat then 1 else 0) ∧ exec (.icmpi a .leu) s = r (if x.toNat ≤ y.toNat then 1 else 0)) ∧
   (∀ (s : State) (w : Wait) (xd : SOp) (imm : BitVec 32), s.canIssue (scalarUses w xd []) →
     exec (.li w xd imm) s = s.gives (scalarUses w xd []) xd (imm.signExtend 64)) ∧
   (∀ (s : State) (w : Wait) (xd : XReg) (imm : BitVec 32), s.canIssue (scalarUses w xd.sop [xd.sop]) →
     exec (.liHi w xd imm) s = s.gives (scalarUses w xd.sop [xd.sop]) xd.sop (imm ++ (s.src [xd.sop] 0).setWidth 32))) ∧
  ((∀ (s : State) (a : Sc4), s.canIssue (scalarUses a.w a.xd [a.xa, a.xb, a.xc]) →
     let src := [a.xa, a.xb, a.xc]
     let x := s.src src 0
     let p := (s.src src 1).toNat % 64
     let w := min ((s.src src 2).toNat % 128) (64 - p)
     let f := x.toNat / 2 ^ p % 2 ^ w
     let r (v : Word) : Out := s.gives (scalarUses a.w a.xd src) a.xd v
     exec (.sel a) s = r (if s.src src 2 = 0 then s.src src 1 else x) ∧
     exec (.bfx a false) s = r (BitVec.ofNat 64 f) ∧
     exec (.bfx a true) s = r (if w = 0 then 0 else if 2 ^ (w - 1) ≤ f then BitVec.ofInt 64 ((f : Int) - 2 ^ w) else BitVec.ofNat 64 f)) ∧
   (∀ (s : State) (w : Wait) (xd : XReg) (xa xb xc : SOp), s.canIssue (scalarUses w xd.sop [xa, xb, xc, xd.sop]) →
     let src := [xa, xb, xc, xd.sop]
     let p := (s.src src 1).toNat % 64
     let n := min ((s.src src 2).toNat % 128) (64 - p)
     let m : Word := BitVec.ofNat 64 ((2 ^ n - 1) * 2 ^ p)
     exec (.bfi w xd xa xb xc) s = s.gives (scalarUses w xd.sop src) xd.sop ((s.src src 3 &&& ~~~m) ||| ((s.src src 0 <<< p) &&& m))))

/-! ## Vector words -/

/-- R89, R350: what an element-wise result holds. A lane that its mask turns off keeps its old bits; in the others element j of lane i
is the code computed for it; the flags raised are those of the elements of unmasked lanes. -/
def Obligations.LanesOfResult : Prop :=
  ∀ (t : ET) (m : BitVec 32) (old : VWord) (f : Nat → Nat → Nat × BitVec 5), (∀ i j, (f i j).1 < 2 ^ t.bits) →
    let r := mapLanes t m old f
    (∀ i, i < 32 → m.getLsbD i = false → elemOf 32 i r.1.toNat = elemOf 32 i old.toNat) ∧
    (∀ i j, i < 32 → j < t.per → m.getLsbD i = true → elemAt t i j r.1 = (f i j).1) ∧
    (∀ b, b < 5 → (r.2.getLsbD b = true ↔ ∃ i j, i < 32 ∧ j < t.per ∧ m.getLsbD i = true ∧ (f i j).2.getLsbD b = true))

/-- R369, R372, R374, R376: the rounding forms of one, two and three sources and of an immediate. Each unmasked element is the exact
result of its operation rounded once; the flags are those of the operation and of the rounding. How a result that is not rational is
found, and NV of VFSCL, are the model's: log entries 20 and 25. -/
def Obligations.VectorFloatRounding : Prop :=
  (∀ (s : State) (a : V2) (r : Rnd), s.canIssue (vecUses a.w a.vd (a.va :: a.vb :: rndSrc r) a.km false true) →
    let src := a.va :: a.vb :: rndSrc r
    let g (op : FVal → Nat → Nat → FVal × BitVec 5) : Out :=
      let p := mapLanes a.et (s.curSeq.getK a.km) (s.curSeq.getV a.vd) fun i j =>
        let p := op (fvAt a.et i j (s.vsrc src 0)) i j
        let q := roundF (etFlt a.et) (rndAt r (s.vsrc src 2).toNat i (a.et.bits * j)) p.1
        (q.1, p.2 ||| q.2)
      s.vgives (vecUses a.w a.vd src a.km false true) a.vd p.1 p.2
    exec (.vfadd a r) s = g (fun x i j => FVal.add (rndIsRdn r) x (fvAt a.et i j (s.vsrc src 1))) ∧
    exec (.vfsub a r) s = g (fun x i j => FVal.add (rndIsRdn r) x (fvAt a.et i j (s.vsrc src 1)).neg) ∧
    exec (.vfmul a r) s = g (fun x i j => x.mul (fvAt a.et i j (s.vsrc src 1))) ∧
    exec (.vfscl a r) s = g (fun x i _ => x.mul (fF32.decode (elemOf 32 i (s.vsrc src 1).toNat)))) ∧
  (∀ (s : State) (a : V3) (r : RMode), s.canIssue (vecUses a.w a.vd [a.va, a.vb, a.vc] a.km false true) →
    let src := [a.va, a.vb, a.vc]
    let g (op : FVal → FVal → FVal → FVal × BitVec 5) : Out :=
      let p := mapLanes a.et (s.curSeq.getK a.km) (s.curSeq.getV a.vd) fun i j =>
        let p := op (fvAt a.et i j (s.vsrc src 0)) (fvAt a.et i j (s.vsrc src 1)) (fvAt a.et i j (s.vsrc src 2))
        let q := roundF (etFlt a.et) (.fixed r) p.1
        (q.1, p.2 ||| q.2)
      s.vgives (vecUses a.w a.vd src a.km false true) a.vd p.1 p.2
    exec (.vfma a r) s = g (fusedAdd (decide (r = .rdn))) ∧
    exec (.vfms a r) s = g (fun x y z => fusedAdd (decide (r = .rdn)) x y z.neg)) ∧
  (∀ (s : State) (a : VI) (r : RMode), s.canIssue (vecUses a.w a.vd [a.va] a.km false true) →
    let g (op : FVal → FVal → FVal → FVal × BitVec 5) : Out :=
      let p := mapLanes a.et (s.curSeq.getK a.km) (s.curSeq.getV a.vd) fun i j =>
        let p := op (fvAt a.et i j (s.vsrc [a.va] 0)) (fvAt a.et i j (immVec a.et a.imm)) (fvAt a.et i j (s.curSeq.getV a.vd))
        let q := roundF (etFlt a.et) (.fixed r) p.1
        (q.1, p.2 ||| q.2)
      s.vgives (vecUses a.w a.vd [a.va] a.km false true) a.vd p.1 p.2
    exec (.vfaddI a r) s = g (fun x y _ => FVal.add (decide (r = .rdn)) x y) ∧ exec (.vfmulI a r) s = g (fun x y _ => x.mul y) ∧
    exec (.vfmaI a r) s = g (fusedAdd (decide (r = .rdn)))) ∧
  (∀ (s : State) (a : V1) (r : Rnd), s.canIssue (vecUses a.w a.vd (a.va :: rndSrc r) a.km false true) →
    let src := a.va :: rndSrc r
    let g (op : FVal → FVal × BitVec 5) : Out :=
      let p := mapLanes a.et (s.curSeq.getK a.km) (s.curSeq.getV a.vd) fun i j =>
        roundResult (etFlt a.et) (rndAt r (s.vsrc src 1).toNat i (a.et.bits * j)) (op (fvAt a.et i j (s.vsrc src 0)))
      s.vgives (vecUses a.w a.vd src a.km false true) a.vd p.1 p.2
    exec (.vfrcp a r) s = g FVal.rcp ∧ exec (.vfrsq a r) s = g FVal.rsq ∧ exec (.vfexp2 a r) s = g FVal.exp2 ∧
    exec (.vflog2 a r) s = g FVal.log2)

/-- R371, R366, R396: VFCVT takes element e from source element e below both vector lengths and writes 0 beyond; VDOT gives one FP32
for each block; VRED one value in lane 0 and zeros elsewhere. The order of the two scales is the model's: log entry 25. -/
def Obligations.VectorConvertDotReduce : Prop :=
  (∀ (s : State) (a : V1) (t : ET) (r : Rnd), s.canIssue (vecUses a.w a.vd (a.va :: rndSrc r) a.km false true) →
    let src := a.va :: rndSrc r
    let p := mapLanes a.et (s.curSeq.getK a.km) (s.curSeq.getV a.vd) fun i j =>
      let e := i * a.et.per + j
      if e < t.count then
        (etNum a.et).convert (rndAt r (s.vsrc src 1).toNat i (a.et.bits * j)) ((etNum t).decode (elemOf t.bits e (s.vsrc src 0).toNat))
      else (0, 0)
    exec (.vfcvt a t r) s = s.vgives (vecUses a.w a.vd src a.km false true) a.vd p.1 p.2) ∧
  (∀ (s : State) (a : V2) (vc : Option VOp) (blk : Fin 3) (scl : Scl) (r : RMode),
    s.canIssue (vecUses a.w a.vd (a.va :: a.vb :: vc.toList) a.km false true) →
    let src := a.va :: a.vb :: vc.toList
    let b := 8 * 2 ^ blk.val
    let el (v : VWord) (t : Nat) : List FVal := (List.range b).map fun e => (etFlt a.et).decode (elemOf a.et.bits (t * b + e) v.toNat)
    let p := mapLanes .f32 (s.curSeq.getK a.km) (s.curSeq.getV a.vd) fun t _ =>
      if a.et.count / b ≤ t then (0, 0)
      else dotBlock r scl (elemOf 8 t (s.vsrc src 2).toNat) (elemOf 8 (64 + t) (s.vsrc src 2).toNat)
        (el (s.vsrc src 0) t) (el (s.vsrc src 1) t)
    exec (.vdot a vc blk scl r) s = s.vgives (vecUses a.w a.vd src a.km false true) a.vd p.1 p.2) ∧
  (∀ (s : State) (a : V1) (r : Rnd), s.canIssue (vecUses a.w a.vd (a.va :: rndSrc r) a.km true true) →
    let src := a.va :: rndSrc r
    let cs := selCodes a.et (s.curSeq.getK a.km) (s.vsrc src 0)
    let g (c : Nat) (fl : BitVec 5) : Out := s.vgives (vecUses a.w a.vd src a.km true true) a.vd (BitVec.ofNat 1024 c) fl
    let sum := FVal.sum (rndIsRdn r) (cs.map (etFlt a.et).decode)
    let rnd := roundF (etFlt a.et) (rndAt r (s.vsrc src 1).toNat 0 0) sum.1
    exec (.vred a .add r) s = g rnd.1 (sum.2 ||| rnd.2) ∧ exec (.vred a .min r) s = g (redPick (etFlt a.et) false cs) 0 ∧
    exec (.vred a .max r) s = g (redPick (etFlt a.et) true cs) 0)

/-- R368, R375 and the integer entries (R381, R388, R390, R395, R397): the forms that pick or compute codes and raise no flag. -/
def Obligations.VectorCodes : Prop :=
  (∀ (s : State) (a : V2), s.canIssue (vecUses a.w a.vd [a.va, a.vb] a.km false false) →
    let src := [a.va, a.vb]
    let g (op : Nat → Nat → Nat) : Out :=
      let p := mapLanes a.et (s.curSeq.getK a.km) (s.curSeq.getV a.vd) fun i j =>
        (op (elemAt a.et i j (s.vsrc src 0)) (elemAt a.et i j (s.vsrc src 1)), 0)
      s.vgives (vecUses a.w a.vd src a.km false false) a.vd p.1 p.2
    (∀ num, exec (.vfmin a num) s = g (pickMinMax (etFlt a.et) false num) ∧ exec (.vfmax a num) s = g (pickMinMax (etFlt a.et) true num)) ∧
    (∀ sat, exec (.viadd a sat) s = g (fun x y => intResult a.et sat (ivOf a.et x + ivOf a.et y)) ∧
      exec (.visub a sat) s = g (fun x y => intResult a.et sat (ivOf a.et x - ivOf a.et y))) ∧
    exec (.vimul a false) s = g (fun x y => wrapInt a.et.bits (ivOf a.et x * ivOf a.et y)) ∧
    exec (.vimul a true) s = g (fun x y => wrapInt a.et.bits (ivOf a.et x * ivOf a.et y / Int.ofNat (2 ^ a.et.bits))) ∧
    exec (.vimin a) s = g (fun x y => if ivOf a.et y < ivOf a.et x then y else x) ∧
    exec (.vimax a) s = g (fun x y => if ivOf a.et x < ivOf a.et y then y else x) ∧
    exec (.vshl a) s = g (fun x n => if a.et.bits ≤ n then 0 else x * 2 ^ n % 2 ^ a.et.bits) ∧
    exec (.vshr a) s = g (fun x n => wrapInt a.et.bits (ivOf a.et x / Int.ofNat (2 ^ min n a.et.bits)))) ∧
  (∀ (s : State) (a : VI), s.canIssue (vecUses a.w a.vd [a.va] a.km false false) →
    let g (op : Nat → Nat → Nat) : Out :=
      let p := mapLanes a.et (s.curSeq.getK a.km) (s.curSeq.getV a.vd) fun i j =>
        (op (elemAt a.et i j (s.vsrc [a.va] 0)) (elemAt a.et i j (immVec a.et a.imm)), 0)
      s.vgives (vecUses a.w a.vd [a.va] a.km false false) a.vd p.1 p.2
    (∀ num, exec (.vfminI a num) s = g (pickMinMax (etFlt a.et) false num) ∧ exec (.vfmaxI a num) s = g (pickMinMax (etFlt a.et) true num)) ∧
    (∀ sat, exec (.viaddI a sat) s = g (fun x y => intResult a.et sat (ivOf a.et x + ivOf a.et y))) ∧
    exec (.vshlI a) s = g (fun x n => if a.et.bits ≤ n then 0 else x * 2 ^ n % 2 ^ a.et.bits) ∧
    exec (.vshrI a) s = g (fun x n => wrapInt a.et.bits (ivOf a.et x / Int.ofNat (2 ^ min n a.et.bits)))) ∧
  (∀ (s : State) (a : V1), s.canIssue (vecUses a.w a.vd [a.va] a.km false false) →
    let g (op : Nat → Nat) : Out :=
      let p := mapLanes a.et (s.curSeq.getK a.km) (s.curSeq.getV a.vd) fun i j => (op (elemAt a.et i j (s.vsrc [a.va] 0)), 0)
      s.vgives (vecUses a.w a.vd [a.va] a.km false false) a.vd p.1 p.2
    exec (.vfabs a) s = g (editSign (etFlt a.et) fun _ => false) ∧ exec (.vfneg a) s = g (editSign (etFlt a.et) fun b => !b) ∧
    exec (.vfnabs a) s = g (editSign (etFlt a.et) fun _ => true) ∧ exec (.vpopc a) s = g (popCount a.et.bits)) ∧
  (∀ (s : State) (a : V3), s.canIssue (vecUses a.w a.vd [a.va, a.vb, a.vc] a.km false false) →
    let src := [a.va, a.vb, a.vc]
    let g (op : Nat → Nat → Nat → Nat) : Out :=
      let p := mapLanes a.et (s.curSeq.getK a.km) (s.curSeq.getV a.vd) fun i j =>
        (op (elemAt a.et i j (s.vsrc src 0)) (elemAt a.et i j (s.vsrc src 1)) (elemAt a.et i j (s.vsrc src 2)), 0)
      s.vgives (vecUses a.w a.vd src a.km false false) a.vd p.1 p.2
    (∀ sat, exec (.vimad a sat) s = g (fun x y z => intResult a.et sat (ivOf a.et x * ivOf a.et y + ivOf a.et z))) ∧
    exec (.vsel a) s = g (fun x y z => if z = 0 then y else x))

/-- R386, R387, R389, R391 to R394, R397 and R364, R365, R367: whole lanes combined, moved and broadcast, elements permuted, ordered,
packed and split into planes, and unpacked again. -/
def Obligations.VectorMoves : Prop :=
  ((∀ (s : State) (a : V2), s.canIssue (vecUses a.w a.vd [a.va, a.vb] a.km false false) →
     let src := [a.va, a.vb]
     let u := vecUses a.w a.vd src a.km false false
     let g (v : VWord) : Out := s.vgives u a.vd (mergeLanes (s.curSeq.getK a.km) (s.curSeq.getV a.vd) v) 0
     let p := mapLanes a.et (s.curSeq.getK a.km) (s.curSeq.getV a.vd) fun i j =>
       (elemOf a.et.bits (elemAt a.et i j (s.vsrc src 1) % a.et.count) (s.vsrc src 0).toNat, 0)
     exec (.vand a) s = g (s.vsrc src 0 &&& s.vsrc src 1) ∧ exec (.vor a) s = g (s.vsrc src 0 ||| s.vsrc src 1) ∧
     exec (.vxor a) s = g (s.vsrc src 0 ^^^ s.vsrc src 1) ∧ exec (.vperm a) s = s.vgives u a.vd p.1 p.2) ∧
   (∀ (s : State) (a : V1), s.canIssue (vecUses a.w a.vd [a.va] a.km false false) →
     let u := vecUses a.w a.vd [a.va] a.km false false
     let m := s.curSeq.getK a.km
     let v := s.vsrc [a.va] 0
     let g (v : VWord) : Out := s.vgives u a.vd (mergeLanes m (s.curSeq.getV a.vd) v) 0
     let p := mapLanes a.et m (s.curSeq.getV a.vd) fun i j => (elemOf a.et.bits (popCount i m.toNat * a.et.per + j) v.toNat, 0)
     exec (.vmov a) s = g v ∧ (∀ n : Fin 32, exec (.vrot a n) s = g (v.rotateRight (32 * n.val))) ∧
     (∀ n : Fin 32, exec (.vbcast a n) s = g (BitVec.ofNat 1024 (packElems 32 (List.replicate 32 (elemOf 32 n.val v.toNat))))) ∧
     exec (.vexpd a) s = s.vgives u a.vd p.1 p.2) ∧
   (∀ (s : State) (a : VI), s.canIssue (vecUses a.w a.vd [a.va] a.km false false) →
     exec (.vandI a) s = s.vgives (vecUses a.w a.vd [a.va] a.km false false) a.vd
       (mergeLanes (s.curSeq.getK a.km) (s.curSeq.getV a.vd) (s.vsrc [a.va] 0 &&& immVec a.et a.imm)) 0) ∧
   (∀ (s : State) (w : Wait) (vd : Fin 640) (imm : BitVec 16) (km : Fin 16) (et : ET), s.canIssue (vecUses w vd [] km false false) →
     exec (.vmovI w vd imm km et) s = s.vgives (vecUses w vd [] km false false) vd
       (mergeLanes (s.curSeq.getK km) (s.curSeq.getV vd) (immVec et imm)) 0) ∧
   (∀ (s : State) (w : Wait) (pair : Fin 320) (va vb : VOp) (km : Fin 16) (et : ET),
     let u : Uses := { wait := w, vsrc := [va, vb], vdst := [.v (pairLo pair), .v (pairHi pair)], vec := some (km, false) }
     s.canIssue u →
     let one (big : Bool) (old : VWord) : VWord :=
       (mapLanes et (s.curSeq.getK km) old fun i j =>
         let x := elemAt et i j (s.vsrc [va, vb] 0)
         let y := elemAt et i j (s.vsrc [va, vb] 1)
         (if keyBelow et y x then (if big then x else y) else (if big then y else x), 0)).1
     exec (.vminmax w pair va vb km et) s = .next (s.issues u
       { v := [(pairLo pair, one false (s.curSeq.getV (pairLo pair))), (pairHi pair, one true (s.curSeq.getV (pairHi pair)))] })) ∧
   (∀ (s : State) (a : V1) (n : BitVec 6), s.canIssue (vecUses a.w a.vd [a.va] a.km true false) →
     let m := s.curSeq.getK a.km
     let cs := ((List.range a.et.count).filter fun e => m.getLsbD (e / a.et.per)).map fun e => (e, elemOf a.et.bits e (s.vsrc [a.va] 0).toNat)
     let keep := if n = 0 then cs else cs.filter fun p => decide (rankOf a.et cs p < n.toNat)
     exec (.vcmpr a n) s = s.vgives (vecUses a.w a.vd [a.va] a.km true false) a.vd
       (BitVec.ofNat 1024 (packElems a.et.bits (keep.map (·.2)))) 0)) ∧
  ((∀ (s : State) (w : Wait) (vd : Fin 640) (va vb : VOp) (et : ET) (fmt : Fmt) (r : Rnd),
     s.canIssue (vecUses w vd (va :: vb :: rndSrc r) 0 true true) →
     let src := va :: vb :: rndSrc r
     let el (v : VWord) : List FVal := (List.range 32).map fun e => (etNum et).decode (elemOf et.bits e v.toNat)
     let p := packVals fmt (fun e => rndAt r (s.vsrc src 2).toNat (e / 2) (16 * (e % 2))) (el (s.vsrc src 0) ++ el (s.vsrc src 1))
     exec (.vpack w vd va vb et fmt r) s = s.vgives (vecUses w vd src 0 true true) vd (BitVec.ofNat 1024 p.1) p.2) ∧
   (∀ (s : State) (w : Wait) (vd : Fin 640) (va : VOp) (et : ET) (fmt : Fmt), s.canIssue (vecUses w vd [va] 0 true true) →
     let p := mapLanes et (BitVec.allOnes 32) (s.curSeq.getV vd) fun i j =>
       let e := i * et.per + j
       if e < fmt.capacity then (etNum et).convert .rne (packedVal fmt (s.vsrc [va] 0).toNat e) else (0, 0)
     exec (.vunpk w vd va et fmt) s = s.vgives (vecUses w vd [va] 0 true true) vd p.1 p.2) ∧
   (∀ (s : State) (w : Wait) (vd : Fin 640) (va : VOp) (fmt : Fmt), s.canIssue (vecUses w vd [va] 0 true false) →
     let v := (s.vsrc [va] 0).toNat
     exec (.vplane w vd va fmt) s = s.vgives (vecUses w vd [va] 0 true false) vd (BitVec.ofNat 1024 (packElems 32
       (planeLanes fmt ((List.range 32).map fun e => planeOf fmt (packedGet fmt v e)) (packedShared v 0).1 (packedShared v 0).2))) 0 ∧
     exec (.vunpl w vd va fmt) s = s.vgives (vecUses w vd [va] 0 true false) vd (BitVec.ofNat 1024
       (packedPut fmt ((List.range 32).map fun e => ofPlane fmt (lanePlane fmt v e)) +
         if fmt.bx?.isSome then elemOf 16 (2 * (fmt.planes + 2)) v * 2 ^ (8 * 124) else 0)) 0))

/-- R370, R382: a compare writes bit i of its mask register: 1 when the condition holds of every element of lane i; a lane that the
governing mask turns off keeps its bit. No flag is raised. R321, R322: the mask words, and the word that the worked KSET is. -/
def Obligations.CompareAndMaskWords : Prop :=
  (∀ (s : State) (w : Wait) (kd km : Fin 16) (src : List VOp) (t : ET) (f : Nat → Nat → Bool) (i : Instr),
     let u : Uses := { wait := w, vsrc := src, vec := some (km, false) }
     s.canIssue u →
     ((∃ va vb c, src = [va, vb] ∧ i = .vfcmp ⟨w, kd, va, vb, km, t⟩ c ∧
         f = fun i j => fcondHolds c (fvAt t i j (s.vsrc src 0)) (fvAt t i j (s.vsrc src 1))) ∨
      (∃ va imm c, src = [va] ∧ i = .vfcmpI ⟨w, kd, va, imm, km, t⟩ c ∧
         f = fun i j => fcondHolds c (fvAt t i j (s.vsrc src 0)) (fvAt t i j (immVec t imm))) ∨
      (∃ va vb c, src = [va, vb] ∧ i = .vicmp ⟨w, kd, va, vb, km, t⟩ c ∧
         f = fun i j => vicondHolds c t (elemAt t i j (s.vsrc src 0)) (elemAt t i j (s.vsrc src 1))) ∨
      (∃ va imm c, src = [va] ∧ i = .vicmpI ⟨w, kd, va, imm, km, t⟩ c ∧
         f = fun i j => vicondHolds c t (elemAt t i j (s.vsrc src 0)) (elemAt t i j (immVec t imm)))) →
     ∃ v : BitVec 32, exec i s = .next (s.issues u { k := [(kd, v)] }) ∧
       ∀ n, n < 32 → (v.getLsbD n = true ↔
         if (s.curSeq.getK km).getLsbD n then ∀ j, j < t.per → f n j = true else (s.curSeq.getK kd).getLsbD n = true)) ∧
  ((∀ (s : State) (w : Wait) (kd : Fin 16) (xa : XReg), s.canIssue { wait := w, src := [xa.sop] } →
     exec (.kset w kd xa) s = .next (s.issues { wait := w, src := [xa.sop] } { k := [(kd, (s.src [xa.sop] 0).setWidth 32)] })) ∧
   (∀ (s : State) (a : KA), s.canIssue { wait := a.w } →
     let x := s.curSeq.getK a.ka
     let y := s.curSeq.getK a.kb
     let g (v : BitVec 32) : Out := .next (s.issues { wait := a.w } { k := [(a.kd, v)] })
     exec (.kand a) s = g (x &&& y) ∧ exec (.kor a) s = g (x ||| y) ∧ exec (.kxor a) s = g (x ^^^ y) ∧ exec (.kandn a) s = g (x &&& ~~~y) ∧
     exec (.knot a.w a.kd a.ka) s = g (~~~x)) ∧
   (∀ (s : State) (w : Wait) (xd : SOp) (ka : Fin 16), s.canIssue { wait := w, dst := [xd] } →
     let m := (s.curSeq.getK ka).toNat
     exec (.kpopc w xd ka) s = s.gives { wait := w, dst := [xd] } xd (BitVec.ofNat 64 (popCount 32 m)) ∧
     ∃ v, exec (.kfirst w xd ka) s = s.gives { wait := w, dst := [xd] } xd v ∧
       (m = 0 → v = 32) ∧ (m ≠ 0 → v.toNat < 32 ∧ m.testBit v.toNat = true ∧ ∀ i, i < v.toNat → m.testBit i = false)) ∧
   decode .c true 0x000A3C000070000060000000 = .ok (.kset .none 3 (.x 7)))

/-! ## Control -/

/-- R299, R300, R304, R328: a branch that is taken goes to word w + OFF32 of its section when that is a word of it, one that is not
taken goes on; BQ pops its entry either way; LOOP counts its register down to 0 and is taken while more than one count was left. A taken
B, BQ or LOOP whose target is no word of the section traps with kind 2, cause 6 and its section's header as the detail (R68, R213), and
none of its effects. R318, R319: J and JAL go to the header at
base + 4 · OFF32 with its low two bits 0, where base is XA, or the current header for XZ; JAL links the header that follows in memory. -/
def Obligations.BranchesAndJumps : Prop :=
  (∀ (s : State) (w : Nat) (off : BitVec 32), s.curStrm.word = some w →
      let n : Int := (w : Int) + off.toInt
      let there := 0 ≤ n ∧ n < (s.curStrm.len : Int)
      let out (o : Out) : Prop := ∀ e, s.curSec s.cur.core s.curStrm = some e → o = s.traps ⟨2, 6, e.head, 0⟩
      (∀ (a : BrA), a.off = off → s.canIssue { wait := a.w, src := [a.xa.sop, a.xb.sop] } →
        let b := branchHolds a.cnd (s.src [a.xa.sop, a.xb.sop] 0) (s.src [a.xa.sop, a.xb.sop] 1)
        (b = true → there → exec (.b a) s = .next (s.issues { wait := a.w, src := [a.xa.sop, a.xb.sop] } { ctl := .word n.toNat })) ∧
        (b = true → ¬ there → out (exec (.b a) s)) ∧
        (b = false → exec (.b a) s = .next (s.issues { wait := a.w, src := [a.xa.sop, a.xb.sop] } {}))) ∧
      (∀ (wt : Wait) (q : Fin 4) (xb : XReg) (c : BCond) (h : Hint), s.canIssue { wait := wt, src := [.bq q, xb.sop] } →
        let b := branchHolds c (s.src [.bq q, xb.sop] 0) (s.src [.bq q, xb.sop] 1)
        (b = true → there → exec (.bq wt q xb c h off) s = .next (s.issues { wait := wt, src := [.bq q, xb.sop] } { ctl := .word n.toNat })) ∧
        (b = true → ¬ there → out (exec (.bq wt q xb c h off) s)) ∧
        (b = false → exec (.bq wt q xb c h off) s = .next (s.issues { wait := wt, src := [.bq q, xb.sop] } {}))) ∧
      (∀ (wt : Wait) (xa : Fin 64) (h : Hint), s.canIssue { wait := wt, src := [.x xa] } →
        let v := s.src [.x xa] 0
        (1 < v.toNat → there → exec (.loop wt xa h off) s =
          .next (s.issues { wait := wt, src := [.x xa] } { x := [(xa, v - 1)], ctl := .word n.toNat })) ∧
        (1 < v.toNat → ¬ there → out (exec (.loop wt xa h off) s)) ∧
        (v.toNat ≤ 1 → exec (.loop wt xa h off) s = .next (s.issues { wait := wt, src := [.x xa] } { x := [(xa, 0)] })))) ∧
  (∀ (s : State) (w : Wait) (xa xb : XReg) (off : BitVec 32),
     let base := if xa = .xz then s.curStrm.hdr else s.src [xa.sop] 0
     let target := (base + 4 * off.signExtend 64) &&& ~~~3
     (s.canIssue { wait := w, src := [xa.sop] } →
       exec (.j w xa off) s = .next (s.issues { wait := w, src := [xa.sop] } { ctl := .header target })) ∧
     (s.canIssue { wait := w, src := [xa.sop], dst := [xb.sop] } →
       exec (.jal w xa xb off) s = .next (s.issues { wait := w, src := [xa.sop], dst := [xb.sop] }
         (retDst s.curSeq xb.sop (s.curStrm.hdr + 8 + BitVec.ofNat 64 (12 * s.curStrm.len)) { ctl := .header target }))))

/-- R311, R309, R337, R399, R359: HALT ends its stream once nothing of it is outstanding; NOP goes on; WAIT goes on once all that its
sequencer sent out is back; FENCE goes on once nothing earlier of its stream is missing at its scope, at .s at once. Until then they
stall. TRAP raises the trap of kind 14 with its low eight bits as cause and its number as detail (R213). -/
def Obligations.HaltNopWaitFenceTrap : Prop :=
  (∀ (s : State) (w : Wait),
     (s.canIssue { wait := w } →
       let c := s.cur.core
       let q := s.cur.seq
       let st := s.cur.strm
       let stalls := Host.Outcome.next (s.stallStream c q st (waitKind w) 0)
       exec (.nop w) s = .next (s.issues { wait := w } {}) ∧
       (s.curSeq.streamIdle st = true → exec (.halt w) s = .next (s.issues { wait := w } { ctl := .ended })) ∧
       (s.curSeq.streamIdle st = false → exec (.halt w) s = stalls) ∧
       (s.seqDrained c q = true → exec (.wait w) s = .next (s.issues { wait := w } {})) ∧
       (s.seqDrained c q = false → exec (.wait w) s = stalls)) ∧
     (∀ sc, s.canIssue { wait := w } →
       let c := s.cur.core
       let q := s.cur.seq
       let st := s.cur.strm
       ((sc = .s ∨ s.fenced c q st sc = true) → exec (.fence w sc) s = .next (s.issues { wait := w } {})) ∧
       (sc ≠ .s → s.fenced c q st sc = false → exec (.fence w sc) s = .next (s.stallStream c q st (waitKind w) 0)))) ∧
  (∀ (s : State) (w : Wait) (n : BitVec 32), s.canIssue { wait := w } →
     exec (.trap w n) s = .next (s.trapStream s.cur.core s.cur.seq s.cur.strm ⟨14, n.toNat % 256, n.setWidth 64, 0⟩
       ((s.curWord s.cur.core s.curStrm).getD 0)))

/-! ## Traps, faults and stalls -/

/-- R62, R209, R214, R240: the first trap of a context, raised at Girth count G, sets the freeze count F = G + 64, keeps its kind, its
cause, its word and its place, and cancels the stops that have not been saved; the agent stands at its word with no effect. Of two traps
of one tick the lower logical core, then the lower agent, is the first; every other trap is counted and changes nothing else. Every byte of
memory, every other core and every other context stay. That a later trapping agent stops too is read by inference: log entry 13. -/
def Obligations.TrapFreezes : Prop :=
  ∀ (s : State) (c : CoreId) (q : SeqId) (st : Strm) (i : TrapInfo) (word : IWord) (k : CtxId) (x : Ctx),
    (s.core c).ctxId = some k → s.ctx? k = some x →
    let t := s.trapStream c q st i word
    let y := s.strm c q st
    let agent := match st with | .a => q.val | .c => 4 + q.val
    let lcore := (s.core c).lcore
    let mine (f : Freeze) (second : Nat) : Prop :=
      f.f = s.girth + 64 ∧ f.g = s.girth ∧ f.kind = i.kind ∧ f.cause = i.cause ∧ f.detail = i.detail ∧ f.addr = i.addr ∧ f.lcore = lcore ∧
        f.agent = agent ∧ f.word = word ∧ f.sechdr = y.hdr ∧ f.off = (match y.word with | some w => w | none => 0xFFF) ∧ f.second = second
    (x.freeze = none → ∃ f, t.ctx? k = some { x with freeze := some f, stops := [] } ∧ mine f 0) ∧
    (∀ f, x.freeze = some f →
      let n := min (f.second + 1) 0xFFFF
      let first := f.g = s.girth ∧ (lcore < f.lcore ∨ (lcore = f.lcore ∧ agent < f.agent))
      (first → ∃ g, t.ctx? k = some { x with freeze := some g } ∧ mine g n) ∧
      (¬ first → t.ctx? k = some { x with freeze := some { f with second := n } })) ∧
    t.strm c q st = { y with st := .trapped, stall := none, pre := [] } ∧
    (∀ l, l ≠ k → t.ctx? l = s.ctx? l) ∧ s.sameBytes t ∧ ∀ d, d ≠ c → t.core d = s.core d

/-- R80, R164, R207, R209, R210, R214: a fault parks its stream at the word, or its copy queue at the command's resume offset, with its cause and
address, and its core keeps a descriptor of it; every byte of memory and every context stay. As the tick ends, the faults raised in it take their
numbers in the order of R210, logical core by logical core and agent by agent. A fault takes its context's next number, which is never 0, and its
agent, A-stream, C-stream or copy queue, is given it; the descriptor of cause 1, 2 or 5 waits at its core for the context's fault queue and that of
cause 3 or 4 goes to Bridle's queue; a context that has trapped keeps neither number nor descriptor. -/
def Obligations.FaultParks : Prop :=
  (∀ (s : State) (c : CoreId) (q : SeqId) (st : Strm) (f : AccFault) (k : CtxId), (s.core c).ctxId = some k →
    let t := s.parkStream c q st f
    let y := s.strm c q st
    t.strm c q st = { y with
      st := .parked, stall := none, lod := y.lodCycles (s.core c).cyc, pre := [], park := some ⟨0, f.cause, f.addr, f.gpa⟩ } ∧
    (t.core c).descs = (s.core c).descs ++ [{
      ctx := k, lcore := (s.core c).lcore, agent := (match st with | .a => q.val | .c => 4 + q.val), addr := f.addr, sechdr := y.hdr
      word := (match y.word with | some w => w | none => 0xFFF), cause := f.cause, write := f.write, exec := f.exec
      straddle := f.straddle, window := f.window, gpa := f.gpa, fid := 0, offset := 0, sent := none }] ∧
    s.sameBytes t ∧ t.slices = s.slices) ∧
  (∀ (s : State) (c : CoreId) (n : CqId) (f : AccFault) (k : CtxId) (m : CopyCmd) (l : List CqItem), (s.core c).ctxId = some k →
    ((s.core c).cq n).items = .cmd m :: l →
    let t := s.parkQueue c n f
    ((t.core c).cq n).items = .cmd { m with park := some ⟨0, f.cause, f.addr, f.gpa⟩ } :: l ∧
    (t.core c).descs = (s.core c).descs ++ [{
      ctx := k, lcore := (s.core c).lcore, agent := 8 + n.val, addr := f.addr, sechdr := m.dst, word := 0, cause := f.cause
      write := f.write, exec := false, straddle := false, window := false, gpa := f.gpa, fid := 0, offset := m.offset, sent := none }] ∧
    s.sameBytes t ∧ t.slices = s.slices) ∧
  (∀ (s : State) (c : CoreId) (d : Desc) (x : Ctx), s.ctx? d.ctx = some x →
    let t := s.numberFault (c, d)
    let kept (e : Desc) : Prop := (t.core c).descs = (s.core c).descs.map fun f => if f = d then e else f
    let gone : Prop := (t.core c).descs = (s.core c).descs.filter fun f => !decide (f = d)
    (x.freeze.isSome = true → gone ∧ t.s2q = s.s2q ∧ t.slices = s.slices) ∧
    (x.freeze = none →
      t.ctx? d.ctx = some { x with nextFid := if x.nextFid + 1 = 0 then 1 else x.nextFid + 1 } ∧
      (d.cause = 3 ∨ d.cause = 4 → gone ∧ t.s2q = s.s2q ++ [{ d with fid := x.nextFid }]) ∧
      (d.cause ≠ 3 → d.cause ≠ 4 → kept { d with fid := x.nextFid } ∧ t.s2q = s.s2q) ∧
      (∀ (q : SeqId) (st : Strm) (p : Park), (s.strm c q st).park = some p → p.fid = 0 →
        d.agent = (match st with | .a => q.val | .c => 4 + q.val) → (t.strm c q st).park = some { p with fid := x.nextFid }) ∧
      ∀ (n : CqId) (m : CopyCmd) (l : List CqItem) (p : Park), ((s.core c).cq n).items = .cmd m :: l → m.park = some p → p.fid = 0 →
        d.agent = 8 + n.val → ((t.core c).cq n).items = .cmd { m with park := some { p with fid := x.nextFid } } :: l)) ∧
  ∀ (s : State), ∃ l, List.Perm l s.newDescs ∧
    List.Pairwise (fun a b => ¬ (b.2.ctx.idx = a.2.ctx.idx ∧ (b.2.lcore < a.2.lcore ∨ (b.2.lcore = a.2.lcore ∧ b.2.agent < a.2.agent)))) l ∧
    s.numberFaults = l.foldl (fun s p => s.numberFault p) s

/-- R78, R82: a word that is held back leaves its stream stalled and changes nothing else of its stream: the row of R82 that holds it
and the cycle since when; an unbroken stall keeps its cycle, and one of another row ends, with its length for the monitors (R293, R77).
A word that its conditions trap traps. What holds a word back, cause by cause, in the order in which the causes are looked at: an earlier
held effect of its stream on what its wait slot tests; a ring of the slot that is not configured (R152: kind 7) and a feed queue without
RESIDENT (R78: kind 1, cause 8); the condition of the slot, row 1; an acquire that is open, or a held store with .ar (R185); a QFENCE with
SELF (R190); an MMAS of the C-stream whose record is still to be read; a register a load has still to write; an earlier held effect of its
stream on what it uses; a ring index, feed queue or tag set that a sequencer has locked (R270); a queue that cannot serve its pops, row 4,
or that is orphaned (R76: kind 6); a queue without room for its pushes, row 4; and the pace of vector words (R277). A word that none of
them holds back may issue. What an acquire and an earlier access hold back is read by inference: log entries 11 and 12. -/
def Obligations.HeldBackStalls : Prop :=
  (∀ (s : State) (u : Uses) (f : State → List Word → List VWord → Res × State),
    s.atWord s.cur.core s.cur.seq s.cur.strm = true →
    let c := s.cur.core
    let cyc := (s.core c).cyc
    let t := s.issueWord u f
    (∀ i, s.blocked c s.cur.seq s.cur.strm u = some (.trap i) → .next t = s.traps i) ∧
    ∀ row, s.blocked c s.cur.seq s.cur.strm u = some (.stall row) →
      (s.curStrm.stall = none → t.curStrm = { s.curStrm with stall := some (row, cyc) }) ∧
      (∀ n, s.curStrm.stall = some (row, n) → t = s) ∧
      (∀ r n, s.curStrm.stall = some (r, n) → r ≠ row →
        t.curStrm = { s.curStrm with stall := some (row, cyc), lod := s.curStrm.lod + if r = 4 then cyc - n else 0 } ∧
        (t.core c).mons = (if r = 1 ∨ 100 ≤ r then (s.core c).monitorK 2 (if r = 1 then waitKind u.wait else r - 100) (cyc - n)
          else if r = 3 then (s.core c).monitor 6 (cyc - n) else if r = 6 then (s.core c).monitor 8 (cyc - n) else s.core c).mons) ∧
      s.sameBytes t) ∧
  ∀ (s : State) (u : Uses),
    let c := s.cur.core
    let k := s.core c
    let x := s.curSeq
    let y := s.curStrm
    let st := s.cur.strm
    let is (r : Res) : Prop := s.blocked c s.cur.seq st u = some r
    let times (l : List QCode) (r : QCode) : Nat := (l.filter fun p => decide (p = r)).length
    let mine (os : List Obj) : Bool := clashes os (x.heldObjs k.tagWays st)
    let holds : Prop := s.waitCond c s.cur.seq st u.wait = .ok true
    let bounded : Prop :=
      ((∃ l ∈ y.loads, l.acq ≠ none) ∨ (∃ h ∈ x.held, h.strm = st ∧ h.ar ≠ none) ∨
        ∃ sc ids, y.acq = some (sc, ids) ∧ (s.allDone ids = false ∨ (sc = .f ∧ s.fabOpen y.fdeps = true))) ∨
      (∃ n, y.qf = some n ∧ ∃ f ∈ k.qfences, f.id = n) ∨ (st = .c ∧ x.heldMmas = true) ∨ u.regsFree y = false ∨
      mine (u.own ++ (u.pops ++ u.pushes).map Obj.queue) = true ∨
      (.fq ∈ u.pushes ∧ clashes [.queue .fq] (x.heldObjs k.tagWays st.sibling) = true)
    let locked : Prop := ∃ o ∈ u.shared, ∃ p : SeqId, ∃ h ∈ (k.seq p).held, ∃ e ∈ h.effs, ∃ o' ∈ e.objs k.tagWays, o.clash o' = true
    let served (r : QCode) : Prop := times u.pops r ≤ x.qReady r
    let orphan (r : QCode) : Prop :=
      ∃ w, r.writer = some w ∧ (x.strm w).st = .ended ∧ x.qReady r = x.qLen r ∧ x.heldPush w r = false
    let full (r : QCode) : Prop := (x.strm r.reader).st ≠ .ended ∧ 16 < x.qLen r + times u.pushes r
    (mine (waitObj u.wait) = true → is (.stall 0)) ∧
    (mine (waitObj u.wait) = false →
      (∀ n, u.wait = .filled n ∨ u.wait = .free n → (k.ring n).nslot = 0 → is (.trap ⟨7, n.val, 0, 0⟩)) ∧
      (∀ n, u.wait = .filled n → (k.ring n).nslot ≠ 0 → (k.ring n).pub = (k.ring n).tkn → is (.stall 1)) ∧
      (∀ n, u.wait = .free n → (k.ring n).nslot ≠ 0 → (k.ring n).nslot ≤ ((k.ring n).clm - (k.ring n).fre).toNat → is (.stall 1)) ∧
      (∀ n, u.wait = .reached n → (k.ac n).count.toNat < (k.ac n).tgt.toNat → is (.stall 1)) ∧
      (∀ b g, (u.wait = .openBA g ∧ b = .ba g ∨ u.wait = .openDB g ∧ b = .db g) → s.barOpen c s.cur.seq st b = false → is (.stall 1)) ∧
      (∀ n, u.wait = .idle n → k.tileOwned n = true → is (.stall 1)) ∧
      (∀ n, u.wait = .drained n → k.drained s.cur.seq n = false → is (.stall 1)) ∧
      (∀ n, u.wait = .fed n →
        (x.resident = false → is (.trap ⟨1, 8, 0, 0⟩)) ∧
        (x.resident = true → ∀ m f, k.ctxId = some m → s.feed m n = some f → f.count = 0 → is (.stall 1)))) ∧
    (mine (waitObj u.wait) = false → holds →
      (bounded → is (.stall 0)) ∧
      (¬ bounded →
        (locked → is (.stall u.lock)) ∧
        (¬ locked →
          (∀ a r b, u.pops = a ++ r :: b → (∀ p ∈ a, served p) → ¬ served r →
            (orphan r → is (.trap ⟨6, qcodeNo r, 0, 0⟩)) ∧ (¬ orphan r → is (.stall 4))) ∧
          ((∀ r ∈ u.pops, served r) →
            ((∃ r ∈ u.pushes, full r) → is (.stall 4)) ∧
            ((∀ r ∈ u.pushes, ¬ full r) →
              (u.vec ≠ none → s.vecPace c s.cur.seq = false → is (.stall 0)) ∧
              (u.vec = none ∨ s.vecPace c s.cur.seq = true → s.blocked c s.cur.seq st u = none))))))

/-! ## Memory words -/

/-- R143, R144, R146, R185, R323, R324, R356: a scalar load from the scratchpad window gives its bytes at once, each taken modulo 4 MiB;
a scalar store to it is a held write of its bytes at that offset, with the scope it releases at. Rows held by a copy make either wait
under row 6 of R82, and an older effect of the stream on those bytes makes either wait. A load with .ar, at any address, waits until all
that is earlier of its stream is performed at its scope; a store with .ar carries that scope (`ar`), and holds back every later word. An access
of the A-stream waits for an earlier write of PWDIST by it that is held (R95). -/
def Obligations.ScratchpadScalar : Prop :=
  ∀ (s : State) (a : MemA),
    let c := s.cur.core
    let k := s.core c
    let n := sizeBytes a.size
    (let u : Uses := { wait := a.w, src := [a.base.sop, a.idx.sop], dst := [a.d], own := s.portUse }
     s.canIssue u →
      let ea := s.src [a.base.sop, a.idx.sop] 0 + s.src [a.base.sop, a.idx.sop] 1 + a.off.signExtend 64
      let off := ea.toNat % 2 ^ 22
      let early := a.ord = .ar ∧ s.fenced c s.cur.seq s.cur.strm a.scope = false
      (early → exec (.ld a) s = s.waitsAt a.w 0) ∧
      (¬ early → inWindow ea.toNat = true →
        (k.sbHit off n = true → exec (.ld a) s = s.waitsAt a.w 6) ∧
        (k.sbHit off n = false → s.ownClash [.spad off n] = true → exec (.ld a) s = s.waitsAt a.w 0) ∧
        (k.sbHit off n = false → s.ownClash [.spad off n] = false →
          exec (.ld a) s = s.gives u a.d (scalarOf a.size ((List.range n).map fun i => s.spadAt c ((off + i) % 2 ^ 22)))))) ∧
    (let src := [a.d, a.base.sop, a.idx.sop]
     let u : Uses := { wait := a.w, src := src, own := s.portUse }
     s.canIssue u →
      let ea := s.src src 1 + s.src src 2 + a.off.signExtend 64
      let off := ea.toNat % 2 ^ 22
      inWindow ea.toNat = true →
      (k.sbHit off n = true → exec (.st a) s = s.waitsAt a.w 6) ∧
      (k.sbHit off n = false → s.ownClash [.spad off n] = true → exec (.st a) s = s.waitsAt a.w 0) ∧
      (k.sbHit off n = false → s.ownClash [.spad off n] = false → exec (.st a) s = .next (s.issues u
        { effs := [.stSpad off ((toBytes n (s.src src 0).toNat).map some)], rel := relScope a.ord a.scope
          ar := if a.ord = .ar then relScope a.ord a.scope else none })))

/-- R182, R183, R205, R207, R323 to R325, R356, R357: a scalar access outside the window translates every page it touches, through the
port of its base register in the A-stream and through the TLB in the C-stream. A load is then outstanding, with a request for each line it
touches; a store is a held write at the translated addresses, with the scope it releases at. A translation that fails parks the stream, or
waits, or traps (`failsIn`); a store to a line that cannot be corrected traps with kind 10 and cause 2. An access meeting earlier ones of
its stream that are still under way waits; what it waits for is read by inference: log entries 11 and 12. -/
def Obligations.TranslatedScalar : Prop :=
  ∀ (s : State) (a : MemA) (ctx : CtxId), (s.core s.cur.core).ctxId = some ctx →
    let c := s.cur.core
    let n := sizeBytes a.size
    (let u : Uses := { wait := a.w, src := [a.base.sop, a.idx.sop], dst := [a.d], own := s.portUse }
     s.canIssue u →
      let ea := s.src [a.base.sop, a.idx.sop] 0 + s.src [a.base.sop, a.idx.sop] 1 + a.off.signExtend 64
      (a.ord = .ar → s.fenced c s.cur.seq s.cur.strm a.scope = true) → inWindow ea.toNat = false →
      ∀ r t, s.transAccess c (s.via a.base) ctx .r ea.toNat n = (r, t) →
        (∀ e, r = .error e → exec (.ld a) s = s.failsIn t a.w e) ∧
        ∀ gs ds, r = .ok (gs, ds) →
          (t.ownClash (gs.map (segObj (t.portOfCtx ctx))) = true → exec (.ld a) s = s.waitsIn t a.w 0) ∧
          (t.ownClash (gs.map (segObj (t.portOfCtx ctx))) = false →
            let p := t.startLoad ctx (loadDst a.d a.size) (List.replicate n 0) (acqScope a.ord a.scope) ea (placeSegs 0 gs)
            exec (.ld a) s = s.goesIn p.2 u { load := [p.1] })) ∧
    (let src := [a.d, a.base.sop, a.idx.sop]
     let u : Uses := { wait := a.w, src := src, own := s.portUse }
     s.canIssue u →
      let ea := s.src src 1 + s.src src 2 + a.off.signExtend 64
      inWindow ea.toNat = false →
      ∀ r t, s.transAccess c (s.via a.base) ctx .w ea.toNat n = (r, t) →
        (∀ e, r = .error e → exec (.st a) s = s.failsIn t a.w e) ∧
        ∀ gs ds, r = .ok (gs, ds) →
          (∀ va, t.badStore (dieOfCore c) gs = some va → exec (.st a) s = s.trapsIn t ⟨10, 2, 0, BitVec.ofNat 64 va⟩) ∧
          (t.badStore (dieOfCore c) gs = none →
            (segsMeetLoads (t.strm c s.cur.seq s.cur.strm) gs = true → exec (.st a) s = s.waitsIn t a.w 0) ∧
            (segsMeetLoads (t.strm c s.cur.seq s.cur.strm) gs = false → exec (.st a) s = s.goesIn t u
              { effs := storeEffs (t.portOfCtx ctx) ctx.slice ds (cutBytes gs ((toBytes n (s.src src 0).toNat).map some))
                rel := relScope a.ord a.scope, ar := if a.ord = .ar then relScope a.ord a.scope else none })))

/-- R340, R341: PROBE answers by the class of its address: 0x47 for a byte of the own scratchpad window, 0x580 for one of the remote
scratchpads, 0x5C0 for one of no class; for an address below 2^52 the kind and the permissions of its page with bit 0 set, from the TLB
or from a walk that fills it, or in bits 15:8 the cause at which that walk fails, and then no fault is raised. Of a page that grants neither
loads nor stores bit 0 is clear, and the cause is that of the stage that refuses a load: log entry 96. Behind a table line that
cannot be read yet it waits, and at one that cannot be corrected it traps with kind 10 and cause 3: log entry 33. -/
def Obligations.ProbeAnswers : Prop :=
  ∀ (s : State) (w : Wait) (d : SOp) (base idx : XReg) (off : BitVec 20),
    let src := [base.sop, idx.sop]
    let u : Uses := { wait := w, src := src, dst := [d] }
    s.canIssue u →
    let ea := (s.src src 0 + s.src src 1 + off.signExtend 64).toNat
    let run := exec (.probe w d base idx off) s
    let page (t : Trans) : Word := BitVec.ofNat 64
      (1 + (if t.r then 2 else 0) + (if t.w then 4 else 0) + (if t.x then 8 else 0) + 16 * (match t.kind with | .dev => 0 | .host => 1 | .fab => 2))
    (0xFFFFFFFFFFC00000 ≤ ea → run = s.gives u d 0x47) ∧
    (0xFFFFFFFFE0000000 ≤ ea → ea ≤ 0xFFFFFFFFEFFFFFFF → run = s.gives u d 0x580) ∧
    (2 ^ 52 ≤ ea → ea < 0xFFFFFFFFE0000000 → run = s.gives u d 0x5C0) ∧
    (0xFFFFFFFFF0000000 ≤ ea → ea < 0xFFFFFFFFFFC00000 → run = s.gives u d 0x5C0) ∧
    ∀ k, ea < 2 ^ 52 → (s.core s.cur.core).ctxId = some k →
      (∀ t, (s.core s.cur.core).tlbFind k ea = some t → (t.r = true ∨ t.w = true) → run = s.gives u d (page t)) ∧
      ((∀ t, (s.core s.cur.core).tlbFind k ea = some t → t.r = false ∧ t.w = false) → ∀ r t, s.walkFill s.cur.core k ea = (r, t) →
        (∀ p, r = .ok p →
          let reads := bitOf p.e1 2 && bitOf p.l.e 2
          (reads = true ∨ p.t.w = true → run = s.goesIn t u (retDst t.curSeq d (page p.t) {})) ∧
          (reads = false → p.t.w = false → run = s.goesIn t u (retDst t.curSeq d
            (BitVec.ofNat 64 ((if bitOf p.e1 2 then 4 else 2) * 256 + if p.t.x then 8 else 0)) {}))) ∧
        (∀ cause gpa, r = .error (.fault cause gpa) → run = s.gives u d (BitVec.ofNat 64 (256 * cause))) ∧
        (r = .error .wait → run = s.waitsAt w 8) ∧
        (r = .error .bad → run = s.traps ⟨10, 3, 0, BitVec.ofNat 64 ea⟩))

/-- R146, R379, R383 to R385: a vector load that begins in the window reads four bytes for each unmasked lane, at the offset plus 4 for
each lane, modulo 4 MiB, and gives the lanes to its register, where masked lanes stay, or to its data queue with 0 in them. A vector store
holds a write of each unmasked lane. Rows held by a copy under an unmasked lane make the word wait under row 6 of R82, and an older
effect of its stream on one makes it wait. -/
def Obligations.ScratchpadVector : Prop :=
  ∀ (s : State) (a : VMemA),
    let c := s.cur.core
    let m := s.curSeq.getK a.km
    let place (ea : Word) (i : Nat) : Nat := (ea.toNat % 2 ^ 22 + 4 * i) % 2 ^ 22
    let copied (ea : Word) : Prop := ∃ i, i < 32 ∧ m.getLsbD i = true ∧ (s.core c).sbHit (place ea i) 4 = true
    let clash (ea : Word) : Bool := s.ownClash ((lanesOf m).map fun i => .spad (place ea i) 4)
    (let u : Uses := { wait := a.w, src := [a.base.sop, a.idx.sop], vdst := [a.d], own := s.portUse }
     s.canIssue u →
      let ea := s.src [a.base.sop, a.idx.sop] 0 + s.src [a.base.sop, a.idx.sop] 1 + a.off.signExtend 64
      inWindow ea.toNat = true → ∀ i, (i = .vld a ∨ i = .vldp a) →
        (copied ea → exec i s = s.waitsAt a.w 6) ∧
        (¬ copied ea → clash ea = true → exec i s = s.waitsAt a.w 0) ∧
        (¬ copied ea → clash ea = false → exec i s = .next (s.issues u (retVec s.curSeq a.d m
          ((List.range 128).map fun b => if m.getLsbD (b / 4) then s.spadAt c ((place ea (b / 4) + b % 4) % 2 ^ 22) else 0))))) ∧
    (let u : Uses := { wait := a.w, src := [a.base.sop, a.idx.sop], vsrc := [a.d] }
     s.canIssue u →
      let ea := s.src [a.base.sop, a.idx.sop] 0 + s.src [a.base.sop, a.idx.sop] 1 + a.off.signExtend 64
      inWindow ea.toNat = true →
        (copied ea → exec (.vst a) s = s.waitsAt a.w 6) ∧
        (¬ copied ea → clash ea = true → exec (.vst a) s = s.waitsAt a.w 0) ∧
        (¬ copied ea → clash ea = false → exec (.vst a) s = .next (s.issues u
          { effs := (lanesOf m).map fun i => .stSpad (place ea i) ((toBytes 4 (elemOf 32 i (s.vsrc [a.d] 0).toNat)).map some)
            rel := relScope a.ord a.scope })))

/-- R205, R207, R379, R383 to R385: a vector access outside the window translates every unmasked lane. A lane that fails parks VLD and
VST with no byte moved, at a lane of cause 5 if there is one and else at the lowest failing byte (`laneFail`, `failsIn`); a lane of VLDP
that fails with cause 1, 2 or 5 receives 0 and raises nothing. A load of the lanes that translate is outstanding; with none of them VLDP
gives zeros at once. A store is a held write of each page's run, and traps with kind 10 and cause 2 at a line that cannot be corrected. An
access meeting earlier ones of its stream that are under way waits: log entries 11 and 12. -/
def Obligations.TranslatedVector : Prop :=
  ∀ (s : State) (a : VMemA) (ctx : CtxId), (s.core s.cur.core).ctxId = some ctx →
    let c := s.cur.core
    let m := s.curSeq.getK a.km
    let lanes (ea : Word) : List (Nat × Nat) := (lanesOf m).map fun i => (i, ea.toNat + 4 * i)
    m ≠ 0 →
    (let u : Uses := { wait := a.w, src := [a.base.sop, a.idx.sop], vdst := [a.d], own := s.portUse }
     s.canIssue u →
      let ea := s.src [a.base.sop, a.idx.sop] 0 + s.src [a.base.sop, a.idx.sop] 1 + a.off.signExtend 64
      inWindow ea.toNat = false →
      ∀ r t, s.transLanes c (s.via a.base) ctx .r (lanes ea) = (r, t) →
        let soft (e : Nat × AErr) : Bool := decide (e.2.cause = 1) || decide (e.2.cause = 2) || decide (e.2.cause = 5)
        let gs := r.segs.filter fun g => !(r.errs.any fun e => decide (g.1 / 4 = e.1))
        ∀ i bad, (i = .vld a ∧ bad = r.errs ∨ i = .vldp a ∧ bad = r.errs.filter (!soft ·)) →
          (∀ e, laneFail bad = some e → exec i s = s.failsIn t a.w e) ∧
          (bad = [] →
            (t.ownClash (gs.map fun g => segObj (t.portOfCtx ctx) g.2) = true → exec i s = s.waitsIn t a.w 0) ∧
            (t.ownClash (gs.map fun g => segObj (t.portOfCtx ctx) g.2) = false →
              (gs = [] → exec i s = s.goesIn t u (retVec t.curSeq a.d m (List.replicate 128 0))) ∧
              (gs ≠ [] →
                let p := t.startLoad ctx (vloadLDst a.d m) (List.replicate 128 0) (acqScope a.ord a.scope) ea gs
                exec i s = s.goesIn p.2 u { load := [p.1] })))) ∧
    (let u : Uses := { wait := a.w, src := [a.base.sop, a.idx.sop], vsrc := [a.d] }
     s.canIssue u →
      let ea := s.src [a.base.sop, a.idx.sop] 0 + s.src [a.base.sop, a.idx.sop] 1 + a.off.signExtend 64
      inWindow ea.toNat = false →
      ∀ r t, s.transLanes c (s.via a.base) ctx .w (lanes ea) = (r, t) →
        (∀ e, laneFail r.errs = some e → exec (.vst a) s = s.failsIn t a.w e) ∧
        (r.errs = [] →
          (∀ va, t.badStore (dieOfCore c) (r.segs.map (·.2)) = some va → exec (.vst a) s = s.trapsIn t ⟨10, 2, 0, BitVec.ofNat 64 va⟩) ∧
          (t.badStore (dieOfCore c) (r.segs.map (·.2)) = none →
            (segsMeetLoads (t.strm c s.cur.seq s.cur.strm) (r.segs.map (·.2)) = true → exec (.vst a) s = s.waitsIn t a.w 0) ∧
            (segsMeetLoads (t.strm c s.cur.seq s.cur.strm) (r.segs.map (·.2)) = false →
              exec (.vst a) s = s.goesIn t u
                { effs := storeEffs (t.portOfCtx ctx) ctx.slice r.ds (joinRuns (r.segs.map fun g =>
                    (g.2, (((toBytes 4 (elemOf 32 (g.1 / 4) (s.vsrc [a.d] 0).toNat)).drop (g.1 % 4)).take g.2.n).map some)))
                  rel := relScope a.ord a.scope }))))

/-- R146, R207, R379, R380: a gather or scatter takes lane i's address from its base, its offset and the sign-extended 32-bit value in
lane i of the second register of the pair, and classes each lane by itself. When all lie in the window it reads or holds writes of their
bytes at once. Lanes in memory are translated through the TLB, and the lowest failing byte parks the word with no lane moved; a gather is then
outstanding for them beside the bytes already read of the window, a scatter holds writes of both. Rows held by a copy under a lane of the
window make the word wait under row 6 of R82, and an older effect of its stream on one makes it wait. -/
def Obligations.ScratchpadGather : Prop :=
  ∀ (s : State) (a : GatA),
    let c := s.cur.core
    let m := s.curSeq.getK a.km
    let place (b : Word) (o : VWord) (i : Nat) : Word := b + a.off.signExtend 64 + (BitVec.ofNat 32 (elemOf 32 i o.toNat)).signExtend 64
    let waits (p : Nat → Word) (i : Instr) : Prop :=
      let in_ := (lanesOf m).filter fun j => inWindow (p j).toNat
      let hit := in_.any fun j => (s.core c).sbHit ((p j).toNat % 2 ^ 22) 4
      let clash := s.ownClash (in_.map fun j => .spad ((p j).toNat % 2 ^ 22) 4)
      (hit = true → exec i s = s.waitsAt a.w 6) ∧ (hit = false → clash = true → exec i s = s.waitsAt a.w 0)
    let free (p : Nat → Word) : Prop :=
      (∀ i, i < 32 → m.getLsbD i = true → inWindow (p i).toNat = true → (s.core c).sbHit ((p i).toNat % 2 ^ 22) 4 = false) ∧
      s.ownClash (((lanesOf m).filter fun j => inWindow (p j).toNat).map fun i => .spad ((p i).toNat % 2 ^ 22) 4) = false
    let all (p : Nat → Word) : Prop := ∀ i, i < 32 → m.getLsbD i = true → inWindow (p i).toNat = true
    let far (p : Nat → Word) : List (Nat × Nat) :=
      ((lanesOf m).filter fun j => !inWindow (p j).toNat).map fun j => (j, (p j).toNat)
    (let u : Uses := { wait := a.w, src := [a.base.sop], vsrc := [.v (pairHi a.pair)], vdst := [.v (pairLo a.pair)] }
     s.canIssue u →
      let p := place (s.src [a.base.sop] 0) (s.vsrc [.v (pairHi a.pair)] 0)
      let near : List Byte := (List.range 128).map fun b =>
        if m.getLsbD (b / 4) && inWindow (p (b / 4)).toNat then s.spadAt c (((p (b / 4)).toNat % 2 ^ 22 + b % 4) % 2 ^ 22) else 0
      waits p (.vgather a) ∧
      (free p →
        (all p → exec (.vgather a) s = .next (s.issues u (retVec s.curSeq (.v (pairLo a.pair)) m near))) ∧
        ∀ ctx r t, ¬ all p → (s.core c).ctxId = some ctx → s.transLanes c .tlb ctx .r (far p) = (r, t) →
          (∀ e, pickErr (r.errs.map (·.2)) = some e → exec (.vgather a) s = s.failsIn t a.w e) ∧
          (r.errs = [] → r.segs ≠ [] →
            (t.ownClash (r.segs.map fun g => segObj (t.portOfCtx ctx) g.2) = true → exec (.vgather a) s = s.waitsIn t a.w 0) ∧
            (t.ownClash (r.segs.map fun g => segObj (t.portOfCtx ctx) g.2) = false →
              let l := t.startLoad ctx (.v (pairLo a.pair) m) near none (s.src [a.base.sop] 0) r.segs
              exec (.vgather a) s = s.goesIn l.2 u { load := [l.1] })))) ∧
    (let u : Uses := { wait := a.w, src := [a.base.sop], vsrc := [.v (pairLo a.pair), .v (pairHi a.pair)] }
     let vs := [VOp.v (pairLo a.pair), .v (pairHi a.pair)]
     s.canIssue u →
      let p := place (s.src [a.base.sop] 0) (s.vsrc vs 1)
      let bytes (i : Nat) : List Byte := toBytes 4 (elemOf 32 i (s.vsrc vs 0).toNat)
      let near : List Eff := ((lanesOf m).filter fun j => inWindow (p j).toNat).map fun i =>
        .stSpad ((p i).toNat % 2 ^ 22) ((bytes i).map some)
      waits p (.vscatter a) ∧
      (free p →
        (all p → exec (.vscatter a) s = .next (s.issues u { effs := near })) ∧
        ∀ ctx r t, ¬ all p → (s.core c).ctxId = some ctx → s.transLanes c .tlb ctx .w (far p) = (r, t) →
          (∀ e, pickErr (r.errs.map (·.2)) = some e → exec (.vscatter a) s = s.failsIn t a.w e) ∧
          (r.errs = [] →
            (∀ va, t.badStore (dieOfCore c) (r.segs.map (·.2)) = some va → exec (.vscatter a) s = s.trapsIn t ⟨10, 2, 0, BitVec.ofNat 64 va⟩) ∧
            (t.badStore (dieOfCore c) (r.segs.map (·.2)) = none →
              (segsMeetLoads (t.strm c s.cur.seq s.cur.strm) (r.segs.map (·.2)) = true → exec (.vscatter a) s = s.waitsIn t a.w 0) ∧
              (segsMeetLoads (t.strm c s.cur.seq s.cur.strm) (r.segs.map (·.2)) = false →
                exec (.vscatter a) s = s.goesIn t u
                  { effs := near ++ storeEffs (t.portOfCtx ctx) ctx.slice r.ds
                      (joinRuns (r.segs.map fun g => (g.2, (((bytes (g.1 / 4)).drop (g.1 % 4)).take g.2.n).map some))) })))))

/-! ## Matrix words -/

/-- R124 to R126, R306, R361: CINCH asks for the array at once, which matters only while its sequencer neither holds it nor waits for
it; UNCINCH is a held effect. Asking and giving up leave every other sequencer's place as it was. R139 to R141, R310, R334, R335: MZERO and
MWR wait for an idle tile and hold its new values; MRD reads the tile into the scratchpad as a held write; MWAIT goes on once no command
of the array owns the tile; FQPUSH pushes. Rows held by a copy make MWR and MRD wait under row 6 of R82, and an older effect of the stream on
their bytes makes them wait (R146). Of a tile in flight each element read is its value at the acceptance of a command on the tile, or its
value at the completion of one (`tileReadOf`); which of them is a free choice: log entry 21. -/
def Obligations.CinchAndTileWords : Prop :=
  ((∀ (s : State) (w : Wait),
     (s.canIssue { wait := w } → exec (.cinch w) s = .next ((s.modCore s.cur.core (·.wantCinch s.cur.seq)).issues { wait := w } {})) ∧
     (s.canIssue { wait := w } → exec (.uncinch w) s = s.holds { wait := w } [.uncinch])) ∧
   ∀ (k : Core) (q : SeqId),
     (k.cinchOf q = .free → (k.wantCinch q).cinchOf q = .want) ∧ (k.cinchOf q ≠ .free → k.wantCinch q = k) ∧
     (k.dropCinch q).cinchOf q = .free ∧
     ∀ r, r ≠ q → (k.wantCinch q).cinchOf r = k.cinchOf r ∧ (k.dropCinch q).cinchOf r = k.cinchOf r) ∧
  (∀ (s : State),
     let c := s.cur.core
     let k := s.core c
     (∀ (w : Wait) (t : Fin 32), s.canIssue { wait := w, shared := [.tile t] } →
       (k.tileIdle t = true → exec (.mzero w t) s = s.holds { wait := w, shared := [.tile t] } [.tile t (List.replicate 4096 0)]) ∧
       (k.tileIdle t = false → exec (.mzero w t) s = s.waitsAt w 0)) ∧
     (∀ (w : Wait) (t : Fin 32), s.canIssue { wait := w } →
       (k.tileOwned t = false → exec (.mwait w t) s = .next (s.issues { wait := w } {})) ∧
       (k.tileOwned t = true → exec (.mwait w t) s = s.waitsAt w 0)) ∧
     (∀ (a : TileA) (ty : MType), s.canIssue { wait := a.w, src := [a.xa.sop], shared := [.tile a.atd] } →
       let n := 4096 * mtypeBytes ty
       let off := (s.src [a.xa.sop] 0).toNat % 2 ^ 22 / 128 * 128
       (k.tileIdle a.atd = false → exec (.mwr a ty) s = s.waitsAt a.w 0) ∧
       (k.tileIdle a.atd = true → k.sbHit off n = true → exec (.mwr a ty) s = s.waitsAt a.w 6) ∧
       (k.tileIdle a.atd = true → k.sbHit off n = false → s.ownClash [.spad off n] = true → exec (.mwr a ty) s = s.waitsAt a.w 0) ∧
       (k.tileIdle a.atd = true → k.sbHit off n = false → s.ownClash [.spad off n] = false →
         exec (.mwr a ty) s = s.holds { wait := a.w, src := [a.xa.sop], shared := [.tile a.atd] }
           [.tile a.atd ((elemsOf (mtypeBytes ty) 4096 ((List.range n).map fun i => s.spadAt c ((off + i) % 2 ^ 22))).map (mwrElem ty))])) ∧
     (∀ (a : TileA) (xb : XReg) (ty : MType) (r : RMode),
       let src := [a.xa.sop, xb.sop]
       let u : Uses := { wait := a.w, src := src, own := [.tile a.atd, .spr 3] }
       s.canIssue u →
       let n := mtypeBytes ty
       let off := (s.src src 0).toNat % 2 ^ 22 / 128 * 128
       let scales := if xb = .xz then none
         else some (fF32.decode ((s.src src 1).toNat % 2 ^ 32), fF32.decode ((s.src src 1).toNat / 2 ^ 32))
       (k.tileBusy a.atd = true → exec (.mrd a xb ty r) s = s.waitsAt a.w 0) ∧
       (k.tileBusy a.atd = false → k.sbHit off (4096 * n) = true → exec (.mrd a xb ty r) s = s.waitsAt a.w 6) ∧
       (k.tileBusy a.atd = false → k.sbHit off (4096 * n) = false → s.ownClash [.spad off (4096 * n)] = true →
         exec (.mrd a xb ty r) s = s.waitsAt a.w 0) ∧
       (k.tileBusy a.atd = false → k.sbHit off (4096 * n) = false → s.ownClash [.spad off (4096 * n)] = false →
         let ret (vs : List Acc) : Ret :=
           let ps := vs.map (mrdElem ty r scales)
           { fl := (ps.map (·.2)).foldl (· ||| ·) 0, effs := [.stSpad off ((ps.flatMap fun p => toBytes n p.1).map some)] }
         (k.tileOwned a.atd = false →
           exec (.mrd a xb ty r) s = .next (s.issues u (ret (allCells.map fun p => k.tileGet a.atd p.1 p.2)))) ∧
         (k.tileOwned a.atd = true → ∃ vs : List Acc, exec (.mrd a xb ty r) s =
           .next ((({ s with freeCtr := s.freeCtr + 4096 } : State).modCore c (·.noteRead a.atd)).issues u (ret vs)) ∧
             k.tileReadOf a.atd vs))) ∧
     (∀ (w : Wait) (xa : XReg), s.canIssue (scalarUses w .fq [xa.sop]) →
       exec (.fqpush w xa) s = s.gives (scalarUses w .fq [xa.sop]) .fq (s.src [xa.sop] 0)))

/-- R124, R128 to R130, R137, R138, R333: MMA and MMAS need the Cinch with commands left in its lease (row 5 of R82, with a request) and a free
slot. They take the format word at the head of FQ: while it is on its way (a place in FQ is reserved, or an older push to it is held) they
wait, without one they trap with kind 3, and on a word that breaks R128 with kind 4 and its cause, the word popped. Else the command is
held for the array, with the offset of its shape record for MMAS, which waits under row 6 behind a copy over its record. At the commit the
word leaves FQ, if the sequencer still has the Cinch (else it asks for it again), and of MMAS the record is read: one that breaks R137
traps with kind 4 and cause 6, a good one gives the command its segments; MMA has one of all rows. The array takes the command in its front
slot, or in its shadow slot behind a command, and counts it against the lease. A command of no beats that takes the front slot, with nothing
to wait for, completes as it is accepted (R134): the rows it covers are zeros with .z and stay without. How acceptance is split over issue and
commit is read by inference: log entry 82. -/
def Obligations.TileCommands : Prop :=
  (∀ (s : State) (a : MmaA) (xs : XReg),
    let c := s.cur.core
    let q := s.cur.seq
    let k := s.core c
    let after := s.modSeq c q fun x => x.popQ .fq
    let u (os : List SOp) : Uses := { wait := a.w, src := os, own := [.queue .fq, .cinch] }
    let o1 := [a.xa.sop, a.xb.sop]
    let o2 := [a.xa.sop, a.xb.sop, xs.sop]
    let cmd (os : List SOp) (fw : Word) (rec_ : Option Nat) : MCmd :=
      { serial := 0, atd := a.atd, abase := (s.src os 0).toNat % 2 ^ 22, bbase := (s.src os 1).toNat % 2 ^ 22, kb := a.kb.toNat, z := a.z
        fmt := fw, shape := [⟨0, 63, 32 * a.kb.toNat⟩], seq := q, c := 0, work := [], flags := 0, after := [], xs := rec_, pins := [], was := []
        seen := false }
    let both (o : Out) : Prop := (s.canIssue (u o1) → exec (.mma a) s = o) ∧ (s.canIssue (u o2) → exec (.mmas a xs) s = o)
    (k.cinchOf q ≠ .hold → both (s.waitsIn (s.setCore c (k.wantCinch q)) a.w 5)) ∧
    (k.cinchOf q = .hold → k.cinchN = 0 → both (s.waitsAt a.w 5)) ∧
    (k.cinchOf q = .hold → 0 < k.cinchN → 2 ≤ k.slotsUsed → both (s.waitsAt a.w 0)) ∧
    (k.cinchOf q = .hold → 0 < k.cinchN → k.slotsUsed < 2 →
      (frontVals s.curSeq.fq = [] →
        let coming : Prop := s.curSeq.fq ≠ [] ∨ ∃ h ∈ s.curSeq.held, ∃ e ∈ h.effs, .queue .fq ∈ e.objs 0
        (coming → both (s.waitsAt a.w 0)) ∧ (¬ coming → both (s.traps ⟨3, 0, 0, 0⟩))) ∧
      ∀ fw r, frontVals s.curSeq.fq = fw :: r →
        (fwCause fw ≠ 0 → both (s.trapsIn after ⟨4, fwCause fw, fw, 0⟩)) ∧
        (fwCause fw = 0 →
          (s.canIssue (u o1) → exec (.mma a) s = s.holds (u o1) [.mma (cmd o1 fw none)]) ∧
          (s.canIssue (u o2) →
            let off := (s.src o2 2).toNat % 2 ^ 22 / 8 * 8
            (k.shapeHeld off = true → exec (.mmas a xs) s = s.waitsAt a.w 6) ∧
            (k.shapeHeld off = false → s.ownClash [.spad off (k.shapeLen off)] = true → exec (.mmas a xs) s = s.waitsAt a.w 0) ∧
            (k.shapeHeld off = false → s.ownClash [.spad off (k.shapeLen off)] = false →
              exec (.mmas a xs) s = s.holds (u o2) [.mma (cmd o2 fw (some off))]))))) ∧
  (∀ (s : State) (c : CoreId) (q : SeqId) (h : HeldWord) (k : CtxId) (m : MCmd),
    let t := s.modSeq c q (·.popQ .fq)
    let made := s.applyEff c q h k (.mma m)
    ((s.core c).cinchOf q ≠ .hold → s.mayIssue c = true → made = .rest (.mma m) (s.modCore c (·.wantCinch q))) ∧
    ((s.core c).cinchOf q = .hold →
      (m.xs = none → made = .done (t.modCore c (·.accept m))) ∧
      ∀ off, m.xs = some off →
        ((t.core c).shapeRec off = none → made = .trap ⟨4, 6, m.fmt, 0⟩ t) ∧
        ∀ g, (t.core c).shapeRec off = some g → made = .done (t.modCore c (·.accept { m with shape := g, xs := none })))) ∧
  ∀ (k : Core) (m : MCmd), k.cinchOf m.seq = .hold →
    let y := k.accept m
    let m' := { m with serial := k.mserial, after := (k.qfences.filter fun f => f.mtx.isSome).map (·.id) }
    (k.front = none → 0 < m.beats → y.front = some m' ∧ y.shadow = k.shadow) ∧
    (∀ f, k.front = some f → y.front = some f ∧ y.shadow = some m') ∧
    (k.front = none → k.shadow = none → m.beats = 0 → m.work = [] → (∀ f ∈ k.qfences, f.mtx = none) → k.tileBusy m.atd = false →
      tblWf 0 k.tiles = true →
      y.front = none ∧ y.shadow = none ∧ y.spad = k.spad ∧ (y.seq m.seq).flags = (k.seq m.seq).flags ||| m.flags ∧
      ∀ (t : Fin 32) (i j : Fin 64), y.tileGet t i j = if t = m.atd ∧ m.kbRow i ≠ none ∧ m.z = true then 0 else k.tileGet t i j) ∧
    (k.front ≠ none ∨ 0 < m.beats → y.cinchN = k.cinchN - 1 ∧ y.cinchAt = k.cyc ∧ y.tiles = k.tiles ∧ y.spad = k.spad ∧ y.seqs = k.seqs)

/-- R137: what a shape record is: a count of 1 to 16 and that many segments, each with its rows in order, its length at most 8160 and
its reserved bits 0, no two on one row. -/
def Obligations.ShapeRecords : Prop :=
  ∀ (k : Core) (off : Nat) (g : List ShapeSeg),
    let word (i : Nat) : Nat := ofBytes (k.spadRead (off + 8 * i) 8)
    k.shapeRec off = some g ↔
      g.length = word 0 ∧ 1 ≤ g.length ∧ g.length ≤ 16 ∧
        (∀ (i : Nat) (x : ShapeSeg), g[i]? = some x → x.lo ≤ x.hi ∧ x.klen ≤ 8160 ∧
          word (i + 1) = x.lo + 256 * x.hi + 65536 * x.klen ∧ x.lo < 64 ∧ x.hi < 64) ∧
        ∀ (i j : Nat) (x y : ShapeSeg), g[i]? = some x → g[j]? = some y → i < j → x.hi < y.lo ∨ y.hi < x.lo

/-- R42, R140, R141, R146, R334, R335: MSAVE writes the 32768 bytes of its tile's images at XA with the low seven bits 0, as a held write of
the scratchpad or of the translated pages; MLOAD brings them back into an idle tile, from the scratchpad at issue, from memory as a load. Each
waits for other accesses of the tile, under row 6 of R82 for rows held by a copy, and for older accesses of its stream to the bytes. A
translation that fails ends the word as `failsIn` says, and MSAVE to a line that cannot be corrected traps with kind 10 and cause 2. Of a
tile in flight MSAVE reads each element at its value at the acceptance or at the completion of a command on the tile; which is a free choice:
log entry 21. -/
def Obligations.TileSaveLoad : Prop :=
  ∀ (s : State) (a : TileA),
    let c := s.cur.core
    let k := s.core c
    let ea := s.src [a.xa.sop] 0 &&& ~~~127
    let off := ea.toNat % 2 ^ 22
    (let u : Uses := { wait := a.w, src := [a.xa.sop], own := [.tile a.atd] }
     let saves (z : State) (vs : List Acc) : Prop :=
       let bs := (vs.flatMap fun v => toBytes 8 v.toNat).map some
       (inWindow ea.toNat = true →
         (k.sbHit off 32768 = true → exec (.msave a) s = s.waitsIn z a.w 6) ∧
         (k.sbHit off 32768 = false → z.ownClash [.spad off 32768] = true → exec (.msave a) s = s.waitsIn z a.w 0) ∧
         (k.sbHit off 32768 = false → z.ownClash [.spad off 32768] = false → exec (.msave a) s = s.goesIn z u { effs := [.stSpad off bs] })) ∧
       ∀ ctx r t, inWindow ea.toNat = false → k.ctxId = some ctx → z.transAccess c .tlb ctx .w ea.toNat 32768 = (r, t) →
         (∀ e, r = .error e → exec (.msave a) s = s.failsIn t a.w e) ∧
         ∀ gs ds, r = .ok (gs, ds) →
           (∀ va, t.badStore (dieOfCore c) gs = some va → exec (.msave a) s = s.trapsIn t ⟨10, 2, 0, BitVec.ofNat 64 va⟩) ∧
           (t.badStore (dieOfCore c) gs = none →
             (segsMeetLoads (t.strm c z.cur.seq z.cur.strm) gs = true → exec (.msave a) s = s.waitsIn t a.w 0) ∧
             (segsMeetLoads (t.strm c z.cur.seq z.cur.strm) gs = false →
               exec (.msave a) s = s.goesIn t u { effs := storeEffs (t.portOfCtx ctx) ctx.slice ds (cutBytes gs bs) }))
     s.canIssue u →
      (k.tileBusy a.atd = true → exec (.msave a) s = s.waitsAt a.w 0) ∧
      (k.tileBusy a.atd = false →
        (k.tileOwned a.atd = false → saves s (allCells.map fun p => k.tileGet a.atd p.1 p.2)) ∧
        (k.tileOwned a.atd = true → ∃ vs : List Acc, k.tileReadOf a.atd vs ∧
          saves (({ s with freeCtr := s.freeCtr + 4096 } : State).modCore c (·.noteRead a.atd)) vs))) ∧
    (let u : Uses := { wait := a.w, src := [a.xa.sop], shared := [.tile a.atd] }
     s.canIssue u →
      (k.tileIdle a.atd = false → exec (.mload a) s = s.waitsAt a.w 0) ∧
      (k.tileIdle a.atd = true →
        (inWindow ea.toNat = true →
          (k.sbHit off 32768 = true → exec (.mload a) s = s.waitsAt a.w 6) ∧
          (k.sbHit off 32768 = false → s.ownClash [.spad off 32768] = true → exec (.mload a) s = s.waitsAt a.w 0) ∧
          (k.sbHit off 32768 = false → s.ownClash [.spad off 32768] = false → exec (.mload a) s = s.holds u
            [.tile a.atd (accsOf ((List.range 32768).map fun i => s.spadAt c ((off + i) % 2 ^ 22)) 4096)])) ∧
        ∀ ctx r t, inWindow ea.toNat = false → k.ctxId = some ctx → s.transAccess c .tlb ctx .r ea.toNat 32768 = (r, t) →
          (∀ e, r = .error e → exec (.mload a) s = s.failsIn t a.w e) ∧
          ∀ gs ds, r = .ok (gs, ds) →
            (t.ownClash (gs.map (segObj (t.portOfCtx ctx))) = true → exec (.mload a) s = s.waitsIn t a.w 0) ∧
            (t.ownClash (gs.map (segObj (t.portOfCtx ctx))) = false →
              let p := t.startLoad ctx (.tile a.atd) (List.replicate 32768 0) none ea (placeSegs 0 gs)
              exec (.mload a) s = s.goesIn p.2 u { load := [p.1] })))

/-! ## Copy words -/

/-- R145, R161, R163, R400 to R403: a copy word captures its registers. A command that breaks a rule of R163 traps with kind 9, its
cause and its source; one that finds no room in its queue or in the engine's scoreboard waits under row 4 of R82; any other is held for
its queue, with the rows of the own scratchpad it holds. That row, the checks of an empty
range, of XPLANE and the hull of a command are read by inference: log entries 27 to 29 and 85. -/
def Obligations.CopyWords : Prop :=
  ∀ (s : State) (a : CopyA) (i : Instr) (op : CopyOp) (aop : AOp) (et : ET) (desc : XReg),
    ((i = .xcopy a ∧ op = .copy ∧ aop = .add ∧ et = .f32 ∧ desc = .xz) ∨ (i = .xcopyStr a desc ∧ op = .str ∧ aop = .add ∧ et = .f32) ∨
     (i = .xfill a ∧ op = .fill ∧ aop = .add ∧ et = .f32 ∧ desc = .xz) ∨ (i = .xacc a aop et ∧ op = .acc ∧ desc = .xz) ∨
     (i = .xswap a et ∧ op = .swap ∧ aop = .add ∧ desc = .xz) ∨ (i = .xcas a desc et ∧ op = .cas ∧ aop = .add) ∨
     (i = .xplane a desc ∧ op = .plane ∧ aop = .add ∧ et = .f32)) →
    let src := [a.dst.sop, a.src.sop, a.len.sop, desc.sop]
    let u : Uses := { wait := a.w, src := src }
    s.canIssue u →
    let c := s.cur.core
    let m : CopyCmd := ⟨op, aop, et, a.ac, s.cur.seq, s.src src 0, s.src src 1, s.src src 2, s.src src 3, 0, none, [], none, []⟩
    let rows := s.copyRows c m
    (s.copyCause c m ≠ 0 → exec i s = s.traps ⟨9, s.copyCause c m, m.src, 0⟩) ∧
    (s.copyCause c m = 0 → (s.core c).copyRoom a.cq (!rows.isEmpty) = false → exec i s = s.waitsAt a.w 4) ∧
    (s.copyCause c m = 0 → (s.core c).copyRoom a.cq (!rows.isEmpty) = true → exec i s = s.holds u [.copy a.cq { m with rows := rows }])

/-! ## Synchronisation words -/

/-- R342: QPUSH holds a push of its register, QPOP takes the oldest entry of its queue, of a data queue the low 64 bits, QCNT gives the
number of landed entries, at most 16. QPUSH to a queue whose reader has ended changes no queue (R76). R190, R192: QFENCE puts a mark with a
name of its own into the copy queues it names and, with MTX, notes the tile commands before it; with SELF its stream waits. R343 to R345,
R232, R233, R270: QPUSH.fd waits while its queue is full or not registered, reads its 64-byte record through the context's translation and
holds its push, a release at .p; QPOP.fd waits while the queue is not registered, is locked by a pop that has issued on any core, or has no
live record; it discards expired records, each with a late credit, and takes the next live one into eight registers, an acquire at .p; QCNT.fd
counts. -/
def Obligations.QueueAndFeedWords : Prop :=
  ((∀ (s : State) (w : Wait) (x : XReg),
      (∀ n, s.canIssue (scalarUses w (.bq n) [x.sop]) →
        exec (.qpush w (.bq n) x) s = s.gives (scalarUses w (.bq n) [x.sop]) (.bq n) (s.src [x.sop] 0)) ∧
      (s.canIssue (scalarUses w .fq [x.sop]) →
        exec (.qpush w .fq x) s = s.gives (scalarUses w .fq [x.sop]) .fq (s.src [x.sop] 0)) ∧
      (∀ n, s.canIssue { wait := w, src := [x.sop], vdst := [.dq n] } →
        exec (.qpush w (.dq n) x) s = s.holds { wait := w, src := [x.sop], vdst := [.dq n] }
          (if s.curSeq.readerEnded (.dq n) then [] else [.push (.dq n) (s.src [x.sop] 0)])) ∧
      (∀ n, s.canIssue (scalarUses w x.sop [.bq n]) →
        exec (.qpop w (.bq n) x) s = s.gives (scalarUses w x.sop [.bq n]) x.sop (s.src [.bq n] 0)) ∧
      (∀ n, s.canIssue { wait := w, vsrc := [.dq n], dst := [x.sop] } →
        exec (.qpop w (.dq n) x) s = s.gives { wait := w, vsrc := [.dq n], dst := [x.sop] } x.sop ((s.vsrc [.dq n] 0).setWidth 64)) ∧
      ∀ q, s.canIssue { wait := w, dst := [x.sop], own := [.queue q] } →
        exec (.qcnt w q x) s = s.gives { wait := w, dst := [x.sop], own := [.queue q] } x.sop (BitVec.ofNat 64 (min (s.curSeq.qCount q) 16))) ∧
   (∀ (s : State) (w : Wait) (cqs : BitVec 8) (mtx self : Bool),
      let u : Uses :=
        { wait := w, own := ((List.finRange 8).filter fun n => cqs.getLsbD n.val).map Obj.cq ++ (if mtx then [.cinch] else []) }
      s.canIssue u →
      let c := s.cur.core
      let f : QFence := ⟨s.nextId, cqs, if mtx then some (s.core c).mserial else none, if self then some (s.cur.seq, s.cur.strm) else none⟩
      let t := ({ s with nextId := s.nextId + 1 } : State).modCore c (·.addFence f)
      exec (.qfence w cqs mtx self) s = .next (t.issues u { qf := if self then some s.nextId else none }) ∧
      (t.core c).qfences = (s.core c).qfences ++ [f] ∧
      ∀ i, ((t.core c).cq i).items = ((s.core c).cq i).items ++ (if cqs.getLsbD i.val then [.fence s.nextId] else []))) ∧
  (∀ (s : State) (w : Wait) (n : Fin 64),
     (∀ (x : XReg),
       let u : Uses := { wait := w, src := [x.sop] }
       s.canIssue u →
       (s.curFeed n = none → exec (.qpushFd w n x) s = s.waitsAt w 0) ∧
       ∀ k f, s.curFeed n = some (k, f) →
         (f.m ≤ f.count → exec (.qpushFd w n x) s = s.waitsAt w 0) ∧
         (f.count < f.m → ∀ r t, s.wordRead .tlb k (s.src [x.sop] 0 &&& ~~~63) 64 = (r, t) →
           (∀ res, r = .error res → exec (.qpushFd w n x) s = s.answers t u res) ∧
           ∀ bs, r = .ok bs → exec (.qpushFd w n x) s = s.goesIn t u { effs := [.feedPush n bs], rel := some .p })) ∧
     (∀ (xd : Fin 57),
       let u : Uses := { wait := w, dst := (List.range 8).map fun i => .x (Fin.ofNat 64 (xd.val + i)), own := [.feed n] }
       s.canIssue u →
       (s.curFeed n = none → exec (.qpopFd w n xd) s = s.waitsAt w 0) ∧
       ∀ k f, s.curFeed n = some (k, f) →
         (s.feedLocked k n = true → exec (.qpopFd w n xd) s = s.waitsAt w 107) ∧
         (s.feedLocked k n = false → ∀ r t, s.feedLive k n (f.count + 1) = (r, t) →
           (r = none → exec (.qpopFd w n xd) s = s.waitsIn t w 0) ∧
           ∀ bs, r = some bs → exec (.qpopFd w n xd) s = s.goesIn t u
             { x := (List.finRange 8).map fun i => (Fin.ofNat 64 (xd.val + i.val), BitVec.ofNat 64 (ofBytes ((bs.drop (8 * i.val)).take 8)))
               effs := [.feedPop n], acq := some (.p, t.feedWrites k n) })) ∧
     (∀ k f bs m, s.feed k n = some f → s.feedHead k f = .ok bs →
       let late := wordAt bs 0x20 ≠ 0 ∧ wordAt bs 0x20 ≤ (s.ctxGirth k).toNat
       (f.count = 0 → s.feedLive k n (m + 1) = (none, s)) ∧
       (f.count ≠ 0 → ¬ late → s.feedLive k n (m + 1) = (some bs, s)) ∧
       ∀ id t, f.count ≠ 0 → late → s.feedTake k n f = (.ok id, t) → s.feedLive k n (m + 1) =
         (if wordAt bs 0x30 = 0 then t else t.addJob f.die k (.step (BitVec.ofNat 64 (wordAt bs 0x30) &&& ~~~63) .late false false)
            none).feedLive k n m) ∧
     ∀ (x : XReg), s.canIssue { wait := w, dst := [x.sop] } →
       exec (.qcntFd w n x) s = s.gives { wait := w, dst := [x.sop] } x.sop
         (BitVec.ofNat 64 (match s.curFeed n with | some p => p.2.count | none => 0)))

/-- R150 to R153, R270, R348: RCLAIM and RTAKE give the address of the next slot when one is free or filled, and wait otherwise and while
another sequencer has such a word on the ring; RFILL and RFREE need a slot of the ring that is claimed or taken, release at core scope and
never wait for the ring. A ring that is not configured, an address outside it and a slot in another state trap with kind 7, the ring's
number and the address; where the word names no address the trap reports 0, which is the model's: log entry 93. RCLAIM and RTAKE find the
ring as it stands, with nothing that is still held (R269); RFILL and RFREE find it as the older words of their own stream leave it. -/
def Obligations.RingWords : Prop :=
  ∀ (s : State) (a : RingA),
    ((∀ h ∈ s.curSeq.held, h.strm ≠ s.cur.strm) → s.ringSeen a.n = (s.core s.cur.core).ring a.n) ∧
    (let r := (s.core s.cur.core).ring a.n
     let addr (i : BitVec 32) : Word := BitVec.ofNat 64 (0xFFFFFFFFFFC00000 + 128 * (r.base + i.toNat % r.nslot * r.slotr))
     let u (kind : Nat) : Uses := { wait := a.w, dst := [a.x.sop], own := [.ring a.n], shared := [.ringLock a.n], lock := 100 + kind }
     (s.canIssue (u 2) →
       (r.nslot = 0 → exec (.rclaim a) s = s.traps ⟨7, a.n.val, 0, 0⟩) ∧
       (r.nslot ≠ 0 → r.nslot ≤ (r.clm - r.fre).toNat → exec (.rclaim a) s = s.waitsAt a.w 0) ∧
       (r.nslot ≠ 0 → (r.clm - r.fre).toNat < r.nslot → exec (.rclaim a) s =
         .next (s.issues (u 2) { retDst s.curSeq a.x.sop (addr r.clm) {} with effs := [.rclaim a.n] }))) ∧
     (s.canIssue (u 1) →
       (r.nslot = 0 → exec (.rtake a) s = s.traps ⟨7, a.n.val, 0, 0⟩) ∧
       (r.nslot ≠ 0 → r.pub = r.tkn → exec (.rtake a) s = s.waitsAt a.w 0) ∧
       (r.nslot ≠ 0 → r.pub ≠ r.tkn → exec (.rtake a) s =
         .next (s.issues (u 1) { retDst s.curSeq a.x.sop (addr r.tkn) {} with effs := [.rtake a.n], cov := s.stillOut r.cov })))) ∧
    (let u : Uses := { wait := a.w, src := [a.x.sop] }
     s.canIssue u →
      let r := s.ringSeen a.n
      let v := s.src [a.x.sop] 0
      let bad := s.traps ⟨7, a.n.val, v, 0⟩
      (r.nslot = 0 ∨ r.locate v.toNat = none → exec (.rfill a) s = bad ∧ exec (.rfree a) s = bad) ∧
      ∀ i, r.nslot ≠ 0 → r.locate v.toNat = some i →
        exec (.rfill a) s = (if r.state i = .claimed then .next (s.issues u { effs := [.rfill a.n i v], rel := some .c }) else bad) ∧
        exec (.rfree a) s = (if r.state i = .taken then .next (s.issues u { effs := [.rfree a.n i v], rel := some .c }) else bad))

/-- R151, R152: the indices of a ring keep their order, FRE to TKN to PUB to CLM, and CLM is never more than NSLOT past FRE, whatever
a ring's four effects do to it where its words let them. -/
def Obligations.RingIndicesStayInOrder : Prop :=
  let ok (r : Ring) : Prop :=
    (r.clm - r.fre).toNat ≤ r.nslot ∧ (r.pub - r.fre).toNat ≤ (r.clm - r.fre).toNat ∧ (r.tkn - r.fre).toNat ≤ (r.pub - r.fre).toNat
  ∀ r : Ring, ok r → r.nslot ≤ 256 →
    (r.free = true → ok r.claim) ∧ (r.filled = true → ok r.take) ∧ ∀ i, i < r.nslot → (∀ cov, ok (r.fill i cov)) ∧ ok (r.release i)

/-- R149, R155 to R157, R192, R301: ACSET, BARR and BARR.cfg are held effects, BARR releasing at core or die scope; BWAIT goes on once
its barrier is open. The arrival that makes N completes a barrier: its generation goes up by one and its arrivals go back to 0; an earlier
one is counted. A written N is 1 for 0 and 4096 above it, and completes the barrier when that many have arrived. The writes that an
arrival covers are taken widely: log entry 15. -/
def Obligations.CounterAndBarrierWords : Prop :=
  (∀ (s : State) (w : Wait),
     (∀ (n : Fin 64) (xa xb : XReg), s.canIssue { wait := w, src := [xa.sop, xb.sop] } →
       exec (.acset w n xa xb) s = s.holds { wait := w, src := [xa.sop, xb.sop] }
         [.acset n ((s.src [xa.sop, xb.sop] 0).setWidth 32) ((s.src [xa.sop, xb.sop] 1).setWidth 32)]) ∧
     (∀ b, s.canIssue { wait := w } →
       exec (.barr w b) s = .next (s.issues { wait := w }
         { effs := [.barr b], rel := some (match b with | .ba _ => .c | .db _ => .d) })) ∧
     (∀ b (xa : XReg), s.canIssue { wait := w, src := [xa.sop] } →
       exec (.barrCfg w b xa) s = s.holds { wait := w, src := [xa.sop] } [.barrCfg b ((s.src [xa.sop] 0).setWidth 16)]) ∧
     ∀ b, s.canIssue { wait := w, own := [.bar b] } →
       (s.barOpen s.cur.core s.cur.seq s.cur.strm b = true →
         exec (.bwait w b) s = .next (s.issues { wait := w, own := [.bar b] } { cov := s.stillOut (s.barrier s.cur.core b).cov })) ∧
       (s.barOpen s.cur.core s.cur.seq s.cur.strm b = false → exec (.bwait w b) s = s.waitsAt w 0)) ∧
  (∀ (b : Barrier) (cov : List Nat), b.arr < b.n →
     (b.arr + 1 < b.n → b.arrive cov = { b with arr := b.arr + 1, cov := cov }) ∧
     (b.arr + 1 = b.n → b.arrive cov = { b with gen := b.gen + 1, arr := 0, cov := cov }) ∧
     ∀ v : BitVec 16,
       let n := if v = 0 then 1 else if 4096 < v.toNat then 4096 else v.toNat
       (b.arr < n → b.config v = { b with n := n }) ∧ (n ≤ b.arr → b.config v = { b with n := n, gen := b.gen + 1, arr := 0 }))

/-- R158, R159, R270, R358: TLOOK gives the slot of its key, or 0xFFFF; TINS holds its entry, a release at core scope, and traps with kind 8,
cause 1 for slot 0xFFFF and cause 2 for a full set without its key; TEVC takes the victim of a full set, or gives 0xFFFF; TINV and TINV.all
are held. TLOOK, TINS and TEVC wait for a TEVC of another sequencer on the set that has issued and is held (R270). A word finds the table
as the older words of its own stream leave it. -/
def Obligations.TagWords : Prop :=
  ∀ (s : State) (w : Wait),
    let k := s.tagSeen
    let find (v : Word) : Option (Nat × TagEnt) := k.tagFind (v.setWidth 48)
    let set (v : Word) : Nat := tagSetOf (s.core s.cur.core).tagWays (v.setWidth 48)
    ((∀ h ∈ s.curSeq.held, h.strm ≠ s.cur.strm) → k = s.core s.cur.core) ∧
    (∀ v, s.tagLocked v = true ↔ ∃ q, q ≠ s.cur.seq ∧ ∃ h ∈ (s.seq s.cur.core q).held, ∃ e ∈ h.effs, ∃ i, e = .tevc (set v) i) ∧
    (∀ (xd : SOp) (xa : XReg),
      let u : Uses := { wait := w, src := [xa.sop], dst := [xd] }
      s.canIssue u →
      let v := s.src [xa.sop] 0
      (s.tagLocked v = true → exec (.tlook w xd xa) s = s.waitsAt w 100 ∧ exec (.tevc w xd xa) s = s.waitsAt w 100) ∧
      (s.tagLocked v = false →
        (∀ i e, find v = some (i, e) → exec (.tlook w xd xa) s = s.gives u xd (e.slot.setWidth 64)) ∧
        (find v = none → exec (.tlook w xd xa) s = s.gives u xd 0xFFFF) ∧
        (k.tagFree (set v) ≠ none → exec (.tevc w xd xa) s = s.gives u xd 0xFFFF) ∧
        ∀ i, k.tagFree (set v) = none → i = (mapGet k.tagPtr (set v)).getD 0 →
          (∀ e, mapGet k.tags (set v * k.tagWays + i) = some e →
            let ret := retDst s.curSeq xd (e.key ++ e.slot) {}
            exec (.tevc w xd xa) s = .next (s.issues u { ret with effs := ret.effs ++ [.tevc (set v) i] })) ∧
          (mapGet k.tags (set v * k.tagWays + i) = none → exec (.tevc w xd xa) s = s.gives u xd 0xFFFF))) ∧
    (∀ (xa xb : XReg),
      let src := [xa.sop, xb.sop]
      let u : Uses := { wait := w, src := src }
      s.canIssue u →
      let v := s.src src 0
      let key : BitVec 48 := v.setWidth 48
      let slot : BitVec 16 := (s.src src 1).setWidth 16
      let full := find v = none ∧ k.tagFree (tagSetOf k.tagWays key) = none
      (s.tagLocked v = true → exec (.tins w xa xb) s = s.waitsAt w 100) ∧
      (s.tagLocked v = false →
        (slot = 0xFFFF → exec (.tins w xa xb) s = s.traps ⟨8, 1, key.setWidth 64, 0⟩) ∧
        (slot ≠ 0xFFFF → full → exec (.tins w xa xb) s = s.traps ⟨8, 2, key.setWidth 64, 0⟩) ∧
        (slot ≠ 0xFFFF → ¬ full → exec (.tins w xa xb) s = .next (s.issues u { effs := [.tins key slot], rel := some .c })))) ∧
    (∀ (xa : XReg), s.canIssue { wait := w, src := [xa.sop] } →
      exec (.tinv w xa) s = s.holds { wait := w, src := [xa.sop] } [.tinv ((s.src [xa.sop] 0).setWidth 48)]) ∧
    (s.canIssue { wait := w } → exec (.tinvAll w) s = s.holds { wait := w } [.tinvAll])

/-- R158, R159: what the tag table answers after an insertion: the inserted slot for its key, and for every other key what it answered
before. -/
def Obligations.TagTable : Prop :=
  ∀ (k : Core) (key other : BitVec 48) (slot : BitVec 16),
    let slotOf (x : Core) (n : BitVec 48) : Option (BitVec 16) := (x.tagFind n).map fun p => p.2.slot
    (k.tagFind key ≠ none ∨ k.tagFree (tagSetOf k.tagWays key) ≠ none) →
    slotOf (k.tagInsert key slot) key = some slot ∧ (other ≠ key → slotOf (k.tagInsert key slot) other = slotOf k other)

/-! ## System words -/

/-- R94 to R96, R330, R331, R214: MFS gives the value of a special register; MTS holds a write of one, and is without effect on those that
only read. The registers of Bridle (0x10, 0x12, 0x13) trap either word with kind 5 and the register's number. The address stream reads
some value that FLAGS has held since the group began (R55). TSR gives the context's Girth count and the core's cycle count (R2, R235, R360).
The value the address stream reads of FLAGS is a free value: log entry 22. -/
def Obligations.SpecialRegisterWords : Prop :=
  ((∀ (s : State) (w : Wait) (spr : BitVec 12),
      let n := spr.toNat
      let bridle := n = 0x10 ∨ n = 0x12 ∨ n = 0x13
      (∀ xd, s.canIssue { wait := w, dst := [xd], own := [.spr n] } →
        let u : Uses := { wait := w, dst := [xd], own := [.spr n] }
        (bridle → exec (.mfs w xd spr) s = s.traps ⟨5, 0, spr.setWidth 64, 0⟩) ∧
        (¬ bridle → (spr ≠ 3 ∨ s.cur.strm = .c) →
          exec (.mfs w xd spr) s = s.gives u xd (s.sprRead s.cur.core s.cur.seq s.cur.strm n))) ∧
      (∀ xa, s.canIssue { wait := w, src := [xa] } →
        let u : Uses := { wait := w, src := [xa] }
        let fixed := n = 0x00 ∨ n = 0x04 ∨ n = 0x05 ∨ n = 0x06 ∨ n = 0x07 ∨ n = 0x11 ∨ n = 0x14 ∨ (n = 3 ∧ s.cur.strm = .a)
        (bridle → exec (.mts w xa spr) s = s.traps ⟨5, 0, spr.setWidth 64, 0⟩) ∧
        (¬ bridle → fixed → exec (.mts w xa spr) s = .next (s.issues u {})) ∧
        (¬ bridle → ¬ fixed → exec (.mts w xa spr) s = s.holds u [.mts spr (s.src [xa] 0)]))) ∧
   (∀ (s : State) (w : Wait) (xd : SOp), s.canIssue { wait := w, dst := [xd], own := [.spr 3] } → s.cur.strm = .a →
      ∃ v, (v ∈ s.curSeq.flagsHist ∨ v = s.curSeq.flags) ∧
        exec (.mfs w xd 3) s = .next (({ s with freeCtr := s.freeCtr + 1 } : State).issues { wait := w, dst := [xd], own := [.spr 3] }
          (retDst s.curSeq xd (v.setWidth 64) {})))) ∧
  (∀ (s : State) (w : Wait) (xg xc : XReg) (k : CtxId) (x : Ctx), (s.core s.cur.core).ctxId = some k → s.ctx? k = some x →
     let u : Uses := { wait := w, dst := [xg.sop, xc.sop] }
     s.canIssue u →
     exec (.tsr w xg xc) s = .next (s.issues u (retDst s.curSeq xc.sop (BitVec.ofNat 64 (s.core s.cur.core).cyc)
       (retDst s.curSeq xg.sop (BitVec.ofInt 64 ((s.girth : Int) + x.goff)) {}))))

/-- R11, R72, R95, R96, R205, R293, R331: what a write of a special register stores: SLIP bits 6:0 between 1 and 64, PWDIST bits 16:0 at most 0x10000,
FLAGS the low five bits, LEASE bits 8:0 between 1 and 256 and at most its limit, a PACE register bits 15:0 at least its limit; the other
bits written are ignored, and no other register reads differently. MONSELm stores EN, SHIFT and SRC, with the wait-kind filter for source 2
alone, and CLR zeroes what its monitor has captured and reads 0; MONCAPm stores its index and reads the item there, 0 from 19 on; no other
monitor changes. -/
def Obligations.SpecialRegisterWrites : Prop :=
  ∀ (s : State) (c : CoreId) (q : SeqId) (st : Strm) (v : Word),
    let t (n : Nat) : State := s.modCore c (·.putSpr q st n v)
    let read (n m : Nat) : Word := (t n).sprRead c q st m
    read 1 1 = BitVec.ofNat 64 (max 1 (min 64 (v.toNat % 2 ^ 7))) ∧ read 2 2 = BitVec.ofNat 64 (min (v.toNat % 2 ^ 17) 0x10000) ∧
    read 3 3 = v &&& 31 ∧ read 8 8 = BitVec.ofNat 64 (min (max 1 (min 256 (v.toNat % 2 ^ 9))) (s.core c).leaseLim) ∧
    (∀ i : Fin 4, read (9 + i.val) (9 + i.val) = BitVec.ofNat 64 (max (v.toNat % 65536) (s.core c).paceLim[i.val])) ∧
    (∀ n m, n ≠ m → ¬ (0x20 ≤ n ∧ n ≤ 0x2F ∧ m / 2 = n / 2) → read n m = s.sprRead c q st m) ∧
    ∀ i : Fin 8,
      let sel := 0x20 + 2 * i.val
      let old := (s.core c).mons[i.val]
      let new (n : Nat) : Monitor := ((t n).core c).mons[i.val]
      let src := v.toNat % 16
      read sel sel = BitVec.ofNat 64 (src + (if src = 2 then v.toNat / 16 % 16 * 16 else 0) + v.toNat / 2 ^ 8 % 16 * 2 ^ 8 +
        v.toNat / 2 ^ 16 % 2 * 2 ^ 16) ∧
      (new sel).items = (if v.getLsbD 17 then Vector.replicate 19 0 else old.items) ∧ (new sel).ix = old.ix ∧
      read (sel + 1) (sel + 1) = (match old.items[v.toNat % 32]? with | some n => BitVec.ofNat 64 n | none => 0) ∧
      (new (sel + 1)).items = old.items ∧ (new (sel + 1)).sel = old.sel ∧
      ∀ j : Fin 8, j ≠ i → ((t sel).core c).mons[j.val] = (s.core c).mons[j.val] ∧ ((t (sel + 1)).core c).mons[j.val] = (s.core c).mons[j.val]

/-- R229, R305, R308, R320, R354, R355: SPAWN, JOIN and CANCEL translate their 64-byte block for reading and writing: a failure ends the word
as `failsIn` says, and a page that is not device memory is the trap of kind 9 with cause 4 and the block's address. A good block is left to
the die's completion engine by a held effect, a release at .p for SPAWN and JOIN, and the answer of the engine is outstanding. JOIN of
counter 0 gives 0. CANCEL takes the counter in its register, or climbs PARENT links from the launch counter of its group's record, and
goes on when there is none. DLCHK gives the time to the deadline, whether there is one and whether it has passed, and whether a counter of the
chain of four is cancelled; it parks on a counter whose page is not of device memory (R230), with a cause that is the model's: log entry
97. The trap of CANCEL and the block that the words hold are read by inference: log entries 12 and 37. -/
def Obligations.RecordWords : Prop :=
  ∀ (s : State) (w : Wait) (k : CtxId), (s.core s.cur.core).ctxId = some k →
    let block (z : State) (a : Word) (run : Out) (good : VSeg → List Nat → State → Out) : Prop :=
      ∀ r t, z.transAccess z.cur.core .tlb k .rw a.toNat 64 = (r, t) →
        (∀ e, r = .error e → run = s.failsIn t w e) ∧
        ∀ g gs ds, r = .ok (g :: gs, ds) →
          (g.t.kind = .dev → run = good g ds t) ∧ (g.t.kind ≠ .dev → run = s.trapsIn t ⟨9, 4, a, 0⟩)
    (∀ (xa : XReg),
      let u : Uses := { wait := w, src := [xa.sop] }
      s.canIssue u →
      let x := s.src [xa.sop] 0
      block s (x &&& ~~~63) (exec (.spawn w xa) s) (fun g _ t =>
        let p := t.engLoad (.none .d) (x &&& ~~~63) (some g.addr)
        s.goesIn p.2 u { effs := [.spawn (x &&& ~~~63) p.1.id], load := [p.1], rel := some .p }) ∧
      ∀ (lv : Fin 4) r t, s.cancelTarget k x (lv.val + 1) = (r, t) →
        (∀ res, r = .error res → exec (.cancel w xa lv) s = s.answers t u res) ∧
        (r = .ok none → exec (.cancel w xa lv) s = s.goesIn t u {}) ∧
        ∀ a, r = .ok (some a) → block t a (exec (.cancel w xa lv) s) fun g ds z =>
          let p := z.engLoad (.none .d) a (some g.addr)
          s.goesIn p.2 u { effs := [.cancel g.addr g.t.keyId p.1.id ds], load := [p.1] }) ∧
    (∀ (v : Word) (n : Nat),
      let rcd := s.curSeq.rcd
      (v ≠ 0 → s.cancelTarget k v n = (.ok (some (v &&& ~~~63)), s)) ∧
      (v = 0 → rcd.launch = 0 ∨ n < rcd.level → s.cancelTarget k v n = (.ok none, s)) ∧
      (v = 0 → rcd.launch ≠ 0 → rcd.level ≤ n → s.cancelTarget k v n = s.climb k (n - rcd.level) (rcd.launch &&& ~~~63)) ∧
      s.climb k 0 v = (.ok (some v), s) ∧
      ∀ bs t, s.wordRead .tlb k (v + 0x20) 8 = (.ok bs, t) →
        let p : Word := BitVec.ofNat 64 (ofBytes bs) &&& ~~~63
        s.climb k (n + 1) v = if p = 0 then (.ok none, t) else t.climb k n p) ∧
    (∀ (xd : SOp) (xa : XReg),
      let u : Uses := { wait := w, src := [xa.sop], dst := [xd] }
      s.canIssue u →
      let a := s.src [xa.sop] 0 &&& ~~~63
      (a = 0 → exec (.join w xd xa) s = s.gives u xd 0) ∧
      (a ≠ 0 → block s a (exec (.join w xd xa) s) fun g _ t =>
        let p := t.engLoad (loadDst xd .d) a (some g.addr)
        s.goesIn p.2 u { effs := [.join a p.1.id], load := [p.1], rel := some .p })) ∧
    (∀ (xd : SOp),
      let u : Uses := { wait := w, dst := [xd] }
      s.canIssue u →
      ∀ r t, s.chainCancelled k 4 (s.curSeq.rcd.launch &&& ~~~63) = (r, t) →
        (∀ res, r = .error res → exec (.dlchk w xd) s = s.answers t u res) ∧
        ∀ b, r = .ok b →
          let g := (t.ctxGirth k).toNat
          let dl := s.curSeq.deadln.toNat
          exec (.dlchk w xd) s = s.goesIn t u (retDst s.curSeq xd (BitVec.ofNat 64
            ((if dl = 0 then 0xFFFFFFFF else min (dl - g) 0xFFFFFFFF) * 2 ^ 32 + (if dl = 0 then 4 else 0) + (if b then 2 else 0) +
              (if dl ≠ 0 ∧ dl ≤ g then 1 else 0))) {})) ∧
    ∀ (a : Word) (n : Nat),
      s.chainCancelled k n 0 = (.ok false, s) ∧
      (∀ gs ds t, inWindow a.toNat = false → s.transAccess s.cur.core .tlb k .r a.toNat 8 = (.ok (gs, ds), t) →
        ((∀ g ∈ gs, g.t.kind = .dev) → s.chainRead k a = t.wordRead .tlb k a 8) ∧
        (a ≠ 0 → (∃ g ∈ gs, g.t.kind ≠ .dev) →
          ∃ f, s.chainCancelled k (n + 1) a = (.error (.park f), t) ∧ f.cause = 4 ∧ f.addr = a.toNat ∧ f.write = false)) ∧
      ∀ bs t, a ≠ 0 → s.chainRead k a = (.ok bs, t) →
        ((ofBytes bs).testBit 33 = true → s.chainCancelled k (n + 1) a = (.ok true, t)) ∧
        ((ofBytes bs).testBit 33 = false →
          (n = 0 → s.chainCancelled k (n + 1) a = (.ok false, t)) ∧
          ∀ ps z, n ≠ 0 → t.chainRead k (a + 0x20) = (.ok ps, z) →
            s.chainCancelled k (n + 1) a = z.chainCancelled k n (BitVec.ofNat 64 (ofBytes ps) &&& ~~~63))

/-! ## Queue scripts -/

/-- R222 to R225: what each word of a script does to the run at the head of its context on its die: registers modulo 2^64, the eight words
of the record buffer, forward jumps, loops of a fixed count; END ends the run once what it wrote is performed. EMIT takes its core from its
register, or from the distribution counter, which it steps; a record for a core of another die only counts; one for this die enters the
ready list of its priority, or waits for room, or with a JOIN word is stored at its address; a record with a LAUNCH counter has that counter
raised. Past the end of a loop's body a run begins the next iteration or leaves the loop. What a word does that registration would refuse is
the model's: log entries 74 and 101. -/
def Obligations.ScriptWords : Prop :=
  (∀ (s : State) (r : Run) (t : List Run), s.runsOf s.cur.die s.cur.ctx = r :: t → r.started = true →
     let d := s.cur.die
     let k := s.cur.ctx
     let goes (i : Instr) (n : Run) : Prop := exec i s = .next (s.setRuns d k (n :: t))
     let sets (n : Fin 8) (v : Word) : Run := ({ r with s := r.s.set n.val v } : Run).goto (r.pc + 1)
     let g (a : Fin 8) : Word := r.s[a.val]
     (∀ n w, goes (.scriptLdp n w) (sets n ((r.body[w.toNat]?).getD 0))) ∧
     (∀ n i, goes (.scriptLdi n i) (sets n (i.signExtend 64))) ∧ (∀ n e, goes (.scriptLde n e) (sets n (s.scriptEnv r e))) ∧
     (∀ a, goes (.scriptAdd a) (sets a.d (g a.a + g a.b)) ∧ goes (.scriptMul a) (sets a.d (g a.a * g a.b)) ∧
       goes (.scriptAnd a) (sets a.d (g a.a &&& g a.b)) ∧
       goes (.scriptMinu a) (sets a.d (if (g a.a).toNat ≤ (g a.b).toNat then g a.a else g a.b))) ∧
     (∀ n a i, goes (.scriptAddi n a i) (sets n (g a + i.signExtend 64))) ∧
     (∀ n a i, goes (.scriptShl n a i) (sets n (g a <<< i.toNat)) ∧ goes (.scriptShr n a i) (sets n (g a >>> i.toNat))) ∧
     (∀ f a, goes (.scriptRset f a) (({ r with buf := r.buf.set f.val (g a) } : Run).goto (r.pc + 1))) ∧
     goes .scriptRclr (({ r with buf := Vector.replicate 8 0 } : Run).goto (r.pc + 1)) ∧
     (∀ a b c off,
       let yes := c = 0 ∧ g a = g b ∨ c = 1 ∧ g a ≠ g b ∨ c = 2 ∧ (g a).toNat < (g b).toNat ∨ c = 3 ∧ (g b).toNat ≤ (g a).toNat ∨ c = 4
       (yes → goes (.scriptJfw a b c off) (r.goto (r.pc + off.toNat))) ∧ (¬ yes → goes (.scriptJfw a b c off) (r.goto (r.pc + 1)))) ∧
     (∀ n len, goes (.scriptLoop n len)
       { r with pc := r.pc + 1, loop := some (r.pc + 1, len.toNat, n.toNat, 0), steps := r.steps + 1 }) ∧
     (s.allDone r.outs = true → exec .scriptEnd s =
       .next ((s.setRuns d k t).addJob d k (.step ((r.body[0]?).getD 0 &&& ~~~63) .none false false) none)) ∧
     (s.allDone r.outs = false → exec .scriptEnd s = .next s) ∧
     ∀ a b sl x, s.slice? k.slice = some sl → s.ctx? k = some x →
       let deal := g a = BitVec.allOnes 64
       let n := (if deal then x.rr[d.val] else (g a).toNat) % max sl.cores.length 1
       let rec_ : Rec := ⟨r.buf, 0⟩
       let counted (outs : List Nat) : Run := ({ r with emits := r.emits + 1, outs := outs } : Run).goto (r.pc + 1)
       let done (z : State) (outs : List Nat) : Prop := exec (.scriptEmit a b) s =
         .next ((if deal then z.modCtx k fun x => { x with rr := x.rr.set d.val (x.rr[d.val] + 1) } else z).setRuns d k (counted outs :: t))
       let raise (z : State) : State := if rec_.launch = 0 then z else z.addJob d k (.step (rec_.launch &&& ~~~63) .none false true) none
       let list := (s.die d).readyList k rec_.prio
       ((∀ c, (sl.mapAt r.t)[n]? = some c → dieOfCore c ≠ d) → done s r.outs) ∧
       ∀ c, (sl.mapAt r.t)[n]? = some c → dieOfCore c = d →
         (rec_.join = 0 →
           (32768 ≤ list.length → exec (.scriptEmit a b) s = .next s) ∧
           (list.length < 32768 → done (raise (s.setDie d ((s.die d).setReady k rec_.prio (list ++ [rec_])))) r.outs)) ∧
         (rec_.join ≠ 0 → ∀ res z,
           s.engPut d k ((g b).toNat / 64 * 64) (r.buf.toList.flatMap fun v => toBytes 8 v.toNat) = (res, z) →
             (∀ id, res = .ok id → done (raise z) (r.outs ++ [id])) ∧ (res = .wait ∨ res = .fail → exec (.scriptEmit a b) s = .next z))) ∧
  (∀ (r : Run) (n : Nat),
     (r.loop = none → r.goto n = { r with pc := n, steps := r.steps + 1 }) ∧
     ∀ b len m i, r.loop = some (b, len, m, i) →
       (n < b + len → r.goto n = { r with pc := n, steps := r.steps + 1 }) ∧
       (b + len ≤ n → i + 1 < m → r.goto n = { r with pc := b, loop := some (b, len, m, i + 1), steps := r.steps + 1 }) ∧
       (b + len ≤ n → m ≤ i + 1 → r.goto n = { r with pc := b + len, loop := none, steps := r.steps + 1 }))

/-! ## The host's commands -/

/-- R204, R211, R217, R225, R229, R231, R245, R286: the commands of a virtual function on a context of its slice. A context number above 7 is STATUS
2, an absent context STATUS 4; CTXCREATE makes the context on the free cores of the slice; CTXKILL kills it and removes it once nothing of it is
left; LQREG registers a queue with RIDX as it stands when its script passes, which no front end runs yet (R220), FDREG a feed queue with its
indexes; INVAL drops the pages' translations on every core and completes once all earlier accesses are performed; RESUME restarts the agent of a
fault number, or one that is saved parked; CANCEL marks a counter and ends once that is performed; THAW ends a hold. A command whose read waits for
a line of memory leaves BUSY set. The code and the arguments are those that CMD held at the doorbell (R285). Which cores CTXCREATE takes, LQREG of a
number that is registered, and the STATUS of what R286 lists no code for are the model's choices: log entries 40, 44, 45, 49 and 100. -/
def Obligations.HostContextCommands : Prop :=
  ∀ (s : State) (f : FnId),
    let b := s.fn f
    let busy (code : Nat) : Prop := b.busy = true ∧ b.code = code
    let ends (t : State) (st : Nat) (v : Word) : Out :=
      .next (t.modFn f fun y => { y with busy := false, status := BitVec.ofNat 8 st, result := v, waits := [] })
    let named (i : Instr) (code : Nat) (arg : Word) : Prop :=
      (i = .ctxkill f ∧ code = 2 ∧ arg = b.arg 0) ∨ (i = .lqreg f ∧ code = 3 ∧ arg = b.arg 0) ∨ (i = .fdreg f ∧ code = 4 ∧ arg = b.arg 0) ∨
      (i = .inval f ∧ code = 5 ∧ arg = b.arg 0) ∨ (i = .resume f ∧ code = 6 ∧ arg = b.arg 0) ∨
      (i = .hostCancel f ∧ code = 7 ∧ arg = b.arg 1) ∨ (i = .thaw f ∧ code = 8 ∧ arg = b.arg 0)
    (∀ i code arg, named i code arg ∨ (i = .ctxcreate f ∧ code = 1) → ¬ busy code ∨ s.fnSlice f = none → exec i s = .next s) ∧
    ∀ (n : Fin 32) (x : Slice), s.fnSlice f = some (n, x) →
    (∀ i code arg, named i code arg → busy code →
      (8 ≤ arg.toNat → exec i s = ends s 2 0) ∧ (arg.toNat < 8 → s.ctx? ⟨n, Fin.ofNat 8 arg.toNat⟩ = none → exec i s = ends s 4 0)) ∧
    (busy 1 →
      let k : CtxId := ⟨n, Fin.ofNat 8 (b.arg 0).toNat⟩
      let lg := (b.arg 4).toNat % 16
      let ways := (b.arg 5).toNat % 4
      let ok := (b.arg 0).toNat < 8 ∧ (b.arg 2).toNat % 64 = 0 ∧ 4 ≤ lg ∧ lg ≤ 12 ∧ ways ≤ 2
      (¬ ok ∨ s.ctx? k ≠ none → exec (.ctxcreate f) s = ends s 2 0) ∧
      (ok → s.ctx? k = none → ∃ y : Ctx, y.root = b.arg 1 ∧ y.saddlebag = b.arg 2 ∧ y.faultHdr = b.arg 3 ∧ y.faultLog2 = lg ∧
        y.ways = 2 ^ ways ∧ y.goff = 0 ∧ y.freeze = none ∧ y.hold = false ∧ y.stops = [] ∧ y.saved = [] ∧ y.nextFid = 1 ∧
        (∀ i, y.lqs[i]? = if i < 16 then some none else none) ∧ (∀ i, y.fds[i]? = if i < 64 then some none else none) ∧
        exec (.ctxcreate f) s = ends ((s.freeCores n x).foldl (fun s c => s.place k c) (s.setCtx k (some y))) 0 (BitVec.ofNat 64 (2 ^ ways)))) ∧
    ∀ (m : Fin 8) (y : Ctx), s.ctx? ⟨n, m⟩ = some y →
      let k : CtxId := ⟨n, m⟩
      let d := portDie f.port
      (b.arg 0 = BitVec.ofNat 64 m.val →
        (busy 2 →
          (s.ctxGone k = true → exec (.ctxkill f) s = ends (s.removeCtx k) 0 0) ∧
          (s.ctxGone k = false → exec (.ctxkill f) s = .next (s.askKill k))) ∧
        (busy 3 →
          (s.regRead d k (b.arg 2).toNat 64 = .wait → exec (.lqreg f) s = .next s) ∧
          (s.regRead d k (b.arg 2).toNat 64 = .fail → exec (.lqreg f) s = ends s 2 0) ∧
          ∀ bs, s.regRead d k (b.arg 2).toNat 64 = .ok bs →
            let ok := (b.arg 1).toNat ≤ 15 ∧ 1 ≤ wordAt bs 8 ∧ wordAt bs 8 ≤ 16 ∧ wordAt bs 0x38 = 0
            (¬ ok → exec (.lqreg f) s = ends s 2 0) ∧
            (ok →
              let read := s.regWords d k 256 (wordAt bs 0x28) 0 ⟨0, 0⟩
              (read = .wait → exec (.lqreg f) s = .next s) ∧
              ∀ ws, read = .ok ws →
                (∀ i c, verifyScript ws = .error (i, c) → exec (.lqreg f) s = ends s 2 (BitVec.ofNat 64 (i * 256 + c))) ∧
                ∀ script, verifyScript ws = .ok script → exec (.lqreg f) s = ends (s.modCtx k fun z =>
                  { z with lqs := z.lqs.set (Fin.ofNat 16 (b.arg 1).toNat) (some ⟨b.arg 2, script, wordAt bs 0x18 % 2 ^ 32, false, []⟩) }) 0 0)) ∧
        (busy 4 →
          (63 < (b.arg 1).toNat → exec (.fdreg f) s = ends s 2 0) ∧
          ((b.arg 1).toNat ≤ 63 →
            let at_ := s.devAddr d k (b.arg 2).toNat .r
            let got := s.regRead d k (b.arg 2).toNat 64
            (at_ = .fail ∨ (at_ ≠ .wait ∧ got = .fail) → exec (.fdreg f) s = ends s 2 0) ∧
            (at_ = .wait ∨ (at_ ≠ .fail ∧ got = .wait) → exec (.fdreg f) s = .next s) ∧
            ∀ p bs, at_ = .ok p → got = .ok bs →
              let lg := bitsOf (wordAt bs 8) 3 0
              (12 < lg → exec (.fdreg f) s = ends s 2 0) ∧
              (lg ≤ 12 → exec (.fdreg f) s = ends (s.modCtx k fun z =>
                { z with fds := z.fds.set (Fin.ofNat 64 (b.arg 1).toNat)
                          (some ⟨b.arg 2, homeOf p.1, wordAt bs 0 / 64 * 64, 2 ^ lg, wordAt bs 0x10, wordAt bs 0x18⟩) }) 0 0))) ∧
        (busy 5 →
          let hit (p : Nat) : Bool := decide ((b.arg 2).toNat = 0 ∨
            ((b.arg 1).toNat / 65536 ≤ p ∧ p < (b.arg 1).toNat / 65536 + (b.arg 2).toNat))
          let t := ((s.newId.2).shootDown (fun j p => decide (j = k) && hit p) fun j => decide (j = k)).modCtx k fun z =>
            { z with fqStuck := false }
          (b.waits = [] → exec (.inval f) s = .next (({ t with invals := t.invals ++ [s.newId.2.newInval s.nextId n (some m)] } : State).modFn f
            fun z => { z with waits := [s.nextId] })) ∧
          ∀ id ids, b.waits = id :: ids →
            ((∃ v ∈ s.invals, v.id = id) → exec (.inval f) s = .next s) ∧ ((∀ v ∈ s.invals, v.id ≠ id) → exec (.inval f) s = ends s 0 0)) ∧
        (busy 6 →
          let fid : BitVec 32 := BitVec.ofNat 32 (b.arg 1).toNat
          let good := fid ≠ 0 ∧ (b.arg 1).toNat < 2 ^ 32
          let savedFid := ∃ v ∈ y.saved, ∃ c ∈ v.cores, ∃ p ∈ c.parks, p.2.fid = fid
          (good → ∀ c a, s.findFid k fid = some (c, a) → exec (.resume f) s = ends (s.unpark c a) 0 0) ∧
          (good → s.findFid k fid = none → savedFid → exec (.resume f) s = ends (s.modCtx k fun z => { z with
            saved := z.saved.map fun (v : Saved) => { v with cores := v.cores.map fun (c : SavedCore) => c.resume fid } }) 0 0) ∧
          (¬ good ∨ (s.findFid k fid = none ∧ ¬ savedFid) → exec (.resume f) s = ends s 4 0)) ∧
        (busy 8 → exec (.thaw f) s = ends (s.modCtx k fun z => { z with hold := false }) 0 0)) ∧
      (b.arg 1 = BitVec.ofNat 64 m.val → busy 7 →
        (b.waits = [] → ∀ res t, s.engAtom d k ((b.arg 0).toNat / 64 * 64) 8 .setCancelled .drop = (res, t) →
          (∀ id, res = .ok id → exec (.hostCancel f) s = .next (t.modFn f fun z => { z with waits := [id] })) ∧
          (res = .wait → exec (.hostCancel f) s = .next t) ∧ (res = .fail → exec (.hostCancel f) s = ends t 2 0)) ∧
        (b.waits ≠ [] → (s.allDone b.waits = true → exec (.hostCancel f) s = ends s 0 0) ∧
          (s.allDone b.waits = false → exec (.hostCancel f) s = .next s)))

/-- R251, R253, R262, R286, R287: the commands of the physical function. SLICEMAKE makes the slice of a grant that fits, and is STATUS 2 for
arguments out of range or a slice that is there, STATUS 3 for a grant that does not fit or whose frames the table refuses. SLICEFREE and the
reset of a virtual function free a slice by the seven steps of R262, one event each or as many as a step has to wait; the reset of the physical
function resets its block. MIGRATE copies pages for at most 16 rounds, each of which clears the D bits with an invalidation and copies once that
is complete, stops the contexts with REASON 2 at one count, transfers and switches once they are saved and that count has passed, and frees the
slice; a target above 255 is STATUS 2. A slice number above 31 is STATUS 2 and an absent slice STATUS 4. A slice that arrives on cores of equal
shape is made and filled when its grant fits, its logical cores taking what goes with them (R26), and nothing happens when it does not. What
firmware decides is given with the event, a move inside the package ends before one to another, and the reset of the physical function is the
model's choice: log entries 66, 67, 69 and 91. -/
def Obligations.HostSliceCommands : Prop :=
  ∀ (s : State) (f : FnId),
    let b := s.fn f
    let busy (code : Nat) : Prop := f.fn = 0 ∧ b.busy = true ∧ b.code = code
    let ends (t : State) (st : Nat) (v : Word) : Out :=
      .next (t.modFn f fun y => { y with busy := false, status := BitVec.ofNat 8 st, result := v, waits := [] })
    let n : Fin 32 := Fin.ofNat 32 (b.arg 0).toNat
    (∀ g, ¬ busy 0x20 → exec (.slicemake f g) s = .next s) ∧
    (¬ busy 0x21 → exec (.slicefree f) s = .next s) ∧ (¬ busy 0x22 → exec (.migrate f) s = .next s) ∧
    (busy 0x20 → ∀ g,
      let good := sliceBitsOk b = true ∧ sliceRangesOk b = true ∧ s.slice? n = none
      let fits := s.grantCoresOk b g = true ∧ s.grantSharesOk n b.args g = true ∧ grantFramesOk b g = true ∧ s.keyFree g.keyId = true
      (¬ good → exec (.slicemake f g) s = ends s 2 0) ∧
      (good → ¬ fits ∨ s.assignFrames n.val g.keyId g.frames = none → exec (.slicemake f g) s = ends s 3 0) ∧
      (good → fits → s.assignFrames n.val g.keyId g.frames ≠ none → ∃ t x,
        exec (.slicemake f g) s = ends t 0 (BitVec.ofNat 64 g.keyId) ∧ t.slice? n = some x ∧ x.cores = g.cores ∧ x.port = f.port ∧
        x.accept = true ∧ x.s2root = g.s2root ∧ x.keyId = g.keyId ∧ x.args = b.args ∧ (∀ m, x.ctx? m = none) ∧ n ∈ t.fabMap)) ∧
    (∀ i code, (i = .slicefree f ∧ code = 0x21) ∨ (i = .migrate f ∧ code = 0x22) → busy code →
      (32 ≤ (b.arg 0).toNat → exec i s = ends s 2 0) ∧ ((b.arg 0).toNat < 32 → s.slice? n = none → exec i s = ends s 4 0)) ∧
    (busy 0x21 → (b.arg 0).toNat < 32 → ∀ x t last, s.slice? n = some x → s.freeStep n x = (t, last) →
      (last = true → exec (.slicefree f) s = ends t 0 0) ∧ (last = false → exec (.slicefree f) s = .next t)) ∧
    (f.fn = 0 → exec (.functionLevelReset f) s = .next (s.setFn f FnBlk.reset)) ∧
    (f.fn ≠ 0 →
      let m : Fin 32 := Fin.ofNat 32 (f.fn.val - 1)
      (∀ x, s.slice? m = some x → x.port = f.port → exec (.functionLevelReset f) s = .next (s.freeStep m x).1) ∧
      ((∀ x, s.slice? m = some x → x.port ≠ f.port) → exec (.functionLevelReset f) s = .next s)) ∧
    (∀ (m : Fin 32) (x : Slice),
      let at_ (t : State) (i : Nat) : State := t.modSlice m fun y => { y with freeing := i }
      let fn : FnId := ⟨x.port, Fin.ofNat 33 (m.val + 1)⟩
      let still := s.sliceStill m x = true
      let empty := (s.fn fn).hostOut = [] ∧ (s.fn fn).hostQ = []
      let waits := ∃ v ∈ s.invals, v.slice = m
      (x.freeing ≤ 1 →
        (¬ still → s.freeStep m x = (at_ ((x.ctxIds m).foldl (fun s k => s.askKill k) s) 1, false)) ∧
        (still → s.freeStep m x = (s.modSlice m fun y => { y with freeing := 2, accept := false }, false))) ∧
      (x.freeing = 2 → (empty ∧ still → s.freeStep m x = (at_ (s.withdraw m x) 3, false)) ∧
        (¬ (empty ∧ still) → s.freeStep m x = (s, false))) ∧
      (x.freeing = 3 → (waits → s.freeStep m x = (s, false)) ∧ (¬ waits → s.freeStep m x = (at_ s 4, false))) ∧
      (x.freeing = 4 → s.freeStep m x = (at_ { s with keys := (s.sliceKeys m x).foldl mapDel s.keys } 5, false)) ∧
      (x.freeing = 5 → s.freeStep m x = (at_ ((s.sliceKeys m x).foldl State.dropLines s) 6, false)) ∧
      (x.freeing = 6 → s.freeStep m x = (at_ ((s.sliceKeys m x).foldl (fun s key => s.freeFrames m key) s) 7, false)) ∧
      (7 ≤ x.freeing → s.freeStep m x = (s.dissolve m x, true))) ∧
    (busy 0x22 → (b.arg 0).toNat < 32 → ∀ x, s.slice? n = some x →
      let target := (b.arg 1).toNat
      let run := exec (.migrate f) s
      let moves (m : Moving) : Prop := mapGet s.migrating n.val = some m
      (256 ≤ target → run = ends s 2 0) ∧
      (target < 256 →
        (mapGet s.migrating n.val = none → run = .next (s.setMoving n ⟨.package target, 0, none, 0⟩)) ∧
        (∀ m g, moves m → m.dest = .here g → run = .next s) ∧
        ∀ m p, moves m → m.dest = .package p →
          (m.step < 16 →
            ((∃ v ∈ s.invals, v.slice = n) → run = .next s) ∧
            ((∀ v ∈ s.invals, v.slice ≠ n) →
              (m.pages = none → ∃ t, run = .next t ∧ (∃ v ∈ t.invals, v.slice = n) ∧
                mapGet t.migrating n.val = some { m with pages := some (((s.devLeaves x).filter fun l => decide (m.step = 0) || bitOf l.2 6).map
                  fun l => entryOa l.2) }) ∧
              ∀ fs, m.pages = some fs → ∃ t, run = .next t ∧ mapGet t.migrating n.val = some { m with
                pages := none, step := if 65536 * fs.length ≤ s.dirtyMax then 16 else m.step + 1 })) ∧
          (m.step = 16 →
            let saved := m.s ≠ 0 ∧ m.s ≤ s.girth ∧ s.sliceStill n x = true
            (saved → run = .next (((s.transfer n x p).switchOver n p).setMoving n { m with step := 17 })) ∧
            (¬ saved →
              let count := if s.girth < m.s then m.s else s.girth + 256
              let stopped := (x.ctxIds n).foldl (fun s k =>
                if decide (m.s = 0) || (s.ctx? k).all fun y => y.stops.isEmpty then s.checkpoint k count 2 else s) s
              run = .next (if m.s = 0 then stopped.setMoving n { m with s := count } else stopped))) ∧
          (m.step = 17 → ∀ t last, s.freeStep n x = (t, last) →
            (last = true → run = ends t 0 0) ∧ (last = false → run = .next t)))) ∧
    ∀ (m : Incoming),
      let g := m.grant
      let shape := m.src.length = g.cores.length ∧ ∀ p ∈ m.src.zip g.cores, p.1.mclass ≤ (s.core p.2).mclass ∧
        ∀ q ∈ m.src.zip g.cores, (p.1.die = q.1.die ↔ dieOfCore p.2 = dieOfCore q.2)
      let fits := s.slice? m.slice = none ∧ s.keyFree g.keyId = true ∧ s.grantSharesOk m.slice m.args g = true ∧ wholeRows g.frames = true ∧
        g.cores.Nodup ∧ shape ∧ ∀ c ∈ g.cores, (s.core c).bind = none ∧ (s.core c).escal ≠ .quar ∧ s.dieIn (dieOfCore c) = true
      (¬ fits → exec (.incomingMigration m) s = .next s) ∧
      (fits → s.makeSlice m.slice m.port m.args g = none → exec (.incomingMigration m) s = .next s) ∧
      ∀ t, fits → s.makeSlice m.slice m.port m.args g = some t →
        let t := (g.cores.zip m.src).foldl (fun t p => t.modCore p.1 (·.takeLogical p.2)) t
        exec (.incomingMigration m) s = .next (m.ctxs.foldl (fun s c => s.arriveCtx m.slice m c) (t.arriveBytes m))

/-- R195, R219, R253, R259, R284 to R286, R288, R290 to R293: an access to a function that is not there is refused with Unsupported
Request, and so is a write or FetchAdd to an address that fails, while such a read ends with Completer Abort. Register writes, window writes
and FetchAdds take their turn at the mailbox, and take effect there with the window registers of then: a register write stores the bytes of
CMD, WINDOW and the boot boxes it covers, clears OVR with a 1 and ignores every other offset; a doorbell takes the command, sets OVR while
one is in progress and ends an unknown code with STATUS 1; a window write enters its bytes at the die of the port. An access whose walk or
whose D bit waits comes again. A window read behind the mailbox's writes gives the bytes. A register read gives what R284 lists, 0 for a
write-only register. A write with GO tests the logical core, its context and its sequencers: BSTAT 5 or 4, or the boot starts with the mailbox as
it stands; BOOT_GO goes on with it, to BSTAT 1 for a bad header, 2 for a bad ring record, 3 for an address that fails, 0 once the record is
placed. POWER_ON brings a package up that is off, when its image has a new signature that verifies and a version not below the fused one, else
leaves it in recovery; a step of bring-up that fails is reported and leaves PCI Express down; an update replaces the image, and ends recovery;
side-band requests are answered. The window of the physical function, an access that comes again, BSTAT 3, logical cores, a core that another
context holds, a GO while a boot is on its way, the order of bring-up, and what the spec does not compute of signatures and digests are the
model's: log entries 33, 41 to 43, 68, 69, 102 and 103. -/
def Obligations.HostAccessesAndBringUp : Prop :=
  ∀ (s : State),
    (∀ (f : FnId),
      let reply (t : State) (r : Reply) : State := t.modFn f fun x => { x with reply := r }
      let s0 := reply s .none
      let queue (t : State) (q : List HostOp) : State := t.modFn f fun x => { x with hostQ := q }
      let waits (t : State) (ids : List Nat) : State := t.modFn f fun x => { x with hostOut := ids }
      let applied (t : State) : State := queue (t.modFn f fun x => { x with tag := t.girth }) []
      let idle := (s.fn f).hostOut = [] ∧ (s.fn f).hostQ = []
      let asks (i : Instr) (o : HostOp) : Prop :=
        (∃ off n v, i = .functionRegisterWrite f off n v ∧ o = .reg off.toNat n.val v) ∨
        (∃ off bs, i = .hostWindowWrite f off bs ∧ o = .win off.toNat bs) ∨
        (∃ off v, i = .pcieAtomicFetchadd f off v ∧ off.toNat % 8 = 0 ∧ o = .add off.toNat v)
      (s.fnVisible f = false → ∀ i off m, ((∃ o, asks i o) ∨ i = .hostWindowRead f off m ∨ ∃ v, i = .pcieAtomicFetchadd f off v) →
        exec i s = .next (reply s .unsupported)) ∧
      (s.fnVisible f = true →
        (∀ i o, asks i o → (s.fn f).hostOut ≠ [] → exec i s = .next (queue s0 ((s0.fn f).hostQ ++ [o]))) ∧
        (idle →
          (∀ off n v, exec (.functionRegisterWrite f off n v) s = .next (applied (s0.hostReg f off.toNat n.val v))) ∧
          (∀ off bs res t, s0.winRun f .w off.toNat bs = (res, t) →
            let run := exec (.hostWindowWrite f off bs) s
            (res = .fail → run = .next (applied (reply t .unsupported))) ∧
            (res = .wait → run = .next (queue (waits t (t.transit.map (·.id))) [.win off.toNat bs])) ∧
            ∀ ps ds, res = .ok (ps, ds) →
              (t.stillOut ds ≠ [] → run = .next (queue (waits t (t.stillOut ds)) [.win off.toNat bs])) ∧
              (t.stillOut ds = [] → ∀ ids z, t.hostPieces f ps = (ids, z) → run = .next (applied (waits z (z.stillOut ids))))) ∧
          ∀ off v res t, off.toNat % 8 = 0 → s0.winRun f .rw off.toNat (toBytes 8 v.toNat) = (res, t) →
            let run := exec (.pcieAtomicFetchadd f off v) s
            (res = .fail → run = .next (applied (reply t .unsupported))) ∧
            (res = .wait → run = .next (queue (waits t (t.transit.map (·.id))) [.add off.toNat v])) ∧
            ∀ ps ds, res = .ok (ps, ds) →
              (t.stillOut ds ≠ [] → run = .next (queue (waits t (t.stillOut ds)) [.add off.toNat v])) ∧
              (t.stillOut ds = [] →
                (∀ pa key bs id z, ps = [.dev pa key bs] → t.putEng (fnCtx f) (engCore (portDie f.port)) (portDie f.port) pa key
                    (.atom 8 (.fetchAdd v)) [] .reply = (id, z) →
                  run = .next (applied (z.modFn f fun x => { x with hostOut := [id], hostAdd := some id }))) ∧
                ((∀ pa key bs, ps ≠ [.dev pa key bs]) → run = .next (applied (reply t .unsupported))))) ∧
        (∀ off v, off.toNat % 8 ≠ 0 → exec (.pcieAtomicFetchadd f off v) s = .next (reply s .unsupported)) ∧
        (∀ off m, ¬ idle → exec (.hostWindowRead f off m) s = .next s0) ∧
        (∀ off m res t, idle → s.winRun f .r off.toNat (List.replicate m 0) = (res, t) →
          (res = .wait → exec (.hostWindowRead f off m) s = .next (reply t .none)) ∧
          (res = .fail → exec (.hostWindowRead f off m) s = .next (reply t .abort)) ∧
          ∀ ps ds, res = .ok (ps, ds) →
            (∀ bs, t.winRead f ps = .ok bs → exec (.hostWindowRead f off m) s = .next (reply t (.data bs))) ∧
            (t.winRead f ps = .wait → exec (.hostWindowRead f off m) s = .next (reply t .none)) ∧
            (t.winRead f ps = .fail → exec (.hostWindowRead f off m) s = .next (reply t .abort)))) ∧
      (∀ va n bs, f.fn = 0 →
        let e := s.allocAt (portDie f.port) (frameOf va)
        s.winAddr f va n bs = if va < 2 ^ 39 ∧ allocState e = 1 ∧ allocOwner e = 32 then (.ok (.dev va (allocKey e) bs, []), s) else (.fail, s)) ∧
      (∀ va n bs m x res t, s.fnSlice f = some (m, x) →
        s.engTrans (portDie f.port) ⟨m, (s.fn f).winCtx⟩ va n (fun k => decide (k ≠ .fab)) = (res, t) →
        (res = .wait → s.winAddr f va n bs = (.wait, t)) ∧ (res = .fail → s.winAddr f va n bs = (.fail, t)) ∧
        ∀ p ds, res = .ok (p, ds) → s.winAddr f va n bs = (.ok (if p.kind = .dev then .dev (p.page * 65536 + va % 65536) p.keyId bs
          else .host (p.page * 65536 + va % 65536) bs, ds), t)) ∧
      ∀ (l : Fin 64),
        let b := (s.fn f).boot l.val
        (∀ v : Word, v.getLsbD 0 = true →
          s.hostReg f (0x410 + 32 * l.val) 8 v = (s.modFn f (·.regWrite (decide (f.fn = 0)) (0x410 + 32 * l.val) 8 v)).bootAsk f l.val) ∧
        (let m : Fin 8 := Fin.ofNat 8 (bitsOf b.ctl.toNat 10 8)
         (s.fnSlice f = none → s.bootAsk f l.val = s.bootEnd f l.val 5) ∧
         ∀ n x, s.fnSlice f = some (n, x) →
           (x.cores[l.val]? = none ∨ s.ctx? ⟨n, m⟩ = none → s.bootAsk f l.val = s.bootEnd f l.val 5) ∧
           ∀ c y, x.cores[l.val]? = some c → s.ctx? ⟨n, m⟩ = some y →
             let free := (¬ ∃ v ∈ y.saved, ∃ w ∈ v.cores, w.lcore = l.val) ∧
               ((s.core c).bind ≠ some (n, l.val) ∨ ∀ q, ((s.core c).seq q).st = .idle)
             (free → s.bootAsk f l.val = s.modFn f fun x => x.setBoot l.val { b with start := some ⟨m, b.image, b.argbase⟩ }) ∧
             (¬ free → s.bootAsk f l.val = s.bootEnd f l.val 4)) ∧
        let runs := exec (.bootGo f l) s
        let ends (code : Nat) : Out := .next (s.bootEnd f l.val code)
        (b.start = none → runs = .next s) ∧
        ∀ g : BootStart, b.start = some g →
          (s.fnSlice f = none → runs = ends 5) ∧
          ∀ n x, s.fnSlice f = some (n, x) →
            let k : CtxId := ⟨n, g.ctx⟩
            (x.cores[l.val]? = none ∨ s.ctx? k = none → runs = ends 5) ∧
            ∀ c y, x.cores[l.val]? = some c → s.ctx? k = some y →
              let here := (s.core c).bind = some (n, l.val) ∧ s.bootIdle n l.val c y = true
              (¬ here → runs = .next s) ∧
              (here →
                (∀ m, (s.core c).ctx = some m → m ≠ g.ctx → runs = .next (s.clearCore n m l.val)) ∧
                ((s.core c).ctx = none ∨ (s.core c).ctx = some g.ctx →
                  let d := dieOfCore c
                  let head := s.loaderRead d k 2 g.image.toNat 64
                  (head = .wait → runs = .next s) ∧ (head = .fail → runs = ends 3) ∧
                  ∀ h, head = .ok h →
                    let recs := s.ringRecs d k (half h 0x24) ((g.image + BitVec.ofNat 64 (half h 0x20)).toNat)
                    (wordAt h 0 % 2 ^ 32 ≠ 0x54464C46 ∨ half h 4 ≠ 1 → runs = ends 1) ∧
                    (wordAt h 0 % 2 ^ 32 = 0x54464C46 → half h 4 = 1 →
                      (recs = .wait → runs = .next s) ∧ (∀ e, recs = .ok (.error e) → runs = ends e) ∧
                      ∀ rs, recs = .ok (.ok rs) →
                        let t := s.modCtx k fun y => { y with rings := mapPut y.rings l.val rs }
                        let t := if (t.core c).ctx = some g.ctx then t else t.place k c
                        let t := t.modCore c fun y => y.putRings rs
                        runs = .next ((t.modSeq c 0 (·.load (bootRec g.image g.argbase (wordAt h 0x10) (wordAt h 0x18))
                          (t.ctxGirth k).toNat)).bootEnd f l.val 0))))) ∧
    (∀ (x : FnBlk), (∀ i : Fin 64, x.regRead i.val 1 = [x.cmd[i.val]]) ∧
      ofBytes (x.regRead 0x40 8) = x.status.toNat + (if x.busy then 256 else 0) + (if x.ovr then 512 else 0) ∧
      ofBytes (x.regRead 0x48 8) = x.result.toNat ∧ ofBytes (x.regRead 0x50 8) = 0 ∧
      ofBytes (x.regRead 0x58 8) = x.winCtx.val + 65536 * x.winBase.toNat) ∧
    (∀ (x : FnBlk) (pf : Bool) (off : Nat) (n : Fin 9) (v : Word),
      let y := x.regWrite pf off n.val v
      let byte (a : Nat) : Byte := BitVec.ofNat 8 (v.toNat / 2 ^ (8 * (a - off)))
      let covers (a : Nat) : Prop := off ≤ a ∧ a < off + n.val
      (∀ i : Fin 64, (covers i.val → y.cmd[i.val] = byte i.val) ∧ (¬ covers i.val → y.cmd[i.val] = x.cmd[i.val])) ∧
      (off = 0x58 → n.val = 8 → y.winCtx.val = v.toNat % 8 ∧ y.winBase.toNat = v.toNat / 65536) ∧
      (¬ (covers 0x50 ∧ (byte 0x50).getLsbD 0 = true) → y.busy = x.busy ∧ y.status = x.status ∧ y.result = x.result ∧ y.held = x.held ∧
        y.ovr = (x.ovr && !(decide (covers 0x41) && (byte 0x41).getLsbD 1))) ∧
      (0 < n.val → (∀ a, covers a → a = 0x40 ∨ (0x42 ≤ a ∧ a < 0x50) ∨ (0x51 ≤ a ∧ a < 0x58) ∨ (0x60 ≤ a ∧ a < 0x400) ∨ 0xC00 ≤ a) → y = x) ∧
      (off = 0x50 → 0 < n.val → v.getLsbD 0 = true →
        let code := x.cmd[0].toNat
        let known := if pf then 0x20 ≤ code ∧ code ≤ 0x22 else 1 ≤ code ∧ code ≤ 8
        (x.busy = true → y = { x with ovr := true }) ∧
        (x.busy = false → known → y = { x with held := x.cmd, busy := true, waits := [] }) ∧
        (x.busy = false → ¬ known → y = { x with held := x.cmd, status := 1, result := 0 }))) ∧
    (∀ i v fw, s.thefort.accepts i v fw = true ↔
      fw.sig.length = 2820 ∧ toBytes 32 (Config.xmssRoot (s.thefort.key.drop 32) fw.image fw.sig) = s.thefort.key.take 32 ∧ s.thefort.fused ≤ v ∧
        i ∉ s.thefort.used) ∧
    (∀ i v (fw : FwOffer),
      let kept (t : State) : Prop := t.thefort.version = v ∧ t.thefort.used = s.thefort.used ++ [i] ∧ t.thefort.image = fw.image ∧
        t.thefort.recovery = false
      (s.girthOn = true ∨ s.thefort.recovery = true → exec (.powerOn i v fw) s = .next s) ∧
      (s.girthOn = false → s.thefort.recovery = false →
        (s.thefort.accepts i v fw = true → ∃ t, exec (.powerOn i v fw) s = .next t ∧ kept t ∧
          (fw.fails = none → t.girthOn = true ∧ t.girth = 0 ∧ t.linksUp = true ∧ t.pfVisible = true ∧ t.alloc = [] ∧
            t.ownEpoch = s.ownEpoch + 1 ∧ (∀ d, (t.die d).railMv = 650 ∧ (t.die d).bridle = true) ∧ t.thefort.failed = none) ∧
          ∀ j, fw.fails = some j → t.linksUp = false ∧ t.thefort.failed = some (j.val + 2) ∧ (j.val < 3 → t.girthOn = false) ∧
            t.pfVisible = s.pfVisible) ∧
        (s.thefort.accepts i v fw = false →
          exec (.powerOn i v fw) s = .next { s with thefort := { s.thefort with recovery := true, failed := some 1 } })) ∧
      ((s.girthOn = false ∧ s.thefort.recovery = false ∧ s.thefort.failed = none) ∨ s.thefort.accepts i v fw = false →
        exec (.pldmFirmwareUpdate i v fw) s = .next s) ∧
      (s.thefort.accepts i v fw = true →
        (s.thefort.recovery = true → ∃ t, exec (.pldmFirmwareUpdate i v fw) s = .next t ∧ kept t ∧
          (fw.fails = none → t.girthOn = true ∧ t.girth = 0 ∧ t.linksUp = true ∧ t.pfVisible = true)) ∧
        (s.thefort.recovery = false → (s.girthOn = true ∨ s.thefort.failed ≠ none) →
          ∃ t, exec (.pldmFirmwareUpdate i v fw) s = .next t ∧ kept t ∧ t.cores = s.cores ∧ t.dies = s.dies ∧ t.girth = s.girth))) ∧
    (∀ i bs, (i = 1 ∧ bs = shake256 s.thefort.image ∨ i = 2 ∧ bs = s.thefort.fuseConf ∨
        i = 3 ∧ bs = toBytes 64 (Config.bridleDigest s.bridleConf)) →
      ∃ sg, sg.length = 96 ∧
        exec (.spdmRequest i) s = .next { s with freeCtr := s.freeCtr + 1, thefort := { s.thefort with reply := .digest i bs sg } }) ∧
    (∀ i, i = 0 ∨ 3 < i → exec (.spdmRequest i) s = .next { s with thefort := { s.thefort with reply := .unsupported } }) ∧
    ∀ c m vs, (∀ i : Fin 8, m = .monitor i → vs = (s.core c).mons[i.val].items.toList) → (m = .temperature → vs = [(s.die (dieOfCore c)).tnow]) →
      (m = .rail → vs = [(s.die (dieOfCore c)).railMv]) → (m = .warnings → vs = [(s.die (dieOfCore c)).warns]) →
      (m = .stopped → vs = [(s.die (dieOfCore c)).stops]) →
      exec (.pldmSensorRequest c m) s = .next { s with thefort := { s.thefort with reply := .data (vs.flatMap fun v => toBytes 8 v) } }

/-! ## Submission -/

/-- R217 to R222, R226, R228, R231: FRONT_END_RUN serves the packet at RIDX of a queue that has been woken, when no queue of its die comes
before it: a malformed one is counted and skipped, a launch packet starts a run on every die 256 ticks on, a mark is passed, and with
nothing to serve the queue's run ends; so it does where memory fails, with nothing changed. FRONT_END_POLL wakes every queue of a die at
multiples of 65,536 ticks; FEED_PACKET copies its records once there is room; SCRIPT_RUN starts the next run at T; READY_PUSH enters a
record at its priority once there is room; COMPLETION_STEP sends the step at the head of its queue and goes on once it is performed. Each
leaves the state as it is while it has to wait. The feed unit's own addresses and a walk that waits are the model's: log entries 33, 53 and
99. -/
def Obligations.SubmissionEvents : Prop :=
  ∀ (s : State) (k : CtxId),
    (∀ (n : Fin 16), let z := s.hearBells k n
      (z.lq k n = none ∨ (∃ q, z.lq k n = some q ∧ q.run = false) ∨ z.frontTurn k n = false →
        exec (.frontEndRun k n) s = .next z) ∧
      (s.lq k n = none ∨ (∃ q, s.lq k n = some q ∧ q.run = false) ∨ s.frontTurn k n = false →
        exec (.feedPacket k n) s = .next s)) ∧
    (∀ (n : Fin 16) (q : LaunchQ), s.lq k n = some q →
      let z := s.hearBells k n
      (q.rung = [] → z.lq k n = some q) ∧
      ∀ pa m, q.rung = [(pa, m)] →
        let bell := s.devAddr (homeOf pa) k (q.desc.toNat + 0x20) .r
        (∀ p, bell = .ok p → z.lq k n = some { q with rung := [], run := q.run || (pa < p.1 + 8 && p.1 < pa + m) }) ∧
        (bell = .wait → z.lq k n = some q) ∧ (bell = .fail → z.lq k n = some { q with rung := [] })) ∧
    (∀ (n : Fin 16) (q : LaunchQ), let z := s.hearBells k n
      z.lq k n = some q → q.run = true → z.frontTurn k n = true →
      let runs := exec (.frontEndRun k n) s
      let comes (a : Ans State) : Prop :=
        (∀ t, a = .ok t → runs = .next t) ∧ (a = .wait → runs = .next z) ∧ (a = .fail → runs = .next (z.stopFront k n))
      (z.frontLook k q = .wait → runs = .next z) ∧
      (z.frontLook k q = .none ∨ z.frontLook k q = .fail → runs = .next (z.stopFront k n)) ∧
      ∀ p, z.frontLook k q = .packet p →
        (p.cause ≠ 0 → comes (z.skipBad k n q p)) ∧
        (p.cause = 0 → p.typ = 1 → comes (z.launch k n q p) ∧ ∀ t, z.launch k n q p = .ok t →
          ∀ d, ∃ r ∈ t.runsOf d k, r.t = z.girth + 256 ∧ r.queue = n ∧ r.started = false ∧ r.script = q.script) ∧
        (p.cause = 0 → p.typ = 3 → comes (z.raiseRidx k n q p)) ∧
        (p.cause = 0 → p.typ = 2 → runs = .next z)) ∧
    (∀ (n : Fin 16) (q : LaunchQ), s.lq k n = some q → q.run = true → s.frontTurn k n = true →
      let feeds := exec (.feedPacket k n) s
      let comes (o : Out) (a : Ans State) : Prop :=
        (∀ t, a = .ok t → o = .next t) ∧ (a = .wait → o = .next s) ∧ (a = .fail → o = .next (s.stopFront k n))
      ((∀ p, s.frontLook k q ≠ .packet p) → feeds = .next s) ∧
      ∀ p, s.frontLook k q = .packet p →
        (p.typ ≠ 2 ∨ p.cause ≠ 0 → feeds = .next s) ∧
        (p.cause = 0 → p.typ = 2 →
          (s.feed k (Fin.ofNat 64 (p.word 0).toNat) = none → feeds = .next s) ∧
          ∀ f, s.feed k (Fin.ofNat 64 (p.word 0).toNat) = some f →
            (f.room < p.len → feeds = .next s) ∧ (p.len ≤ f.room → comes feeds (s.feedIn k n q p f)))) ∧
    (∀ (n : Fin 16) (q : LaunchQ) (p : Packet),
      let at_ := s.engPut p.die k (q.desc.toNat + 0x18) (toBytes 8 ((q.ridx + 1 + p.len) % 2 ^ 64))
      (∀ id t, at_ = (.ok id, t) → s.raiseRidx k n q p =
        .ok (t.modLq k n fun x => { x with ridx := (q.ridx + 1 + p.len) % 2 ^ 64 })) ∧
      (∀ t, at_ = (.wait, t) → s.raiseRidx k n q p = .wait) ∧ (∀ t, at_ = (.fail, t) → s.raiseRidx k n q p = .fail)) ∧
    (∀ (d : DieId),
      (s.girthOn = true → s.girth % 65536 = 0 →
        exec (.frontEndPoll d) s = .next (s.allCtxs.foldl (fun s k => s.wakeFronts d k) s)) ∧
      (s.girthOn = false ∨ s.girth % 65536 ≠ 0 → exec (.frontEndPoll d) s = .next s) ∧
      (s.runsOf d k = [] → exec (.scriptRun d k) s = .next s) ∧
      (∀ r t, s.runsOf d k = r :: t →
        (r.started = false → r.t ≤ s.girth → s.allDone r.outs = true →
          exec (.scriptRun d k) s = .next (s.setRuns d k ({ r with started := true, outs := [] } :: t))) ∧
        (r.started = true ∨ s.girth < r.t ∨ s.allDone r.outs = false → exec (.scriptRun d k) s = .next s)) ∧
      (s.jobs d k = [] → exec (.readyPush d k) s = .next s ∧ exec (.completionStep d k) s = .next s) ∧
      ∀ w t, s.jobs d k = w :: t →
        (∀ r, w.job = .push r →
          let l := (s.die d).readyList k r.prio
          exec (.completionStep d k) s = .next s ∧
          (32768 ≤ l.length → exec (.readyPush d k) s = .next s) ∧
          (l.length < 32768 → exec (.readyPush d k) s = .next ((s.setDie d ((s.die d).setReady k r.prio (l ++ [r]))).setJobs d k t))) ∧
        ∀ va n op, w.job.atom = some (va, n, op) →
          exec (.readyPush d k) s = .next s ∧
          (w.sent = none → ∀ res u, s.engAtom d k va n op .reply = (res, u) →
            (∀ id, res = .ok id → exec (.completionStep d k) s = .next (u.setJobs d k ({ w with sent := some id } :: t))) ∧
            (res = .wait ∨ res = .fail → exec (.completionStep d k) s = .next u)) ∧
          ∀ id, w.sent = some id →
            (mapGet s.replies id = none ∨ s.inFlight id = true → exec (.completionStep d k) s = .next s) ∧
            ∀ old, mapGet s.replies id = some old → s.inFlight id = false →
              (s.stepDone d k w.job old = none → exec (.completionStep d k) s = .next s) ∧
              ∀ js, s.stepDone d k w.job old = some js →
                exec (.completionStep d k) s = .next ((({ s with replies := mapDel s.replies id } : State).setJobs d k
                  (js.map (fun j => ⟨j, none, none⟩) ++ t)).landFor w.who (w.job.answer old)))

/-- R228: what a credit does to the first word of a counter: PEND goes down by one, to a completed counter at 0, and a counter that has no
pending child keeps its count and is marked. -/
def Obligations.CompletionCredit : Prop :=
  ∀ (bs : List Byte) (st : CStat) (resid : Bool) (g : Word), bs.length = 64 →
    let w := wordAt bs 0
    let v := wordAt (creditBytes bs st resid g) 0
    (creditBytes bs st resid g).length = 64 ∧ (w % 2 ^ 32 = 0 → v = w ||| 2 ^ 34) ∧ (w % 2 ^ 32 = 1 → v = (w - 1) ||| 2 ^ 32) ∧
    (2 ≤ w % 2 ^ 32 → v = w - 1)

/-! ## Groups and sections -/

/-- R61 to R63, R67, R69 to R73, R208, R228, R230, R289: an idle sequencer of a running context pops the head of the highest ready list; it
credits a cancelled or an expired record and leaves it, else it enters LOAD. A group starts when both first headers are there and valid. A
stream at a header enters its section once DEP and SLIP allow, waits under rows 7, 2 and 3 of R82, behind its own write of SLIP too, and
traps with kind 2 on a header that breaks R67, whose bytes the trap shows. A section that is not in instruction memory is fetched, and a
stream that stands at what cannot be fetched faults, or traps with kind 10 and cause 1. A group retires when all its work has drained. What
a trap at a header that is not aligned shows where it cannot be fetched is the model's: log entry 36; when a failed fetch strikes is read by
inference: log entry 35. -/
def Obligations.GroupAndSectionEvents : Prop :=
  ∀ (s : State) (c : CoreId) (q : SeqId),
    (∀ k p r t, (s.core c).ctxId = some k → (s.seq c q).st = .idle → s.mayPop c = true → (s.die (dieOfCore c)).topList k = some p →
      (s.die (dieOfCore c)).readyList k p = r :: t →
      let u := s.modDie (dieOfCore c) (·.setReady k p t)
      let late := r.deadline ≠ 0 ∧ r.deadline.toNat ≤ (u.ctxGirth k).toNat
      let chain := s.popChain (dieOfCore c) k 4 r.launch
      (chain = none → exec (.groupPop c q) s = .next s) ∧
      (chain = some true → exec (.groupPop c q) s = .next (u.creditRec (dieOfCore c) k r .canc false)) ∧
      (chain = some false → late → exec (.groupPop c q) s = .next (u.creditRec (dieOfCore c) k r .late false)) ∧
      (chain = some false → ¬ late → exec (.groupPop c q) s = .next (u.modSeq c q (·.load r (u.ctxGirth k).toNat)))) ∧
    ((s.seq c q).st ≠ .idle ∨ s.mayPop c = false ∨ (∀ k, (s.core c).ctxId = some k → (s.die (dieOfCore c)).topList k = none) →
      exec (.groupPop c q) s = .next s) ∧
    (let y (st : Strm) : Stream := (s.seq c q).strm st
     let odd (st : Strm) : Prop := (y st).st = .run ∧ (y st).hdr.toNat % 4 ≠ 0
     let illegal (st : Strm) (e : ISec) : Prop :=
       (y st).st = .run ∧ (y st).hdr.toNat % 4 = 0 ∧ s.curSec c (y st) = some e ∧ headCause e.head st ≠ 0
     let ok (st : Strm) : Prop := ¬ odd st ∧ ∀ e, ¬ illegal st e
     let ready (st : Strm) : Prop := (y st).st = .ended ∨ ((y st).st = .run ∧ s.curSec c (y st) ≠ none)
     ((s.seq c q).st ≠ .load ∨ s.mayIssue c = false → exec (.groupStart c q) s = .next s) ∧
     ((s.seq c q).st = .load → s.mayIssue c = true →
       (∀ st, (st = .a ∨ ok .a) →
         (odd st → exec (.groupStart c q) s = .next (s.oddTrap c q st)) ∧
         ∀ e, illegal st e → exec (.groupStart c q) s = .next (s.trapStream c q st ⟨2, headCause e.head st, e.head, 0⟩ 0)) ∧
       (ok .a → ok .c → ready .a → ready .c → exec (.groupStart c q) s = .next (s.modSeq c q fun x => { x with st := .run })) ∧
       (ok .a → ok .c → ¬ (ready .a ∧ ready .c) → exec (.groupStart c q) s = .next s))) ∧
    (∀ st k, (s.core c).ctxId = some k →
      let at_ : State := { s with cur := ⟨c, q, st, dieOfCore c, s.cur.ctx⟩ }
      let r := at_.fetch c k (s.strm c q st).hdr.toNat 8
      (∀ bs, r.1 = .ok bs → s.oddTrap c q st = r.2.trapStream c q st ⟨2, 5, BitVec.ofNat 64 (ofBytes bs), 0⟩ 0) ∧
      (r.1 = .wait → s.oddTrap c q st = r.2) ∧
      (∀ f, r.1 = .fault f → s.oddTrap c q st = r.2.trapStream c q st ⟨2, 5, 0, 0⟩ 0) ∧
      ∀ a, r.1 = .bad a → s.oddTrap c q st = r.2.trapStream c q st ⟨2, 5, 0, 0⟩ 0) ∧
    (∀ k, (s.core c).ctxId = some k →
      ((s.seq c q).st = .run → s.mayIssue c = true → s.groupDone c q = true → exec (.groupRetire c q) s =
        .next ((s.creditRec (dieOfCore c) k (s.seq c q).rcd .ok (s.seq c q).residue).modCore c fun y =>
          (y.dropCinch q).setSeq q (s.seq c q).idle)) ∧
      ((s.seq c q).st ≠ .run ∨ s.mayIssue c = false ∨ s.groupDone c q = false → exec (.groupRetire c q) s = .next s)) ∧
    (∀ st,
      let y := s.strm c q st
      let enters := exec (.sectionEnter c q st) s
      ((s.seq c q).st ≠ .run ∨ y.st ≠ .run ∨ y.word ≠ none ∨ s.mayIssue c = false → enters = .next s) ∧
      ((s.seq c q).st = .run → y.st = .run → y.word = none → s.mayIssue c = true →
      (y.hdr.toNat % 4 ≠ 0 → enters = .next (s.oddTrap c q st)) ∧
      (y.hdr.toNat % 4 = 0 →
        (s.curSec c y = none → enters = .next (s.stallStream c q st 0 7)) ∧
        ∀ e, s.curSec c y = some e →
          let h := e.head.toNat
          let sib := (s.seq c q).strm st.sibling
          let n := headCause e.head st
          let dep := h / 2 ^ 20 % 4096
          let depOk := dep = 0xFFF ∨ sib.st = .ended ∨ (sib.rv = true ∧ (sib.rsec.toNat + 4096 - dep) % 4096 < 2048)
          let slipOk := st = .c ∨ (s.seq c q).c.st = .ended ∨ ((s.seq c q).a.ne - (s.seq c q).c.nr).toInt < (s.seq c q).slip.toNat
          let slipHeld := st = .a ∧ ∃ h ∈ (s.seq c q).held, h.strm = .a ∧ ∃ v, .mts 1 v ∈ h.effs
          (n ≠ 0 → enters = .next (s.trapStream c q st ⟨2, n, e.head, 0⟩ 0)) ∧
          (n = 0 → slipHeld → enters = .next (s.stallStream c q st 0 0)) ∧
          (n = 0 → ¬ slipHeld → ¬ slipOk → enters = .next (s.stallStream c q st 0 3)) ∧
          (n = 0 → ¬ slipHeld → slipOk → ¬ depOk → enters = .next (s.stallStream c q st 0 2)) ∧
          (n = 0 → depOk → ¬ slipHeld → slipOk → ∃ t, enters = .next t ∧ s.sameBytes t ∧
            t.strm c q st = { y with
              len := h / 2 ^ 44 % 4096
              sec := BitVec.ofNat 12 (h / 2 ^ 32)
              last := decide (h / 2 ^ 17 % 2 = 1)
              word := some 0
              stall := none
              ne := y.ne + 1
              insts := y.insts ++ [⟨y.ne + 1, BitVec.ofNat 12 (h / 2 ^ 32), false⟩] })))) ∧
    (∀ st k,
      let y := s.strm c q st
      let at_ : State := { s with cur := ⟨c, q, st, dieOfCore c, s.cur.ctx⟩ }
      let fetches := exec (.sectionFetch c q st) s
      let may := ((s.seq c q).st = .load ∨ (s.seq c q).st = .run) ∧ y.st = .run ∧ s.mayFetch c = true ∧ y.hdr.toNat % 4 = 0
      (s.core c).ctxId = some k →
      (¬ may → fetches = .next (at_.wake k)) ∧
      (may → s.curSec c y = none → ∀ r t, at_.fetch c k y.hdr.toNat 8 = (r, t) →
        (∀ bs ws u, r = .ok bs →
          t.fetchWords c k y.hdr.toNat [] (List.replicate (ofBytes bs % 2 ^ 64 / 2 ^ 44 % 4096) none) 0 = (ws, u) →
          fetches = .next (((u.modCore c (·.putSec ⟨k, y.hdr, BitVec.ofNat 64 (ofBytes bs), ws.1, ws.2⟩)).modStrm c q st
            (·.refetch (BitVec.ofNat 64 (ofBytes bs)))).wake k)) ∧
        ((∀ bs, r ≠ .ok bs) → fetches = .next ((t.fetchStrike c q st r).wake k))) ∧
      ∀ e, may → s.curSec c y = some e →
        let z := at_.modStrm c q st (·.refetch e.head)
        ((∀ w ∈ e.words, w ≠ none) → fetches = .next (z.wake k)) ∧
        (none ∈ e.words → ∀ ws u, z.fetchWords c k y.hdr.toNat e.fails e.words 0 = (ws, u) →
          let v := u.modCore c (·.putWords k y.hdr ws)
          (y.word = none ∨ (∃ w, y.word = some w ∧ mapGet ws.2 w = none) → fetches = .next (v.wake k)) ∧
          ∀ w f, y.word = some w → mapGet ws.2 w = some f →
            fetches = .next ((v.heldStrike c q st k y.hdr w f).wake k))) ∧
    (∀ (k : CtxId) (hdr i : Nat) (fails : List (Nat × FetchFail)),
      ((mapGet fails i).isSome = true → s.fetchWords c k hdr fails [none] i = (([none], fails), s)) ∧
      (mapGet fails i = none → ∀ r t, s.fetch c k (hdr + 8 + 12 * i) 12 = (r, t) →
        (∀ bs, r = .ok bs → s.fetchWords c k hdr fails [none] i = (([some (BitVec.ofNat 96 (ofBytes bs))], fails), t)) ∧
        (r = .wait → s.fetchWords c k hdr fails [none] i = (([none], fails), t)) ∧
        (∀ f, r = .fault f → s.fetchWords c k hdr fails [none] i = (([none], mapPut fails i (.fault f)), t)) ∧
        ∀ a, r = .bad a → s.fetchWords c k hdr fails [none] i = (([none], mapPut fails i (.bad a)), t)) ∧
      ∀ w, s.fetchWords c k hdr fails [some w] i = (([some w], fails), s)) ∧
    (∀ (st : Strm) (k : CtxId) (hdr : Word) (w : Nat) (f : FetchFail),
      let dropped := s.modCore c fun x => { x with imem := x.imem.map fun d =>
        if d.ctx = k ∧ d.hdr = hdr then { d with fails := mapDel d.fails w } else d }
      ((s.seq c q).streamIdle st = false → s.heldStrike c q st k hdr w f = s) ∧
      ((s.seq c q).streamIdle st = true →
        (∀ g, f = .fault g → s.heldStrike c q st k hdr w f = dropped.parkStream c q st g) ∧
        ∀ a, f = .bad a → s.heldStrike c q st k hdr w f = dropped.trapStream c q st ⟨10, 1, 0, BitVec.ofNat 64 a⟩ 0)) ∧
    (∀ (k : CtxId) (x : Ctx), s.ctx? k = some x →
      (x.waking = 0 → s.wake k = s) ∧
      (x.waking ≠ 0 → ∃ y, (s.wake k).ctx? k = some y ∧ (y.waking = 0 ↔ ∀ p ∈ x.toFetch, s.awaitsSec k p = false) ∧
        y.toFetch = x.toFetch.filter (s.awaitsSec k))) ∧
    ∀ (st : Strm) (r : Fetch),
      ((s.seq c q).streamIdle st = false → s.fetchStrike c q st r = s) ∧
      ((s.seq c q).streamIdle st = true → (∀ f, r = .fault f → s.fetchStrike c q st r = s.parkStream c q st f) ∧
        ∀ a, r = .bad a → s.fetchStrike c q st r = s.trapStream c q st ⟨10, 1, 0, BitVec.ofNat 64 a⟩ 0)

/-! ## Held effects -/

/-- R267, R269, R316, R185: the oldest word of a sequencer, once its window has closed and its release allows, makes its effects in order
and leaves; what of them must wait stays, and a word that cannot take effect traps with none of what is left of it. Scratchpad stores change
exactly the bytes they name, in their order, and stores to host memory the bytes of their function; a pop drops the head of its queue, a
push adds to its end unless the reader has ended, what a load brought takes its place there, and ACSET writes its counter whole; what else a
word holds changes no byte of memory when it commits, but for an arrival at a barrier that is switched out, which is written in the Keeper
log. How far a release waits and how a store enters its die are read by inference: log entries 16, 17 and 110. -/
def Obligations.HeldEffectCommit : Prop :=
  (∀ (s : State) (c : CoreId) (q : SeqId) (h : HeldWord) (r : List HeldWord) (k : CtxId),
    (s.seq c q).held = h :: r → (s.core c).ctxId = some k →
    let closed := ∀ w ∈ (s.seq c q).wins, w.no = h.no → w.again = false ∧ w.cyc + w.len < (s.core c).cyc
    let go := s.alive c = true ∧ closed ∧ s.released c q h = true
    let p := ({ s with cur := ⟨c, q, h.strm, dieOfCore c, s.cur.ctx⟩ } : State).applyEffs c q h k h.effs
    (¬ go → exec (.heldEffectCommit c q) s = .next s) ∧
    (∀ i, go → p.1 = .error i → exec (.heldEffectCommit c q) s = .next (p.2.trapHeld c q h i)) ∧
    (go → p.1 = .ok [] → exec (.heldEffectCommit c q) s = .next ((p.2.modSeq c q (·.commit h)).sweep c)) ∧
    (∀ es, go → p.1 = .ok es → es ≠ [] → exec (.heldEffectCommit c q) s =
      .next ((p.2.modSeq c q fun y => { y with held := { h with effs := es } :: y.held.drop 1 }).sweep c)) ∧
    (let puts (e : Eff) (a : Nat) (b : Byte) : Prop :=
      ∃ off bs i, e = .stSpad off bs ∧ bs[i]? = some (some b) ∧ a = (off + i) % 2 ^ 22
    go → tblWf 0 (s.core c).spad = true →
      (∀ e ∈ h.effs, (∃ off bs, e = .stSpad off bs ∧ bs.length ≤ 2 ^ 22) ∨ (∃ n, e = .pop n) ∨ (∃ n v, e = .push n v) ∨ ∃ n v, e = .pushDq n v) →
      ∃ t, exec (.heldEffectCommit c q) s = .next t ∧ (t.seq c q).held = r ∧
        (∀ l e m a b, h.effs = l ++ e :: m → puts e a b → (∀ f ∈ m, ∀ b, ¬ puts f a b) → t.spadAt c a = b) ∧
        (∀ a, (∀ e ∈ h.effs, ∀ b, ¬ puts e a b) → t.spadAt c a = s.spadAt c a) ∧
        (∀ d a, d ≠ c → t.spadAt d a = s.spadAt d a) ∧ (∀ d a, t.byteAt d a = s.byteAt d a) ∧ ∀ f a, t.hostAt f a = s.hostAt f a)) ∧
  (∀ (s : State) (c : CoreId) (q : SeqId) (h : HeldWord) (k : CtxId) (e : Eff) (es : List Eff),
    s.applyEffs c q h k [] = (.ok [], s) ∧
    (∀ t, s.applyEff c q h k e = .done t → s.applyEffs c q h k (e :: es) = t.applyEffs c q h k es) ∧
    (∀ f t, s.applyEff c q h k e = .rest f t → s.applyEffs c q h k (e :: es) = (.ok (f :: es), t)) ∧
    (s.applyEff c q h k e = .wait → s.applyEffs c q h k (e :: es) = (.ok (e :: es), s)) ∧
    ∀ i t, s.applyEff c q h k e = .trap i t → s.applyEffs c q h k (e :: es) = (.error i, t)) ∧
  (∀ (s : State) (c : CoreId) (q : SeqId) (h : HeldWord) (k : CtxId),
    let y := s.seq c q
    let becomes (e : Eff) (z : Seq) : Prop := ∃ t, s.applyEff c q h k e = .done t ∧ t.seq c q = z ∧
      (∀ d p, d ≠ c ∨ p ≠ q → t.seq d p = s.seq d p) ∧ ∀ d, (t.core d).rings = (s.core d).rings ∧ (t.core d).acs = (s.core d).acs
    let lands {α : Type} (id : Nat) (v : α) (l : List (QEnt α)) : List (QEnt α) :=
      l.map fun e => match e with | .rsv i => if i = id then .val v else e | .val _ => e
    (∀ n, becomes (.pop (.bq n)) { y with bq := y.bq.set n.val ((y.bqOf n).drop 1) }) ∧
    becomes (.pop .fq) { y with fq := y.fq.drop 1 } ∧
    (∀ n, becomes (.pop (.dq n)) { y with dq := y.dq.set n.val ((y.dqOf n).drop 1) }) ∧
    (∀ n v, ((y.strm n.reader).st = .ended → becomes (.push n v) y) ∧
      ((y.strm n.reader).st ≠ .ended →
        (∀ m, n = .bq m → becomes (.push n v) { y with bq := y.bq.set m.val (y.bqOf m ++ [.val v]) }) ∧
        (n = .fq → becomes (.push n v) { y with fq := y.fq ++ [.val v] }) ∧
        ∀ m, n = .dq m → becomes (.push n v) { y with dq := y.dq.set m.val (y.dqOf m ++ [.val (v.setWidth 1024)]) })) ∧
    (∀ n v, (y.c.st = .ended → becomes (.pushDq n v) y) ∧
      (y.c.st ≠ .ended → becomes (.pushDq n v) { y with dq := y.dq.set n.val (y.dqOf n ++ [.val v]) })) ∧
    (∀ id n sz bs, (y.a.st ≠ .ended →
        becomes (.land id (.q (.bq n) sz) (some bs)) { y with bq := y.bq.set n.val (lands id (scalarOf sz bs) (y.bqOf n)) }) ∧
      (y.a.st = .ended → becomes (.land id (.q (.bq n) sz) (some bs)) (y.dropRsvs [id]))) ∧
    (∀ id sz bs, (y.c.st ≠ .ended → becomes (.land id (.q .fq sz) (some bs)) { y with fq := lands id (scalarOf sz bs) y.fq }) ∧
      (y.c.st = .ended → becomes (.land id (.q .fq sz) (some bs)) (y.dropRsvs [id]))) ∧
    (∀ id n bs, (y.c.st ≠ .ended → becomes (.land id (.dq n) (some bs))
        { y with dq := y.dq.set n.val (lands id (BitVec.ofNat 1024 (ofBytes bs)) (y.dqOf n)) }) ∧
      (y.c.st = .ended → becomes (.land id (.dq n) (some bs)) (y.dropRsvs [id]))) ∧
    (∀ id t bs, s.applyEff c q h k (.land id (.tile t) (some bs)) = .done (s.setCore c ((s.core c).setTile t (accsOf bs 4096)))) ∧
    (∀ id dst, s.applyEff c q h k (.land id dst none) = .wait) ∧
    ∀ n t v, s.applyEff c q h k (.acset n t v) = .done (s.setCore c { s.core c with acs := (s.core c).acs.set n.val ⟨t, v, []⟩ })) ∧
  (∀ (s : State) (c : CoreId) (q : SeqId) (h : HeldWord) (k : CtxId) (port : Fin 2) (sl : Fin 32) (addr : Nat) (bs : List (Option Byte))
    (ws : List Nat),
    (s.allDone ws = false → s.applyEff c q h k (.stHost port sl addr bs ws) = .wait) ∧
    (s.allDone ws = true → tblWf 0 s.hostMem = true → ∃ t, s.applyEff c q h k (.stHost port sl addr bs ws) = .done t ∧
      (∀ d a, t.byteAt d a = s.byteAt d a) ∧ (∀ d a, t.spadAt d a = s.spadAt d a) ∧
      (∀ i, i < bs.length → ∀ b, bs[i]? = some (some b) → t.hostAt (vfOf port sl) (addr + i) = b) ∧
      ∀ a, (∀ i, i < bs.length → ∀ b, bs[i]? = some (some b) → a ≠ addr + i) →
        t.hostAt (vfOf port sl) a = s.hostAt (vfOf port sl) a)) ∧
  ∀ (s : State) (c : CoreId) (q : SeqId) (h : HeldWord) (k : CtxId) (e : Eff) (t : State),
    (∀ off bs, e ≠ .stSpad off bs) → (∀ port sl a bs ws, e ≠ .stHost port sl a bs ws) →
    (∀ b, e = .barr b ∨ (∃ v, e = .barrCfg b v) → s.switchedOut c b = none) →
    (s.applyEff c q h k e = .done t ∨ (∃ f, s.applyEff c q h k e = .rest f t) ∨ (∃ i, s.applyEff c q h k e = .trap i t)) → s.sameBytes t

/-! ## Margin, rail and heat -/

/-- R267, R268, R271 to R277: a strike of a word whose window is open makes it and the younger words of its stream issue again one after the
other from four cycles on, with a replay counted and no result changed; the sixteenth strike of a word with held effects traps with kind 11,
and of one without is a window overrun; a strike of a beat makes it again four cycles on. COUNT returns to 0 with each window of 2^20
cycles; MCR stores BSTEP up to BTOP and MARGIN up to 4m + 3 and clears QREQ by a 1; each bias change settles 200 ticks later; a droop is a
stretch of six cycles and 64 of halved issue. A core marked for quarantine has its context checkpointed 256 ticks after the mark. That an
activity step triggers with 0 mV and that a replay changes only time are the model's: log entries 39 and 75. -/
def Obligations.MarginEvents : Prop :=
  ∀ (s : State) (c : CoreId),
    let k := s.core c
    let g := s.girth
    let counted := min ((if k.cyc / 2 ^ 20 = k.repWin then k.count else 0) + 1) 0xFFFFF
    let opens (w : Win) : Bool := !w.again && decide (w.cyc ≤ k.cyc) && decide (k.cyc ≤ w.cyc + w.len)
    (∀ q n w, ((s.seq c q).wins.filter opens)[n]? = some w →
      ∃ u : State, s.sameBytes u ∧ (u.core c).count = counted ∧
        u.seq c q = { s.seq c q with wins := reissue w.strm w.no ((s.seq c q).liveWins k.cyc), bubble := k.cyc + 4 } ∧
        (∀ h, (s.seq c q).held.find? (fun h => decide (h.no = w.no)) = some h →
          (w.strikes < 15 → exec (.replay c q n) s = .next u) ∧
          (15 ≤ w.strikes → exec (.replay c q n) s = .next (u.trapHeld c q h ⟨11, h.cls, 0, 0⟩))) ∧
        ((∀ h ∈ (s.seq c q).held, h.no ≠ w.no) →
          (w.strikes ≠ 15 → exec (.replay c q n) s = .next u) ∧
          (w.strikes = 15 → exec (.replay c q n) s = .next (u.setCore c ((u.core c).overrun g))))) ∧
    (∀ (st : Strm) (no : Nat) (v : Win) (t : List Win),
      (v.strm = st → v.no = no → reissue st no (v :: t) = { v with strikes := v.strikes + 1, again := true } :: reissue st no t) ∧
      (v.strm = st → no < v.no → reissue st no (v :: t) = { v with again := true } :: reissue st no t) ∧
      (v.strm ≠ st ∨ v.no < no → reissue st no (v :: t) = v :: reissue st no t)) ∧
    (∀ q l w m, (s.seq c q).wins = l ++ w :: m →
      w.again = true ∨ k.cyc ≤ w.cyc + w.len ∨ (∃ h ∈ (s.seq c q).held, h.no = w.no) →
      ∃ a b, (s.seq c q).liveWins k.cyc = a ++ w :: b ∧ b.filter (fun v => decide (v.strm = w.strm)) = m.filter fun v => decide (v.strm = w.strm)) ∧
    (∀ q n, ((s.seq c q).wins.filter opens)[n]? = none →
      (∀ b, k.lastBeat = some b → b ≤ k.cyc → k.cyc ≤ b + 4 → ∃ t, exec (.replay c q n) s = .next t ∧ s.sameBytes t ∧
        (t.core c).lastBeat = some (k.cyc + 4) ∧ (t.core c).count = counted ∧ (t.core c).seqs = k.seqs) ∧
      ((∀ b, k.lastBeat = some b → k.cyc < b ∨ b + 4 < k.cyc) → exec (.replay c q n) s = .next s)) ∧
    (k.cyc / 2 ^ 20 ≠ k.repWin → ∃ t, exec (.replayWindowEnd c) s = .next t ∧ (t.core c).count = 0 ∧ (t.core c).overran = false ∧
      (t.core c).repWin = k.cyc / 2 ^ 20 ∧ (t.core c).seqs = k.seqs) ∧
    (k.cyc / 2 ^ 20 = k.repWin → exec (.replayWindowEnd c) s = .next s) ∧
    (∀ v, ∃ z, exec (.mcrWrite c v) s = .next (s.setCore c z) ∧
      z.btop = v.toNat / 2 ^ 12 % 16 ∧ z.margin = min (v.toNat / 2 ^ 8 % 16) (4 * k.mclass.val + 3) ∧
      z.bstep = min (v.toNat / 2 ^ 16 % 16) z.btop ∧ z.qreq = (k.qreq && !v.getLsbD 3) ∧ z.count = k.count ∧ z.seqs = k.seqs ∧
      z.spad = k.spad ∧ (z.bstep ≠ k.bstep → z.settle = k.settle ++ [(g + 200, z.bstep)]) ∧ (z.bstep = k.bstep → z.settle = k.settle)) ∧
    exec (.biasSettle c) s = .next (s.setCore c { k with
      bstepEff := (((k.settle.filter fun p => decide (p.1 ≤ g)).map (·.2)).getLast?).getD k.bstepEff
      settle := k.settle.filter fun p => decide (g < p.1) }) ∧
    (∀ mv : BitVec 8,
      let hit := (k.vth ≠ 0 ∧ k.vth ≤ mv.toNat) ∨ (k.stepth ≠ 0 ∧ k.stepth ≤ k.activity)
      (¬ hit ∨ k.trig = some k.cyc → exec (.droopTrigger c mv) s = .next s) ∧
      (hit → k.trig ≠ some k.cyc → ∃ t, exec (.droopTrigger c mv) s = .next t ∧ (t.core c).trig = some k.cyc ∧
        (k.phase = .normal → (t.core c).phase = .stretch k.cyc) ∧
        (∀ n, (k.phase = .stretch n ∨ k.phase = .halved n) →
          (n + 6 < k.cyc → (t.core c).phase = .stretch k.cyc) ∧ (k.cyc ≤ n + 6 → (t.core c).phase = k.phase)))) ∧
    (∀ n, k.phase = .stretch n →
      (n + 7 ≤ k.cyc → exec (.droopStretchEnd c) s = .next (s.setCore c { k with phase := .halved n })) ∧
      (k.cyc < n + 7 → exec (.droopStretchEnd c) s = .next s)) ∧
    ((∀ n, k.phase ≠ .stretch n) → exec (.droopStretchEnd c) s = .next s) ∧
    (∀ n, k.phase = .stretch n ∨ k.phase = .halved n →
      (n + 71 ≤ k.cyc → exec (.halvedIssueEnd c) s = .next (s.setCore c { k with phase := .normal })) ∧
      (k.cyc < n + 71 → exec (.halvedIssueEnd c) s = .next s)) ∧
    (k.phase = .normal → exec (.halvedIssueEnd c) s = .next s) ∧
    (k.qtag = none → exec (.quarantineInput c) s = .next s) ∧
    ∀ t, k.qtag = some t →
      (∀ x, k.ctxId = some x → exec (.quarantineInput c) s = .next (s.checkpoint x (t + 256) 3)) ∧
      (k.ctxId = none →
        (k.bind = none → exec (.quarantineInput c) s = .next (s.setCore c { k with bind := none, escal := .quar, guar := true, qtag := none })) ∧
        ∀ n l z, k.bind = some (n, l) → s.slice? n = some z → ∃ u, exec (.quarantineInput c) s = .next u ∧
          u.core c = { k with bind := none, escal := .quar, guar := true, qtag := none } ∧ (∀ d, d ≠ c → u.core d = s.core d) ∧
          u.slice? n = some { z with kept := (l, ⟨dieOfCore c, k.mclass, k.margin, k.leaseLim, k.paceLim⟩, s.positionCounts c) :: z.kept } ∧
          ∀ ch < 256, (u.chan ch).positions c = [])

/-- R30, R279 to R282: the rail follows its set point: it begins to rise at once, 10 mV each 400 ticks, holds 8,000 ticks before it falls, and
raises every core's bias one step 100 ticks before a downward step, or stops, which is counted, where a core is at BTOP; it rests when it is
less than one step above its set point. A reading each 8,192 ticks sets the die's warning and heat; a die that has been emptied goes
offline, and returns after 8,000,000 cool ticks. The moment at which an emptied die goes offline is the model's: log entries 60 and 61. -/
def Obligations.RailAndHeatEvents : Prop :=
  ∀ (s : State) (d : DieId),
    let x := s.die d
    let sp := s.setPoint d
    let g := s.girth
    let becomes (i : Instr) (y : Die) : Prop := exec i s = .next (s.setDie d y)
    let rails (mv : Nat) (r : RailSt) : Prop := becomes (.railStep d) { x with setp := sp, railMv := mv, rail := r, tops := s.topVoters d }
    let exits := ∃ n ∈ x.tops, n ∉ s.voters d
    let anew := exits ∧ sp < x.setp
    (x.offline = true → exec (.railStep d) s = .next s) ∧
    (x.offline = false →
      (x.railMv < sp → (∀ t, x.rail ≠ .rise t) → rails x.railMv (.rise (g + 400))) ∧
      (∀ t, x.rail = .rise t →
        (x.railMv < sp → g < t → rails x.railMv x.rail) ∧
        (x.railMv < sp → t ≤ g → sp ≤ x.railMv + 10 → rails (x.railMv + 10) .steady) ∧
        (t ≤ g → x.railMv + 10 < sp → rails (x.railMv + 10) (.rise (t + 400))) ∧
        (sp ≤ x.railMv → sp < x.setp → rails x.railMv (.hold (g + 8000) false)) ∧
        (sp ≤ x.railMv → x.setp ≤ sp → rails x.railMv .steady)) ∧
      (x.rail = .steady ∨ x.rail = .stopped → sp ≤ x.railMv →
        (sp < x.setp → rails x.railMv (.hold (g + 8000) false)) ∧ (x.setp ≤ sp → rails x.railMv x.rail)) ∧
      (∀ t b, x.rail = .hold t b ∨ x.rail = .fall t b → sp ≤ x.railMv → anew → rails x.railMv (.hold (g + 8000) false)) ∧
      (∀ t b, x.rail = .hold t b → sp ≤ x.railMv → ¬ anew → rails x.railMv x.rail) ∧
      (∀ t b, x.rail = .fall t b → sp ≤ x.railMv → ¬ anew →
        (x.railMv < sp + 10 → rails x.railMv .steady) ∧
        (sp + 10 ≤ x.railMv → b = false ∨ g < t → rails x.railMv x.rail) ∧
        (sp + 10 ≤ x.railMv → b = true → t ≤ g →
          (x.railMv < sp + 20 → rails (x.railMv - 10) .steady) ∧
          (sp + 20 ≤ x.railMv → rails (x.railMv - 10) (.fall (t + 800) false))))) ∧
    (∀ t b, x.rail = .hold t b → (t ≤ g → becomes (.railHoldEnd d) { x with rail := .fall t b }) ∧
      (g < t → exec (.railHoldEnd d) s = .next s)) ∧
    ((∀ t b, x.rail ≠ .hold t b) → exec (.railHoldEnd d) s = .next s) ∧
    (x.railMv < x.setp + 10 ∨ (∀ t, x.rail ≠ .hold t false ∧ x.rail ≠ .fall t false) → exec (.biasRaiseForFall d) s = .next s) ∧
    (∀ t, x.setp + 10 ≤ x.railMv → x.rail = .hold t false ∨ x.rail = .fall t false →
      (g + 100 < t → exec (.biasRaiseForFall d) s = .next s) ∧
      (t ≤ g + 100 → (∃ c ∈ s.dieCores d, (s.core c).btop ≤ (s.core c).bstep) →
        becomes (.biasRaiseForFall d) { x with rail := .stopped, stops := x.stops + 1 }) ∧
      (t ≤ g + 100 → (∀ c ∈ s.dieCores d, (s.core c).bstep < (s.core c).btop) → ∃ u, exec (.biasRaiseForFall d) s = .next u ∧
        (u.die d).rail = (match x.rail with | .hold _ _ => .hold t true | _ => .fall t true) ∧ (u.die d).railMv = x.railMv ∧
        (∀ c ∈ s.dieCores d, (u.core c).bstep = (s.core c).bstep + 1 ∧
          (u.core c).settle = (s.core c).settle ++ [(g + 200, (s.core c).bstep + 1)]) ∧
        ∀ c, c ∉ s.dieCores d → u.core c = s.core c)) ∧
    (∀ v : BitVec 8,
      (s.girthOn = false ∨ g % 8192 ≠ 0 → exec (.thermalReading d v) s = .next s) ∧
      (s.girthOn = true → g % 8192 = 0 → ∃ u, exec (.thermalReading d v) s = .next u ∧ (u.die d).tnow = v.toNat ∧
        (u.die d).warned = decide (x.twarn ≤ v.toNat) ∧ (u.die d).readAt = some g ∧
        (u.die d).warns = x.warns + (if x.twarn ≤ v.toNat then 1 else 0) ∧
        (∀ c, dieOfCore c = d → (u.core c).warn = if x.twarn ≤ v.toNat then some ((s.core c).warn.getD (s.core c).cyc) else none) ∧
        (85 ≤ v.toNat → (u.die d).coolSince = none) ∧ (v.toNat < 85 → (u.die d).coolSince = some (x.coolSince.getD g)))) ∧
    (x.offline = false ∨ x.coolSince = none → exec (.dieReturn d) s = .next s) ∧
    (∀ t, x.coolSince = some t → x.offline = true →
      (t + 8000000 ≤ g → becomes (.dieReturn d)
        { x with bridle := true, offline := false, emptying := false, railMv := 650, setp := 650, rail := .steady }) ∧
      (g < t + 8000000 → exec (.dieReturn d) s = .next s)) ∧
    (s.dieIn d = true → exec (.dieFault d) s = .next ((s.ctxsOn d).foldl (fun s k => s.checkpoint k (s.girth + 256) 0)
      (s.setDie d { x with emptying := true }))) ∧
    (s.dieIn d = false →
      let z := s.settleDie d
      let owes := s.ctxsOn d ≠ [] ∨ ∃ n y, s.slice? n = some y ∧ s.owesDie d n y = true
      (x.readAt = none → exec (.dieFault d) s = .next z) ∧ (∀ n, x.readAt = some n → exec (.dieFault d) s = .next (z.takeEmergency n)) ∧
      (x.emptying = false ∨ x.offline = true → z = s) ∧
      (x.emptying = true → x.offline = false → owes → z.dies = s.dies ∧
        ∀ k, s.framesAt k.slice d = [] ∨ s.roomFor k.slice = true → z.ctx? k = s.ctx? k) ∧
      (x.emptying = true → x.offline = false → ¬ owes →
        z.die d = { x with offline := true, bridle := false, rail := .steady, railMv := 0, cache := [] } ∧ (∀ e, e ≠ d → z.die e = s.die e) ∧
        ∀ n y, s.slice? n = some y → z.slice? n = some { y with parked := y.parked || !(s.framesAt n d).isEmpty || s.uprooted n y }))

/-! ## The array and the copy engines -/

/-- R124 to R126, R130 to R132, R134, R139, R146, R162, R165: the array goes to the first sequencer after its last holder that waits for it; at
the end of a cycle a lease whose commands are all accepted is renewed, or ends when another sequencer waits; a holder that gives no command
for 256 cycles while another waits loses it. A beat advances the commands in the slots unless the scoreboard holds it; a command whose
beats are done writes its tile and leaves its flags to its sequencer, and the shadow command moves up, and with it completes one without
beats. A copy queue asks for the next unit of its head command, performs it once it is ready, and drops the command once all is performed. That
a unit is asked for and then performed, and from when the 256 cycles of a lease count, are the model's: log entries 31 and 81. A unit
writes the bytes it read, or those of its fill, to its destination and credits its counter with their number; the commands that go element by
element write each new value, of an addition, a minimum, a maximum, a logical operation or an exchange, and a swap hands each old value back
before the next element; on device memory each element is a write of its own. -/
def Obligations.EngineEvents : Prop :=
  ∀ (s : State) (c : CoreId),
    let k := s.core c
    (∀ q, k.cinchHolder = none → k.cinchAt < k.cyc → k.cinchOf q = .want → k.cinchWant[q.val] < k.cyc →
      (∀ r : SeqId, (r.val + 3 - k.cinchH.val) % 4 < (q.val + 3 - k.cinchH.val) % 4 → k.cinchOf r = .want → k.cyc ≤ k.cinchWant[r.val]) →
      ∃ t, exec (.cinchGrant c) s = .next t ∧ (t.core c).cinchOf q = .hold ∧ (t.core c).cinchH = q ∧ (t.core c).cinchN = k.lease ∧
        (∀ r, r ≠ q → (t.core c).cinchOf r = k.cinchOf r) ∧ s.sameBytes t) ∧
    (k.cinchHolder ≠ none ∨ k.cyc ≤ k.cinchAt ∨ (∀ q, k.cinchOf q = .want → k.cyc ≤ k.cinchWant[q.val]) →
      exec (.cinchGrant c) s = .next s) ∧
    (let others (q : SeqId) : Prop := ∃ r, r ≠ q ∧ k.cinchOf r = .want
     (k.cinchHolder = none → k.cinchTick = { k with cinchOthers := none }) ∧
     (∀ q, k.cinchHolder = some q →
       (k.cinchN ≠ 0 → others q → k.cinchTick = { k with cinchOthers := some (k.cinchOthers.getD k.cyc) }) ∧
       (k.cinchN ≠ 0 → ¬ others q → k.cinchTick = { k with cinchOthers := none }) ∧
       (k.cinchN = 0 → others q → k.cinchTick = { k.dropCinch q with cinchOthers := none }) ∧
       (k.cinchN = 0 → ¬ others q → k.cinchTick = { k with cinchN := k.lease, cinchOthers := none })) ∧
     (∀ q t, k.cinchHolder = some q → k.cinchOthers = some t →
       let late := max t k.cinchAt + 256 ≤ k.cyc ∧ others q
       (late → exec (.cinchIdleExpiry c) s = .next (s.setCore c (k.dropCinch q))) ∧
       (¬ late → exec (.cinchIdleExpiry c) s = .next s)) ∧
     (k.cinchHolder = none ∨ k.cinchOthers = none → exec (.cinchIdleExpiry c) s = .next s)) ∧
    (let z := s.sweep c
     (z.arrayRuns c = false → exec (.matrixBeat c) s = .next z) ∧
     (z.arrayRuns c = true → (∀ y, (z.core c).beat = some y → exec (.matrixBeat c) s = .next ((z.setCore c y).sweep c)) ∧
       ((z.core c).beat = none →
         ((z.core c).arrayHeld = true ∧ (z.core c).mheld = none →
           exec (.matrixBeat c) s = .next (z.setCore c { z.core c with mheld := some (z.core c).cyc })) ∧
         (¬ ((z.core c).arrayHeld = true ∧ (z.core c).mheld = none) → exec (.matrixBeat c) s = .next z)))) ∧
    (s.arrayRuns c = false ∨ k.front = none → exec (.tileComplete c) s = .next s) ∧
    (∀ m, s.arrayRuns c = true → k.front = some m →
      let done := m.beats ≤ m.c ∧ (0 < m.beats ∨ k.mayBegin m = true)
      (¬ done → exec (.tileComplete c) s = .next s) ∧
      (done → tblWf 0 k.tiles = true → ∃ y z, exec (.tileComplete c) s = .next ((s.setCore c z).sweep c) ∧
        ((∀ n, k.shadow = some n → 0 < n.beats) → z = y) ∧
        (∀ n, k.shadow = some n → n.beats = 0 → z = (y.completeFront).getD y) ∧
        y.front = k.shadow ∧ y.shadow = none ∧ (y.seq m.seq).flags = (k.seq m.seq).flags ||| m.flags ∧ y.spad = k.spad ∧
        (∀ i j, i < 64 → j < 64 →
          y.tileGet m.atd i j = if m.kbRow i = none then k.tileGet m.atd i j else m.posVal i j (k.tileGet m.atd i j)) ∧
        ∀ t i j, t ≠ m.atd → i < 64 → j < 64 → y.tileGet t i j = k.tileGet t i j)) ∧
    (∀ (k' : CtxId) (q : CqId) (m : CopyCmd) (u : UnitAt) (hs : List VSeg) (ds : List Nat) (reads : List ((Loc × Nat) × List Byte)),
      let out := s.unitDo c q k' m u hs ds reads
      let dst := s.unitDst c m u
      let base := match planeDesc m.desc m.len with
        | some d => if d.f.bits = 6 then s.locOf c (m.src &&& ~~~127) else s.locOf c m.src
        | none => s.locOf c m.src
      let bs := m.unitBytes u reads base
      let whole := m.op = .copy ∨ m.op = .str ∨ m.op = .fill ∨ m.op = .plane
      let swaps := m.op = .swap ∨ m.op = .cas
      let credited (t : State) (d : CoreId) (n : Nat) : Prop := ∀ e a, ((t.core e).ac a).count.toNat =
        if e = d ∧ m.ac = some a then min (((s.core e).ac a).count.toNat + n) (2 ^ 32 - 1) else ((s.core e).ac a).count.toNat
      (m.op = .copy ∨ m.op = .str → ∀ r t, reads = r :: t → bs = r.2) ∧
      (m.op = .fill → bs.length = u.n ∧ ∀ i, i < u.n → bs[i]? = some (m.src.extractLsb' (8 * ((m.offset + i) % 8)) 8)) ∧
      (whole → ∀ d o, dst = .spad d o → bs.length ≤ 2 ^ 22 → tblWf 0 (s.core d).spad = true →
        out.1 = [] ∧ (∀ i b, bs[i]? = some b → out.2.spadAt d ((o + i) % 2 ^ 22) = b) ∧
        (∀ a, (∀ i, i < bs.length → a ≠ (o + i) % 2 ^ 22) → out.2.spadAt d a = s.spadAt d a) ∧
        (∀ e a, e ≠ d → out.2.spadAt e a = s.spadAt e a) ∧ credited out.2 d u.n) ∧
      (∀ a g t, dst = .mem a → hs = g :: t →
        (whole → g.t.kind = .host → tblWf 0 s.hostMem = true → out.1 = [] ∧ credited out.2 c u.n ∧
          ∀ i b, bs[i]? = some b → out.2.hostAt (vfOf (s.portOfCtx k') k'.slice) (g.addr + i) = b) ∧
        (whole → g.t.kind = .dev → s.keyGen g.t.keyId ≠ none → credited out.2 c u.n ∧ ∃ w ∈ (out.2.die (dieOfCore c)).pend,
          out.1 = [w.id] ∧ w.pa = g.addr ∧ w.pay = .bytes (bs.map some) ∧ w.waits = ds ∧ w.old = .drop) ∧
        (whole → g.t.kind = .fab → credited out.2 c u.n ∧ ∃ w ∈ out.2.fabOuts, out.1 = [w.id] ∧ w.req = .write g.addr bs ∧
          w.peer = g.t.peer ∧ w.epoch = g.t.epoch) ∧
        (¬ whole → g.t.kind = .dev → s.keyGen g.t.keyId ≠ none → ∀ x y v, reads = (x, y) :: v →
          let cmp := match v with | r :: _ => r.2 | [] => []
          let b := m.et.bits / 8
          ∀ i op, (m.steps y cmp)[i]? = some op → ∃ w ∈ (out.2.die (dieOfCore c)).pend, out.1[i]? = some w.id ∧
            w.pa = g.addr + i * b ∧ w.pay = .atom b op ∧ w.waits = ds ∧
            (swaps → w.old = .spad c (spadOff (m.src.toNat + u.r.toNat) + i * b) m.ac) ∧
            (¬ swaps → ∀ a, m.ac = some a → w.old = .credit c a b))) ∧
      (¬ whole → ∀ d o x y v, dst = .spad d o → reads = (x, y) :: v → out.1 = [] ∧
        let cmp := match v with | r :: _ => r.2 | [] => []
        let t := s.spadSteps d o (if m.op = .acc then none else some (c, spadOff (m.src.toNat + u.r.toNat))) (m.et.bits / 8) (m.steps y cmp)
        t.sameBytes out.2 ∧ credited out.2 (if m.op = .acc then d else c) u.n) ∧
      ∀ (x y : List Byte) (i : Nat), i < x.length / (m.et.bits / 8) →
        let part (l : List Byte) : List Byte := (l.drop (i * (m.et.bits / 8))).take (m.et.bits / 8)
        (m.op = .acc → (m.steps x y)[i]? = some (.acc m.aop m.et (part x))) ∧ (m.op = .swap → (m.steps x y)[i]? = some (.swap (part x))) ∧
        (m.op = .cas → (m.steps x y)[i]? = some (.cas (part y) (part x)))) ∧
    (∀ (d : CoreId) (off w : Nat) (back : Option (CoreId × Nat)) (op : AtomOp) (t : List AtomOp),
      let old := (List.range w).map fun i => s.spadAt d ((off + i) % 2 ^ 22)
      let one := s.spadSteps d off back w [op]
      s.spadSteps d off back w (op :: t) = one.spadSteps d (off + w) (back.map fun b => (b.1, b.2 + w)) w t ∧
      (w ≤ 2 ^ 22 → (stepElem op old).length = w → (∀ e, tblWf 0 (s.core e).spad = true) →
        let handed (e : CoreId) (a : Nat) : Prop := ∃ o i, back = some (e, o) ∧ i < w ∧ a = (o + i) % 2 ^ 22
        (∀ e o, back = some (e, o) → ∀ i b, old[i]? = some b → one.spadAt e ((o + i) % 2 ^ 22) = b) ∧
        (∀ i b, (stepElem op old)[i]? = some b → ¬ handed d ((off + i) % 2 ^ 22) → one.spadAt d ((off + i) % 2 ^ 22) = b) ∧
        ∀ e a, ¬ handed e a → (e = d → ∀ i, i < w → a ≠ (off + i) % 2 ^ 22) → one.spadAt e a = s.spadAt e a)) ∧
    (∀ (et : ET) (old x y : List Byte),
      let n := old.length
      let d := ofBytes old
      let v := ofBytes x
      let acc (op : AOp) : List Byte := stepElem (.acc op et x) old
      acc .add = toBytes n ((d + v) % 2 ^ et.bits) ∧ acc .and = toBytes n (d &&& v) ∧ acc .or = toBytes n (d ||| v) ∧
      acc .xor = toBytes n (d ^^^ v) ∧
      acc .fadd = toBytes n (roundF (etFlt et) .rne (FVal.add false ((etFlt et).decode d) ((etFlt et).decode v)).1).1 ∧
      (∀ b sg, etNum et = .int b sg →
        acc .min = toBytes n (if intOf b sg v < intOf b sg d then v else d) ∧ acc .max = toBytes n (if intOf b sg d < intOf b sg v then v else d)) ∧
      (∀ F, etNum et = .flt F → acc .min = toBytes n (pickMinMax F false false d v) ∧ acc .max = toBytes n (pickMinMax F true false d v)) ∧
      stepElem (.swap x) old = x ∧ (old = y → stepElem (.cas y x) old = x) ∧ (old ≠ y → stepElem (.cas y x) old = old)) ∧
    (∀ (k' : CtxId) (q : CqId) (m : CopyCmd) (r : UnitReq) (gs hs : List VSeg) (es ds : List Nat) (y z : State)
        (bs : List ((Loc × Nat) × List Byte)),
      let u := s.unitAt c m
      s.transRuns c k' .r (s.unitReads c m u) = (.ok (gs, es), y) → y.transRuns c k' m.op.need [(y.unitDst c m u, u.n)] = (.ok (hs, ds), z) →
      (∀ g ∈ gs, g.t.kind = .dev → z.readableRun (dieOfCore c) g.t.keyId g.addr g.n = true) →
      (∀ h ∈ hs, h.t.kind ≠ .dev → z.allDone ds = true) → z.unitFetch c r.data gs (s.unitReads c m u) = some bs →
      z.badStore (dieOfCore c) hs = none → ((z.core c).cq q).head = some m →
      ∃ m', ((((s.unitPerform c q k' m r).core c).cq q).head = some m') ∧ m'.offset = m.offset + u.n ∧ m'.unit = none ∧
        (z.unitDo c q k' m u hs ds bs).2.sameBytes (s.unitPerform c q k' m r) ∧
        ∀ e, ((s.unitPerform c q k' m r).core e).acs = ((z.unitDo c q k' m u hs ds bs).2.core e).acs) ∧
    ∀ (q : CqId) (m : CopyCmd),
      (let z0 : State := { (s.sweep c) with cur := ⟨c, 0, .c, dieOfCore c, ⟨0, 0⟩⟩ }
       ((z0.core c).ctxId = none ∨ ((z0.core c).cq q).head = none → exec (.copyUnit c q) s = .next z0) ∧
       ∀ n, (z0.core c).ctxId = some n → ((z0.core c).cq q).head = some m →
        let may := z0.mayIssue c = true ∧ m.park = none ∧ m.offset < m.total ∧ (z0.core c).copyPace q m = true
        let z : State := { z0 with cur := ⟨c, m.seq, .c, dieOfCore c, ⟨0, 0⟩⟩ }
        (¬ may → exec (.copyUnit c q) s = .next z0) ∧
        (may → m.unit = none → exec (.copyUnit c q) s = .next (z.unitAsk c q n m)) ∧
        ∀ r, may → m.unit = some r →
          let p := z.unitTokens c q n r
          let m' := { m with unit := some p.1 }
          let ready := p.2.unitReady m' = true ∧ p.2.queueTurn c q = true ∧ (p.2.core c).lastUnit[(engOf q).val] ≠ some (p.2.core c).cyc
          (ready → exec (.copyUnit c q) s = .next (p.2.unitPerform c q n m' p.1)) ∧ (¬ ready → exec (.copyUnit c q) s = .next p.2)) ∧
      (let z := s.sweep c
       (((z.core c).cq q).head = none → exec (.copyComplete c q) s = .next z) ∧
       (((z.core c).cq q).head = some m →
        let done := z.alive c = true ∧ m.park = none ∧ m.total ≤ m.offset ∧ z.copyOut m.outs = false ∧
          (m.total ≠ 0 ∨ (z.core c).copyPace q m = true)
        (¬ done → exec (.copyComplete c q) s = .next z) ∧
        (done → exec (.copyComplete c q) s = .next ((z.modCq c q fun x => { x with
          items := x.items.drop 1
          left := if m.total = 0 then some (z.core c).cyc else x.left }).sweep c))))

/-! ## Memory -/

/-- R172 to R178, R182, R183, R254, R257, R258, R260, R261, R263, R265 and the registers of Bridle: at each multiple of 256 ticks a port's
buckets gain their rate and its pool the remainder; a slot of a channel carries the first bound request that is there, its data or its
acknowledgement at the core 112 or 136 ticks later, and a request that a later slot carries is one monitor event with its whole delay; a
voided slot carries nothing; two owned slots refresh the neighbours of a row; a refresh event comes each 10 rotations, or 5 while hot; a
load whose lines are there binds to what its die shows; fills and scrubs write a burst in a slot; a table entry is stored or refused, or,
where it would take one frame out of a live partition, is no write of Bridle's. How requests share a slot, the moment of an alert, the first
level of a bucket, the channels a fill uses in one event and the register writes that Bridle does not make are the model's: log entries 54
to 57, 89, 94 and 110. -/
def Obligations.MemoryEvents : Prop :=
  ∀ (s : State),
    (∀ (d : DieId) (p : Fin 8),
      let x := s.die d
      (s.girthOn = true → s.girth % 256 = 0 → x.refilled[p.val] ≠ some s.girth → ∃ t, exec (.tokenBucketRefill d p) s = .next t ∧
        (∀ n, mapGet (t.die d).buckets n = (mapGet x.buckets n).map fun b =>
          if n / 256 = p.val ∧ n < 2048 then { b with level := min b.depth (b.level + b.rate) } else b) ∧
        (t.die d).pools[p.val] = min 64 (x.pools[p.val] + (256 - x.rates p)) ∧ (t.die d).view = x.view) ∧
      (s.girthOn = false ∨ s.girth % 256 ≠ 0 ∨ x.refilled[p.val] = some s.girth → exec (.tokenBucketRefill d p) s = .next s)) ∧
    (∀ (st : Fin 8) (ch : Fin 32),
      let n := chanNo st.val ch.val
      let x := s.chan n
      let g := s.girth
      let pos := g % 320 / 5
      let owner := x.ownerOf pos
      let off := (s.die ⟨st.val / 2, by omega⟩).offline
      (s.girthOn = false ∨ off = true ∨ g % 5 ≠ 0 ∨ x.lastSlot = some g →
        exec (.hbmSlot st ch) s = .next s ∧ exec (.refreshManagement st ch) s = .next s) ∧
      (s.girthOn = true → off = false → g % 5 = 0 → x.lastSlot ≠ some g →
        (x.voids pos (g / 320) = true →
          let y := x.displace g none
          exec (.hbmSlot st ch) s = .next ((s.setChan n { y with lastSlot := some g, cntVoid := bumpAt y.cntVoid owner }).ownerEvent owner 10) ∧
          exec (.refreshManagement st ch) s = .next s) ∧
        (x.voids pos (g / 320) = false → x.rfmOf owner = none → exec (.refreshManagement st ch) s = .next s ∧
          (s.fillOn st ch owner = true → exec (.hbmSlot st ch) s = .next s) ∧
          (s.fillOn st ch owner = false →
            ∀ due, due = (x.reqs.find? fun r => r.boundTo g && r.reached g && !x.owesBackoff r && !s.behindFill st ch r) →
            let y : Channel := { (x.spendBackoff g).displace g (due.map (·.id)) with lastSlot := some g }
            (due = none → owner ≠ 127 → exec (.hbmSlot st ch) s = .next (s.setChan n y)) ∧
            (due = none → owner = 127 → exec (.hbmSlot st ch) s = .next ((s.setChan n y).bridleBurst st ch)) ∧
            ∀ r, due = some r →
              let t := (s.setChan n (y.carry r (s.stackHot st))).countMiss r g
              let there := g + if (dieOfCore r.core).val = st.val / 2 then 112 else 136
              let f := st.val * 2 ^ 20 + r.row * 16 + r.bank
              let fills := if allocClr (t.allocGet f) = true ∧ mapGet t.fills f = none
                then mapPut t.fills f (0, if r.bridle then 127 else r.core.val) else t.fills
              (r.write = true → exec (.hbmSlot st ch) s = .next { t with fills := fills, acks := t.acks ++ [(r.id, there)] }) ∧
              (r.write = false → exec (.hbmSlot st ch) s = .next { t with done := t.done ++ [(r.id, there)] }))) ∧
        ∀ m, x.voids pos (g / 320) = false → x.rfmOf owner = some m →
          let y := x.displace g none
          let z : Channel := { y with lastSlot := some g, cntRfm := bumpAt y.cntRfm owner }
          exec (.hbmSlot st ch) s = .next s ∧
          (1 < m.left → exec (.refreshManagement st ch) s = .next ((s.setChan n { z with
            rfm := z.rfm.map fun r => if r = m then { r with left := r.left - 1 } else r }).ownerEvent owner 11)) ∧
          (m.left ≤ 1 → ∃ w, exec (.refreshManagement st ch) s = .next ((s.setChan n w).ownerEvent owner 11) ∧
            w.acts = clearActs x.acts m.bank m.row ∧ w.rfm = x.rfm.erase m ∧ w.cntRfm = z.cntRfm ∧ w.reqs = y.reqs ∧
            w.lastSlot = some g ∧ w.backoff.head? = some ⟨m.bank, m.row, g, g + 320 * x.bowin⟩))) ∧
    (∀ (st : Fin 8) (ch : Fin 32),
      let n := chanNo st.val ch.val
      let x := s.chan n
      (s.girthOn = false ∨ s.girth / 320 < x.refRot → exec (.hbmRefresh st ch) s = .next s) ∧
      (s.girthOn = true → x.refRot ≤ s.girth / 320 → exec (.hbmRefresh st ch) s = .next (s.setChan n { x with
        refN := x.refN + 1
        refRot := x.refRot + (if s.stackHot st then 5 else 10)
        voided := (x.voided.filter fun p => decide (s.girth / 320 ≤ p.2)) ++ (List.range 4).map fun i => (4 * x.refN % 64 + i, x.refRot)
        acts := x.acts.filter fun p => !(decide (16 * (x.refN % 4096) ≤ p.1 % 65536) &&
          decide (p.1 % 65536 < 16 * (x.refN % 4096) + 16)) }))) ∧
    (∀ (c : CoreId) (q : SeqId) (st : Strm) (n : Nat),
      ((s.strm c q st).loads[n]? = none ∨ (s.core c).ctxId = none → exec (.dataReturn c q st n) s = .next s) ∧
      ∀ l k, (s.strm c q st).loads[n]? = some l → (s.core c).ctxId = some k →
        let p := s.retryTokens c k l.lines
        let l' := { l with lines := p.1 }
        let t := p.2.modStrm c q st fun y => { y with loads := y.loads.map fun m => if m.id = l.id then l' else m }
        let ready := t.alive c = true ∧ p.1.all t.lineReady = true ∧ t.extOpen l' = false ∧ loadBehind l' (s.strm c q st).loads = false ∧
          (∀ g ∈ l.segs, t.readableRun (dieOfCore c) g.keyId g.pa g.n = true) ∧ (s.strm c q st).st ≠ .trapped
        (¬ ready → exec (.dataReturn c q st n) s = .next t) ∧
        (ready → t.loadBytes (dieOfCore c) l.buf l.segs = none →
          exec (.dataReturn c q st n) s = .next (t.trapLoad c q st l' ⟨10, 1, 0, t.badLoad (dieOfCore c) l.segs⟩)) ∧
        ∀ bs, ready → t.loadBytes (dieOfCore c) l.buf l.segs = some bs →
          let u := ((t.noteLines c p.1).takeDone p.1).allocLines c k (l.segs.flatMap fun g => linesOf g.pa g.n g.keyId)
          exec (.dataReturn c q st n) s = .next (u.landLoad c q st
            { l' with buf := bs, cov := l.segs.flatMap fun g => t.writesAt (dieOfCore c) g.pa g.n }) ∧ s.sameBytes u) ∧
    (∀ (c : CoreId) (q : SeqId) (st : Strm) (l : Load),
      let t := s.landLoad c q st l
      s.sameBytes t ∧ l.id ∉ (t.strm c q st).loads.map (·.id) ∧
      (∀ n sz, l.dst = .x n sz → (t.strm c q st).x = ((s.strm c q st).setX n (scalarOf sz l.buf)).x) ∧
      (∀ n m, l.dst = .v n m → (t.seq c q).v = ((s.seq c q).setV n (mergeLanes m ((s.seq c q).getV n) (BitVec.ofNat 1024 (ofBytes l.buf)))).v) ∧
      ((∃ n sz, l.dst = .q n sz) ∨ (∃ n, l.dst = .dq n) ∨ (∃ n, l.dst = .tile n) → (t.seq c q).held = (s.seq c q).held.map fun h =>
        { h with effs := h.effs.map fun e => match e with | .land i d _ => if i = l.id then .land i d (some l.buf) else e | _ => e })) ∧
    (∀ (f : Fin 8388608),
      (mapGet s.fills f.val = none → exec (.clearedFrameFill f) s = .next s) ∧
      (∀ set o, mapGet s.fills f.val = some (set, o) →
        let p := s.fillSlot f.val o (List.range 32) set
        (p.1 ≠ allBursts → exec (.clearedFrameFill f) s = .next { p.2 with fills := mapPut p.2.fills f.val (p.1, o) }) ∧
        (p.1 = allBursts → exec (.clearedFrameFill f) s = .next (p.2.fillDone f.val) ∧ (p.2.fillDone f.val).fills = mapDel p.2.fills f.val ∧
          allocClr ((p.2.fillDone f.val).allocGet f.val) = false) ∧
        p.2.sameBytes s) ∧
      (∀ v,
        let out := s.inPartition f.val = true ∧ ¬ (allocState v = 1 ∧ allocOwner v = allocOwner (s.allocGet f.val) ∧
          allocKey v = allocKey (s.allocGet f.val))
        (out → exec (.allocTableWrite f v) s = .next s) ∧
        (s.unreturned f.val = true → exec (.allocTableWrite f v) s = .next s) ∧
        (¬ out → s.unreturned f.val = false → s.allocOk f.val v = false → exec (.allocTableWrite f v) s = .next { s with allocRefused := true }) ∧
        (¬ out → s.unreturned f.val = false → s.allocOk f.val v = true →
          exec (.allocTableWrite f v) s = .next { (s.allocLag f.val).allocPut f.val v with allocRefused := false })) ∧
      ∀ b : Fin 128,
        let set := (mapGet s.scrub f.val).getD 0
        let n := burstChan f.val b.val
        (allocState (s.allocGet f.val) ≠ 0 ∨ set.testBit b.val = true ∨ s.slotOpen n 127 = false → exec (.scrubBurst f b) s = .next s) ∧
        (allocState (s.allocGet f.val) = 0 → set.testBit b.val = false → s.slotOpen n 127 = true →
          exec (.scrubBurst f b) s = .next { s.giveSlot n 127 (frameBank f.val) (frameRow f.val) with
            scrub := if set + 2 ^ b.val = allBursts then mapDel s.scrub f.val else mapPut s.scrub f.val (set + 2 ^ b.val) })) ∧
    ∀ v : BitVec 64,
      let n := v.toNat
      (∀ d sl, exec (.bridleRegisterWrite (.dcway d sl) v) s =
        .next (s.setDie d { s.die d with dcway := (s.die d).dcway.set sl.val (BitVec.ofNat 16 n) })) ∧
      (∀ d p k,
        let x := s.die d
        let rate := min (n % 2 ^ 16) 256
        let depth := n / 2 ^ 16 % 2 ^ 16
        (x.rateFits p k rate = true → exec (.bridleRegisterWrite (.dctb d p k) v) s =
          .next (s.setDie d (x.setBucket p k { depth := depth, rate := rate, level := min (x.bucket p k).level depth }))) ∧
        (x.rateFits p k rate = false → exec (.bridleRegisterWrite (.dctb d p k) v) s = .next s)) ∧
      (∀ st ch pos, exec (.bridleRegisterWrite (.hcal st ch pos) v) s =
        .next (s.setChan (chanNo st.val ch.val) ((s.chan (chanNo st.val ch.val)).setOwner pos.val (n % 128)))) ∧
      (∀ st ch, exec (.bridleRegisterWrite (.actcfg st ch) v) s = .next (s.setChan (chanNo st.val ch.val)
        { s.chan (chanNo st.val ch.val) with bowin := n / 2 ^ 16 % 256, actth := max (n % 2 ^ 16) 8 })) ∧
      (∀ port sl,
        let p := s.fabPort port.val
        (p.shareFits sl (n % 256) = true → exec (.bridleRegisterWrite (.fabsh port sl) v) s = .next (s.setFabPort port.val
          { p with shares := mapPut p.shares sl.val { p.share sl.val with share := n % 256, burst := n / 256 % 256 } })) ∧
        (p.shareFits sl (n % 256) = false → exec (.bridleRegisterWrite (.fabsh port sl) v) s = .next s)) ∧
      (∀ c, exec (.bridleRegisterWrite (.replim c) v) s = .next (s.setCore c { s.core c with limit := n % 2 ^ 20 })) ∧
      (∀ c, exec (.bridleRegisterWrite (.droopth c) v) s =
        .next (s.setCore c { s.core c with vth := n / 2 ^ 24 % 256, stepth := n % 2 ^ 16 })) ∧
      (let mv := if n % 1024 = 0 then 0 else min (max (n % 1024) 600) 900
       ∀ d sl, exec (.bridleRegisterWrite (.vote d sl) v) s =
        .next (s.setDie d { s.die d with votes := (s.die d).votes.set sl.val mv })) ∧
      (∀ d, exec (.bridleRegisterWrite (.therm d) v) s =
        .next (s.setDie d { s.die d with twarn := n / 256 % 256, temerg := n % 256 })) ∧
      (∀ c, exec (.bridleRegisterWrite (.leaseLimit c) v) s =
        .next (s.setCore c { s.core c with leaseLim := max 1 (min (n % 512) 256) })) ∧
      (∀ c i, exec (.bridleRegisterWrite (.paceLimit c i) v) s =
        .next (s.setCore c { s.core c with paceLim := (s.core c).paceLim.set i.val (n % 2 ^ 16) })) ∧
      exec (.bridleRegisterWrite .dirtyMax v) s = .next { s with dirtyMax := n }

/-- R180, R182 to R184, R194, R197, R260, R264: a write enters its die's cache before any leaves toward its home; writes that may leave take the
clock of their die with them; a write that stands at its own home, whose key is still in its slot, changes exactly the bytes it names in that die's
view, and no other die's, and raises the die's own count by one; one that comes from another die is applied so once the home has reached the clock
it carries; an element step is such a write, of the value it computes from what the home finds, and once the issuing die has it, it is credited or
its old value is in the scratchpad; a stamped write reaches a further die once everything that came before it is there, and changes exactly those
bytes of that die's view; when no stamped write of a home is left for a die, the die sees the entries of the allocation table as they are there.
That writes to one home leave together is the model's: log entry 18. -/
def Obligations.WriteEvents : Prop :=
  ∀ (s : State) (home d : DieId),
    let named (w : WriteRec) (bs : List (Option Byte)) (a : Nat) (b : Byte) : Prop := ∃ i, a = w.pa + i ∧ bs[i]? = some (some b)
    let writes (t : State) (e : DieId) (w : WriteRec) (bs : List (Option Byte)) : Prop :=
      (∀ a b, named w bs a b → t.byteAt e a = b) ∧ (∀ a, (∀ b, ¬ named w bs a b) → t.byteAt e a = s.byteAt e a) ∧
        ∀ f a, f ≠ e → t.byteAt f a = s.byteAt f a
    let does (w : WriteRec) (bs : List (Option Byte)) : Prop := w.pay = .bytes bs ∨ ∃ n op, w.pay = .atom n op ∧
      ((∃ a e x, op = .acc a e x) ∨ (∃ x, op = .swap x) ∨ ∃ x y, op = .cas x y) ∧
      bs = (stepElem op ((List.range n).map fun i => s.byteAt home (w.pa + i))).map some
    let counts (t : State) (c : CoreId) (ac : Fin 64) (n : Nat) : Prop :=
      ((t.core c).ac ac).count.toNat = min (((s.core c).ac ac).count.toNat + n) (2 ^ 32 - 1)
    let hands (t : State) (c : CoreId) (off : Nat) (ac : Option (Fin 64)) (bs : List Byte) : Prop :=
      (bs.length ≤ 2 ^ 22 → tblWf 0 (s.core c).spad = true → ∀ i b, bs[i]? = some b → t.spadAt c ((off + i) % 2 ^ 22) = b) ∧
        ∀ a, ac = some a → counts t c a bs.length
    let enters (w : WriteRec) : Bool := decide (w.home = home) && !w.entered
    (∀ w, (s.die d).pend.find? enters = some w →
      exec (.writeApplyHome d home) s = .next (s.setDie d ((s.die d).enterWrite w)) ∧ s.sameBytes (s.setDie d ((s.die d).enterWrite w))) ∧
    (∀ x y, s.splitPend home [] (s.die home).pend = (x, y) → (s.die home).pend.find? enters = none →
      (x = [] → exec (.writeApplyHome home home) s = .next s) ∧
      ∀ w z bs, x = w :: z → does w bs → w.home = home → s.keyLives w.gen = true → tblWf 0 (s.die home).view = true →
        ∃ t, exec (.writeApplyHome home home) s = .next t ∧ writes t home w bs ∧ (t.die home).vc[home.val] = (s.die home).vc[home.val] + 1 ∧
          (w.src = home → (∀ c ac n, w.old = .credit c ac n → counts t c ac n) ∧
            ∀ c off ac n op, w.old = .spad c off ac → w.pay = .atom n op →
              hands t c off ac ((List.range n).map fun i => s.byteAt home (w.pa + i)))) ∧
    (∀ x y, home ≠ d → s.splitPend home [] (s.die d).pend = (x, y) → (s.die d).pend.find? enters = none →
      (x ≠ [] → ∃ t, exec (.writeApplyHome d home) s = .next t ∧ s.sameBytes t ∧
        (t.die d).pend = (y.map fun v => if ∃ w ∈ x, w.grp = v.grp then { v with torn := true } else v) ∧
        t.transit = s.transit ++ x.map fun v => { v with dep := some (s.die d).vc }) ∧
      (x = [] →
        let came := s.transit.find? fun w => decide (w.src = d) && decide (w.home = home) && w.stamp.isNone
        (came = none → exec (.writeApplyHome d home) s = .next s) ∧
        ∀ w dep, came = some w → w.dep = some dep →
          (VClock.le dep (s.die home).vc = false → exec (.writeApplyHome d home) s = .next s) ∧
          ∀ bs, VClock.le dep (s.die home).vc = true → does w bs → w.home = home → s.keyLives w.gen = true → tblWf 0 (s.die home).view = true →
            ∃ t, exec (.writeApplyHome d home) s = .next t ∧ writes t home w bs ∧
              (t.die home).vc[home.val] = (s.die home).vc[home.val] + 1)) ∧
    (home ≠ d →
      let next := s.transit.find? fun w => decide (w.home = home) && !w.seen.getLsbD d.val && match w.stamp with
        | some st => stampNext st (s.die d).vc home
        | none => false
      (next = none → exec (.writeApplyRemote home d) s = .next (s.allocSeen home d) ∧ s.sameBytes (s.allocSeen home d)) ∧
      ∀ w bs st, next = some w → w.pay = .bytes bs → w.stamp = some st → tblWf 0 (s.die d).view = true →
        ∃ t, exec (.writeApplyRemote home d) s = .next t ∧ writes t d w bs ∧ (t.die d).vc[home.val] = st[home.val] ∧
          (w.src = d → (∀ c ac n, w.old = .credit c ac n → counts t c ac n) ∧
            ∀ c off ac l, w.old = .back c off ac l → hands t c off ac l)) ∧
    exec (.writeApplyRemote home home) s = .next s

/-! ## Translation and faults -/

/-- R199 to R205, R207, R209 to R211, R282: a walk goes through both stages, with a fault of cause 1, 3, 2 or 4 where a table or
a permission fails, and fills the TLB of its core with the page and those of its CONT span that continue it; a page first written has its D bit
set by a step at the table's home; a window fill takes the translation of the page asked for, or
records why it failed; the oldest descriptor of a context is written while its queue has room and leaves its core once that is performed;
a queue that cannot be written is tried again at multiples of 65,536 ticks; a stage-2 fault is resolved, and the agent goes on, or, where the
address was never granted or the denial is the grant, freezes its context with kind 15; a stage-2 invalidation drops what every core holds of
the slice and is complete once the accesses translated before are performed. ADDR 0 of kind 15, the walk as one act, a walk that waits, the
entries a stage-2 invalidation drops, the frames that a change of entries copies, a neighbour under another KEYID and the walker's own read are
the model's: log entries 30, 33, 36, 45, 91, 106 and 107. -/
def Obligations.TranslationEvents : Prop :=
  ∀ (s : State) (c : CoreId),
    ((s.core c).ctxId = none → ∀ va wr q p, exec (.translationWalk c va wr) s = .next s ∧ exec (.pageWindowFill c q p) s = .next s) ∧
    (∀ k va wr, (s.core c).ctxId = some k →
      (va.toNat < 2 ^ 52 → exec (.translationWalk c va wr) s = .next (s.walkFor c k va.toNat (if wr then .w else .r)).2) ∧
      (2 ^ 52 ≤ va.toNat → exec (.translationWalk c va wr) s = .next s)) ∧
    (let place (tab a level : Nat) : Nat := tab + a / 2 ^ (40 - 12 * level) % 4096 * 8
     let oa (e : Nat) : Nat := e / 2 ^ 16 % 2 ^ 36 * 65536
     let kind (e : Nat) : Nat := e / 2 ^ 58 % 4
     let bit (e n : Nat) : Bool := e.testBit n
     let clear (e : Nat) : Prop := e / 2 ^ 60 % 16 = 0 ∧ e / 2 ^ 52 % 32 = 0 ∧ bit e 7 = false ∧ bit e 5 = false ∧ bit e 1 = false
     let table (e : Nat) : Prop := bit e 0 = true ∧ clear e ∧ kind e = 0 ∧ e / 2 ^ 8 % 256 = 0 ∧ bit e 6 = false
     let leaf (e : Nat) : Prop := bit e 0 = true ∧ clear e ∧ kind e ≠ 3 ∧ (kind e = 2 ∨ e / 2 ^ 8 % 256 = 0) ∧ ¬ (kind e = 0 ∧ 2 ^ 39 ≤ oa e)
     let owned (d : DieId) (n : Fin 32) (e : Nat) : Prop := kind e ≠ 0 ∨
       (allocState (s.allocAt d (oa e / 65536)) = 1 ∧ allocOwner (s.allocAt d (oa e / 65536)) = n.val)
     (∀ (d : DieId) (sl : Slice) (gpa : Nat),
       let walk := s.walk2 d sl gpa
       let read := s.tabEntry d 127
       (∀ r, read (place sl.s2root gpa 0) = .error r → walk = .error r) ∧
       ∀ e, read (place sl.s2root gpa 0) = .ok e → (¬ table e → walk = .error (.fault 3 gpa)) ∧ (table e →
         (∀ r, read (place (oa e) gpa 1) = .error r → walk = .error r) ∧
         ∀ f, read (place (oa e) gpa 1) = .ok f → (¬ table f → walk = .error (.fault 3 gpa)) ∧ (table f →
           (∀ r, read (place (oa f) gpa 2) = .error r → walk = .error r) ∧
           ∀ g, read (place (oa f) gpa 2) = .ok g → (¬ leaf g → walk = .error (.fault 3 gpa)) ∧
             (leaf g → walk = .ok ⟨g, place (oa f) gpa 2⟩)))) ∧
     (∀ (d : DieId) (n : Fin 32) (sl : Slice) (gpa : Nat),
       (∀ r, s.walk2 d sl gpa = .error r → s.tab1Entry d n sl gpa = .error r) ∧
       ∀ l, s.walk2 d sl gpa = .ok l →
         (kind l.e = 0 → owned d n l.e →
           s.tab1Entry d n sl gpa = s.tabEntry d (allocKey (s.allocAt d (oa l.e / 65536))) (oa l.e + gpa % 65536)) ∧
         (kind l.e ≠ 0 ∨ ¬ owned d n l.e → s.tab1Entry d n sl gpa = .error (.fault 3 gpa))) ∧
     (∀ (d : DieId) (k : CtxId) (sl : Slice) (x : Ctx) (va : Nat),
       let walk := s.walk d k sl x va
       let read := s.tab1Entry d k.slice sl
       (∀ r, read (place x.root.toNat va 0) = .error r → walk = .error r) ∧
       ∀ e, read (place x.root.toNat va 0) = .ok e → (¬ table e → walk = .error (.fault 1 0)) ∧ (table e →
         (∀ r, read (place (oa e) va 1) = .error r → walk = .error r) ∧
         ∀ f, read (place (oa e) va 1) = .ok f → (¬ table f → walk = .error (.fault 1 0)) ∧ (table f →
           (∀ r, read (place (oa f) va 2) = .error r → walk = .error r) ∧
           ∀ g, read (place (oa f) va 2) = .ok g → (¬ table g → walk = .error (.fault 1 0)) ∧ (table g →
             (∀ r, s.walk2 d sl (oa g) = .error r → walk = .error r) ∧
             ∀ l, s.walk2 d sl (oa g) = .ok l → (¬ owned d k.slice l.e → walk = .error (.fault 3 (oa g))) ∧
               (owned d k.slice l.e → walk = .ok ⟨g, oa f, l, {
                 kind := if kind l.e = 0 then .dev else if kind l.e = 1 then .host else .fab
                 page := oa l.e / 65536
                 r := bit g 2 && bit l.e 2
                 w := bit g 3 && bit l.e 3
                 x := bit g 4 && bit l.e 4
                 peer := l.e / 2 ^ 8 % 256
                 epoch := if kind l.e = 2 then (mapGet s.epochs (l.e / 2 ^ 8 % 256)).getD 0 else 0
                 keyId := if kind l.e = 0 then allocKey (s.allocAt d (oa l.e / 65536)) else 0
                 d := bit l.e 6 }⟩))))) ∧
     (∀ (p : Walked) (n : Need),
       let allows (e : Nat) : Prop := (n = .r → bit e 2 = true) ∧ (n = .w → bit e 3 = true) ∧ (n = .x → bit e 4 = true) ∧
         (n = .rw → bit e 2 = true ∧ bit e 3 = true)
       (¬ allows p.e1 → p.check n = .error (.fault 2 0)) ∧ (allows p.e1 → ¬ allows p.l.e → p.check n = .error (.fault 4 (oa p.e1))) ∧
       (allows p.e1 → allows p.l.e → p.check n = .ok p.t)) ∧
     (∀ (k : CtxId) (va : Nat) (n : Need),
       (∀ r t, s.walkFill c k va = (.error r, t) → s.walkFor c k va n = (.error r, t)) ∧
       ∀ p t, s.walkFill c k va = (.ok p, t) →
         (∀ r, p.check n = .error r → s.walkFor c k va n = (.error r, t)) ∧
         ∀ g, p.check n = .ok g →
           (n.writes = false ∨ g.d = true → s.walkFor c k va n = (.ok (g, []), t)) ∧
           (n.writes = true → g.d = false → (∃ z, t.keyGen 127 = some z) → ∃ id u, s.walkFor c k va n = (.ok ({ g with d := true }, [id]), u) ∧
             (∃ w ∈ (u.die (dieOfCore c)).pend, w.id = id ∧ w.pa = p.l.addr ∧ w.pay = .atom 8 .setD ∧ w.eng = true) ∧
             ∀ h, (u.core c).tlbFind k va = some h → h.d = true)) ∧
     ∀ (k : CtxId) (sl : Slice) (x : Ctx) (va : Nat), s.slice? k.slice = some sl → s.ctx? k = some x →
       let n := va / 65536 % 32
       (∀ r, s.walk (dieOfCore c) k sl x va = .error r → s.walkFill c k va = (.error r, s)) ∧
       ∀ p, s.walk (dieOfCore c) k sl x va = .ok p →
         let near (m : Nat) (d : Bool) : Prop := (m = n ∧ d = p.t.d) ∨ (m < 32 ∧ m ≠ n ∧ bit p.e1 57 = true ∧
           ∃ e l, s.tab1Entry (dieOfCore c) k.slice sl (p.tab1 + (va / 65536 % 4096 - n + m) * 8) = .ok e ∧ table e ∧ bit e 57 = true ∧
             oa e / 65536 + n = oa p.e1 / 65536 + m ∧ s.walk2 (dieOfCore c) sl (oa e) = .ok l ∧ owned (dieOfCore c) k.slice l.e ∧
             oa l.e / 65536 + n = p.t.page + m ∧ d = bit l.e 6 ∧
             { combine s (dieOfCore c) e l with page := 0, d := false } = { p.t with page := 0, d := false })
         ∃ t, s.walkFill c k va = (.ok p, t) ∧
           ∀ m d, near m d → (t.core c).tlbFind k (va / 2 ^ 21 * 2 ^ 21 + m * 65536) = some { p.t with page := p.t.page + m - n, d := d }) ∧
    (∀ q p, ((s.strm c q .a).port p).want = none → exec (.pageWindowFill c q p) s = .next s) ∧
    (∀ q p k page, (s.core c).ctxId = some k → ((s.strm c q .a).port p).want = some page →
      let put (t : State) (r : WinReg) : Out := .next (t.modStrm c q .a fun x => x.setPort p { x.port p with nxt := r, want := none })
      (∀ t, (s.core c).tlbFind k (page * 65536) = some t → exec (.pageWindowFill c q p) s = put s (.ok page t)) ∧
      ((s.core c).tlbFind k (page * 65536) = none → ∀ r t, s.walkFill c k (page * 65536) = (r, t) →
        (∀ g, r = .ok g → exec (.pageWindowFill c q p) s = put t (.ok page g.t)) ∧
        (∀ cause a, r = .error (.fault cause a) → exec (.pageWindowFill c q p) s = put t (.bad page cause)) ∧
        (r = .error .bad → exec (.pageWindowFill c q p) s = put t (.bad page 0)) ∧
        (r = .error .wait → exec (.pageWindowFill c q p) s = .next s))) ∧
    (∀ k, s.ctx? k = none ∨ s.descsOf k = [] → exec (.faultDescriptorWrite k) s = .next s) ∧
    (∀ k x d, s.ctx? k = some x → oldestDesc x.nextFid (s.descsOf k) = some (c, d) →
      (∀ v, v ∈ s.descsOf k → (d.fid - x.nextFid).toNat ≤ (v.2.fid - x.nextFid).toNat) ∧
      (x.fqStuck = true ∨ s.faultDie k x = .wait → exec (.faultDescriptorWrite k) s = .next s) ∧
      (x.fqStuck = false → s.faultDie k x = .fail → exec (.faultDescriptorWrite k) s = .next (s.faultStuck k)) ∧
      ∀ die, x.fqStuck = false → s.faultDie k x = .ok die →
        (s.engGet die k x.faultHdr.toNat 16 = .wait → exec (.faultDescriptorWrite k) s = .next s) ∧
        (s.engGet die k x.faultHdr.toNat 16 = .fail → exec (.faultDescriptorWrite k) s = .next (s.faultStuck k)) ∧
        ∀ bs, s.engGet die k x.faultHdr.toNat 16 = .ok bs →
          let w := wordAt bs 0
          let slot := x.faultHdr.toNat + 64 + 32 * (w % 2 ^ x.faultLog2)
          (d.sent = none →
            (2 ^ x.faultLog2 ≤ (w + 2 ^ 64 - wordAt bs 8) % 2 ^ 64 → exec (.faultDescriptorWrite k) s = .next s) ∧
            ((w + 2 ^ 64 - wordAt bs 8) % 2 ^ 64 < 2 ^ x.faultLog2 → ∀ r t, s.engPut die k slot d.bytes = (r, t) →
              (∀ id, r = .ok id → exec (.faultDescriptorWrite k) s = .next (t.modCore c fun y => { y with descs := y.descs.map fun e =>
                if e.fid = d.fid ∧ e.ctx = k then { e with sent := some id } else e })) ∧
              (r = .wait → exec (.faultDescriptorWrite k) s = .next s) ∧
              (r = .fail → exec (.faultDescriptorWrite k) s = .next (s.faultStuck k)))) ∧
          ∀ id, d.sent = some id →
            (s.inFlight id = true → exec (.faultDescriptorWrite k) s = .next s) ∧
            (s.inFlight id = false → ∀ r t, s.engPut die k x.faultHdr.toNat (toBytes 8 (w + 1)) = (r, t) →
              (∀ a, r = .ok a → exec (.faultDescriptorWrite k) s = .next (t.dropDesc c d.fid k)) ∧
              (r = .wait → exec (.faultDescriptorWrite k) s = .next s) ∧
              (r = .fail → exec (.faultDescriptorWrite k) s = .next (s.faultStuck k)))) ∧
    (∀ k, (s.girthOn = true → s.girth % 65536 = 0 →
        exec (.faultQueueRetry k) s = .next (s.modCtx k fun x => { x with fqStuck := false })) ∧
      (s.girthOn = false ∨ s.girth % 65536 ≠ 0 → exec (.faultQueueRetry k) s = .next s)) ∧
    (∀ a p tab fatal,
      (s.parkOf c a = none → exec (.stage2FaultResolve c a fatal tab) s = .next s) ∧
      (s.parkOf c a = some p → p.cause ≠ 3 → p.cause ≠ 4 → exec (.stage2FaultResolve c a fatal tab) s = .next s) ∧
      (s.parkOf c a = some p → p.cause = 3 ∨ p.cause = 4 →
        exec (.stage2FaultResolve c a false tab) s = .next (((s.fwTab tab).dropS2 c p).unpark c a) ∧
        (s.mayFreeze c p = false → exec (.stage2FaultResolve c a true tab) s = .next s) ∧
        (s.mayFreeze c p = true → exec (.stage2FaultResolve c a true tab) s =
          .next ((s.dropS2 c p).trapParked c a ⟨15, p.cause, BitVec.ofNat 64 p.gpa, 0⟩)))) ∧
    ∀ n gpa pages ch,
      let done := exec (.bridleStage2Inval n gpa pages ch) s
      (s.slice? n = none → done = .next s) ∧
      (∀ u : State, (∀ d, ∀ e ∈ ((u.invalSlice n).core d).tlb, e.ctx.slice ≠ n) ∧ (u.invalSlice n).slices = u.slices ∧
        (∃ v, (u.invalSlice n).invals = u.invals ++ [v] ∧ v.slice = n ∧ v.ctx = none) ∧
        ∀ d, ((u.invalSlice n).core d).spad = (u.core d).spad ∧ ((u.invalSlice n).core d).ctxId = (u.core d).ctxId) ∧
      ∀ sl, s.slice? n = some sl →
        let ms := s.tabMoves n ch
        let leaves := (s.s2Leaves sl).filter fun l => decide (l.2 / 2 ^ 58 % 4 = 0)
        let free := s.accessesDone n = true ∧ s.turnToCopy n sl = true ∧
          (∀ m ∈ ms, (s.leavingFrames n).contains m.1 = true ∧ s.dieIn (homeOf (m.2 * 65536)) = true ∧ s.frameQuiet m.1 = true) ∧
          (∀ m ∈ ms, (∃ l ∈ leaves, entryOa l.2 = m.1) → m ∈ s.leafMoves n ch.tab) ∧
          ∀ m ∈ ms, ∀ b < 16, ∃ f ∈ ms, f.2 = m.2 / 16 * 16 + b
        (ms = [] → done = .next ((s.fwTab ch.tab).invalSlice n)) ∧
        (ms ≠ [] → ¬ free → done = .next s) ∧
        (ms ≠ [] → free → (s.moveSaved n ms).bind (·.moveFrames ms) = none → done = .next s) ∧
        ∀ u, ms ≠ [] → free → (s.moveSaved n ms).bind (·.moveFrames ms) = some u → done = .next ((u.fwTab ch.tab).invalSlice n)

/-! ## Stops, saves, restores and freezes -/

/-- R30, R125, R200, R214, R215, R236 to R241, R245, R248, R250, R261, R275, R279, R280, R282: a waiting record of higher priority drains,
checkpoints or kills by the rule of R236, 256 ticks on; at its count a stop halts its units, which leave the Cinch, or kills; once they are
at rest their cores are saved and left, in an area that the slice owns and no entry maps; a restore waits for the rails, moves the frames it
must, puts the context back, whose units wait for their sections, and empties its log; onto a fresh key it takes the steps of R251, rounds
of pre-copy, a stop with REASON 2 and the switch of keys; at its freeze count, once its Saddlebag is written or a page of it fails, a
context loses all work in flight and pops nothing until it is thawed. How stops merge, the policy of a kill, what Bridle keeps, a bag whose
page waits and the places of frames that a restore moves are the model's: log entries 33, 46 to 49, 64 and 91. -/
def Obligations.StopEvents : Prop :=
  ∀ (s : State) (k : CtxId),
    (∀ cores dl est tok prio,
      ((∃ g ∈ s.groupsOf k, prio.toNat ≤ g.rcd.prio) → exec (.preemptDecision k cores dl est tok prio) s = .next s) ∧
      ((∀ g ∈ s.groupsOf k, g.rcd.prio < prio.toNat) →
        let x := s.choice k cores dl est.toNat
        let stop (act : StopAct) (freeze : Bool) : Out :=
          .next (s.requestStop k ⟨s.girth + 256, freeze, 0, act, cores, s.girth + 256, false⟩)
        let drains := x.rem ≤ x.c ∧ (x.rem : Int) ≤ x.slack
        let done := exec (.preemptDecision k cores dl est tok prio) s
        (drains → done = .next (s.requestStop k ⟨s.girth + x.rem + 256, false, 1, .drain, cores, s.girth + 256, false⟩)) ∧
        (¬ drains → ((x.c + x.tile : Nat) : Int) ≤ x.slack → done = stop .checkpoint false) ∧
        (¬ drains → x.slack < ((x.c + x.tile : Nat) : Int) → (x.c : Int) ≤ x.slack → done = stop .checkpoint true) ∧
        (¬ drains → x.slack < ((x.c + x.tile : Nat) : Int) → x.slack < (x.c : Int) →
          (x.vtok < tok.toNat → done = stop .kill true) ∧ (tok.toNat ≤ x.vtok → done = stop .checkpoint true)))) ∧
    (∀ q p : Stop,
      (q.cores &&& p.cores = 0 → mergeStop q p = (q, p)) ∧
      (q.cores &&& p.cores ≠ 0 → p.s ≤ q.s ∨ p.halted = true → mergeStop q p = (q.without p.cores, { p.quar q with noPop := min p.noPop q.noPop })) ∧
      (q.cores &&& p.cores ≠ 0 → q.s < p.s → p.halted = false → mergeStop q p = (q.quar p, p.without q.cores))) ∧
    (s.ctx? k = none → ∀ pa klog g, exec (.stop k) s = .next s ∧ exec (.quiescenceSave k pa klog) s = .next s ∧
      exec (.restore k g) s = .next s ∧ exec (.contextFreeze k) s = .next s) ∧
    (∀ x, s.ctx? k = some x → ∃ ps t, s.haltStops k x.stops = (ps, t) ∧ exec (.stop k) s = .next (t.modCtx k fun y => { y with stops := ps })) ∧
    (∀ p,
      (s.girth < p.s ∨ p.halted = true → s.haltStop k p = (some p, s)) ∧
      (p.s ≤ s.girth → p.halted = false → p.act = .kill → s.haltStop k p = (none, s.kill k (s.coresIn k p.cores))) ∧
      (p.s ≤ s.girth → p.halted = false → p.act ≠ .kill → ∃ t, s.haltStop k p = (some { p with halted := true }, t) ∧
        (∀ c ∈ s.coresIn k p.cores, ∀ i (h : i < 4), (t.core c).cinch[i] = .free) ∧
        (∀ c, c ∉ s.coresIn k p.cores → t.core c = s.core c) ∧ t.slices = s.slices ∧ s.sameBytes t)) ∧
    (∀ c, let t := s.offStop c
      (t.core c).ctx = none ∧ (t.core c).spad = [] ∧ (t.core c).tiles = [] ∧ (∀ q, (t.seq c q).st = .idle) ∧ (∀ d, d ≠ c → t.core d = s.core d) ∧
      ((s.core c).escal ≠ .qpend → (t.core c).bind = (s.core c).bind ∧ t.slices = s.slices) ∧
      ((s.core c).escal = .qpend → (t.core c).bind = none ∧ (t.core c).escal = .quar)) ∧
    (∀ sl x pa klog, s.slice? k.slice = some sl → s.ctx? k = some x →
      (x.stops.find? (s.quiescent k) = none → exec (.quiescenceSave k pa klog) s = .next s) ∧
      ∀ p, x.stops.find? (s.quiescent k) = some p →
        let cs := s.coresIn k p.cores
        (s.areaOk k.slice sl pa (saveSize cs.length) = false → exec (.quiescenceSave k pa klog) s = .next s) ∧
        (s.areaOk k.slice sl pa (saveSize cs.length) = true → ∃ t v out, exec (.quiescenceSave k pa klog) s = .next t ∧
          v.pa = pa ∧ v.s = p.s ∧ v.reason = p.reason ∧ v.out = out ∧ v.moved = none ∧ v.cores.map (·.lcore) = cs.map (fun c => (s.core c).lcore) ∧
          t.ctx? k = some { x with
            stops := x.stops.filter fun q => decide (q.cores ≠ p.cores)
            saved := x.saved ++ [v]
            klogPa := if x.switched = 0 then klog else x.klogPa
            switched := x.switched ||| out
            toFetch := x.toFetch.filter fun i => !(s.lcoresOf cs).getLsbD i.1
            waking := if (x.toFetch.filter fun i => !(s.lcoresOf cs).getLsbD i.1) = [] then 0 else x.waking &&& ~~~(s.lcoresOf cs) } ∧
          (∀ d : DieId, out.getLsbD d.val = true ↔ (∃ c ∈ cs, dieOfCore c = d) ∧ ∀ c ∈ s.coresOf k, dieOfCore c = d → c ∈ cs) ∧
          (∀ c ∈ cs, (t.core c).ctx = none ∧ (t.core c).spad = []) ∧
          ∀ c, c ∉ cs → t.core c = s.core c)) ∧
    (∀ g sl x, s.slice? k.slice = some sl → s.ctx? k = some x →
      let ms := (s.leavingFrames k.slice).zip g.frames
      let done := exec (.restore k g) s
      let moving := mapGet s.migrating k.slice.val
      let halted := ∃ m, moving = some m ∧ m.s ≠ 0
      let up := s.railsUp k.slice sl.cores g.cores = true
      let ready := s.restorable k sl x g = true ∧ (s.leavingFrames k.slice).length ≤ g.frames.length ∧
        (∀ m ∈ ms, ∀ b < 16, ∃ f ∈ ms, f.2 = m.2 / 16 * 16 + b) ∧
        ∀ m ∈ ms, s.frameQuiet m.1 = true ∧ s.dieIn (homeOf (m.2 * 65536)) = true
      (g.keyId = sl.keyId → (halted ∨ ¬ ready → done = .next s) ∧
        (¬ halted → ready → ¬ up → done = .next (s.modCtx k fun y => { y with awaits := State.diesOf g.cores })) ∧
        (¬ halted → ready → up →
          ((s.moveSaved k.slice ms).bind (·.moveFrames ms) = none → done = .next s) ∧
          ∀ u, (s.moveSaved k.slice ms).bind (·.moveFrames ms) = some u → done = .next (u.putBack k sl x g))) ∧
      (g.keyId ≠ sl.keyId → (moving = none → done = .next (s.startMove k.slice sl g)) ∧
        ∀ m, moving = some m →
          ((∀ h, m.dest ≠ .here h ∨ h.keyId ≠ g.keyId) → done = .next s) ∧
          ∀ h, m.dest = .here h → h.keyId = g.keyId → ∀ u b, s.moveStep k.slice sl m = (u, b) →
            (b = false → done = .next u) ∧
            (b = true → s.restorable k sl x g = false ∨ ¬ up ∨ s.switchKey k.slice sl m h g = none → done = .next s) ∧
            ∀ v, b = true → s.restorable k sl x g = true → up → s.switchKey k.slice sl m h g = some v →
              done = .next (v.putBack k { sl with keyId := h.keyId, oldKey := some sl.keyId } x g))) ∧
    (∀ g sl x z, s.ctx? k = some z → ∃ y, (s.putBack k sl x g).ctx? k = some y ∧ y.saved = [] ∧ y.klog = [] ∧ y.switched = 0 ∧ y.awaits = 0 ∧
      y.root = z.root ∧ (y.toFetch = [] → y.waking = 0) ∧
      (x.saved = [] → z.saved = [] → ∀ c ∈ g.cores, (s.core c).ctx = none →
        ((s.putBack k sl x g).core c).ctx = some k.ctx ∧ ((s.putBack k sl x g).core c).spad = [])) ∧
    (∀ n sl m,
      let still := s.sliceStill n sl = true
      let leaves := (s.s2Leaves sl).filter fun l => decide (l.2 / 2 ^ 58 % 4 = 0)
      (m.step < 16 → (∃ v ∈ s.invals, v.slice = n) → s.moveStep n sl m = (s, false)) ∧
      (m.step < 16 → (∀ v ∈ s.invals, v.slice ≠ n) → m.pages = none → ∃ t, s.moveStep n sl m = (t, false) ∧
        let pages := (if m.step = 0 then leaves else leaves.filter fun l => l.2.testBit 6).map fun l => l.2 / 2 ^ 16 % 2 ^ 36
        mapGet t.migrating n.val = some { m with pages := some pages }) ∧
      (∀ fs, m.step < 16 → (∀ v ∈ s.invals, v.slice ≠ n) → m.pages = some fs → ∃ t, s.moveStep n sl m = (t, false) ∧
        mapGet t.migrating n.val = some { m with pages := none, step := if 65536 * fs.length ≤ s.dirtyMax then 16 else m.step + 1 }) ∧
      (16 ≤ m.step → m.s ≠ 0 → m.s ≤ s.girth → still → s.moveStep n sl m = (s, true)) ∧
      (16 ≤ m.step → m.s = 0 → ∃ t, s.moveStep n sl m = (t, false) ∧ mapGet t.migrating n.val = some { m with s := s.girth + 256 } ∧
        t.cores = s.cores) ∧
      (16 ≤ m.step → m.s ≠ 0 → s.girth < m.s ∨ ¬ still → ∃ t, s.moveStep n sl m = (t, false) ∧ t.migrating = s.migrating ∧ t.cores = s.cores)) ∧
    ∀ sl x, s.slice? k.slice = some sl → s.ctx? k = some x →
      (x.freeze = none → exec (.contextFreeze k) s = .next s) ∧
      ∀ f, x.freeze = some f →
        (s.girth < f.f → exec (.contextFreeze k) s = .next s) ∧
        (f.f ≤ s.girth → ∀ r u, s.writeBag k sl x f = (r, u) →
          (r = .wait → exec (.contextFreeze k) s = .next u) ∧
          (r ≠ .wait → ∃ t y, exec (.contextFreeze k) s = .next t ∧ t.ctx? k = some y ∧ y.freeze = none ∧ y.stops = [] ∧ y.hold = true ∧
            y.saved = [] ∧ y.klog = [] ∧ y.switched = 0 ∧ y.awaits = 0 ∧ y.waking = 0 ∧ y.toFetch = [] ∧ y.root = x.root ∧ y.lqs = x.lqs ∧
            (∀ c ∈ s.coresOf k, (t.core c).spad = [] ∧ (t.core c).tiles = [] ∧ (t.core c).front = none ∧ ∀ q, (t.seq c q).st = .idle) ∧
            ∀ c, c ∉ s.coresOf k → t.core c = s.core c))

/-! ## The fabric and the host port -/

/-- R180, R196, R200, R206, R251, R254, R317: a slot of a port takes a flit out and a flit in, which the shares pick, and a request has left
with its last flit; an answer to a request that has left reaches its port, and once its last flit is in brings its bytes, or ends it, and a
stale epoch, an absent target and a silence of 2^22 ticks trap the agent that asked with kinds 12, 16 and 13; a request of a peer comes in
so too and is performed, answered with a stale epoch, or held while its slice is moved; a read of host memory brings its bytes, or traps
with kind 10. The port of a request, the number of its flits, the package's first epoch and the moment at which a peer's read is answered
are the model's: log entries 62, 92 and 98. -/
def Obligations.FabricAndHostPortEvents : Prop :=
  ∀ (s : State),
    (∀ (p : Fin 24),
      let x := s.fabPort p.val
      let off := (s.die ⟨p.val / 6, by omega⟩).offline
      let coming := (x.arriving.filter fun m => decide (m.flits ≠ 0)).map fun m => (m.slice, ())
      (off = true → exec (.fabricFlitSlot p) s = .next s) ∧
      (off = false → ∀ (o : Option (Fin 32 × Nat × Bool)) (i : Option (Fin 32 × Unit)) (rest : List FabIn) (v : State),
        x.pick false (s.fabQueue p.val) = o → x.pick true coming = i →
        let z := s.setFabPort p.val { x.next (o.map (·.1.val)) (i.map (·.1.val)) with arriving := [] }
        let sent := match o with | some o => z.sendOut o.2.1 o.2.2 | none => z
        let come := match i with | some i => flitIn i.1 x.arriving | none => x.arriving
        sent.deliverAll p.val come = (rest, v) → exec (.fabricFlitSlot p) s =
          .next (v.setFabPort p.val { v.fabPort p.val with arriving := rest ++ (v.fabPort p.val).arriving }))) ∧
    (∀ (α : Type) (p : FabPort) (inward : Bool) (rs : List (Fin 32 × α)),
      let gone (i : Nat) : Nat := if inward then (p.share i).inUsed else (p.share i).used
      let inRow (i : Nat) : Nat := if inward then (p.share i).inRun else (p.share i).run
      (∀ (l : List (Fin 32 × α)) (r : Fin 32 × α) (m : List (Fin 32 × α)), rs = l ++ r :: m → gone r.1.val < (p.share r.1.val).share →
        (∀ q : Fin 32 × α, q ∈ l → (p.share q.1.val).share ≤ gone q.1.val) →
        p.pick inward rs = some r) ∧
      ((∀ q ∈ rs, (p.share q.1.val).share ≤ gone q.1.val) →
        (256 - p.shared ≤ p.above inward → p.pick inward rs = none) ∧
        (p.above inward < 256 - p.shared →
          (∀ (l : List (Fin 32 × α)) (r : Fin 32 × α) (m : List (Fin 32 × α)), rs = l ++ r :: m → inRow r.1.val < (p.share r.1.val).burst →
            (∀ q : Fin 32 × α, q ∈ l → (p.share q.1.val).burst ≤ inRow q.1.val) →
            p.pick inward rs = some r) ∧
          ((∀ q ∈ rs, (p.share q.1.val).burst ≤ inRow q.1.val) → p.pick inward rs = none)))) ∧
    (∀ (p : FabPort) (o i : Option Nat) (n : Nat),
      let after (x : FabShare) : FabShare := { x with
        used := if some n = o then x.used + 1 else x.used
        run := if some n = o ∧ x.share ≤ x.used then x.run + 1 else 0
        inUsed := if some n = i then x.inUsed + 1 else x.inUsed
        inRun := if some n = i ∧ x.share ≤ x.inUsed then x.inRun + 1 else 0 }
      (p.slot + 1 < 256 → (p.next o i).slot = p.slot + 1 ∧ mapGet (p.next o i).shares n = (mapGet p.shares n).map after) ∧
      (256 ≤ p.slot + 1 → (p.next o i).slot = 0 ∧
        mapGet (p.next o i).shares n = (mapGet p.shares n).map fun x => { after x with used := 0, inUsed := 0 })) ∧
    (∀ (sl : Fin 32) (m : FabIn) (t : List FabIn),
      (m.slice = sl → m.flits ≠ 0 → flitIn sl (m :: t) = { m with flits := m.flits - 1 } :: t) ∧
      (m.slice ≠ sl ∨ m.flits = 0 → flitIn sl (m :: t) = m :: flitIn sl t)) ∧
    (∀ id r, s.fabOut id = some r → (s.sendOut id false).fabOuts = s.fabOuts.map (fun y => if y.id = r.id then
        { y with flits := y.flits - 1, tick := s.girth, sent := if y.flits ≤ 1 then some s.girth else none } else y) ∧
      s.sameBytes (s.sendOut id false)) ∧
    (∀ no r, (s.fabBack.find? fun y => decide (y.no = no)) = some r →
      (r.flits ≤ 1 → s.sendOut no true =
        { s with fabBack := s.fabBack.filter (fun y => decide (y.no ≠ r.no)), fabSent := s.fabSent ++ [(r.no, r.ans)] }) ∧
      (1 < r.flits → s.sendOut no true = { s with
        fabBack := s.fabBack.map fun y => if y.no = r.no then { y with flits := y.flits - 1 } else y })) ∧
    (∀ (p : Nat) (m : FabIn) (t rest : List FabIn) (v : State),
      s.deliverAll p [] = ([], s) ∧
      (m.flits ≠ 0 ∨ s.deliver p m = none → s.deliverAll p t = (rest, v) → s.deliverAll p (m :: t) = (m :: rest, v)) ∧
      ∀ u, m.flits = 0 → s.deliver p m = some u → s.deliverAll p (m :: t) = u.deliverAll p t) ∧
    (∀ (p : Nat) (sl : Fin 32) (n id : Nat),
      let trap (u : State) (r : FabOut) (kind : Nat) (v : Word) : State :=
        match r.queue, (u.dropFab r.id).loadOf r.core r.seq r.strm r.load with
        | none, some l => (u.dropFab r.id).trapLoad r.core r.seq r.strm l ⟨kind, r.peer, v, r.va⟩
        | queue, _ => (u.dropFab r.id).trapReq r.core r.seq r.strm queue ⟨kind, r.peer, v, r.va⟩ r.word r.hdr r.woff
      (s.fabOut id = none → (∀ data, s.deliver p ⟨sl, n, .reply id data⟩ = some s) ∧ ∀ kind v, s.deliver p ⟨sl, n, .trap id kind v⟩ = some s) ∧
      (∀ r kind v, s.fabOut id = some r → s.deliver p ⟨sl, n, .trap id kind v⟩ = some (trap s r kind v)) ∧
      (∀ r data, s.fabOut id = some r →
        let done := s.deliver p ⟨sl, n, .reply id data⟩
        (∀ a b, r.req = .read a b → done = some ((s.dropFab r.id).fill r.core r.seq r.strm r.queue (r.load.getD 0) r.off r.id data)) ∧
        (∀ a bs, r.req = .write a bs → done = some (s.dropFab r.id)) ∧
        (∀ a op et bs, r.req = .atomic a op et bs → done = some (s.dropFab r.id)) ∧
        ∀ a et cm bs, r.req = .swap a et cm bs → ∃ v, done = some v ∧
          (v.core r.core).spad = spadPut (s.core r.core).spad r.off (data.map some) ∧ v.fabOuts = (s.dropFab r.id).fabOuts) ∧
      (∀ r, s.fabOut id = some r → ∀ t, r.sent = some t →
        (t + 2 ^ 22 ≤ s.girth → exec (.fabricLinkTimeout id) s = .next (trap s r 13 0)) ∧
        (s.girth < t + 2 ^ 22 → exec (.fabricLinkTimeout id) s = .next s)) ∧
      ∀ (a : Asker) (r : FabReq),
        let done := s.deliver p ⟨sl, n, .ask a r⟩
        let place := s.fabAddr sl (fabReqAddr r) (fabReqNeed r)
        (s.movedSlice sl = true → done = some { s with fabHeld := s.fabHeld ++ [(sl, a, r)] }) ∧
        (s.movedSlice sl = false → a.epoch ≠ s.ownEpoch → done = some (s.newId.2.fabAnswer s.newId.1 sl p none)) ∧
        (s.movedSlice sl = false → a.epoch = s.ownEpoch →
          (∀ to_, place = .ok to_ → done = some (s.fabServe sl p r to_)) ∧ (place = .wait → done = none) ∧ (place = .fail → done = some s))) ∧
    (∀ (id : Nat),
      let arrives (port : Nat) (m : FabIn) : Out := .next (s.setFabPort port { s.fabPort port with arriving := (s.fabPort port).arriving ++ [m] })
      (s.fabOut id = none → exec (.staleEpochReply id) s = .next s ∧ exec (.noTargetReply id) s = .next s ∧
        exec (.fabricLinkTimeout id) s = .next s ∧ ∀ data, exec (.fabricReply id data) s = .next s) ∧
      (∀ r, s.fabOut id = some r →
        let lost := r.sent = none ∨ (s.fabPort r.port).hasReply r.id = true ∨ (s.die (Fin.ofNat 4 (r.port / 6))).offline = true
        (∀ data, data.length ≠ r.back → exec (.fabricReply id data) s = .fault .badInput) ∧
        (r.sent = none → exec (.fabricLinkTimeout id) s = .next s) ∧
        (lost → exec (.staleEpochReply id) s = .next s ∧ exec (.noTargetReply id) s = .next s ∧
          ∀ data, data.length = r.back → exec (.fabricReply id data) s = .next s) ∧
        (¬ lost → exec (.staleEpochReply id) s = arrives r.port ⟨r.ctx.slice, 1, .trap id 12 (BitVec.ofNat 64 r.epoch)⟩ ∧
          exec (.noTargetReply id) s = arrives r.port ⟨r.ctx.slice, 1, .trap id 16 (BitVec.ofNat 64 r.addr)⟩ ∧
          ∀ data, data.length = r.back → exec (.fabricReply id data) s = arrives r.port ⟨r.ctx.slice, flitsOf data.length, .reply id data⟩)) ∧
      ∀ sl (a : Asker) (r : FabReq),
        let port := s.askPort sl a r
        (sl ∉ s.fabMap ∨ (s.die (Fin.ofNat 4 (port / 6))).offline = true → exec (.fabricRequest sl a r) s = .next s) ∧
        (sl ∈ s.fabMap → (s.die (Fin.ofNat 4 (port / 6))).offline = false →
          exec (.fabricRequest sl a r) s = arrives port ⟨sl, fabFlits r, .ask a r⟩)) ∧
    ∀ id,
      ((∀ r ∈ s.hostReads, r.id ≠ id) → exec (.pcieCompletionTimeout id) s = .next s ∧ ∀ data, exec (.hostReadCompletion id data) s = .next s) ∧
      ∀ r, (s.hostReads.find? fun r => decide (r.id = id)) = some r →
        let u : State := { s with hostReads := s.hostReads.filter fun x => decide (x.id ≠ r.id) }
        let info : TrapInfo := ⟨10, 1, 0, r.va⟩
        let fails (t : State) : Prop := exec (.pcieCompletionTimeout id) s = .next t ∧ exec (.hostReadCompletion id none) s = .next t
        (∀ bs, bs.length = r.n → exec (.hostReadCompletion id (some bs)) s = .next (u.fill r.core r.seq r.strm r.queue r.load r.off id bs)) ∧
        (∀ bs, bs.length ≠ r.n → exec (.hostReadCompletion id (some bs)) s = .fault .badInput) ∧
        (∀ n, r.queue = some n → fails (u.trapQueue r.core n info)) ∧
        (r.queue = none →
          (∀ l, ((s.strm r.core r.seq r.strm).loads.find? fun l => decide (l.id = r.load)) = some l → fails (u.trapLoad r.core r.seq r.strm l info)) ∧
          (((s.strm r.core r.seq r.strm).loads.find? fun l => decide (l.id = r.load)) = none → fails u))

/-! ## The whole machine -/

/-- Every word, command and event ends in a next state, and so does every step, but for a completion or an answer of the host or of a peer
that brings another number of bytes than was asked for, which is a fault of what is given to the machine. Nothing is refused. That an
event outside its conditions leaves the state and the fault for a wrong number of bytes are the model's: log entries 70 and 71. -/
def Obligations.EverythingGoesOn : Prop :=
  (∀ (i : Instr) (s : State), Goes (exec i s) ∨ (exec i s = .fault .badInput ∧
    ((∃ id bs r, i = .hostReadCompletion id (some bs) ∧ r ∈ s.hostReads ∧ r.id = id ∧ bs.length ≠ r.n) ∨
     (∃ id bs r, i = .fabricReply id bs ∧ r ∈ s.fabOuts ∧ r.id = id ∧ bs.length ≠ r.back)))) ∧
  ∀ (s : State), Goes (step s) ∨ ∃ i, s.nextAct.1 = .ev i ∧ step s = .fault .badInput

/-- R13, R23, R62, R65, R121, R125, R144, R149, R156, R222, R223, R289: a step takes one act. An event runs the meaning of its instruction; a
script act runs the word at the program counter of the run at the head of its context's queue; a tick lets every clock run. In an issue
cycle of a sequencer a word runs when none has issued in the cycle and no bubble is open: the word at a stream's program counter is decoded by
its stream and given its meaning on that stream's behalf; one that does not decode traps with kind 1 and its cause, one that is not in
instruction memory stalls, and one that was struck issues again. When both
streams have a word, one that would stall leaves the cycle to the other, and of two that would not the one whose turn it is runs, C first. Of
the acts before the next tick the one that runs is one that no other goes before: sequencers issue by core and number, MRD and the copy engines
come before other commits, ACSET before the credits, a grant before UNCINCH and a retire, and what may trap before a stop. That a
step takes one act from a list, and which stream goes first, are the model's: log entries 2 and 7. -/
def Obligations.StepRunsDecodedWord : Prop :=
  ∀ (s : State),
    (s.agenda = [] → s.girthOn = false → s.nextAct = (.tick, [])) ∧
    (∀ a t b rest, s.agenda = a :: t → s.nextAct = (b, rest) →
      List.Perm (a :: t) (b :: rest) ∧ ∀ x ∈ (a :: t).takeWhile (fun y => decide (y ≠ .tick)), s.goesBefore x b = false) ∧
    (∀ (c d : CoreId) (q r : SeqId) (m n : CqId),
      let commit (c : CoreId) (q : SeqId) : Act := .ev (.heldEffectCommit c q)
      let head (c : CoreId) (q : SeqId) (opc : Nat) : Prop := ∃ h l, (s.seq c q).held = h :: l ∧ h.word.toNat / 2 ^ 74 % 1024 = opc
      (c < d ∨ (c = d ∧ q < r) → s.goesBefore (.issue c q) (.issue d r) = true) ∧
      (m.val < 4 → 4 ≤ n.val → s.goesBefore (.ev (.copyUnit c m)) (.ev (.copyUnit d n)) = true) ∧
      (head c q 0x206 → s.goesBefore (commit c q) (.ev (.copyUnit d n)) = true) ∧
      (head c q 0x288 → s.goesBefore (commit c q) (.ev (.copyUnit d n)) = true) ∧
      (¬ head c q 0x206 → ¬ head c q 0x288 → s.goesBefore (.ev (.copyUnit d n)) (commit c q) = true) ∧
      (head c q 0x201 → s.goesBefore (.ev (.cinchGrant c)) (commit c q) = true ∧ s.goesBefore (.issue d r) (commit c q) = true) ∧
      s.goesBefore (.ev (.cinchGrant c)) (.ev (.groupRetire d r)) = true ∧
      (∀ k, s.goesBefore (commit c q) (.ev (.stop k)) = true ∧ s.goesBefore (.issue c q) (.ev (.stop k)) = true ∧
        s.goesBefore (.ev (.copyUnit c m)) (.ev (.stop k)) = true ∧ (∀ i, s.goesBefore (.ev (.fabricLinkTimeout i)) (.ev (.stop k)) = true) ∧
        ∀ i j, s.goesBefore (.ev (.dataReturn c q i j)) (.ev (.stop k)) = true)) ∧
    (∀ rest, s.nextAct = (.tick, rest) → ∃ t, step s = .next t ∧ t.agenda = rest ∧
      t.girth = s.girth + (if s.girthOn then 1 else 0) ∧ t.acks = s.acks.filter (fun p => decide (s.girth < p.2)) ∧
      ∀ c, (t.core c).cyc = (s.core c).cyc + (if (s.core c).stretched = true ∧ (s.core c).half = false then 0 else 1)) ∧
    (∀ i rest, s.nextAct = (.ev i, rest) →
      let z : State := { s with agenda := rest }
      (Instr.isWord i = true → step s = .next z) ∧ (Instr.isWord i = false → step s = exec i z)) ∧
    (∀ d k rest, s.nextAct = (.script d k, rest) →
      let z : State := { s with agenda := rest }
      (s.runsOf d k = [] → step s = .next z) ∧
      ∀ r t, s.runsOf d k = r :: t →
        (r.started = false ∨ r.script[r.pc]? = none → step s = .next z) ∧
        ∀ w, r.started = true → r.script[r.pc]? = some w → (decodeScript w = none → step s = .next z) ∧
          ∀ i, decodeScript w = some i → step s = exec i (z.asScript d k)) ∧
    ∀ (c : CoreId) (q : SeqId) (rest : List Act), s.nextAct = (.issue c q, rest) →
      let z := ({ s with agenda := rest } : State).onIssue c
      let tries (u : State) (st : Strm) : Out :=
        match (u.seq c q).nextAgain st with
        | some w => .next (u.issueAgain c q w)
        | none =>
          match u.curWord c (u.strm c q st) with
          | none => .next (u.stallStream c q st 0 7)
          | some w =>
            match decode st (u.seq c q).resident w with
            | .ok i => exec i (u.asStream c q st)
            | .error n => .next (u.trapStream c q st ⟨1, n, 0, 0⟩ w)
      (∀ st, ((z.seq c q).nextAgain st = none → z.canTry c q st = z.atWord c q st) ∧
        ∀ w, (z.seq c q).nextAgain st = some w → (z.canTry c q st = true ↔ z.alive c = true ∧ (z.seq c q).st = .run)) ∧
      (z.issueOpen c q = true ↔
        (z.seq c q).lastIssue ≠ some (z.core c).cyc ∧ (z.seq c q).bubble ≤ (z.core c).cyc ∧ (z.core c).half = false) ∧
      (z.issueOpen c q = false → step s = .next z) ∧
      (z.issueOpen c q = true →
        (z.canTry c q .a = false → z.canTry c q .c = false → step s = .next z) ∧
        (∀ st, z.canTry c q st = true → z.canTry c q st.sibling = false → step s = tries z st) ∧
        (z.canTry c q .a = true → z.canTry c q .c = true →
          let p := match (z.seq c q).alt with
            | none => Strm.c
            | some y => y.sibling
          (outReady (tries z .c) c q .c = true → outReady (tries z .a) c q .a = true →
            step s = tries (z.modSeq c q fun x => { x with alt := some p }) p) ∧
          (∀ u, outReady (tries z .c) c q .c = false → tries z .c = .next u → step s = tries u .a) ∧
          ∀ u, outReady (tries z .c) c q .c = true → outReady (tries z .a) c q .a = false → tries z .a = .next u → step s = tries u .c))

/-- The spec's Reset columns (R12), as state: the Girth count held at 0 (R3), no slice and no context; every core unbound, its Cinch free
with the search beginning at sequencer 0 (R126), LEASE 16 and PACE 0 (R96), the margin, replay and droop registers (R272, R273, R276), the
monitors (R293), the rings, arrival counters and barriers of R147, R150 and R154; in every sequencer SLIP 8, PWDIST 0x4000, flags and the record's
registers 0 and the queues empty (R55, R64, R72, R205); on every die no vote and the thresholds of R279 and R281; ACTCFG and the calendar
positions of R178 and R175, the die-cache ways and buckets of R172 and R173; a free frame (R257); the function registers (R284). That the
memories are in canonical form then is the model's own form. -/
def Obligations.ResetState : Prop :=
  let s := State.reset
  s.memOk = true ∧ s.girth = 0 ∧ s.girthOn = false ∧ s.agenda = [] ∧
  (∀ n, s.slice? n = none) ∧
  (∀ c, let k := s.core c
    k.bind = none ∧ k.ctx = none ∧ k.cyc = 0 ∧ k.lease = 16 ∧ k.cinchH = 3 ∧
    k.bstep = 0 ∧ k.btop = 15 ∧ k.margin = 0 ∧ k.qreq = false ∧ k.guar = true ∧
    k.esc = 0 ∧ k.count = 0 ∧ k.limit = 1024 ∧ k.vth = 30 ∧ k.stepth = 96 ∧
    (∀ i (h : i < 4), k.pace[i] = 0 ∧ k.cinch[i] = .free) ∧
    (∀ i (h : i < 8), k.mons[i].sel = 0 ∧ k.mons[i].ix = 0 ∧ ∀ j (h : j < 19), k.mons[i].items[j] = 0) ∧
    (∀ i (h : i < 64), let r := k.rings[i]
      r.clm = 0 ∧ r.pub = 0 ∧ r.tkn = 0 ∧ r.fre = 0 ∧ r.nslot = 0 ∧ r.slotr = 0 ∧ r.base = 0 ∧ k.acs[i].tgt = 0 ∧ k.acs[i].count = 0) ∧
    (∀ i (h : i < 16), k.bars[i].gen = 0 ∧ k.bars[i].arr = 0 ∧ k.bars[i].n = 1) ∧
    ∀ q, let x := s.seq c q
      x.slip = 8 ∧ x.flags = 0 ∧ x.grpid = 0 ∧ x.frame = 0 ∧ x.deadln = 0 ∧ x.fq = [] ∧
      (∀ i (h : i < 8), x.dq[i] = []) ∧ (∀ i (h : i < 4), x.bq[i] = []) ∧
      ∀ st, (x.strm st).pwdist = 0x4000 ∧ (x.strm st).ne = 0 ∧ (x.strm st).nr = 0) ∧
  (∀ d, let x := s.die d
    x.twarn = 95 ∧ x.temerg = 105 ∧ x.tnow = 0 ∧ (∀ i (h : i < 32), x.votes[i] = 0 ∧ x.dcway[i] = 0) ∧
    ∀ p k, (x.bucket p k).depth = 0 ∧ (x.bucket p k).rate = 0) ∧
  (∀ n, (s.chan n).bowin = 8 ∧ (s.chan n).actth = 4096 ∧ ∀ p, (s.chan n).ownerOf p = p) ∧
  (∀ f, allocState (s.allocGet f) = 0 ∧ allocClr (s.allocGet f) = true) ∧
  ∀ f, let b := s.fn f
    (∀ i (h : i < 64), b.cmd[i] = 0) ∧ b.status = 0 ∧ b.busy = false ∧ b.ovr = false ∧ b.result = 0 ∧ b.winCtx = 0 ∧ b.winBase = 0

/-- Words written out from the encodings of R98 to R123, and what they stand for on the C-stream: a scalar immediate, a vector word with
its wait, its governing mask and its rounding, a tile command on two addresses, a copy command with its counter, a mask word, a ring word
that waits for a filled slot, a store with its order and scope, a branch and a trap. -/
def Obligations.DecodeSanity : Prop :=
  decode .c true 0x000114183FFFFFFFF0000000 = .ok (.xori ⟨.none, .x 3, .x 3, 0xFFFFFFFF⟩) ∧
  decode .c true 0x2075000A02E82FFCC4800000 = .ok (.vfadd ⟨.filled 7, 10, .v 11, .dq 2, 3, .bf16⟩ (.fixed .rtz)) ∧
  decode .c true 0xA05808A28580040000000000 = .ok (.mma ⟨.idle 5, 5, .x 10, .x 11, 4, false⟩) ∧
  decode .c true 0x000901081228006000000000 = .ok (.xcopy ⟨.none, 2, .x 8, .x 9, .x 10, some 3⟩) ∧
  decode .c true 0x000A3C000070000060000000 = .ok (.kset .none 3 (.x 7)) ∧
  decode .c true 0x203A180C2800000000000000 = .ok (.rtake ⟨.filled 3, 3, .x 5⟩) ∧
  decode .c true 0x0003041415FC00020D300000 = .ok (.st ⟨.none, .x 20, .x 10, .xz, 8, .d, .rel, .p⟩) ∧
  decode .c true 0x00020027F17FFFFFFE400000 = .ok (.b ⟨.none, .x 4, .xz, .ne, .lk, 0xFFFFFFF9⟩) ∧
  decode .c true 0x00021C00000000000A800000 = .ok (.trap .none 42) ∧
  decode .a true 0x2075000A02E82FFCC4800000 = .error 3

/-- R98 to R123: every word that a stream may hold has an encoding, and decoding it gives the word back, with every operand. -/
def Obligations.DecodeEncode : Prop :=
  ∀ (st : Strm) (resident : Bool) (i : Instr), i.inStream = true → i.wf st resident = true → ∃ w, encode i = some w ∧ decode st resident w = .ok i

/-- R98 to R123, R121: a word that decodes is well-formed and is the encoding of what it decodes to: no bit of it is ignored. -/
def Obligations.EncodeDecode : Prop :=
  ∀ (st : Strm) (resident : Bool) (w : IWord) (i : Instr), decode st resident w = .ok i → i.wf st resident = true ∧ encode i = some w

/-- Every step keeps the memories of the package in their canonical form: device memory as each die has it, host memory, scratchpads, tiles and
vector registers. The form is the model's own; that equal memories are equal data rests on it. -/
def Obligations.MemoryStaysCanonical : Prop := ∀ (s t : State), s.memOk = true → step s = .next t → t.memOk = true
end

