-- ==== Sys2Proof/Laws/Tbl.lean ====
section
/-!
SUPPORT. Sparse tables: what a read gives after a write, and that every write keeps the canonical form.
-/
namespace Sys2Proof.Machine

variable {α : Type} [DecidableEq α] {d v : α} {t : List (Nat × α)} {i j lo hi : Nat}

theorem tblWfFrom_cons {k : Nat} {w : α} :
    tblWfFrom d lo ((k, w) :: t) = true ↔ lo ≤ k ∧ w ≠ d ∧ tblWfFrom d (k + 1) t = true := by
  simp [tblWfFrom, and_assoc]

/-- A canonical form from one key is one from every lower key. -/
theorem tblWfFrom_mono (h : tblWfFrom d lo t = true) (hl : i ≤ lo) : tblWfFrom d i t = true := by
  cases t with
  | nil => rfl
  | cons p t => obtain ⟨k, w⟩ := p; rw [tblWfFrom_cons] at h ⊢; exact ⟨by omega, h.2⟩

theorem tblWfFrom_tblSet (h : tblWfFrom d lo t = true) (hl : lo ≤ i) : tblWfFrom d lo (tblSet d t i v) = true := by
  induction t generalizing lo with
  | nil => simp only [tblSet]; split <;> simp_all [tblWfFrom]
  | cons p t ih =>
    obtain ⟨k, w⟩ := p
    rw [tblWfFrom_cons] at h
    simp only [tblSet]
    split
    · split
      · exact tblWfFrom_cons.2 h
      · exact tblWfFrom_cons.2 ⟨hl, ‹_›, tblWfFrom_cons.2 ⟨by omega, h.2⟩⟩
    · split
      · split
        · exact tblWfFrom_mono h.2.2 (by omega)
        · exact tblWfFrom_cons.2 ⟨h.1, ‹_›, h.2.2⟩
      · exact tblWfFrom_cons.2 ⟨h.1, h.2.1, ih h.2.2 (by omega)⟩

/-- A write keeps the canonical form. -/
theorem tblWf_tblSet (h : tblWf d t = true) : tblWf d (tblSet d t i v) = true := tblWfFrom_tblSet h (Nat.zero_le _)

theorem tblWf_tblSetRun (vs : List α) (h : tblWf d t = true) : tblWf d (tblSetRun d t i vs) = true := by
  induction vs generalizing t i with
  | nil => exact h
  | cons v vs ih => exact ih (tblWf_tblSet h)

theorem tblWfFrom_filter (p : Nat × α → Bool) (h : tblWfFrom d lo t = true) : tblWfFrom d lo (t.filter p) = true := by
  induction t generalizing lo with
  | nil => rfl
  | cons q t ih =>
    obtain ⟨k, w⟩ := q
    rw [tblWfFrom_cons] at h
    rw [List.filter_cons]
    split
    · exact tblWfFrom_cons.2 ⟨h.1, h.2.1, ih h.2.2⟩
    · exact tblWfFrom_mono (ih h.2.2) (by omega)

theorem tblWf_tblClear (h : tblWf d t = true) : tblWf d (tblClear t lo hi) = true := tblWfFrom_filter _ h

theorem tblGet_lt_wf (h : tblWfFrom d lo t = true) (hi : i < lo) : tblGet d t i = d := by
  cases t with
  | nil => rfl
  | cons p t => obtain ⟨k, w⟩ := p; rw [tblWfFrom_cons] at h; simp only [tblGet]; rw [if_neg (by omega), if_pos (by omega)]

theorem tblGet_tblSet_from (h : tblWfFrom d lo t = true) :
    tblGet d (tblSet d t i v) j = if j = i then v else tblGet d t j := by
  induction t generalizing lo with
  | nil => simp only [tblSet]; split <;> simp_all [tblGet]
  | cons p t ih =>
    obtain ⟨k, w⟩ := p
    rw [tblWfFrom_cons] at h
    have hk : ∀ n, n < k + 1 → tblGet d t n = d := fun n hn => tblGet_lt_wf h.2.2 hn
    simp only [tblSet]
    split
    · split <;> simp only [tblGet] <;> by_cases hj : j = i <;> simp_all <;> (try split) <;> (try split) <;> (try omega) <;> simp_all <;> (try omega)
    · split
      · subst_vars
        split
        · simp only [tblGet]
          by_cases hj : j = k
          · subst hj; simp_all
          · simp only [hj, if_false]
            split
            · exact hk _ (by omega)
            · rfl
        · simp only [tblGet]; by_cases hj : j = k <;> simp [hj]
      · simp only [tblGet, ih h.2.2]
        by_cases hj : j = i
        · subst hj
          rw [if_neg ‹_›, if_neg ‹_›, if_pos rfl, if_pos rfl]
        · simp [hj]

/-- A read after a write to a canonical table. -/
theorem tblGet_tblSet (h : tblWf d t = true) : tblGet d (tblSet d t i v) j = if j = i then v else tblGet d t j :=
  tblGet_tblSet_from h

theorem tblWfFrom_tblSlice (h : tblWfFrom d i t = true) : tblWfFrom d (i - lo) (tblSlice t lo hi) = true := by
  induction t generalizing i with
  | nil => rfl
  | cons q t ih =>
    obtain ⟨k, w⟩ := q
    rw [tblWfFrom_cons] at h
    have ih := ih h.2.2
    simp only [tblSlice, List.filter_cons] at ih ⊢
    split
    · rename_i hc
      simp only [Bool.and_eq_true, decide_eq_true_eq] at hc
      rw [List.map_cons]
      exact tblWfFrom_cons.2 ⟨by omega, h.2.1, tblWfFrom_mono ih (by omega)⟩
    · exact tblWfFrom_mono ih (by omega)

/-- A slice of a canonical table is canonical. -/
theorem tblWf_tblSlice (h : tblWf d t = true) : tblWf d (tblSlice t lo hi) = true := by
  have := tblWfFrom_tblSlice (lo := lo) (hi := hi) h
  rwa [Nat.zero_sub] at this

/-- Pasting a slice keeps the canonical form. -/
theorem tblWf_tblPaste {base len : Nat} {cells : List (Nat × α)} (h : tblWf d t = true) :
    tblWf d (tblPaste d t base len cells) = true := by
  simp only [tblPaste]
  generalize cells.filter (fun p => decide (p.1 < len)) = l
  have h2 : tblWf d (tblClear t base (base + len)) = true := tblWf_tblClear h
  induction l generalizing t with
  | nil => exact h2
  | cons p l ih =>
    rw [List.foldl_cons]
    generalize tblClear t base (base + len) = m at h2 ⊢
    have : ∀ (l : List (Nat × α)) m, tblWf d m = true → tblWf d (l.foldl (fun m p => tblSet d m (base + p.1) p.2) m) = true := by
      intro l
      induction l with
      | nil => exact fun _ h => h
      | cons p l ih => exact fun m h => ih _ (tblWf_tblSet h)
    exact this l _ (tblWf_tblSet h2)

/-- What a run of writes leaves at a key. -/
theorem tblGet_tblSetRun (vs : List α) (h : tblWf d t = true) :
    tblGet d (tblSetRun d t i vs) j = if i ≤ j ∧ j < i + vs.length then vs.getD (j - i) d else tblGet d t j := by
  induction vs generalizing t i with
  | nil => simp only [tblSetRun, List.length_nil]; rw [if_neg (by omega)]
  | cons v vs ih =>
    simp only [tblSetRun, ih (tblWf_tblSet h), tblGet_tblSet h, List.length_cons]
    by_cases h1 : j = i
    · subst h1; rw [if_neg (by omega), if_pos rfl, if_pos (by omega)]; simp
    · by_cases h2 : i + 1 ≤ j ∧ j < i + 1 + vs.length
      · rw [if_pos h2, if_pos (by omega)]
        have : j - i = j - (i + 1) + 1 := by omega
        simp [this]
      · rw [if_neg h2, if_neg h1, if_neg (by omega)]

/-! ## Keyed lists -/

omit [DecidableEq α] in
@[simp] theorem mapGet_mapPut (t : List (Nat × α)) (i j : Nat) (v : α) :
    mapGet (mapPut t i v) j = if j = i then some v else mapGet t j := by
  induction t with
  | nil => rfl
  | cons p t ih =>
    obtain ⟨k, w⟩ := p
    simp only [mapPut]
    split
    · rfl
    · split
      · subst_vars; simp only [mapGet]; split <;> rfl
      · simp only [mapGet, ih]
        by_cases h : j = k
        · subst h; rw [if_pos rfl, if_pos rfl, if_neg]; exact fun h => ‹¬i = j› h.symm
        · rw [if_neg h, if_neg h]

end Sys2Proof.Machine
end

