-- ==== Sys2Proof/Laws/State.lean ====
section
/-!
SUPPORT. What each update of a record leaves alone and what a read gives after it: one lemma for each field and update.
-/
namespace Sys2Proof.Machine

/-! ## One unit of the package -/

@[simp] theorem State.setCore_agenda (s : State) (c : CoreId) (k : Core) : (s.setCore c k).agenda = s.agenda := rfl
@[simp] theorem State.setCore_cur (s : State) (c : CoreId) (k : Core) : (s.setCore c k).cur = s.cur := rfl
@[simp] theorem State.setCore_freeCtr (s : State) (c : CoreId) (k : Core) : (s.setCore c k).freeCtr = s.freeCtr := rfl
@[simp] theorem State.setCore_nextId (s : State) (c : CoreId) (k : Core) : (s.setCore c k).nextId = s.nextId := rfl
@[simp] theorem State.setCore_girth (s : State) (c : CoreId) (k : Core) : (s.setCore c k).girth = s.girth := rfl
@[simp] theorem State.setCore_girthOn (s : State) (c : CoreId) (k : Core) : (s.setCore c k).girthOn = s.girthOn := rfl
@[simp] theorem State.setCore_linksUp (s : State) (c : CoreId) (k : Core) : (s.setCore c k).linksUp = s.linksUp := rfl
@[simp] theorem State.setCore_pfVisible (s : State) (c : CoreId) (k : Core) : (s.setCore c k).pfVisible = s.pfVisible := rfl
@[simp] theorem State.setCore_thefort (s : State) (c : CoreId) (k : Core) : (s.setCore c k).thefort = s.thefort := rfl
@[simp] theorem State.setCore_dies (s : State) (c : CoreId) (k : Core) : (s.setCore c k).dies = s.dies := rfl
@[simp] theorem State.setCore_channels (s : State) (c : CoreId) (k : Core) : (s.setCore c k).channels = s.channels := rfl
@[simp] theorem State.setCore_fabPorts (s : State) (c : CoreId) (k : Core) : (s.setCore c k).fabPorts = s.fabPorts := rfl
@[simp] theorem State.setCore_slices (s : State) (c : CoreId) (k : Core) : (s.setCore c k).slices = s.slices := rfl
@[simp] theorem State.setCore_fns (s : State) (c : CoreId) (k : Core) : (s.setCore c k).fns = s.fns := rfl
@[simp] theorem State.setCore_transit (s : State) (c : CoreId) (k : Core) : (s.setCore c k).transit = s.transit := rfl
@[simp] theorem State.setCore_replies (s : State) (c : CoreId) (k : Core) : (s.setCore c k).replies = s.replies := rfl
@[simp] theorem State.setCore_done (s : State) (c : CoreId) (k : Core) : (s.setCore c k).done = s.done := rfl
@[simp] theorem State.setCore_acks (s : State) (c : CoreId) (k : Core) : (s.setCore c k).acks = s.acks := rfl
@[simp] theorem State.setCore_alloc (s : State) (c : CoreId) (k : Core) : (s.setCore c k).alloc = s.alloc := rfl
@[simp] theorem State.setCore_allocOld (s : State) (c : CoreId) (k : Core) : (s.setCore c k).allocOld = s.allocOld := rfl
@[simp] theorem State.setCore_allocRefused (s : State) (c : CoreId) (k : Core) : (s.setCore c k).allocRefused = s.allocRefused := rfl
@[simp] theorem State.setCore_fills (s : State) (c : CoreId) (k : Core) : (s.setCore c k).fills = s.fills := rfl
@[simp] theorem State.setCore_bio (s : State) (c : CoreId) (k : Core) : (s.setCore c k).bio = s.bio := rfl
@[simp] theorem State.setCore_lineGen (s : State) (c : CoreId) (k : Core) : (s.setCore c k).lineGen = s.lineGen := rfl
@[simp] theorem State.setCore_frameGen (s : State) (c : CoreId) (k : Core) : (s.setCore c k).frameGen = s.frameGen := rfl
@[simp] theorem State.setCore_keys (s : State) (c : CoreId) (k : Core) : (s.setCore c k).keys = s.keys := rfl
@[simp] theorem State.setCore_keyCtr (s : State) (c : CoreId) (k : Core) : (s.setCore c k).keyCtr = s.keyCtr := rfl
@[simp] theorem State.setCore_scrub (s : State) (c : CoreId) (k : Core) : (s.setCore c k).scrub = s.scrub := rfl
@[simp] theorem State.setCore_hostMem (s : State) (c : CoreId) (k : Core) : (s.setCore c k).hostMem = s.hostMem := rfl
@[simp] theorem State.setCore_hostReads (s : State) (c : CoreId) (k : Core) : (s.setCore c k).hostReads = s.hostReads := rfl
@[simp] theorem State.setCore_epochs (s : State) (c : CoreId) (k : Core) : (s.setCore c k).epochs = s.epochs := rfl
@[simp] theorem State.setCore_ownEpoch (s : State) (c : CoreId) (k : Core) : (s.setCore c k).ownEpoch = s.ownEpoch := rfl
@[simp] theorem State.setCore_dsets (s : State) (c : CoreId) (k : Core) : (s.setCore c k).dsets = s.dsets := rfl
@[simp] theorem State.setCore_s2q (s : State) (c : CoreId) (k : Core) : (s.setCore c k).s2q = s.s2q := rfl
@[simp] theorem State.setCore_fabOuts (s : State) (c : CoreId) (k : Core) : (s.setCore c k).fabOuts = s.fabOuts := rfl
@[simp] theorem State.setCore_fabBack (s : State) (c : CoreId) (k : Core) : (s.setCore c k).fabBack = s.fabBack := rfl
@[simp] theorem State.setCore_fabSent (s : State) (c : CoreId) (k : Core) : (s.setCore c k).fabSent = s.fabSent := rfl
@[simp] theorem State.setCore_fabWait (s : State) (c : CoreId) (k : Core) : (s.setCore c k).fabWait = s.fabWait := rfl
@[simp] theorem State.setCore_fabMap (s : State) (c : CoreId) (k : Core) : (s.setCore c k).fabMap = s.fabMap := rfl
@[simp] theorem State.setCore_fabHeld (s : State) (c : CoreId) (k : Core) : (s.setCore c k).fabHeld = s.fabHeld := rfl
@[simp] theorem State.setCore_invals (s : State) (c : CoreId) (k : Core) : (s.setCore c k).invals = s.invals := rfl
@[simp] theorem State.setCore_dirtyMax (s : State) (c : CoreId) (k : Core) : (s.setCore c k).dirtyMax = s.dirtyMax := rfl
@[simp] theorem State.setCore_migrating (s : State) (c : CoreId) (k : Core) : (s.setCore c k).migrating = s.migrating := rfl
@[simp] theorem State.setCore_sentCtxs (s : State) (c : CoreId) (k : Core) : (s.setCore c k).sentCtxs = s.sentCtxs := rfl
@[simp] theorem State.setCore_forwarded (s : State) (c : CoreId) (k : Core) : (s.setCore c k).forwarded = s.forwarded := rfl
@[simp] theorem State.setDie_agenda (s : State) (d : DieId) (x : Die) : (s.setDie d x).agenda = s.agenda := rfl
@[simp] theorem State.setDie_cur (s : State) (d : DieId) (x : Die) : (s.setDie d x).cur = s.cur := rfl
@[simp] theorem State.setDie_freeCtr (s : State) (d : DieId) (x : Die) : (s.setDie d x).freeCtr = s.freeCtr := rfl
@[simp] theorem State.setDie_nextId (s : State) (d : DieId) (x : Die) : (s.setDie d x).nextId = s.nextId := rfl
@[simp] theorem State.setDie_girth (s : State) (d : DieId) (x : Die) : (s.setDie d x).girth = s.girth := rfl
@[simp] theorem State.setDie_girthOn (s : State) (d : DieId) (x : Die) : (s.setDie d x).girthOn = s.girthOn := rfl
@[simp] theorem State.setDie_linksUp (s : State) (d : DieId) (x : Die) : (s.setDie d x).linksUp = s.linksUp := rfl
@[simp] theorem State.setDie_pfVisible (s : State) (d : DieId) (x : Die) : (s.setDie d x).pfVisible = s.pfVisible := rfl
@[simp] theorem State.setDie_thefort (s : State) (d : DieId) (x : Die) : (s.setDie d x).thefort = s.thefort := rfl
@[simp] theorem State.setDie_cores (s : State) (d : DieId) (x : Die) : (s.setDie d x).cores = s.cores := rfl
@[simp] theorem State.setDie_channels (s : State) (d : DieId) (x : Die) : (s.setDie d x).channels = s.channels := rfl
@[simp] theorem State.setDie_fabPorts (s : State) (d : DieId) (x : Die) : (s.setDie d x).fabPorts = s.fabPorts := rfl
@[simp] theorem State.setDie_slices (s : State) (d : DieId) (x : Die) : (s.setDie d x).slices = s.slices := rfl
@[simp] theorem State.setDie_fns (s : State) (d : DieId) (x : Die) : (s.setDie d x).fns = s.fns := rfl
@[simp] theorem State.setDie_transit (s : State) (d : DieId) (x : Die) : (s.setDie d x).transit = s.transit := rfl
@[simp] theorem State.setDie_replies (s : State) (d : DieId) (x : Die) : (s.setDie d x).replies = s.replies := rfl
@[simp] theorem State.setDie_done (s : State) (d : DieId) (x : Die) : (s.setDie d x).done = s.done := rfl
@[simp] theorem State.setDie_acks (s : State) (d : DieId) (x : Die) : (s.setDie d x).acks = s.acks := rfl
@[simp] theorem State.setDie_alloc (s : State) (d : DieId) (x : Die) : (s.setDie d x).alloc = s.alloc := rfl
@[simp] theorem State.setDie_allocOld (s : State) (d : DieId) (x : Die) : (s.setDie d x).allocOld = s.allocOld := rfl
@[simp] theorem State.setDie_allocRefused (s : State) (d : DieId) (x : Die) : (s.setDie d x).allocRefused = s.allocRefused := rfl
@[simp] theorem State.setDie_fills (s : State) (d : DieId) (x : Die) : (s.setDie d x).fills = s.fills := rfl
@[simp] theorem State.setDie_bio (s : State) (d : DieId) (x : Die) : (s.setDie d x).bio = s.bio := rfl
@[simp] theorem State.setDie_lineGen (s : State) (d : DieId) (x : Die) : (s.setDie d x).lineGen = s.lineGen := rfl
@[simp] theorem State.setDie_frameGen (s : State) (d : DieId) (x : Die) : (s.setDie d x).frameGen = s.frameGen := rfl
@[simp] theorem State.setDie_keys (s : State) (d : DieId) (x : Die) : (s.setDie d x).keys = s.keys := rfl
@[simp] theorem State.setDie_keyCtr (s : State) (d : DieId) (x : Die) : (s.setDie d x).keyCtr = s.keyCtr := rfl
@[simp] theorem State.setDie_scrub (s : State) (d : DieId) (x : Die) : (s.setDie d x).scrub = s.scrub := rfl
@[simp] theorem State.setDie_hostMem (s : State) (d : DieId) (x : Die) : (s.setDie d x).hostMem = s.hostMem := rfl
@[simp] theorem State.setDie_hostReads (s : State) (d : DieId) (x : Die) : (s.setDie d x).hostReads = s.hostReads := rfl
@[simp] theorem State.setDie_epochs (s : State) (d : DieId) (x : Die) : (s.setDie d x).epochs = s.epochs := rfl
@[simp] theorem State.setDie_ownEpoch (s : State) (d : DieId) (x : Die) : (s.setDie d x).ownEpoch = s.ownEpoch := rfl
@[simp] theorem State.setDie_dsets (s : State) (d : DieId) (x : Die) : (s.setDie d x).dsets = s.dsets := rfl
@[simp] theorem State.setDie_s2q (s : State) (d : DieId) (x : Die) : (s.setDie d x).s2q = s.s2q := rfl
@[simp] theorem State.setDie_fabOuts (s : State) (d : DieId) (x : Die) : (s.setDie d x).fabOuts = s.fabOuts := rfl
@[simp] theorem State.setDie_fabBack (s : State) (d : DieId) (x : Die) : (s.setDie d x).fabBack = s.fabBack := rfl
@[simp] theorem State.setDie_fabSent (s : State) (d : DieId) (x : Die) : (s.setDie d x).fabSent = s.fabSent := rfl
@[simp] theorem State.setDie_fabWait (s : State) (d : DieId) (x : Die) : (s.setDie d x).fabWait = s.fabWait := rfl
@[simp] theorem State.setDie_fabMap (s : State) (d : DieId) (x : Die) : (s.setDie d x).fabMap = s.fabMap := rfl
@[simp] theorem State.setDie_fabHeld (s : State) (d : DieId) (x : Die) : (s.setDie d x).fabHeld = s.fabHeld := rfl
@[simp] theorem State.setDie_invals (s : State) (d : DieId) (x : Die) : (s.setDie d x).invals = s.invals := rfl
@[simp] theorem State.setDie_dirtyMax (s : State) (d : DieId) (x : Die) : (s.setDie d x).dirtyMax = s.dirtyMax := rfl
@[simp] theorem State.setDie_migrating (s : State) (d : DieId) (x : Die) : (s.setDie d x).migrating = s.migrating := rfl
@[simp] theorem State.setDie_sentCtxs (s : State) (d : DieId) (x : Die) : (s.setDie d x).sentCtxs = s.sentCtxs := rfl
@[simp] theorem State.setDie_forwarded (s : State) (d : DieId) (x : Die) : (s.setDie d x).forwarded = s.forwarded := rfl
@[simp] theorem State.setSlice_agenda (s : State) (n : Fin 32) (x : Option Slice) : (s.setSlice n x).agenda = s.agenda := rfl
@[simp] theorem State.setSlice_cur (s : State) (n : Fin 32) (x : Option Slice) : (s.setSlice n x).cur = s.cur := rfl
@[simp] theorem State.setSlice_freeCtr (s : State) (n : Fin 32) (x : Option Slice) : (s.setSlice n x).freeCtr = s.freeCtr := rfl
@[simp] theorem State.setSlice_nextId (s : State) (n : Fin 32) (x : Option Slice) : (s.setSlice n x).nextId = s.nextId := rfl
@[simp] theorem State.setSlice_girth (s : State) (n : Fin 32) (x : Option Slice) : (s.setSlice n x).girth = s.girth := rfl
@[simp] theorem State.setSlice_girthOn (s : State) (n : Fin 32) (x : Option Slice) : (s.setSlice n x).girthOn = s.girthOn := rfl
@[simp] theorem State.setSlice_linksUp (s : State) (n : Fin 32) (x : Option Slice) : (s.setSlice n x).linksUp = s.linksUp := rfl
@[simp] theorem State.setSlice_pfVisible (s : State) (n : Fin 32) (x : Option Slice) : (s.setSlice n x).pfVisible = s.pfVisible := rfl
@[simp] theorem State.setSlice_thefort (s : State) (n : Fin 32) (x : Option Slice) : (s.setSlice n x).thefort = s.thefort := rfl
@[simp] theorem State.setSlice_cores (s : State) (n : Fin 32) (x : Option Slice) : (s.setSlice n x).cores = s.cores := rfl
@[simp] theorem State.setSlice_dies (s : State) (n : Fin 32) (x : Option Slice) : (s.setSlice n x).dies = s.dies := rfl
@[simp] theorem State.setSlice_channels (s : State) (n : Fin 32) (x : Option Slice) : (s.setSlice n x).channels = s.channels := rfl
@[simp] theorem State.setSlice_fabPorts (s : State) (n : Fin 32) (x : Option Slice) : (s.setSlice n x).fabPorts = s.fabPorts := rfl
@[simp] theorem State.setSlice_fns (s : State) (n : Fin 32) (x : Option Slice) : (s.setSlice n x).fns = s.fns := rfl
@[simp] theorem State.setSlice_transit (s : State) (n : Fin 32) (x : Option Slice) : (s.setSlice n x).transit = s.transit := rfl
@[simp] theorem State.setSlice_replies (s : State) (n : Fin 32) (x : Option Slice) : (s.setSlice n x).replies = s.replies := rfl
@[simp] theorem State.setSlice_done (s : State) (n : Fin 32) (x : Option Slice) : (s.setSlice n x).done = s.done := rfl
@[simp] theorem State.setSlice_acks (s : State) (n : Fin 32) (x : Option Slice) : (s.setSlice n x).acks = s.acks := rfl
@[simp] theorem State.setSlice_alloc (s : State) (n : Fin 32) (x : Option Slice) : (s.setSlice n x).alloc = s.alloc := rfl
@[simp] theorem State.setSlice_allocOld (s : State) (n : Fin 32) (x : Option Slice) : (s.setSlice n x).allocOld = s.allocOld := rfl
@[simp] theorem State.setSlice_allocRefused (s : State) (n : Fin 32) (x : Option Slice) : (s.setSlice n x).allocRefused = s.allocRefused := rfl
@[simp] theorem State.setSlice_fills (s : State) (n : Fin 32) (x : Option Slice) : (s.setSlice n x).fills = s.fills := rfl
@[simp] theorem State.setSlice_bio (s : State) (n : Fin 32) (x : Option Slice) : (s.setSlice n x).bio = s.bio := rfl
@[simp] theorem State.setSlice_lineGen (s : State) (n : Fin 32) (x : Option Slice) : (s.setSlice n x).lineGen = s.lineGen := rfl
@[simp] theorem State.setSlice_frameGen (s : State) (n : Fin 32) (x : Option Slice) : (s.setSlice n x).frameGen = s.frameGen := rfl
@[simp] theorem State.setSlice_keys (s : State) (n : Fin 32) (x : Option Slice) : (s.setSlice n x).keys = s.keys := rfl
@[simp] theorem State.setSlice_keyCtr (s : State) (n : Fin 32) (x : Option Slice) : (s.setSlice n x).keyCtr = s.keyCtr := rfl
@[simp] theorem State.setSlice_scrub (s : State) (n : Fin 32) (x : Option Slice) : (s.setSlice n x).scrub = s.scrub := rfl
@[simp] theorem State.setSlice_hostMem (s : State) (n : Fin 32) (x : Option Slice) : (s.setSlice n x).hostMem = s.hostMem := rfl
@[simp] theorem State.setSlice_hostReads (s : State) (n : Fin 32) (x : Option Slice) : (s.setSlice n x).hostReads = s.hostReads := rfl
@[simp] theorem State.setSlice_epochs (s : State) (n : Fin 32) (x : Option Slice) : (s.setSlice n x).epochs = s.epochs := rfl
@[simp] theorem State.setSlice_ownEpoch (s : State) (n : Fin 32) (x : Option Slice) : (s.setSlice n x).ownEpoch = s.ownEpoch := rfl
@[simp] theorem State.setSlice_dsets (s : State) (n : Fin 32) (x : Option Slice) : (s.setSlice n x).dsets = s.dsets := rfl
@[simp] theorem State.setSlice_s2q (s : State) (n : Fin 32) (x : Option Slice) : (s.setSlice n x).s2q = s.s2q := rfl
@[simp] theorem State.setSlice_fabOuts (s : State) (n : Fin 32) (x : Option Slice) : (s.setSlice n x).fabOuts = s.fabOuts := rfl
@[simp] theorem State.setSlice_fabBack (s : State) (n : Fin 32) (x : Option Slice) : (s.setSlice n x).fabBack = s.fabBack := rfl
@[simp] theorem State.setSlice_fabSent (s : State) (n : Fin 32) (x : Option Slice) : (s.setSlice n x).fabSent = s.fabSent := rfl
@[simp] theorem State.setSlice_fabWait (s : State) (n : Fin 32) (x : Option Slice) : (s.setSlice n x).fabWait = s.fabWait := rfl
@[simp] theorem State.setSlice_fabMap (s : State) (n : Fin 32) (x : Option Slice) : (s.setSlice n x).fabMap = s.fabMap := rfl
@[simp] theorem State.setSlice_fabHeld (s : State) (n : Fin 32) (x : Option Slice) : (s.setSlice n x).fabHeld = s.fabHeld := rfl
@[simp] theorem State.setSlice_invals (s : State) (n : Fin 32) (x : Option Slice) : (s.setSlice n x).invals = s.invals := rfl
@[simp] theorem State.setSlice_dirtyMax (s : State) (n : Fin 32) (x : Option Slice) : (s.setSlice n x).dirtyMax = s.dirtyMax := rfl
@[simp] theorem State.setSlice_migrating (s : State) (n : Fin 32) (x : Option Slice) : (s.setSlice n x).migrating = s.migrating := rfl
@[simp] theorem State.setSlice_sentCtxs (s : State) (n : Fin 32) (x : Option Slice) : (s.setSlice n x).sentCtxs = s.sentCtxs := rfl
@[simp] theorem State.setSlice_forwarded (s : State) (n : Fin 32) (x : Option Slice) : (s.setSlice n x).forwarded = s.forwarded := rfl
@[simp] theorem State.setChan_agenda (s : State) (n : Nat) (x : Channel) : (s.setChan n x).agenda = s.agenda := rfl
@[simp] theorem State.setChan_cur (s : State) (n : Nat) (x : Channel) : (s.setChan n x).cur = s.cur := rfl
@[simp] theorem State.setChan_freeCtr (s : State) (n : Nat) (x : Channel) : (s.setChan n x).freeCtr = s.freeCtr := rfl
@[simp] theorem State.setChan_nextId (s : State) (n : Nat) (x : Channel) : (s.setChan n x).nextId = s.nextId := rfl
@[simp] theorem State.setChan_girth (s : State) (n : Nat) (x : Channel) : (s.setChan n x).girth = s.girth := rfl
@[simp] theorem State.setChan_girthOn (s : State) (n : Nat) (x : Channel) : (s.setChan n x).girthOn = s.girthOn := rfl
@[simp] theorem State.setChan_linksUp (s : State) (n : Nat) (x : Channel) : (s.setChan n x).linksUp = s.linksUp := rfl
@[simp] theorem State.setChan_pfVisible (s : State) (n : Nat) (x : Channel) : (s.setChan n x).pfVisible = s.pfVisible := rfl
@[simp] theorem State.setChan_thefort (s : State) (n : Nat) (x : Channel) : (s.setChan n x).thefort = s.thefort := rfl
@[simp] theorem State.setChan_cores (s : State) (n : Nat) (x : Channel) : (s.setChan n x).cores = s.cores := rfl
@[simp] theorem State.setChan_dies (s : State) (n : Nat) (x : Channel) : (s.setChan n x).dies = s.dies := rfl
@[simp] theorem State.setChan_fabPorts (s : State) (n : Nat) (x : Channel) : (s.setChan n x).fabPorts = s.fabPorts := rfl
@[simp] theorem State.setChan_slices (s : State) (n : Nat) (x : Channel) : (s.setChan n x).slices = s.slices := rfl
@[simp] theorem State.setChan_fns (s : State) (n : Nat) (x : Channel) : (s.setChan n x).fns = s.fns := rfl
@[simp] theorem State.setChan_transit (s : State) (n : Nat) (x : Channel) : (s.setChan n x).transit = s.transit := rfl
@[simp] theorem State.setChan_replies (s : State) (n : Nat) (x : Channel) : (s.setChan n x).replies = s.replies := rfl
@[simp] theorem State.setChan_done (s : State) (n : Nat) (x : Channel) : (s.setChan n x).done = s.done := rfl
@[simp] theorem State.setChan_acks (s : State) (n : Nat) (x : Channel) : (s.setChan n x).acks = s.acks := rfl
@[simp] theorem State.setChan_alloc (s : State) (n : Nat) (x : Channel) : (s.setChan n x).alloc = s.alloc := rfl
@[simp] theorem State.setChan_allocOld (s : State) (n : Nat) (x : Channel) : (s.setChan n x).allocOld = s.allocOld := rfl
@[simp] theorem State.setChan_allocRefused (s : State) (n : Nat) (x : Channel) : (s.setChan n x).allocRefused = s.allocRefused := rfl
@[simp] theorem State.setChan_fills (s : State) (n : Nat) (x : Channel) : (s.setChan n x).fills = s.fills := rfl
@[simp] theorem State.setChan_bio (s : State) (n : Nat) (x : Channel) : (s.setChan n x).bio = s.bio := rfl
@[simp] theorem State.setChan_lineGen (s : State) (n : Nat) (x : Channel) : (s.setChan n x).lineGen = s.lineGen := rfl
@[simp] theorem State.setChan_frameGen (s : State) (n : Nat) (x : Channel) : (s.setChan n x).frameGen = s.frameGen := rfl
@[simp] theorem State.setChan_keys (s : State) (n : Nat) (x : Channel) : (s.setChan n x).keys = s.keys := rfl
@[simp] theorem State.setChan_keyCtr (s : State) (n : Nat) (x : Channel) : (s.setChan n x).keyCtr = s.keyCtr := rfl
@[simp] theorem State.setChan_scrub (s : State) (n : Nat) (x : Channel) : (s.setChan n x).scrub = s.scrub := rfl
@[simp] theorem State.setChan_hostMem (s : State) (n : Nat) (x : Channel) : (s.setChan n x).hostMem = s.hostMem := rfl
@[simp] theorem State.setChan_hostReads (s : State) (n : Nat) (x : Channel) : (s.setChan n x).hostReads = s.hostReads := rfl
@[simp] theorem State.setChan_epochs (s : State) (n : Nat) (x : Channel) : (s.setChan n x).epochs = s.epochs := rfl
@[simp] theorem State.setChan_ownEpoch (s : State) (n : Nat) (x : Channel) : (s.setChan n x).ownEpoch = s.ownEpoch := rfl
@[simp] theorem State.setChan_dsets (s : State) (n : Nat) (x : Channel) : (s.setChan n x).dsets = s.dsets := rfl
@[simp] theorem State.setChan_s2q (s : State) (n : Nat) (x : Channel) : (s.setChan n x).s2q = s.s2q := rfl
@[simp] theorem State.setChan_fabOuts (s : State) (n : Nat) (x : Channel) : (s.setChan n x).fabOuts = s.fabOuts := rfl
@[simp] theorem State.setChan_fabBack (s : State) (n : Nat) (x : Channel) : (s.setChan n x).fabBack = s.fabBack := rfl
@[simp] theorem State.setChan_fabSent (s : State) (n : Nat) (x : Channel) : (s.setChan n x).fabSent = s.fabSent := rfl
@[simp] theorem State.setChan_fabWait (s : State) (n : Nat) (x : Channel) : (s.setChan n x).fabWait = s.fabWait := rfl
@[simp] theorem State.setChan_fabMap (s : State) (n : Nat) (x : Channel) : (s.setChan n x).fabMap = s.fabMap := rfl
@[simp] theorem State.setChan_fabHeld (s : State) (n : Nat) (x : Channel) : (s.setChan n x).fabHeld = s.fabHeld := rfl
@[simp] theorem State.setChan_invals (s : State) (n : Nat) (x : Channel) : (s.setChan n x).invals = s.invals := rfl
@[simp] theorem State.setChan_dirtyMax (s : State) (n : Nat) (x : Channel) : (s.setChan n x).dirtyMax = s.dirtyMax := rfl
@[simp] theorem State.setChan_migrating (s : State) (n : Nat) (x : Channel) : (s.setChan n x).migrating = s.migrating := rfl
@[simp] theorem State.setChan_sentCtxs (s : State) (n : Nat) (x : Channel) : (s.setChan n x).sentCtxs = s.sentCtxs := rfl
@[simp] theorem State.setChan_forwarded (s : State) (n : Nat) (x : Channel) : (s.setChan n x).forwarded = s.forwarded := rfl
@[simp] theorem State.setFabPort_agenda (s : State) (n : Nat) (x : FabPort) : (s.setFabPort n x).agenda = s.agenda := rfl
@[simp] theorem State.setFabPort_cur (s : State) (n : Nat) (x : FabPort) : (s.setFabPort n x).cur = s.cur := rfl
@[simp] theorem State.setFabPort_freeCtr (s : State) (n : Nat) (x : FabPort) : (s.setFabPort n x).freeCtr = s.freeCtr := rfl
@[simp] theorem State.setFabPort_nextId (s : State) (n : Nat) (x : FabPort) : (s.setFabPort n x).nextId = s.nextId := rfl
@[simp] theorem State.setFabPort_girth (s : State) (n : Nat) (x : FabPort) : (s.setFabPort n x).girth = s.girth := rfl
@[simp] theorem State.setFabPort_girthOn (s : State) (n : Nat) (x : FabPort) : (s.setFabPort n x).girthOn = s.girthOn := rfl
@[simp] theorem State.setFabPort_linksUp (s : State) (n : Nat) (x : FabPort) : (s.setFabPort n x).linksUp = s.linksUp := rfl
@[simp] theorem State.setFabPort_pfVisible (s : State) (n : Nat) (x : FabPort) : (s.setFabPort n x).pfVisible = s.pfVisible := rfl
@[simp] theorem State.setFabPort_thefort (s : State) (n : Nat) (x : FabPort) : (s.setFabPort n x).thefort = s.thefort := rfl
@[simp] theorem State.setFabPort_cores (s : State) (n : Nat) (x : FabPort) : (s.setFabPort n x).cores = s.cores := rfl
@[simp] theorem State.setFabPort_dies (s : State) (n : Nat) (x : FabPort) : (s.setFabPort n x).dies = s.dies := rfl
@[simp] theorem State.setFabPort_channels (s : State) (n : Nat) (x : FabPort) : (s.setFabPort n x).channels = s.channels := rfl
@[simp] theorem State.setFabPort_slices (s : State) (n : Nat) (x : FabPort) : (s.setFabPort n x).slices = s.slices := rfl
@[simp] theorem State.setFabPort_fns (s : State) (n : Nat) (x : FabPort) : (s.setFabPort n x).fns = s.fns := rfl
@[simp] theorem State.setFabPort_transit (s : State) (n : Nat) (x : FabPort) : (s.setFabPort n x).transit = s.transit := rfl
@[simp] theorem State.setFabPort_replies (s : State) (n : Nat) (x : FabPort) : (s.setFabPort n x).replies = s.replies := rfl
@[simp] theorem State.setFabPort_done (s : State) (n : Nat) (x : FabPort) : (s.setFabPort n x).done = s.done := rfl
@[simp] theorem State.setFabPort_acks (s : State) (n : Nat) (x : FabPort) : (s.setFabPort n x).acks = s.acks := rfl
@[simp] theorem State.setFabPort_alloc (s : State) (n : Nat) (x : FabPort) : (s.setFabPort n x).alloc = s.alloc := rfl
@[simp] theorem State.setFabPort_allocOld (s : State) (n : Nat) (x : FabPort) : (s.setFabPort n x).allocOld = s.allocOld := rfl
@[simp] theorem State.setFabPort_allocRefused (s : State) (n : Nat) (x : FabPort) : (s.setFabPort n x).allocRefused = s.allocRefused := rfl
@[simp] theorem State.setFabPort_fills (s : State) (n : Nat) (x : FabPort) : (s.setFabPort n x).fills = s.fills := rfl
@[simp] theorem State.setFabPort_bio (s : State) (n : Nat) (x : FabPort) : (s.setFabPort n x).bio = s.bio := rfl
@[simp] theorem State.setFabPort_lineGen (s : State) (n : Nat) (x : FabPort) : (s.setFabPort n x).lineGen = s.lineGen := rfl
@[simp] theorem State.setFabPort_frameGen (s : State) (n : Nat) (x : FabPort) : (s.setFabPort n x).frameGen = s.frameGen := rfl
@[simp] theorem State.setFabPort_keys (s : State) (n : Nat) (x : FabPort) : (s.setFabPort n x).keys = s.keys := rfl
@[simp] theorem State.setFabPort_keyCtr (s : State) (n : Nat) (x : FabPort) : (s.setFabPort n x).keyCtr = s.keyCtr := rfl
@[simp] theorem State.setFabPort_scrub (s : State) (n : Nat) (x : FabPort) : (s.setFabPort n x).scrub = s.scrub := rfl
@[simp] theorem State.setFabPort_hostMem (s : State) (n : Nat) (x : FabPort) : (s.setFabPort n x).hostMem = s.hostMem := rfl
@[simp] theorem State.setFabPort_hostReads (s : State) (n : Nat) (x : FabPort) : (s.setFabPort n x).hostReads = s.hostReads := rfl
@[simp] theorem State.setFabPort_epochs (s : State) (n : Nat) (x : FabPort) : (s.setFabPort n x).epochs = s.epochs := rfl
@[simp] theorem State.setFabPort_ownEpoch (s : State) (n : Nat) (x : FabPort) : (s.setFabPort n x).ownEpoch = s.ownEpoch := rfl
@[simp] theorem State.setFabPort_dsets (s : State) (n : Nat) (x : FabPort) : (s.setFabPort n x).dsets = s.dsets := rfl
@[simp] theorem State.setFabPort_s2q (s : State) (n : Nat) (x : FabPort) : (s.setFabPort n x).s2q = s.s2q := rfl
@[simp] theorem State.setFabPort_fabOuts (s : State) (n : Nat) (x : FabPort) : (s.setFabPort n x).fabOuts = s.fabOuts := rfl
@[simp] theorem State.setFabPort_fabBack (s : State) (n : Nat) (x : FabPort) : (s.setFabPort n x).fabBack = s.fabBack := rfl
@[simp] theorem State.setFabPort_fabSent (s : State) (n : Nat) (x : FabPort) : (s.setFabPort n x).fabSent = s.fabSent := rfl
@[simp] theorem State.setFabPort_fabWait (s : State) (n : Nat) (x : FabPort) : (s.setFabPort n x).fabWait = s.fabWait := rfl
@[simp] theorem State.setFabPort_fabMap (s : State) (n : Nat) (x : FabPort) : (s.setFabPort n x).fabMap = s.fabMap := rfl
@[simp] theorem State.setFabPort_fabHeld (s : State) (n : Nat) (x : FabPort) : (s.setFabPort n x).fabHeld = s.fabHeld := rfl
@[simp] theorem State.setFabPort_invals (s : State) (n : Nat) (x : FabPort) : (s.setFabPort n x).invals = s.invals := rfl
@[simp] theorem State.setFabPort_dirtyMax (s : State) (n : Nat) (x : FabPort) : (s.setFabPort n x).dirtyMax = s.dirtyMax := rfl
@[simp] theorem State.setFabPort_migrating (s : State) (n : Nat) (x : FabPort) : (s.setFabPort n x).migrating = s.migrating := rfl
@[simp] theorem State.setFabPort_sentCtxs (s : State) (n : Nat) (x : FabPort) : (s.setFabPort n x).sentCtxs = s.sentCtxs := rfl
@[simp] theorem State.setFabPort_forwarded (s : State) (n : Nat) (x : FabPort) : (s.setFabPort n x).forwarded = s.forwarded := rfl
@[simp] theorem State.setFn_agenda (s : State) (f : FnId) (x : FnBlk) : (s.setFn f x).agenda = s.agenda := rfl
@[simp] theorem State.setFn_cur (s : State) (f : FnId) (x : FnBlk) : (s.setFn f x).cur = s.cur := rfl
@[simp] theorem State.setFn_freeCtr (s : State) (f : FnId) (x : FnBlk) : (s.setFn f x).freeCtr = s.freeCtr := rfl
@[simp] theorem State.setFn_nextId (s : State) (f : FnId) (x : FnBlk) : (s.setFn f x).nextId = s.nextId := rfl
@[simp] theorem State.setFn_girth (s : State) (f : FnId) (x : FnBlk) : (s.setFn f x).girth = s.girth := rfl
@[simp] theorem State.setFn_girthOn (s : State) (f : FnId) (x : FnBlk) : (s.setFn f x).girthOn = s.girthOn := rfl
@[simp] theorem State.setFn_linksUp (s : State) (f : FnId) (x : FnBlk) : (s.setFn f x).linksUp = s.linksUp := rfl
@[simp] theorem State.setFn_pfVisible (s : State) (f : FnId) (x : FnBlk) : (s.setFn f x).pfVisible = s.pfVisible := rfl
@[simp] theorem State.setFn_thefort (s : State) (f : FnId) (x : FnBlk) : (s.setFn f x).thefort = s.thefort := rfl
@[simp] theorem State.setFn_cores (s : State) (f : FnId) (x : FnBlk) : (s.setFn f x).cores = s.cores := rfl
@[simp] theorem State.setFn_dies (s : State) (f : FnId) (x : FnBlk) : (s.setFn f x).dies = s.dies := rfl
@[simp] theorem State.setFn_channels (s : State) (f : FnId) (x : FnBlk) : (s.setFn f x).channels = s.channels := rfl
@[simp] theorem State.setFn_fabPorts (s : State) (f : FnId) (x : FnBlk) : (s.setFn f x).fabPorts = s.fabPorts := rfl
@[simp] theorem State.setFn_slices (s : State) (f : FnId) (x : FnBlk) : (s.setFn f x).slices = s.slices := rfl
@[simp] theorem State.setFn_transit (s : State) (f : FnId) (x : FnBlk) : (s.setFn f x).transit = s.transit := rfl
@[simp] theorem State.setFn_replies (s : State) (f : FnId) (x : FnBlk) : (s.setFn f x).replies = s.replies := rfl
@[simp] theorem State.setFn_done (s : State) (f : FnId) (x : FnBlk) : (s.setFn f x).done = s.done := rfl
@[simp] theorem State.setFn_acks (s : State) (f : FnId) (x : FnBlk) : (s.setFn f x).acks = s.acks := rfl
@[simp] theorem State.setFn_alloc (s : State) (f : FnId) (x : FnBlk) : (s.setFn f x).alloc = s.alloc := rfl
@[simp] theorem State.setFn_allocOld (s : State) (f : FnId) (x : FnBlk) : (s.setFn f x).allocOld = s.allocOld := rfl
@[simp] theorem State.setFn_allocRefused (s : State) (f : FnId) (x : FnBlk) : (s.setFn f x).allocRefused = s.allocRefused := rfl
@[simp] theorem State.setFn_fills (s : State) (f : FnId) (x : FnBlk) : (s.setFn f x).fills = s.fills := rfl
@[simp] theorem State.setFn_bio (s : State) (f : FnId) (x : FnBlk) : (s.setFn f x).bio = s.bio := rfl
@[simp] theorem State.setFn_lineGen (s : State) (f : FnId) (x : FnBlk) : (s.setFn f x).lineGen = s.lineGen := rfl
@[simp] theorem State.setFn_frameGen (s : State) (f : FnId) (x : FnBlk) : (s.setFn f x).frameGen = s.frameGen := rfl
@[simp] theorem State.setFn_keys (s : State) (f : FnId) (x : FnBlk) : (s.setFn f x).keys = s.keys := rfl
@[simp] theorem State.setFn_keyCtr (s : State) (f : FnId) (x : FnBlk) : (s.setFn f x).keyCtr = s.keyCtr := rfl
@[simp] theorem State.setFn_scrub (s : State) (f : FnId) (x : FnBlk) : (s.setFn f x).scrub = s.scrub := rfl
@[simp] theorem State.setFn_hostMem (s : State) (f : FnId) (x : FnBlk) : (s.setFn f x).hostMem = s.hostMem := rfl
@[simp] theorem State.setFn_hostReads (s : State) (f : FnId) (x : FnBlk) : (s.setFn f x).hostReads = s.hostReads := rfl
@[simp] theorem State.setFn_epochs (s : State) (f : FnId) (x : FnBlk) : (s.setFn f x).epochs = s.epochs := rfl
@[simp] theorem State.setFn_ownEpoch (s : State) (f : FnId) (x : FnBlk) : (s.setFn f x).ownEpoch = s.ownEpoch := rfl
@[simp] theorem State.setFn_dsets (s : State) (f : FnId) (x : FnBlk) : (s.setFn f x).dsets = s.dsets := rfl
@[simp] theorem State.setFn_s2q (s : State) (f : FnId) (x : FnBlk) : (s.setFn f x).s2q = s.s2q := rfl
@[simp] theorem State.setFn_fabOuts (s : State) (f : FnId) (x : FnBlk) : (s.setFn f x).fabOuts = s.fabOuts := rfl
@[simp] theorem State.setFn_fabBack (s : State) (f : FnId) (x : FnBlk) : (s.setFn f x).fabBack = s.fabBack := rfl
@[simp] theorem State.setFn_fabSent (s : State) (f : FnId) (x : FnBlk) : (s.setFn f x).fabSent = s.fabSent := rfl
@[simp] theorem State.setFn_fabWait (s : State) (f : FnId) (x : FnBlk) : (s.setFn f x).fabWait = s.fabWait := rfl
@[simp] theorem State.setFn_fabMap (s : State) (f : FnId) (x : FnBlk) : (s.setFn f x).fabMap = s.fabMap := rfl
@[simp] theorem State.setFn_fabHeld (s : State) (f : FnId) (x : FnBlk) : (s.setFn f x).fabHeld = s.fabHeld := rfl
@[simp] theorem State.setFn_invals (s : State) (f : FnId) (x : FnBlk) : (s.setFn f x).invals = s.invals := rfl
@[simp] theorem State.setFn_dirtyMax (s : State) (f : FnId) (x : FnBlk) : (s.setFn f x).dirtyMax = s.dirtyMax := rfl
@[simp] theorem State.setFn_migrating (s : State) (f : FnId) (x : FnBlk) : (s.setFn f x).migrating = s.migrating := rfl
@[simp] theorem State.setFn_sentCtxs (s : State) (f : FnId) (x : FnBlk) : (s.setFn f x).sentCtxs = s.sentCtxs := rfl
@[simp] theorem State.setFn_forwarded (s : State) (f : FnId) (x : FnBlk) : (s.setFn f x).forwarded = s.forwarded := rfl
@[simp] theorem State.newId_agenda (s : State) : (s.newId).2.agenda = s.agenda := rfl
@[simp] theorem State.newId_cur (s : State) : (s.newId).2.cur = s.cur := rfl
@[simp] theorem State.newId_freeCtr (s : State) : (s.newId).2.freeCtr = s.freeCtr := rfl
@[simp] theorem State.newId_girth (s : State) : (s.newId).2.girth = s.girth := rfl
@[simp] theorem State.newId_girthOn (s : State) : (s.newId).2.girthOn = s.girthOn := rfl
@[simp] theorem State.newId_linksUp (s : State) : (s.newId).2.linksUp = s.linksUp := rfl
@[simp] theorem State.newId_pfVisible (s : State) : (s.newId).2.pfVisible = s.pfVisible := rfl
@[simp] theorem State.newId_thefort (s : State) : (s.newId).2.thefort = s.thefort := rfl
@[simp] theorem State.newId_cores (s : State) : (s.newId).2.cores = s.cores := rfl
@[simp] theorem State.newId_dies (s : State) : (s.newId).2.dies = s.dies := rfl
@[simp] theorem State.newId_channels (s : State) : (s.newId).2.channels = s.channels := rfl
@[simp] theorem State.newId_fabPorts (s : State) : (s.newId).2.fabPorts = s.fabPorts := rfl
@[simp] theorem State.newId_slices (s : State) : (s.newId).2.slices = s.slices := rfl
@[simp] theorem State.newId_fns (s : State) : (s.newId).2.fns = s.fns := rfl
@[simp] theorem State.newId_transit (s : State) : (s.newId).2.transit = s.transit := rfl
@[simp] theorem State.newId_replies (s : State) : (s.newId).2.replies = s.replies := rfl
@[simp] theorem State.newId_done (s : State) : (s.newId).2.done = s.done := rfl
@[simp] theorem State.newId_acks (s : State) : (s.newId).2.acks = s.acks := rfl
@[simp] theorem State.newId_alloc (s : State) : (s.newId).2.alloc = s.alloc := rfl
@[simp] theorem State.newId_allocOld (s : State) : (s.newId).2.allocOld = s.allocOld := rfl
@[simp] theorem State.newId_allocRefused (s : State) : (s.newId).2.allocRefused = s.allocRefused := rfl
@[simp] theorem State.newId_fills (s : State) : (s.newId).2.fills = s.fills := rfl
@[simp] theorem State.newId_bio (s : State) : (s.newId).2.bio = s.bio := rfl
@[simp] theorem State.newId_lineGen (s : State) : (s.newId).2.lineGen = s.lineGen := rfl
@[simp] theorem State.newId_frameGen (s : State) : (s.newId).2.frameGen = s.frameGen := rfl
@[simp] theorem State.newId_keys (s : State) : (s.newId).2.keys = s.keys := rfl
@[simp] theorem State.newId_keyCtr (s : State) : (s.newId).2.keyCtr = s.keyCtr := rfl
@[simp] theorem State.newId_scrub (s : State) : (s.newId).2.scrub = s.scrub := rfl
@[simp] theorem State.newId_hostMem (s : State) : (s.newId).2.hostMem = s.hostMem := rfl
@[simp] theorem State.newId_hostReads (s : State) : (s.newId).2.hostReads = s.hostReads := rfl
@[simp] theorem State.newId_epochs (s : State) : (s.newId).2.epochs = s.epochs := rfl
@[simp] theorem State.newId_ownEpoch (s : State) : (s.newId).2.ownEpoch = s.ownEpoch := rfl
@[simp] theorem State.newId_dsets (s : State) : (s.newId).2.dsets = s.dsets := rfl
@[simp] theorem State.newId_s2q (s : State) : (s.newId).2.s2q = s.s2q := rfl
@[simp] theorem State.newId_fabOuts (s : State) : (s.newId).2.fabOuts = s.fabOuts := rfl
@[simp] theorem State.newId_fabBack (s : State) : (s.newId).2.fabBack = s.fabBack := rfl
@[simp] theorem State.newId_fabSent (s : State) : (s.newId).2.fabSent = s.fabSent := rfl
@[simp] theorem State.newId_fabWait (s : State) : (s.newId).2.fabWait = s.fabWait := rfl
@[simp] theorem State.newId_fabMap (s : State) : (s.newId).2.fabMap = s.fabMap := rfl
@[simp] theorem State.newId_fabHeld (s : State) : (s.newId).2.fabHeld = s.fabHeld := rfl
@[simp] theorem State.newId_invals (s : State) : (s.newId).2.invals = s.invals := rfl
@[simp] theorem State.newId_dirtyMax (s : State) : (s.newId).2.dirtyMax = s.dirtyMax := rfl
@[simp] theorem State.newId_migrating (s : State) : (s.newId).2.migrating = s.migrating := rfl
@[simp] theorem State.newId_sentCtxs (s : State) : (s.newId).2.sentCtxs = s.sentCtxs := rfl
@[simp] theorem State.newId_forwarded (s : State) : (s.newId).2.forwarded = s.forwarded := rfl
@[simp] theorem State.free_agenda (s : State) (n : Nat) : (s.free n).2.agenda = s.agenda := rfl
@[simp] theorem State.free_cur (s : State) (n : Nat) : (s.free n).2.cur = s.cur := rfl
@[simp] theorem State.free_nextId (s : State) (n : Nat) : (s.free n).2.nextId = s.nextId := rfl
@[simp] theorem State.free_girth (s : State) (n : Nat) : (s.free n).2.girth = s.girth := rfl
@[simp] theorem State.free_girthOn (s : State) (n : Nat) : (s.free n).2.girthOn = s.girthOn := rfl
@[simp] theorem State.free_linksUp (s : State) (n : Nat) : (s.free n).2.linksUp = s.linksUp := rfl
@[simp] theorem State.free_pfVisible (s : State) (n : Nat) : (s.free n).2.pfVisible = s.pfVisible := rfl
@[simp] theorem State.free_thefort (s : State) (n : Nat) : (s.free n).2.thefort = s.thefort := rfl
@[simp] theorem State.free_cores (s : State) (n : Nat) : (s.free n).2.cores = s.cores := rfl
@[simp] theorem State.free_dies (s : State) (n : Nat) : (s.free n).2.dies = s.dies := rfl
@[simp] theorem State.free_channels (s : State) (n : Nat) : (s.free n).2.channels = s.channels := rfl
@[simp] theorem State.free_fabPorts (s : State) (n : Nat) : (s.free n).2.fabPorts = s.fabPorts := rfl
@[simp] theorem State.free_slices (s : State) (n : Nat) : (s.free n).2.slices = s.slices := rfl
@[simp] theorem State.free_fns (s : State) (n : Nat) : (s.free n).2.fns = s.fns := rfl
@[simp] theorem State.free_transit (s : State) (n : Nat) : (s.free n).2.transit = s.transit := rfl
@[simp] theorem State.free_replies (s : State) (n : Nat) : (s.free n).2.replies = s.replies := rfl
@[simp] theorem State.free_done (s : State) (n : Nat) : (s.free n).2.done = s.done := rfl
@[simp] theorem State.free_acks (s : State) (n : Nat) : (s.free n).2.acks = s.acks := rfl
@[simp] theorem State.free_alloc (s : State) (n : Nat) : (s.free n).2.alloc = s.alloc := rfl
@[simp] theorem State.free_allocOld (s : State) (n : Nat) : (s.free n).2.allocOld = s.allocOld := rfl
@[simp] theorem State.free_allocRefused (s : State) (n : Nat) : (s.free n).2.allocRefused = s.allocRefused := rfl
@[simp] theorem State.free_fills (s : State) (n : Nat) : (s.free n).2.fills = s.fills := rfl
@[simp] theorem State.free_bio (s : State) (n : Nat) : (s.free n).2.bio = s.bio := rfl
@[simp] theorem State.free_lineGen (s : State) (n : Nat) : (s.free n).2.lineGen = s.lineGen := rfl
@[simp] theorem State.free_frameGen (s : State) (n : Nat) : (s.free n).2.frameGen = s.frameGen := rfl
@[simp] theorem State.free_keys (s : State) (n : Nat) : (s.free n).2.keys = s.keys := rfl
@[simp] theorem State.free_keyCtr (s : State) (n : Nat) : (s.free n).2.keyCtr = s.keyCtr := rfl
@[simp] theorem State.free_scrub (s : State) (n : Nat) : (s.free n).2.scrub = s.scrub := rfl
@[simp] theorem State.free_hostMem (s : State) (n : Nat) : (s.free n).2.hostMem = s.hostMem := rfl
@[simp] theorem State.free_hostReads (s : State) (n : Nat) : (s.free n).2.hostReads = s.hostReads := rfl
@[simp] theorem State.free_epochs (s : State) (n : Nat) : (s.free n).2.epochs = s.epochs := rfl
@[simp] theorem State.free_ownEpoch (s : State) (n : Nat) : (s.free n).2.ownEpoch = s.ownEpoch := rfl
@[simp] theorem State.free_dsets (s : State) (n : Nat) : (s.free n).2.dsets = s.dsets := rfl
@[simp] theorem State.free_s2q (s : State) (n : Nat) : (s.free n).2.s2q = s.s2q := rfl
@[simp] theorem State.free_fabOuts (s : State) (n : Nat) : (s.free n).2.fabOuts = s.fabOuts := rfl
@[simp] theorem State.free_fabBack (s : State) (n : Nat) : (s.free n).2.fabBack = s.fabBack := rfl
@[simp] theorem State.free_fabSent (s : State) (n : Nat) : (s.free n).2.fabSent = s.fabSent := rfl
@[simp] theorem State.free_fabWait (s : State) (n : Nat) : (s.free n).2.fabWait = s.fabWait := rfl
@[simp] theorem State.free_fabMap (s : State) (n : Nat) : (s.free n).2.fabMap = s.fabMap := rfl
@[simp] theorem State.free_fabHeld (s : State) (n : Nat) : (s.free n).2.fabHeld = s.fabHeld := rfl
@[simp] theorem State.free_invals (s : State) (n : Nat) : (s.free n).2.invals = s.invals := rfl
@[simp] theorem State.free_dirtyMax (s : State) (n : Nat) : (s.free n).2.dirtyMax = s.dirtyMax := rfl
@[simp] theorem State.free_migrating (s : State) (n : Nat) : (s.free n).2.migrating = s.migrating := rfl
@[simp] theorem State.free_sentCtxs (s : State) (n : Nat) : (s.free n).2.sentCtxs = s.sentCtxs := rfl
@[simp] theorem State.free_forwarded (s : State) (n : Nat) : (s.free n).2.forwarded = s.forwarded := rfl

theorem State.modCore_eq (s : State) (c : CoreId) (f : Core → Core) : s.modCore c f = s.setCore c (f (s.core c)) := rfl
theorem State.modDie_eq (s : State) (d : DieId) (f : Die → Die) : s.modDie d f = s.setDie d (f (s.die d)) := rfl
theorem State.modSeq_eq (s : State) (c : CoreId) (q : SeqId) (f : Seq → Seq) : s.modSeq c q f = s.setSeq c q (f (s.seq c q)) := rfl
theorem State.setSeq_eq (s : State) (c : CoreId) (q : SeqId) (x : Seq) : s.setSeq c q x = s.setCore c ((s.core c).setSeq q x) := rfl
theorem State.modStrm_eq (s : State) (c : CoreId) (q : SeqId) (st : Strm) (f : Stream → Stream) :
    s.modStrm c q st f = s.setSeq c q ((s.seq c q).setStrm st (f (s.strm c q st))) := rfl
theorem State.modSlice_eq (s : State) (n : Fin 32) (f : Slice → Slice) : s.modSlice n f = s.setSlice n ((s.slice? n).map f) := rfl
theorem State.setCtx_eq (s : State) (k : CtxId) (y : Option Ctx) : s.setCtx k y = s.modSlice k.slice (·.setCtx k.ctx y) := rfl
theorem State.modCtx_eq (s : State) (k : CtxId) (f : Ctx → Ctx) :
    s.modCtx k f = s.modSlice k.slice fun x => x.setCtx k.ctx ((x.ctx? k.ctx).map f) := rfl
theorem State.seq_eq (s : State) (c : CoreId) (q : SeqId) : s.seq c q = (s.core c).seq q := rfl
theorem State.strm_eq (s : State) (c : CoreId) (q : SeqId) (st : Strm) : s.strm c q st = (s.seq c q).strm st := rfl

@[simp] theorem State.core_setCore (s : State) (c : CoreId) (k : Core) : (s.setCore c k).core c = k := by
  simp [State.core, State.setCore]
theorem State.core_setCore_ne (s : State) {c e : CoreId} (k : Core) (h : e ≠ c) : (s.setCore c k).core e = s.core e := by
  have : c.val ≠ e.val := fun x => h (Fin.ext x.symm)
  simp [State.core, State.setCore, this]
@[simp] theorem State.setCore_core (s : State) (c : CoreId) : s.setCore c (s.core c) = s := by
  simp [State.core, State.setCore]
@[simp] theorem State.setCore_setCore (s : State) (c : CoreId) (k l : Core) : (s.setCore c k).setCore c l = s.setCore c l := by
  simp [State.setCore]
@[simp] theorem State.die_setDie (s : State) (d : DieId) (x : Die) : (s.setDie d x).die d = x := by
  simp [State.die, State.setDie]
theorem State.die_setDie_ne (s : State) {d e : DieId} (x : Die) (h : e ≠ d) : (s.setDie d x).die e = s.die e := by
  have : d.val ≠ e.val := fun x => h (Fin.ext x.symm)
  simp [State.die, State.setDie, this]
@[simp] theorem State.die_setCore (s : State) (c : CoreId) (k : Core) (d : DieId) : (s.setCore c k).die d = s.die d := rfl
@[simp] theorem State.core_setDie (s : State) (c : CoreId) (d : DieId) (x : Die) : (s.setDie d x).core c = s.core c := rfl
@[simp] theorem State.slice_setCore (s : State) (c : CoreId) (k : Core) (n : Fin 32) : (s.setCore c k).slice? n = s.slice? n := rfl
@[simp] theorem State.slice_setDie (s : State) (d : DieId) (x : Die) (n : Fin 32) : (s.setDie d x).slice? n = s.slice? n := rfl
@[simp] theorem State.ctx_setCore (s : State) (c : CoreId) (k : Core) (n : CtxId) : (s.setCore c k).ctx? n = s.ctx? n := rfl
@[simp] theorem State.ctx_setDie (s : State) (d : DieId) (x : Die) (n : CtxId) : (s.setDie d x).ctx? n = s.ctx? n := rfl
@[simp] theorem State.core_setSlice (s : State) (n : Fin 32) (x : Option Slice) (c : CoreId) : (s.setSlice n x).core c = s.core c := rfl
@[simp] theorem State.die_setSlice (s : State) (n : Fin 32) (x : Option Slice) (d : DieId) : (s.setSlice n x).die d = s.die d := rfl
@[simp] theorem State.slice_setSlice (s : State) (n : Fin 32) (x : Option Slice) : (s.setSlice n x).slice? n = x := by
  simp [State.slice?, State.setSlice]
theorem State.slice_setSlice_ne (s : State) {n m : Fin 32} (x : Option Slice) (h : m ≠ n) : (s.setSlice n x).slice? m = s.slice? m := by
  have : n.val ≠ m.val := fun x => h (Fin.ext x.symm)
  simp [State.slice?, State.setSlice, this]
@[simp] theorem Slice.ctx_setCtx (x : Slice) (n : Fin 8) (y : Option Ctx) : (x.setCtx n y).ctx? n = y := by
  simp [Slice.ctx?, Slice.setCtx]
theorem Slice.ctx_setCtx_ne (x : Slice) {n m : Fin 8} (y : Option Ctx) (h : m ≠ n) : (x.setCtx n y).ctx? m = x.ctx? m := by
  have : n.val ≠ m.val := fun x => h (Fin.ext x.symm)
  simp [Slice.ctx?, Slice.setCtx, this]
/-- A change of a context that exists. -/
theorem State.ctx_modCtx (s : State) (k : CtxId) (f : Ctx → Ctx) : (s.modCtx k f).ctx? k = (s.ctx? k).map f := by
  simp only [State.ctx?, State.modCtx_eq, State.modSlice_eq, State.slice_setSlice]
  cases s.slice? k.slice <;> simp
/-- Every other context is as it was. -/
theorem State.ctx_modCtx_ne (s : State) {k l : CtxId} (f : Ctx → Ctx) (h : l ≠ k) : (s.modCtx k f).ctx? l = s.ctx? l := by
  obtain ⟨ks, kc⟩ := k
  obtain ⟨ls, lc⟩ := l
  simp only [State.ctx?, State.modCtx_eq, State.modSlice_eq]
  by_cases e : ls = ks
  · subst e
    rw [State.slice_setSlice]
    have hc : lc ≠ kc := fun x => h (by rw [x])
    cases s.slice? ls <;> simp [Slice.ctx_setCtx_ne _ _ hc]
  · rw [State.slice_setSlice_ne _ _ e]
@[simp] theorem State.modCtx_cores (s : State) (k : CtxId) (f : Ctx → Ctx) : (s.modCtx k f).cores = s.cores := rfl
@[simp] theorem State.modCtx_dies (s : State) (k : CtxId) (f : Ctx → Ctx) : (s.modCtx k f).dies = s.dies := rfl
@[simp] theorem State.modCtx_core (s : State) (k : CtxId) (f : Ctx → Ctx) (c : CoreId) : (s.modCtx k f).core c = s.core c := rfl
@[simp] theorem State.modCtx_die (s : State) (k : CtxId) (f : Ctx → Ctx) (d : DieId) : (s.modCtx k f).die d = s.die d := rfl
@[simp] theorem State.modCtx_cur (s : State) (k : CtxId) (f : Ctx → Ctx) : (s.modCtx k f).cur = s.cur := rfl
@[simp] theorem State.modCtx_girth (s : State) (k : CtxId) (f : Ctx → Ctx) : (s.modCtx k f).girth = s.girth := rfl
@[simp] theorem State.newId_core (s : State) (c : CoreId) : s.newId.2.core c = s.core c := rfl
@[simp] theorem State.newId_die (s : State) (d : DieId) : s.newId.2.die d = s.die d := rfl

/-! ## One core -/

@[simp] theorem Core.setSeq_bind (k : Core) (q : SeqId) (x : Seq) : (k.setSeq q x).bind = k.bind := rfl
@[simp] theorem Core.setSeq_ctx (k : Core) (q : SeqId) (x : Seq) : (k.setSeq q x).ctx = k.ctx := rfl
@[simp] theorem Core.setSeq_mclass (k : Core) (q : SeqId) (x : Seq) : (k.setSeq q x).mclass = k.mclass := rfl
@[simp] theorem Core.setSeq_cyc (k : Core) (q : SeqId) (x : Seq) : (k.setSeq q x).cyc = k.cyc := rfl
@[simp] theorem Core.setSeq_phase (k : Core) (q : SeqId) (x : Seq) : (k.setSeq q x).phase = k.phase := rfl
@[simp] theorem Core.setSeq_half (k : Core) (q : SeqId) (x : Seq) : (k.setSeq q x).half = k.half := rfl
@[simp] theorem Core.setSeq_warn (k : Core) (q : SeqId) (x : Seq) : (k.setSeq q x).warn = k.warn := rfl
@[simp] theorem Core.setSeq_trig (k : Core) (q : SeqId) (x : Seq) : (k.setSeq q x).trig = k.trig := rfl
@[simp] theorem Core.setSeq_lease (k : Core) (q : SeqId) (x : Seq) : (k.setSeq q x).lease = k.lease := rfl
@[simp] theorem Core.setSeq_leaseLim (k : Core) (q : SeqId) (x : Seq) : (k.setSeq q x).leaseLim = k.leaseLim := rfl
@[simp] theorem Core.setSeq_pace (k : Core) (q : SeqId) (x : Seq) : (k.setSeq q x).pace = k.pace := rfl
@[simp] theorem Core.setSeq_paceLim (k : Core) (q : SeqId) (x : Seq) : (k.setSeq q x).paceLim = k.paceLim := rfl
@[simp] theorem Core.setSeq_bstep (k : Core) (q : SeqId) (x : Seq) : (k.setSeq q x).bstep = k.bstep := rfl
@[simp] theorem Core.setSeq_btop (k : Core) (q : SeqId) (x : Seq) : (k.setSeq q x).btop = k.btop := rfl
@[simp] theorem Core.setSeq_margin (k : Core) (q : SeqId) (x : Seq) : (k.setSeq q x).margin = k.margin := rfl
@[simp] theorem Core.setSeq_qreq (k : Core) (q : SeqId) (x : Seq) : (k.setSeq q x).qreq = k.qreq := rfl
@[simp] theorem Core.setSeq_guar (k : Core) (q : SeqId) (x : Seq) : (k.setSeq q x).guar = k.guar := rfl
@[simp] theorem Core.setSeq_bstepEff (k : Core) (q : SeqId) (x : Seq) : (k.setSeq q x).bstepEff = k.bstepEff := rfl
@[simp] theorem Core.setSeq_settle (k : Core) (q : SeqId) (x : Seq) : (k.setSeq q x).settle = k.settle := rfl
@[simp] theorem Core.setSeq_esc (k : Core) (q : SeqId) (x : Seq) : (k.setSeq q x).esc = k.esc := rfl
@[simp] theorem Core.setSeq_count (k : Core) (q : SeqId) (x : Seq) : (k.setSeq q x).count = k.count := rfl
@[simp] theorem Core.setSeq_limit (k : Core) (q : SeqId) (x : Seq) : (k.setSeq q x).limit = k.limit := rfl
@[simp] theorem Core.setSeq_overran (k : Core) (q : SeqId) (x : Seq) : (k.setSeq q x).overran = k.overran := rfl
@[simp] theorem Core.setSeq_repWin (k : Core) (q : SeqId) (x : Seq) : (k.setSeq q x).repWin = k.repWin := rfl
@[simp] theorem Core.setSeq_escal (k : Core) (q : SeqId) (x : Seq) : (k.setSeq q x).escal = k.escal := rfl
@[simp] theorem Core.setSeq_qtag (k : Core) (q : SeqId) (x : Seq) : (k.setSeq q x).qtag = k.qtag := rfl
@[simp] theorem Core.setSeq_vth (k : Core) (q : SeqId) (x : Seq) : (k.setSeq q x).vth = k.vth := rfl
@[simp] theorem Core.setSeq_stepth (k : Core) (q : SeqId) (x : Seq) : (k.setSeq q x).stepth = k.stepth := rfl
@[simp] theorem Core.setSeq_wakes (k : Core) (q : SeqId) (x : Seq) : (k.setSeq q x).wakes = k.wakes := rfl
@[simp] theorem Core.setSeq_lastBeat (k : Core) (q : SeqId) (x : Seq) : (k.setSeq q x).lastBeat = k.lastBeat := rfl
@[simp] theorem Core.setSeq_lastUnit (k : Core) (q : SeqId) (x : Seq) : (k.setSeq q x).lastUnit = k.lastUnit := rfl
@[simp] theorem Core.setSeq_rrq (k : Core) (q : SeqId) (x : Seq) : (k.setSeq q x).rrq = k.rrq := rfl
@[simp] theorem Core.setSeq_mons (k : Core) (q : SeqId) (x : Seq) : (k.setSeq q x).mons = k.mons := rfl
@[simp] theorem Core.setSeq_tiles (k : Core) (q : SeqId) (x : Seq) : (k.setSeq q x).tiles = k.tiles := rfl
@[simp] theorem Core.setSeq_spad (k : Core) (q : SeqId) (x : Seq) : (k.setSeq q x).spad = k.spad := rfl
@[simp] theorem Core.setSeq_rings (k : Core) (q : SeqId) (x : Seq) : (k.setSeq q x).rings = k.rings := rfl
@[simp] theorem Core.setSeq_acs (k : Core) (q : SeqId) (x : Seq) : (k.setSeq q x).acs = k.acs := rfl
@[simp] theorem Core.setSeq_bars (k : Core) (q : SeqId) (x : Seq) : (k.setSeq q x).bars = k.bars := rfl
@[simp] theorem Core.setSeq_tags (k : Core) (q : SeqId) (x : Seq) : (k.setSeq q x).tags = k.tags := rfl
@[simp] theorem Core.setSeq_tagPtr (k : Core) (q : SeqId) (x : Seq) : (k.setSeq q x).tagPtr = k.tagPtr := rfl
@[simp] theorem Core.setSeq_tagWays (k : Core) (q : SeqId) (x : Seq) : (k.setSeq q x).tagWays = k.tagWays := rfl
@[simp] theorem Core.setSeq_cinch (k : Core) (q : SeqId) (x : Seq) : (k.setSeq q x).cinch = k.cinch := rfl
@[simp] theorem Core.setSeq_cinchN (k : Core) (q : SeqId) (x : Seq) : (k.setSeq q x).cinchN = k.cinchN := rfl
@[simp] theorem Core.setSeq_cinchH (k : Core) (q : SeqId) (x : Seq) : (k.setSeq q x).cinchH = k.cinchH := rfl
@[simp] theorem Core.setSeq_cinchAt (k : Core) (q : SeqId) (x : Seq) : (k.setSeq q x).cinchAt = k.cinchAt := rfl
@[simp] theorem Core.setSeq_cinchWant (k : Core) (q : SeqId) (x : Seq) : (k.setSeq q x).cinchWant = k.cinchWant := rfl
@[simp] theorem Core.setSeq_cinchOthers (k : Core) (q : SeqId) (x : Seq) : (k.setSeq q x).cinchOthers = k.cinchOthers := rfl
@[simp] theorem Core.setSeq_front (k : Core) (q : SeqId) (x : Seq) : (k.setSeq q x).front = k.front := rfl
@[simp] theorem Core.setSeq_shadow (k : Core) (q : SeqId) (x : Seq) : (k.setSeq q x).shadow = k.shadow := rfl
@[simp] theorem Core.setSeq_mserial (k : Core) (q : SeqId) (x : Seq) : (k.setSeq q x).mserial = k.mserial := rfl
@[simp] theorem Core.setSeq_mbegan (k : Core) (q : SeqId) (x : Seq) : (k.setSeq q x).mbegan = k.mbegan := rfl
@[simp] theorem Core.setSeq_mheld (k : Core) (q : SeqId) (x : Seq) : (k.setSeq q x).mheld = k.mheld := rfl
@[simp] theorem Core.setSeq_cqs (k : Core) (q : SeqId) (x : Seq) : (k.setSeq q x).cqs = k.cqs := rfl
@[simp] theorem Core.setSeq_qfences (k : Core) (q : SeqId) (x : Seq) : (k.setSeq q x).qfences = k.qfences := rfl
@[simp] theorem Core.setSeq_imem (k : Core) (q : SeqId) (x : Seq) : (k.setSeq q x).imem = k.imem := rfl
@[simp] theorem Core.setSeq_tlb (k : Core) (q : SeqId) (x : Seq) : (k.setSeq q x).tlb = k.tlb := rfl
@[simp] theorem Core.setSeq_descs (k : Core) (q : SeqId) (x : Seq) : (k.setSeq q x).descs = k.descs := rfl
@[simp] theorem Core.setCq_bind (k : Core) (n : CqId) (x : CopyQ) : (k.setCq n x).bind = k.bind := rfl
@[simp] theorem Core.setCq_ctx (k : Core) (n : CqId) (x : CopyQ) : (k.setCq n x).ctx = k.ctx := rfl
@[simp] theorem Core.setCq_mclass (k : Core) (n : CqId) (x : CopyQ) : (k.setCq n x).mclass = k.mclass := rfl
@[simp] theorem Core.setCq_cyc (k : Core) (n : CqId) (x : CopyQ) : (k.setCq n x).cyc = k.cyc := rfl
@[simp] theorem Core.setCq_phase (k : Core) (n : CqId) (x : CopyQ) : (k.setCq n x).phase = k.phase := rfl
@[simp] theorem Core.setCq_half (k : Core) (n : CqId) (x : CopyQ) : (k.setCq n x).half = k.half := rfl
@[simp] theorem Core.setCq_warn (k : Core) (n : CqId) (x : CopyQ) : (k.setCq n x).warn = k.warn := rfl
@[simp] theorem Core.setCq_trig (k : Core) (n : CqId) (x : CopyQ) : (k.setCq n x).trig = k.trig := rfl
@[simp] theorem Core.setCq_lease (k : Core) (n : CqId) (x : CopyQ) : (k.setCq n x).lease = k.lease := rfl
@[simp] theorem Core.setCq_leaseLim (k : Core) (n : CqId) (x : CopyQ) : (k.setCq n x).leaseLim = k.leaseLim := rfl
@[simp] theorem Core.setCq_pace (k : Core) (n : CqId) (x : CopyQ) : (k.setCq n x).pace = k.pace := rfl
@[simp] theorem Core.setCq_paceLim (k : Core) (n : CqId) (x : CopyQ) : (k.setCq n x).paceLim = k.paceLim := rfl
@[simp] theorem Core.setCq_bstep (k : Core) (n : CqId) (x : CopyQ) : (k.setCq n x).bstep = k.bstep := rfl
@[simp] theorem Core.setCq_btop (k : Core) (n : CqId) (x : CopyQ) : (k.setCq n x).btop = k.btop := rfl
@[simp] theorem Core.setCq_margin (k : Core) (n : CqId) (x : CopyQ) : (k.setCq n x).margin = k.margin := rfl
@[simp] theorem Core.setCq_qreq (k : Core) (n : CqId) (x : CopyQ) : (k.setCq n x).qreq = k.qreq := rfl
@[simp] theorem Core.setCq_guar (k : Core) (n : CqId) (x : CopyQ) : (k.setCq n x).guar = k.guar := rfl
@[simp] theorem Core.setCq_bstepEff (k : Core) (n : CqId) (x : CopyQ) : (k.setCq n x).bstepEff = k.bstepEff := rfl
@[simp] theorem Core.setCq_settle (k : Core) (n : CqId) (x : CopyQ) : (k.setCq n x).settle = k.settle := rfl
@[simp] theorem Core.setCq_esc (k : Core) (n : CqId) (x : CopyQ) : (k.setCq n x).esc = k.esc := rfl
@[simp] theorem Core.setCq_count (k : Core) (n : CqId) (x : CopyQ) : (k.setCq n x).count = k.count := rfl
@[simp] theorem Core.setCq_limit (k : Core) (n : CqId) (x : CopyQ) : (k.setCq n x).limit = k.limit := rfl
@[simp] theorem Core.setCq_overran (k : Core) (n : CqId) (x : CopyQ) : (k.setCq n x).overran = k.overran := rfl
@[simp] theorem Core.setCq_repWin (k : Core) (n : CqId) (x : CopyQ) : (k.setCq n x).repWin = k.repWin := rfl
@[simp] theorem Core.setCq_escal (k : Core) (n : CqId) (x : CopyQ) : (k.setCq n x).escal = k.escal := rfl
@[simp] theorem Core.setCq_qtag (k : Core) (n : CqId) (x : CopyQ) : (k.setCq n x).qtag = k.qtag := rfl
@[simp] theorem Core.setCq_vth (k : Core) (n : CqId) (x : CopyQ) : (k.setCq n x).vth = k.vth := rfl
@[simp] theorem Core.setCq_stepth (k : Core) (n : CqId) (x : CopyQ) : (k.setCq n x).stepth = k.stepth := rfl
@[simp] theorem Core.setCq_wakes (k : Core) (n : CqId) (x : CopyQ) : (k.setCq n x).wakes = k.wakes := rfl
@[simp] theorem Core.setCq_lastBeat (k : Core) (n : CqId) (x : CopyQ) : (k.setCq n x).lastBeat = k.lastBeat := rfl
@[simp] theorem Core.setCq_lastUnit (k : Core) (n : CqId) (x : CopyQ) : (k.setCq n x).lastUnit = k.lastUnit := rfl
@[simp] theorem Core.setCq_rrq (k : Core) (n : CqId) (x : CopyQ) : (k.setCq n x).rrq = k.rrq := rfl
@[simp] theorem Core.setCq_mons (k : Core) (n : CqId) (x : CopyQ) : (k.setCq n x).mons = k.mons := rfl
@[simp] theorem Core.setCq_tiles (k : Core) (n : CqId) (x : CopyQ) : (k.setCq n x).tiles = k.tiles := rfl
@[simp] theorem Core.setCq_spad (k : Core) (n : CqId) (x : CopyQ) : (k.setCq n x).spad = k.spad := rfl
@[simp] theorem Core.setCq_rings (k : Core) (n : CqId) (x : CopyQ) : (k.setCq n x).rings = k.rings := rfl
@[simp] theorem Core.setCq_acs (k : Core) (n : CqId) (x : CopyQ) : (k.setCq n x).acs = k.acs := rfl
@[simp] theorem Core.setCq_bars (k : Core) (n : CqId) (x : CopyQ) : (k.setCq n x).bars = k.bars := rfl
@[simp] theorem Core.setCq_tags (k : Core) (n : CqId) (x : CopyQ) : (k.setCq n x).tags = k.tags := rfl
@[simp] theorem Core.setCq_tagPtr (k : Core) (n : CqId) (x : CopyQ) : (k.setCq n x).tagPtr = k.tagPtr := rfl
@[simp] theorem Core.setCq_tagWays (k : Core) (n : CqId) (x : CopyQ) : (k.setCq n x).tagWays = k.tagWays := rfl
@[simp] theorem Core.setCq_cinch (k : Core) (n : CqId) (x : CopyQ) : (k.setCq n x).cinch = k.cinch := rfl
@[simp] theorem Core.setCq_cinchN (k : Core) (n : CqId) (x : CopyQ) : (k.setCq n x).cinchN = k.cinchN := rfl
@[simp] theorem Core.setCq_cinchH (k : Core) (n : CqId) (x : CopyQ) : (k.setCq n x).cinchH = k.cinchH := rfl
@[simp] theorem Core.setCq_cinchAt (k : Core) (n : CqId) (x : CopyQ) : (k.setCq n x).cinchAt = k.cinchAt := rfl
@[simp] theorem Core.setCq_cinchWant (k : Core) (n : CqId) (x : CopyQ) : (k.setCq n x).cinchWant = k.cinchWant := rfl
@[simp] theorem Core.setCq_cinchOthers (k : Core) (n : CqId) (x : CopyQ) : (k.setCq n x).cinchOthers = k.cinchOthers := rfl
@[simp] theorem Core.setCq_front (k : Core) (n : CqId) (x : CopyQ) : (k.setCq n x).front = k.front := rfl
@[simp] theorem Core.setCq_shadow (k : Core) (n : CqId) (x : CopyQ) : (k.setCq n x).shadow = k.shadow := rfl
@[simp] theorem Core.setCq_mserial (k : Core) (n : CqId) (x : CopyQ) : (k.setCq n x).mserial = k.mserial := rfl
@[simp] theorem Core.setCq_mbegan (k : Core) (n : CqId) (x : CopyQ) : (k.setCq n x).mbegan = k.mbegan := rfl
@[simp] theorem Core.setCq_mheld (k : Core) (n : CqId) (x : CopyQ) : (k.setCq n x).mheld = k.mheld := rfl
@[simp] theorem Core.setCq_qfences (k : Core) (n : CqId) (x : CopyQ) : (k.setCq n x).qfences = k.qfences := rfl
@[simp] theorem Core.setCq_imem (k : Core) (n : CqId) (x : CopyQ) : (k.setCq n x).imem = k.imem := rfl
@[simp] theorem Core.setCq_tlb (k : Core) (n : CqId) (x : CopyQ) : (k.setCq n x).tlb = k.tlb := rfl
@[simp] theorem Core.setCq_descs (k : Core) (n : CqId) (x : CopyQ) : (k.setCq n x).descs = k.descs := rfl
@[simp] theorem Core.setCq_seqs (k : Core) (n : CqId) (x : CopyQ) : (k.setCq n x).seqs = k.seqs := rfl
@[simp] theorem Core.monitorK_bind (k : Core) (src : Nat) (wk : Nat) (v : Nat) : (k.monitorK src wk v).bind = k.bind := rfl
@[simp] theorem Core.monitorK_ctx (k : Core) (src : Nat) (wk : Nat) (v : Nat) : (k.monitorK src wk v).ctx = k.ctx := rfl
@[simp] theorem Core.monitorK_mclass (k : Core) (src : Nat) (wk : Nat) (v : Nat) : (k.monitorK src wk v).mclass = k.mclass := rfl
@[simp] theorem Core.monitorK_cyc (k : Core) (src : Nat) (wk : Nat) (v : Nat) : (k.monitorK src wk v).cyc = k.cyc := rfl
@[simp] theorem Core.monitorK_phase (k : Core) (src : Nat) (wk : Nat) (v : Nat) : (k.monitorK src wk v).phase = k.phase := rfl
@[simp] theorem Core.monitorK_half (k : Core) (src : Nat) (wk : Nat) (v : Nat) : (k.monitorK src wk v).half = k.half := rfl
@[simp] theorem Core.monitorK_warn (k : Core) (src : Nat) (wk : Nat) (v : Nat) : (k.monitorK src wk v).warn = k.warn := rfl
@[simp] theorem Core.monitorK_trig (k : Core) (src : Nat) (wk : Nat) (v : Nat) : (k.monitorK src wk v).trig = k.trig := rfl
@[simp] theorem Core.monitorK_lease (k : Core) (src : Nat) (wk : Nat) (v : Nat) : (k.monitorK src wk v).lease = k.lease := rfl
@[simp] theorem Core.monitorK_leaseLim (k : Core) (src : Nat) (wk : Nat) (v : Nat) : (k.monitorK src wk v).leaseLim = k.leaseLim := rfl
@[simp] theorem Core.monitorK_pace (k : Core) (src : Nat) (wk : Nat) (v : Nat) : (k.monitorK src wk v).pace = k.pace := rfl
@[simp] theorem Core.monitorK_paceLim (k : Core) (src : Nat) (wk : Nat) (v : Nat) : (k.monitorK src wk v).paceLim = k.paceLim := rfl
@[simp] theorem Core.monitorK_bstep (k : Core) (src : Nat) (wk : Nat) (v : Nat) : (k.monitorK src wk v).bstep = k.bstep := rfl
@[simp] theorem Core.monitorK_btop (k : Core) (src : Nat) (wk : Nat) (v : Nat) : (k.monitorK src wk v).btop = k.btop := rfl
@[simp] theorem Core.monitorK_margin (k : Core) (src : Nat) (wk : Nat) (v : Nat) : (k.monitorK src wk v).margin = k.margin := rfl
@[simp] theorem Core.monitorK_qreq (k : Core) (src : Nat) (wk : Nat) (v : Nat) : (k.monitorK src wk v).qreq = k.qreq := rfl
@[simp] theorem Core.monitorK_guar (k : Core) (src : Nat) (wk : Nat) (v : Nat) : (k.monitorK src wk v).guar = k.guar := rfl
@[simp] theorem Core.monitorK_bstepEff (k : Core) (src : Nat) (wk : Nat) (v : Nat) : (k.monitorK src wk v).bstepEff = k.bstepEff := rfl
@[simp] theorem Core.monitorK_settle (k : Core) (src : Nat) (wk : Nat) (v : Nat) : (k.monitorK src wk v).settle = k.settle := rfl
@[simp] theorem Core.monitorK_esc (k : Core) (src : Nat) (wk : Nat) (v : Nat) : (k.monitorK src wk v).esc = k.esc := rfl
@[simp] theorem Core.monitorK_count (k : Core) (src : Nat) (wk : Nat) (v : Nat) : (k.monitorK src wk v).count = k.count := rfl
@[simp] theorem Core.monitorK_limit (k : Core) (src : Nat) (wk : Nat) (v : Nat) : (k.monitorK src wk v).limit = k.limit := rfl
@[simp] theorem Core.monitorK_overran (k : Core) (src : Nat) (wk : Nat) (v : Nat) : (k.monitorK src wk v).overran = k.overran := rfl
@[simp] theorem Core.monitorK_repWin (k : Core) (src : Nat) (wk : Nat) (v : Nat) : (k.monitorK src wk v).repWin = k.repWin := rfl
@[simp] theorem Core.monitorK_escal (k : Core) (src : Nat) (wk : Nat) (v : Nat) : (k.monitorK src wk v).escal = k.escal := rfl
@[simp] theorem Core.monitorK_qtag (k : Core) (src : Nat) (wk : Nat) (v : Nat) : (k.monitorK src wk v).qtag = k.qtag := rfl
@[simp] theorem Core.monitorK_vth (k : Core) (src : Nat) (wk : Nat) (v : Nat) : (k.monitorK src wk v).vth = k.vth := rfl
@[simp] theorem Core.monitorK_stepth (k : Core) (src : Nat) (wk : Nat) (v : Nat) : (k.monitorK src wk v).stepth = k.stepth := rfl
@[simp] theorem Core.monitorK_wakes (k : Core) (src : Nat) (wk : Nat) (v : Nat) : (k.monitorK src wk v).wakes = k.wakes := rfl
@[simp] theorem Core.monitorK_lastBeat (k : Core) (src : Nat) (wk : Nat) (v : Nat) : (k.monitorK src wk v).lastBeat = k.lastBeat := rfl
@[simp] theorem Core.monitorK_lastUnit (k : Core) (src : Nat) (wk : Nat) (v : Nat) : (k.monitorK src wk v).lastUnit = k.lastUnit := rfl
@[simp] theorem Core.monitorK_rrq (k : Core) (src : Nat) (wk : Nat) (v : Nat) : (k.monitorK src wk v).rrq = k.rrq := rfl
@[simp] theorem Core.monitorK_tiles (k : Core) (src : Nat) (wk : Nat) (v : Nat) : (k.monitorK src wk v).tiles = k.tiles := rfl
@[simp] theorem Core.monitorK_spad (k : Core) (src : Nat) (wk : Nat) (v : Nat) : (k.monitorK src wk v).spad = k.spad := rfl
@[simp] theorem Core.monitorK_rings (k : Core) (src : Nat) (wk : Nat) (v : Nat) : (k.monitorK src wk v).rings = k.rings := rfl
@[simp] theorem Core.monitorK_acs (k : Core) (src : Nat) (wk : Nat) (v : Nat) : (k.monitorK src wk v).acs = k.acs := rfl
@[simp] theorem Core.monitorK_bars (k : Core) (src : Nat) (wk : Nat) (v : Nat) : (k.monitorK src wk v).bars = k.bars := rfl
@[simp] theorem Core.monitorK_tags (k : Core) (src : Nat) (wk : Nat) (v : Nat) : (k.monitorK src wk v).tags = k.tags := rfl
@[simp] theorem Core.monitorK_tagPtr (k : Core) (src : Nat) (wk : Nat) (v : Nat) : (k.monitorK src wk v).tagPtr = k.tagPtr := rfl
@[simp] theorem Core.monitorK_tagWays (k : Core) (src : Nat) (wk : Nat) (v : Nat) : (k.monitorK src wk v).tagWays = k.tagWays := rfl
@[simp] theorem Core.monitorK_cinch (k : Core) (src : Nat) (wk : Nat) (v : Nat) : (k.monitorK src wk v).cinch = k.cinch := rfl
@[simp] theorem Core.monitorK_cinchN (k : Core) (src : Nat) (wk : Nat) (v : Nat) : (k.monitorK src wk v).cinchN = k.cinchN := rfl
@[simp] theorem Core.monitorK_cinchH (k : Core) (src : Nat) (wk : Nat) (v : Nat) : (k.monitorK src wk v).cinchH = k.cinchH := rfl
@[simp] theorem Core.monitorK_cinchAt (k : Core) (src : Nat) (wk : Nat) (v : Nat) : (k.monitorK src wk v).cinchAt = k.cinchAt := rfl
@[simp] theorem Core.monitorK_cinchWant (k : Core) (src : Nat) (wk : Nat) (v : Nat) : (k.monitorK src wk v).cinchWant = k.cinchWant := rfl
@[simp] theorem Core.monitorK_cinchOthers (k : Core) (src : Nat) (wk : Nat) (v : Nat) : (k.monitorK src wk v).cinchOthers = k.cinchOthers := rfl
@[simp] theorem Core.monitorK_front (k : Core) (src : Nat) (wk : Nat) (v : Nat) : (k.monitorK src wk v).front = k.front := rfl
@[simp] theorem Core.monitorK_shadow (k : Core) (src : Nat) (wk : Nat) (v : Nat) : (k.monitorK src wk v).shadow = k.shadow := rfl
@[simp] theorem Core.monitorK_mserial (k : Core) (src : Nat) (wk : Nat) (v : Nat) : (k.monitorK src wk v).mserial = k.mserial := rfl
@[simp] theorem Core.monitorK_mbegan (k : Core) (src : Nat) (wk : Nat) (v : Nat) : (k.monitorK src wk v).mbegan = k.mbegan := rfl
@[simp] theorem Core.monitorK_mheld (k : Core) (src : Nat) (wk : Nat) (v : Nat) : (k.monitorK src wk v).mheld = k.mheld := rfl
@[simp] theorem Core.monitorK_cqs (k : Core) (src : Nat) (wk : Nat) (v : Nat) : (k.monitorK src wk v).cqs = k.cqs := rfl
@[simp] theorem Core.monitorK_qfences (k : Core) (src : Nat) (wk : Nat) (v : Nat) : (k.monitorK src wk v).qfences = k.qfences := rfl
@[simp] theorem Core.monitorK_imem (k : Core) (src : Nat) (wk : Nat) (v : Nat) : (k.monitorK src wk v).imem = k.imem := rfl
@[simp] theorem Core.monitorK_tlb (k : Core) (src : Nat) (wk : Nat) (v : Nat) : (k.monitorK src wk v).tlb = k.tlb := rfl
@[simp] theorem Core.monitorK_descs (k : Core) (src : Nat) (wk : Nat) (v : Nat) : (k.monitorK src wk v).descs = k.descs := rfl
@[simp] theorem Core.monitorK_seqs (k : Core) (src : Nat) (wk : Nat) (v : Nat) : (k.monitorK src wk v).seqs = k.seqs := rfl
@[simp] theorem Core.monitor_bind (k : Core) (src : Nat) (v : Nat) : (k.monitor src v).bind = k.bind := rfl
@[simp] theorem Core.monitor_ctx (k : Core) (src : Nat) (v : Nat) : (k.monitor src v).ctx = k.ctx := rfl
@[simp] theorem Core.monitor_mclass (k : Core) (src : Nat) (v : Nat) : (k.monitor src v).mclass = k.mclass := rfl
@[simp] theorem Core.monitor_cyc (k : Core) (src : Nat) (v : Nat) : (k.monitor src v).cyc = k.cyc := rfl
@[simp] theorem Core.monitor_phase (k : Core) (src : Nat) (v : Nat) : (k.monitor src v).phase = k.phase := rfl
@[simp] theorem Core.monitor_half (k : Core) (src : Nat) (v : Nat) : (k.monitor src v).half = k.half := rfl
@[simp] theorem Core.monitor_warn (k : Core) (src : Nat) (v : Nat) : (k.monitor src v).warn = k.warn := rfl
@[simp] theorem Core.monitor_trig (k : Core) (src : Nat) (v : Nat) : (k.monitor src v).trig = k.trig := rfl
@[simp] theorem Core.monitor_lease (k : Core) (src : Nat) (v : Nat) : (k.monitor src v).lease = k.lease := rfl
@[simp] theorem Core.monitor_leaseLim (k : Core) (src : Nat) (v : Nat) : (k.monitor src v).leaseLim = k.leaseLim := rfl
@[simp] theorem Core.monitor_pace (k : Core) (src : Nat) (v : Nat) : (k.monitor src v).pace = k.pace := rfl
@[simp] theorem Core.monitor_paceLim (k : Core) (src : Nat) (v : Nat) : (k.monitor src v).paceLim = k.paceLim := rfl
@[simp] theorem Core.monitor_bstep (k : Core) (src : Nat) (v : Nat) : (k.monitor src v).bstep = k.bstep := rfl
@[simp] theorem Core.monitor_btop (k : Core) (src : Nat) (v : Nat) : (k.monitor src v).btop = k.btop := rfl
@[simp] theorem Core.monitor_margin (k : Core) (src : Nat) (v : Nat) : (k.monitor src v).margin = k.margin := rfl
@[simp] theorem Core.monitor_qreq (k : Core) (src : Nat) (v : Nat) : (k.monitor src v).qreq = k.qreq := rfl
@[simp] theorem Core.monitor_guar (k : Core) (src : Nat) (v : Nat) : (k.monitor src v).guar = k.guar := rfl
@[simp] theorem Core.monitor_bstepEff (k : Core) (src : Nat) (v : Nat) : (k.monitor src v).bstepEff = k.bstepEff := rfl
@[simp] theorem Core.monitor_settle (k : Core) (src : Nat) (v : Nat) : (k.monitor src v).settle = k.settle := rfl
@[simp] theorem Core.monitor_esc (k : Core) (src : Nat) (v : Nat) : (k.monitor src v).esc = k.esc := rfl
@[simp] theorem Core.monitor_count (k : Core) (src : Nat) (v : Nat) : (k.monitor src v).count = k.count := rfl
@[simp] theorem Core.monitor_limit (k : Core) (src : Nat) (v : Nat) : (k.monitor src v).limit = k.limit := rfl
@[simp] theorem Core.monitor_overran (k : Core) (src : Nat) (v : Nat) : (k.monitor src v).overran = k.overran := rfl
@[simp] theorem Core.monitor_repWin (k : Core) (src : Nat) (v : Nat) : (k.monitor src v).repWin = k.repWin := rfl
@[simp] theorem Core.monitor_escal (k : Core) (src : Nat) (v : Nat) : (k.monitor src v).escal = k.escal := rfl
@[simp] theorem Core.monitor_qtag (k : Core) (src : Nat) (v : Nat) : (k.monitor src v).qtag = k.qtag := rfl
@[simp] theorem Core.monitor_vth (k : Core) (src : Nat) (v : Nat) : (k.monitor src v).vth = k.vth := rfl
@[simp] theorem Core.monitor_stepth (k : Core) (src : Nat) (v : Nat) : (k.monitor src v).stepth = k.stepth := rfl
@[simp] theorem Core.monitor_wakes (k : Core) (src : Nat) (v : Nat) : (k.monitor src v).wakes = k.wakes := rfl
@[simp] theorem Core.monitor_lastBeat (k : Core) (src : Nat) (v : Nat) : (k.monitor src v).lastBeat = k.lastBeat := rfl
@[simp] theorem Core.monitor_lastUnit (k : Core) (src : Nat) (v : Nat) : (k.monitor src v).lastUnit = k.lastUnit := rfl
@[simp] theorem Core.monitor_rrq (k : Core) (src : Nat) (v : Nat) : (k.monitor src v).rrq = k.rrq := rfl
@[simp] theorem Core.monitor_tiles (k : Core) (src : Nat) (v : Nat) : (k.monitor src v).tiles = k.tiles := rfl
@[simp] theorem Core.monitor_spad (k : Core) (src : Nat) (v : Nat) : (k.monitor src v).spad = k.spad := rfl
@[simp] theorem Core.monitor_rings (k : Core) (src : Nat) (v : Nat) : (k.monitor src v).rings = k.rings := rfl
@[simp] theorem Core.monitor_acs (k : Core) (src : Nat) (v : Nat) : (k.monitor src v).acs = k.acs := rfl
@[simp] theorem Core.monitor_bars (k : Core) (src : Nat) (v : Nat) : (k.monitor src v).bars = k.bars := rfl
@[simp] theorem Core.monitor_tags (k : Core) (src : Nat) (v : Nat) : (k.monitor src v).tags = k.tags := rfl
@[simp] theorem Core.monitor_tagPtr (k : Core) (src : Nat) (v : Nat) : (k.monitor src v).tagPtr = k.tagPtr := rfl
@[simp] theorem Core.monitor_tagWays (k : Core) (src : Nat) (v : Nat) : (k.monitor src v).tagWays = k.tagWays := rfl
@[simp] theorem Core.monitor_cinch (k : Core) (src : Nat) (v : Nat) : (k.monitor src v).cinch = k.cinch := rfl
@[simp] theorem Core.monitor_cinchN (k : Core) (src : Nat) (v : Nat) : (k.monitor src v).cinchN = k.cinchN := rfl
@[simp] theorem Core.monitor_cinchH (k : Core) (src : Nat) (v : Nat) : (k.monitor src v).cinchH = k.cinchH := rfl
@[simp] theorem Core.monitor_cinchAt (k : Core) (src : Nat) (v : Nat) : (k.monitor src v).cinchAt = k.cinchAt := rfl
@[simp] theorem Core.monitor_cinchWant (k : Core) (src : Nat) (v : Nat) : (k.monitor src v).cinchWant = k.cinchWant := rfl
@[simp] theorem Core.monitor_cinchOthers (k : Core) (src : Nat) (v : Nat) : (k.monitor src v).cinchOthers = k.cinchOthers := rfl
@[simp] theorem Core.monitor_front (k : Core) (src : Nat) (v : Nat) : (k.monitor src v).front = k.front := rfl
@[simp] theorem Core.monitor_shadow (k : Core) (src : Nat) (v : Nat) : (k.monitor src v).shadow = k.shadow := rfl
@[simp] theorem Core.monitor_mserial (k : Core) (src : Nat) (v : Nat) : (k.monitor src v).mserial = k.mserial := rfl
@[simp] theorem Core.monitor_mbegan (k : Core) (src : Nat) (v : Nat) : (k.monitor src v).mbegan = k.mbegan := rfl
@[simp] theorem Core.monitor_mheld (k : Core) (src : Nat) (v : Nat) : (k.monitor src v).mheld = k.mheld := rfl
@[simp] theorem Core.monitor_cqs (k : Core) (src : Nat) (v : Nat) : (k.monitor src v).cqs = k.cqs := rfl
@[simp] theorem Core.monitor_qfences (k : Core) (src : Nat) (v : Nat) : (k.monitor src v).qfences = k.qfences := rfl
@[simp] theorem Core.monitor_imem (k : Core) (src : Nat) (v : Nat) : (k.monitor src v).imem = k.imem := rfl
@[simp] theorem Core.monitor_tlb (k : Core) (src : Nat) (v : Nat) : (k.monitor src v).tlb = k.tlb := rfl
@[simp] theorem Core.monitor_descs (k : Core) (src : Nat) (v : Nat) : (k.monitor src v).descs = k.descs := rfl
@[simp] theorem Core.monitor_seqs (k : Core) (src : Nat) (v : Nat) : (k.monitor src v).seqs = k.seqs := rfl
@[simp] theorem Core.addWake_bind (k : Core) (u : Nat) : (k.addWake u).bind = k.bind := by unfold Core.addWake; split <;> rfl
@[simp] theorem Core.addWake_ctx (k : Core) (u : Nat) : (k.addWake u).ctx = k.ctx := by unfold Core.addWake; split <;> rfl
@[simp] theorem Core.addWake_mclass (k : Core) (u : Nat) : (k.addWake u).mclass = k.mclass := by unfold Core.addWake; split <;> rfl
@[simp] theorem Core.addWake_cyc (k : Core) (u : Nat) : (k.addWake u).cyc = k.cyc := by unfold Core.addWake; split <;> rfl
@[simp] theorem Core.addWake_phase (k : Core) (u : Nat) : (k.addWake u).phase = k.phase := by unfold Core.addWake; split <;> rfl
@[simp] theorem Core.addWake_half (k : Core) (u : Nat) : (k.addWake u).half = k.half := by unfold Core.addWake; split <;> rfl
@[simp] theorem Core.addWake_warn (k : Core) (u : Nat) : (k.addWake u).warn = k.warn := by unfold Core.addWake; split <;> rfl
@[simp] theorem Core.addWake_trig (k : Core) (u : Nat) : (k.addWake u).trig = k.trig := by unfold Core.addWake; split <;> rfl
@[simp] theorem Core.addWake_lease (k : Core) (u : Nat) : (k.addWake u).lease = k.lease := by unfold Core.addWake; split <;> rfl
@[simp] theorem Core.addWake_leaseLim (k : Core) (u : Nat) : (k.addWake u).leaseLim = k.leaseLim := by unfold Core.addWake; split <;> rfl
@[simp] theorem Core.addWake_pace (k : Core) (u : Nat) : (k.addWake u).pace = k.pace := by unfold Core.addWake; split <;> rfl
@[simp] theorem Core.addWake_paceLim (k : Core) (u : Nat) : (k.addWake u).paceLim = k.paceLim := by unfold Core.addWake; split <;> rfl
@[simp] theorem Core.addWake_bstep (k : Core) (u : Nat) : (k.addWake u).bstep = k.bstep := by unfold Core.addWake; split <;> rfl
@[simp] theorem Core.addWake_btop (k : Core) (u : Nat) : (k.addWake u).btop = k.btop := by unfold Core.addWake; split <;> rfl
@[simp] theorem Core.addWake_margin (k : Core) (u : Nat) : (k.addWake u).margin = k.margin := by unfold Core.addWake; split <;> rfl
@[simp] theorem Core.addWake_qreq (k : Core) (u : Nat) : (k.addWake u).qreq = k.qreq := by unfold Core.addWake; split <;> rfl
@[simp] theorem Core.addWake_guar (k : Core) (u : Nat) : (k.addWake u).guar = k.guar := by unfold Core.addWake; split <;> rfl
@[simp] theorem Core.addWake_bstepEff (k : Core) (u : Nat) : (k.addWake u).bstepEff = k.bstepEff := by unfold Core.addWake; split <;> rfl
@[simp] theorem Core.addWake_settle (k : Core) (u : Nat) : (k.addWake u).settle = k.settle := by unfold Core.addWake; split <;> rfl
@[simp] theorem Core.addWake_esc (k : Core) (u : Nat) : (k.addWake u).esc = k.esc := by unfold Core.addWake; split <;> rfl
@[simp] theorem Core.addWake_count (k : Core) (u : Nat) : (k.addWake u).count = k.count := by unfold Core.addWake; split <;> rfl
@[simp] theorem Core.addWake_limit (k : Core) (u : Nat) : (k.addWake u).limit = k.limit := by unfold Core.addWake; split <;> rfl
@[simp] theorem Core.addWake_overran (k : Core) (u : Nat) : (k.addWake u).overran = k.overran := by unfold Core.addWake; split <;> rfl
@[simp] theorem Core.addWake_repWin (k : Core) (u : Nat) : (k.addWake u).repWin = k.repWin := by unfold Core.addWake; split <;> rfl
@[simp] theorem Core.addWake_escal (k : Core) (u : Nat) : (k.addWake u).escal = k.escal := by unfold Core.addWake; split <;> rfl
@[simp] theorem Core.addWake_qtag (k : Core) (u : Nat) : (k.addWake u).qtag = k.qtag := by unfold Core.addWake; split <;> rfl
@[simp] theorem Core.addWake_vth (k : Core) (u : Nat) : (k.addWake u).vth = k.vth := by unfold Core.addWake; split <;> rfl
@[simp] theorem Core.addWake_stepth (k : Core) (u : Nat) : (k.addWake u).stepth = k.stepth := by unfold Core.addWake; split <;> rfl
@[simp] theorem Core.addWake_lastBeat (k : Core) (u : Nat) : (k.addWake u).lastBeat = k.lastBeat := by unfold Core.addWake; split <;> rfl
@[simp] theorem Core.addWake_lastUnit (k : Core) (u : Nat) : (k.addWake u).lastUnit = k.lastUnit := by unfold Core.addWake; split <;> rfl
@[simp] theorem Core.addWake_rrq (k : Core) (u : Nat) : (k.addWake u).rrq = k.rrq := by unfold Core.addWake; split <;> rfl
@[simp] theorem Core.addWake_mons (k : Core) (u : Nat) : (k.addWake u).mons = k.mons := by unfold Core.addWake; split <;> rfl
@[simp] theorem Core.addWake_tiles (k : Core) (u : Nat) : (k.addWake u).tiles = k.tiles := by unfold Core.addWake; split <;> rfl
@[simp] theorem Core.addWake_spad (k : Core) (u : Nat) : (k.addWake u).spad = k.spad := by unfold Core.addWake; split <;> rfl
@[simp] theorem Core.addWake_rings (k : Core) (u : Nat) : (k.addWake u).rings = k.rings := by unfold Core.addWake; split <;> rfl
@[simp] theorem Core.addWake_acs (k : Core) (u : Nat) : (k.addWake u).acs = k.acs := by unfold Core.addWake; split <;> rfl
@[simp] theorem Core.addWake_bars (k : Core) (u : Nat) : (k.addWake u).bars = k.bars := by unfold Core.addWake; split <;> rfl
@[simp] theorem Core.addWake_tags (k : Core) (u : Nat) : (k.addWake u).tags = k.tags := by unfold Core.addWake; split <;> rfl
@[simp] theorem Core.addWake_tagPtr (k : Core) (u : Nat) : (k.addWake u).tagPtr = k.tagPtr := by unfold Core.addWake; split <;> rfl
@[simp] theorem Core.addWake_tagWays (k : Core) (u : Nat) : (k.addWake u).tagWays = k.tagWays := by unfold Core.addWake; split <;> rfl
@[simp] theorem Core.addWake_cinch (k : Core) (u : Nat) : (k.addWake u).cinch = k.cinch := by unfold Core.addWake; split <;> rfl
@[simp] theorem Core.addWake_cinchN (k : Core) (u : Nat) : (k.addWake u).cinchN = k.cinchN := by unfold Core.addWake; split <;> rfl
@[simp] theorem Core.addWake_cinchH (k : Core) (u : Nat) : (k.addWake u).cinchH = k.cinchH := by unfold Core.addWake; split <;> rfl
@[simp] theorem Core.addWake_cinchAt (k : Core) (u : Nat) : (k.addWake u).cinchAt = k.cinchAt := by unfold Core.addWake; split <;> rfl
@[simp] theorem Core.addWake_cinchWant (k : Core) (u : Nat) : (k.addWake u).cinchWant = k.cinchWant := by unfold Core.addWake; split <;> rfl
@[simp] theorem Core.addWake_cinchOthers (k : Core) (u : Nat) : (k.addWake u).cinchOthers = k.cinchOthers := by unfold Core.addWake; split <;> rfl
@[simp] theorem Core.addWake_front (k : Core) (u : Nat) : (k.addWake u).front = k.front := by unfold Core.addWake; split <;> rfl
@[simp] theorem Core.addWake_shadow (k : Core) (u : Nat) : (k.addWake u).shadow = k.shadow := by unfold Core.addWake; split <;> rfl
@[simp] theorem Core.addWake_mserial (k : Core) (u : Nat) : (k.addWake u).mserial = k.mserial := by unfold Core.addWake; split <;> rfl
@[simp] theorem Core.addWake_mbegan (k : Core) (u : Nat) : (k.addWake u).mbegan = k.mbegan := by unfold Core.addWake; split <;> rfl
@[simp] theorem Core.addWake_mheld (k : Core) (u : Nat) : (k.addWake u).mheld = k.mheld := by unfold Core.addWake; split <;> rfl
@[simp] theorem Core.addWake_cqs (k : Core) (u : Nat) : (k.addWake u).cqs = k.cqs := by unfold Core.addWake; split <;> rfl
@[simp] theorem Core.addWake_qfences (k : Core) (u : Nat) : (k.addWake u).qfences = k.qfences := by unfold Core.addWake; split <;> rfl
@[simp] theorem Core.addWake_imem (k : Core) (u : Nat) : (k.addWake u).imem = k.imem := by unfold Core.addWake; split <;> rfl
@[simp] theorem Core.addWake_tlb (k : Core) (u : Nat) : (k.addWake u).tlb = k.tlb := by unfold Core.addWake; split <;> rfl
@[simp] theorem Core.addWake_descs (k : Core) (u : Nat) : (k.addWake u).descs = k.descs := by unfold Core.addWake; split <;> rfl
@[simp] theorem Core.addWake_seqs (k : Core) (u : Nat) : (k.addWake u).seqs = k.seqs := by unfold Core.addWake; split <;> rfl
@[simp] theorem Core.spadWrite_bind (k : Core) (o : Nat) (bs : List (Option Byte)) : (k.spadWrite o bs).bind = k.bind := rfl
@[simp] theorem Core.spadWrite_ctx (k : Core) (o : Nat) (bs : List (Option Byte)) : (k.spadWrite o bs).ctx = k.ctx := rfl
@[simp] theorem Core.spadWrite_mclass (k : Core) (o : Nat) (bs : List (Option Byte)) : (k.spadWrite o bs).mclass = k.mclass := rfl
@[simp] theorem Core.spadWrite_cyc (k : Core) (o : Nat) (bs : List (Option Byte)) : (k.spadWrite o bs).cyc = k.cyc := rfl
@[simp] theorem Core.spadWrite_phase (k : Core) (o : Nat) (bs : List (Option Byte)) : (k.spadWrite o bs).phase = k.phase := rfl
@[simp] theorem Core.spadWrite_half (k : Core) (o : Nat) (bs : List (Option Byte)) : (k.spadWrite o bs).half = k.half := rfl
@[simp] theorem Core.spadWrite_warn (k : Core) (o : Nat) (bs : List (Option Byte)) : (k.spadWrite o bs).warn = k.warn := rfl
@[simp] theorem Core.spadWrite_trig (k : Core) (o : Nat) (bs : List (Option Byte)) : (k.spadWrite o bs).trig = k.trig := rfl
@[simp] theorem Core.spadWrite_lease (k : Core) (o : Nat) (bs : List (Option Byte)) : (k.spadWrite o bs).lease = k.lease := rfl
@[simp] theorem Core.spadWrite_leaseLim (k : Core) (o : Nat) (bs : List (Option Byte)) : (k.spadWrite o bs).leaseLim = k.leaseLim := rfl
@[simp] theorem Core.spadWrite_pace (k : Core) (o : Nat) (bs : List (Option Byte)) : (k.spadWrite o bs).pace = k.pace := rfl
@[simp] theorem Core.spadWrite_paceLim (k : Core) (o : Nat) (bs : List (Option Byte)) : (k.spadWrite o bs).paceLim = k.paceLim := rfl
@[simp] theorem Core.spadWrite_bstep (k : Core) (o : Nat) (bs : List (Option Byte)) : (k.spadWrite o bs).bstep = k.bstep := rfl
@[simp] theorem Core.spadWrite_btop (k : Core) (o : Nat) (bs : List (Option Byte)) : (k.spadWrite o bs).btop = k.btop := rfl
@[simp] theorem Core.spadWrite_margin (k : Core) (o : Nat) (bs : List (Option Byte)) : (k.spadWrite o bs).margin = k.margin := rfl
@[simp] theorem Core.spadWrite_qreq (k : Core) (o : Nat) (bs : List (Option Byte)) : (k.spadWrite o bs).qreq = k.qreq := rfl
@[simp] theorem Core.spadWrite_guar (k : Core) (o : Nat) (bs : List (Option Byte)) : (k.spadWrite o bs).guar = k.guar := rfl
@[simp] theorem Core.spadWrite_bstepEff (k : Core) (o : Nat) (bs : List (Option Byte)) : (k.spadWrite o bs).bstepEff = k.bstepEff := rfl
@[simp] theorem Core.spadWrite_settle (k : Core) (o : Nat) (bs : List (Option Byte)) : (k.spadWrite o bs).settle = k.settle := rfl
@[simp] theorem Core.spadWrite_esc (k : Core) (o : Nat) (bs : List (Option Byte)) : (k.spadWrite o bs).esc = k.esc := rfl
@[simp] theorem Core.spadWrite_count (k : Core) (o : Nat) (bs : List (Option Byte)) : (k.spadWrite o bs).count = k.count := rfl
@[simp] theorem Core.spadWrite_limit (k : Core) (o : Nat) (bs : List (Option Byte)) : (k.spadWrite o bs).limit = k.limit := rfl
@[simp] theorem Core.spadWrite_overran (k : Core) (o : Nat) (bs : List (Option Byte)) : (k.spadWrite o bs).overran = k.overran := rfl
@[simp] theorem Core.spadWrite_repWin (k : Core) (o : Nat) (bs : List (Option Byte)) : (k.spadWrite o bs).repWin = k.repWin := rfl
@[simp] theorem Core.spadWrite_escal (k : Core) (o : Nat) (bs : List (Option Byte)) : (k.spadWrite o bs).escal = k.escal := rfl
@[simp] theorem Core.spadWrite_qtag (k : Core) (o : Nat) (bs : List (Option Byte)) : (k.spadWrite o bs).qtag = k.qtag := rfl
@[simp] theorem Core.spadWrite_vth (k : Core) (o : Nat) (bs : List (Option Byte)) : (k.spadWrite o bs).vth = k.vth := rfl
@[simp] theorem Core.spadWrite_stepth (k : Core) (o : Nat) (bs : List (Option Byte)) : (k.spadWrite o bs).stepth = k.stepth := rfl
@[simp] theorem Core.spadWrite_wakes (k : Core) (o : Nat) (bs : List (Option Byte)) : (k.spadWrite o bs).wakes = k.wakes := rfl
@[simp] theorem Core.spadWrite_lastBeat (k : Core) (o : Nat) (bs : List (Option Byte)) : (k.spadWrite o bs).lastBeat = k.lastBeat := rfl
@[simp] theorem Core.spadWrite_lastUnit (k : Core) (o : Nat) (bs : List (Option Byte)) : (k.spadWrite o bs).lastUnit = k.lastUnit := rfl
@[simp] theorem Core.spadWrite_rrq (k : Core) (o : Nat) (bs : List (Option Byte)) : (k.spadWrite o bs).rrq = k.rrq := rfl
@[simp] theorem Core.spadWrite_mons (k : Core) (o : Nat) (bs : List (Option Byte)) : (k.spadWrite o bs).mons = k.mons := rfl
@[simp] theorem Core.spadWrite_tiles (k : Core) (o : Nat) (bs : List (Option Byte)) : (k.spadWrite o bs).tiles = k.tiles := rfl
@[simp] theorem Core.spadWrite_rings (k : Core) (o : Nat) (bs : List (Option Byte)) : (k.spadWrite o bs).rings = k.rings := rfl
@[simp] theorem Core.spadWrite_acs (k : Core) (o : Nat) (bs : List (Option Byte)) : (k.spadWrite o bs).acs = k.acs := rfl
@[simp] theorem Core.spadWrite_bars (k : Core) (o : Nat) (bs : List (Option Byte)) : (k.spadWrite o bs).bars = k.bars := rfl
@[simp] theorem Core.spadWrite_tags (k : Core) (o : Nat) (bs : List (Option Byte)) : (k.spadWrite o bs).tags = k.tags := rfl
@[simp] theorem Core.spadWrite_tagPtr (k : Core) (o : Nat) (bs : List (Option Byte)) : (k.spadWrite o bs).tagPtr = k.tagPtr := rfl
@[simp] theorem Core.spadWrite_tagWays (k : Core) (o : Nat) (bs : List (Option Byte)) : (k.spadWrite o bs).tagWays = k.tagWays := rfl
@[simp] theorem Core.spadWrite_cinch (k : Core) (o : Nat) (bs : List (Option Byte)) : (k.spadWrite o bs).cinch = k.cinch := rfl
@[simp] theorem Core.spadWrite_cinchN (k : Core) (o : Nat) (bs : List (Option Byte)) : (k.spadWrite o bs).cinchN = k.cinchN := rfl
@[simp] theorem Core.spadWrite_cinchH (k : Core) (o : Nat) (bs : List (Option Byte)) : (k.spadWrite o bs).cinchH = k.cinchH := rfl
@[simp] theorem Core.spadWrite_cinchAt (k : Core) (o : Nat) (bs : List (Option Byte)) : (k.spadWrite o bs).cinchAt = k.cinchAt := rfl
@[simp] theorem Core.spadWrite_cinchWant (k : Core) (o : Nat) (bs : List (Option Byte)) : (k.spadWrite o bs).cinchWant = k.cinchWant := rfl
@[simp] theorem Core.spadWrite_cinchOthers (k : Core) (o : Nat) (bs : List (Option Byte)) : (k.spadWrite o bs).cinchOthers = k.cinchOthers := rfl
@[simp] theorem Core.spadWrite_front (k : Core) (o : Nat) (bs : List (Option Byte)) : (k.spadWrite o bs).front = k.front := rfl
@[simp] theorem Core.spadWrite_shadow (k : Core) (o : Nat) (bs : List (Option Byte)) : (k.spadWrite o bs).shadow = k.shadow := rfl
@[simp] theorem Core.spadWrite_mserial (k : Core) (o : Nat) (bs : List (Option Byte)) : (k.spadWrite o bs).mserial = k.mserial := rfl
@[simp] theorem Core.spadWrite_mbegan (k : Core) (o : Nat) (bs : List (Option Byte)) : (k.spadWrite o bs).mbegan = k.mbegan := rfl
@[simp] theorem Core.spadWrite_mheld (k : Core) (o : Nat) (bs : List (Option Byte)) : (k.spadWrite o bs).mheld = k.mheld := rfl
@[simp] theorem Core.spadWrite_cqs (k : Core) (o : Nat) (bs : List (Option Byte)) : (k.spadWrite o bs).cqs = k.cqs := rfl
@[simp] theorem Core.spadWrite_qfences (k : Core) (o : Nat) (bs : List (Option Byte)) : (k.spadWrite o bs).qfences = k.qfences := rfl
@[simp] theorem Core.spadWrite_imem (k : Core) (o : Nat) (bs : List (Option Byte)) : (k.spadWrite o bs).imem = k.imem := rfl
@[simp] theorem Core.spadWrite_tlb (k : Core) (o : Nat) (bs : List (Option Byte)) : (k.spadWrite o bs).tlb = k.tlb := rfl
@[simp] theorem Core.spadWrite_descs (k : Core) (o : Nat) (bs : List (Option Byte)) : (k.spadWrite o bs).descs = k.descs := rfl
@[simp] theorem Core.spadWrite_seqs (k : Core) (o : Nat) (bs : List (Option Byte)) : (k.spadWrite o bs).seqs = k.seqs := rfl
@[simp] theorem Core.setTile_bind (k : Core) (t : Fin 32) (vs : List Acc) : (k.setTile t vs).bind = k.bind := rfl
@[simp] theorem Core.setTile_ctx (k : Core) (t : Fin 32) (vs : List Acc) : (k.setTile t vs).ctx = k.ctx := rfl
@[simp] theorem Core.setTile_mclass (k : Core) (t : Fin 32) (vs : List Acc) : (k.setTile t vs).mclass = k.mclass := rfl
@[simp] theorem Core.setTile_cyc (k : Core) (t : Fin 32) (vs : List Acc) : (k.setTile t vs).cyc = k.cyc := rfl
@[simp] theorem Core.setTile_phase (k : Core) (t : Fin 32) (vs : List Acc) : (k.setTile t vs).phase = k.phase := rfl
@[simp] theorem Core.setTile_half (k : Core) (t : Fin 32) (vs : List Acc) : (k.setTile t vs).half = k.half := rfl
@[simp] theorem Core.setTile_warn (k : Core) (t : Fin 32) (vs : List Acc) : (k.setTile t vs).warn = k.warn := rfl
@[simp] theorem Core.setTile_trig (k : Core) (t : Fin 32) (vs : List Acc) : (k.setTile t vs).trig = k.trig := rfl
@[simp] theorem Core.setTile_lease (k : Core) (t : Fin 32) (vs : List Acc) : (k.setTile t vs).lease = k.lease := rfl
@[simp] theorem Core.setTile_leaseLim (k : Core) (t : Fin 32) (vs : List Acc) : (k.setTile t vs).leaseLim = k.leaseLim := rfl
@[simp] theorem Core.setTile_pace (k : Core) (t : Fin 32) (vs : List Acc) : (k.setTile t vs).pace = k.pace := rfl
@[simp] theorem Core.setTile_paceLim (k : Core) (t : Fin 32) (vs : List Acc) : (k.setTile t vs).paceLim = k.paceLim := rfl
@[simp] theorem Core.setTile_bstep (k : Core) (t : Fin 32) (vs : List Acc) : (k.setTile t vs).bstep = k.bstep := rfl
@[simp] theorem Core.setTile_btop (k : Core) (t : Fin 32) (vs : List Acc) : (k.setTile t vs).btop = k.btop := rfl
@[simp] theorem Core.setTile_margin (k : Core) (t : Fin 32) (vs : List Acc) : (k.setTile t vs).margin = k.margin := rfl
@[simp] theorem Core.setTile_qreq (k : Core) (t : Fin 32) (vs : List Acc) : (k.setTile t vs).qreq = k.qreq := rfl
@[simp] theorem Core.setTile_guar (k : Core) (t : Fin 32) (vs : List Acc) : (k.setTile t vs).guar = k.guar := rfl
@[simp] theorem Core.setTile_bstepEff (k : Core) (t : Fin 32) (vs : List Acc) : (k.setTile t vs).bstepEff = k.bstepEff := rfl
@[simp] theorem Core.setTile_settle (k : Core) (t : Fin 32) (vs : List Acc) : (k.setTile t vs).settle = k.settle := rfl
@[simp] theorem Core.setTile_esc (k : Core) (t : Fin 32) (vs : List Acc) : (k.setTile t vs).esc = k.esc := rfl
@[simp] theorem Core.setTile_count (k : Core) (t : Fin 32) (vs : List Acc) : (k.setTile t vs).count = k.count := rfl
@[simp] theorem Core.setTile_limit (k : Core) (t : Fin 32) (vs : List Acc) : (k.setTile t vs).limit = k.limit := rfl
@[simp] theorem Core.setTile_overran (k : Core) (t : Fin 32) (vs : List Acc) : (k.setTile t vs).overran = k.overran := rfl
@[simp] theorem Core.setTile_repWin (k : Core) (t : Fin 32) (vs : List Acc) : (k.setTile t vs).repWin = k.repWin := rfl
@[simp] theorem Core.setTile_escal (k : Core) (t : Fin 32) (vs : List Acc) : (k.setTile t vs).escal = k.escal := rfl
@[simp] theorem Core.setTile_qtag (k : Core) (t : Fin 32) (vs : List Acc) : (k.setTile t vs).qtag = k.qtag := rfl
@[simp] theorem Core.setTile_vth (k : Core) (t : Fin 32) (vs : List Acc) : (k.setTile t vs).vth = k.vth := rfl
@[simp] theorem Core.setTile_stepth (k : Core) (t : Fin 32) (vs : List Acc) : (k.setTile t vs).stepth = k.stepth := rfl
@[simp] theorem Core.setTile_wakes (k : Core) (t : Fin 32) (vs : List Acc) : (k.setTile t vs).wakes = k.wakes := rfl
@[simp] theorem Core.setTile_lastBeat (k : Core) (t : Fin 32) (vs : List Acc) : (k.setTile t vs).lastBeat = k.lastBeat := rfl
@[simp] theorem Core.setTile_lastUnit (k : Core) (t : Fin 32) (vs : List Acc) : (k.setTile t vs).lastUnit = k.lastUnit := rfl
@[simp] theorem Core.setTile_rrq (k : Core) (t : Fin 32) (vs : List Acc) : (k.setTile t vs).rrq = k.rrq := rfl
@[simp] theorem Core.setTile_mons (k : Core) (t : Fin 32) (vs : List Acc) : (k.setTile t vs).mons = k.mons := rfl
@[simp] theorem Core.setTile_spad (k : Core) (t : Fin 32) (vs : List Acc) : (k.setTile t vs).spad = k.spad := rfl
@[simp] theorem Core.setTile_rings (k : Core) (t : Fin 32) (vs : List Acc) : (k.setTile t vs).rings = k.rings := rfl
@[simp] theorem Core.setTile_acs (k : Core) (t : Fin 32) (vs : List Acc) : (k.setTile t vs).acs = k.acs := rfl
@[simp] theorem Core.setTile_bars (k : Core) (t : Fin 32) (vs : List Acc) : (k.setTile t vs).bars = k.bars := rfl
@[simp] theorem Core.setTile_tags (k : Core) (t : Fin 32) (vs : List Acc) : (k.setTile t vs).tags = k.tags := rfl
@[simp] theorem Core.setTile_tagPtr (k : Core) (t : Fin 32) (vs : List Acc) : (k.setTile t vs).tagPtr = k.tagPtr := rfl
@[simp] theorem Core.setTile_tagWays (k : Core) (t : Fin 32) (vs : List Acc) : (k.setTile t vs).tagWays = k.tagWays := rfl
@[simp] theorem Core.setTile_cinch (k : Core) (t : Fin 32) (vs : List Acc) : (k.setTile t vs).cinch = k.cinch := rfl
@[simp] theorem Core.setTile_cinchN (k : Core) (t : Fin 32) (vs : List Acc) : (k.setTile t vs).cinchN = k.cinchN := rfl
@[simp] theorem Core.setTile_cinchH (k : Core) (t : Fin 32) (vs : List Acc) : (k.setTile t vs).cinchH = k.cinchH := rfl
@[simp] theorem Core.setTile_cinchAt (k : Core) (t : Fin 32) (vs : List Acc) : (k.setTile t vs).cinchAt = k.cinchAt := rfl
@[simp] theorem Core.setTile_cinchWant (k : Core) (t : Fin 32) (vs : List Acc) : (k.setTile t vs).cinchWant = k.cinchWant := rfl
@[simp] theorem Core.setTile_cinchOthers (k : Core) (t : Fin 32) (vs : List Acc) : (k.setTile t vs).cinchOthers = k.cinchOthers := rfl
@[simp] theorem Core.setTile_front (k : Core) (t : Fin 32) (vs : List Acc) : (k.setTile t vs).front = k.front := rfl
@[simp] theorem Core.setTile_shadow (k : Core) (t : Fin 32) (vs : List Acc) : (k.setTile t vs).shadow = k.shadow := rfl
@[simp] theorem Core.setTile_mserial (k : Core) (t : Fin 32) (vs : List Acc) : (k.setTile t vs).mserial = k.mserial := rfl
@[simp] theorem Core.setTile_mbegan (k : Core) (t : Fin 32) (vs : List Acc) : (k.setTile t vs).mbegan = k.mbegan := rfl
@[simp] theorem Core.setTile_mheld (k : Core) (t : Fin 32) (vs : List Acc) : (k.setTile t vs).mheld = k.mheld := rfl
@[simp] theorem Core.setTile_cqs (k : Core) (t : Fin 32) (vs : List Acc) : (k.setTile t vs).cqs = k.cqs := rfl
@[simp] theorem Core.setTile_qfences (k : Core) (t : Fin 32) (vs : List Acc) : (k.setTile t vs).qfences = k.qfences := rfl
@[simp] theorem Core.setTile_imem (k : Core) (t : Fin 32) (vs : List Acc) : (k.setTile t vs).imem = k.imem := rfl
@[simp] theorem Core.setTile_tlb (k : Core) (t : Fin 32) (vs : List Acc) : (k.setTile t vs).tlb = k.tlb := rfl
@[simp] theorem Core.setTile_descs (k : Core) (t : Fin 32) (vs : List Acc) : (k.setTile t vs).descs = k.descs := rfl
@[simp] theorem Core.setTile_seqs (k : Core) (t : Fin 32) (vs : List Acc) : (k.setTile t vs).seqs = k.seqs := rfl
@[simp] theorem Core.setCinch_bind (k : Core) (q : SeqId) (v : CinchSt) : (k.setCinch q v).bind = k.bind := rfl
@[simp] theorem Core.setCinch_ctx (k : Core) (q : SeqId) (v : CinchSt) : (k.setCinch q v).ctx = k.ctx := rfl
@[simp] theorem Core.setCinch_mclass (k : Core) (q : SeqId) (v : CinchSt) : (k.setCinch q v).mclass = k.mclass := rfl
@[simp] theorem Core.setCinch_cyc (k : Core) (q : SeqId) (v : CinchSt) : (k.setCinch q v).cyc = k.cyc := rfl
@[simp] theorem Core.setCinch_phase (k : Core) (q : SeqId) (v : CinchSt) : (k.setCinch q v).phase = k.phase := rfl
@[simp] theorem Core.setCinch_half (k : Core) (q : SeqId) (v : CinchSt) : (k.setCinch q v).half = k.half := rfl
@[simp] theorem Core.setCinch_warn (k : Core) (q : SeqId) (v : CinchSt) : (k.setCinch q v).warn = k.warn := rfl
@[simp] theorem Core.setCinch_trig (k : Core) (q : SeqId) (v : CinchSt) : (k.setCinch q v).trig = k.trig := rfl
@[simp] theorem Core.setCinch_lease (k : Core) (q : SeqId) (v : CinchSt) : (k.setCinch q v).lease = k.lease := rfl
@[simp] theorem Core.setCinch_leaseLim (k : Core) (q : SeqId) (v : CinchSt) : (k.setCinch q v).leaseLim = k.leaseLim := rfl
@[simp] theorem Core.setCinch_pace (k : Core) (q : SeqId) (v : CinchSt) : (k.setCinch q v).pace = k.pace := rfl
@[simp] theorem Core.setCinch_paceLim (k : Core) (q : SeqId) (v : CinchSt) : (k.setCinch q v).paceLim = k.paceLim := rfl
@[simp] theorem Core.setCinch_bstep (k : Core) (q : SeqId) (v : CinchSt) : (k.setCinch q v).bstep = k.bstep := rfl
@[simp] theorem Core.setCinch_btop (k : Core) (q : SeqId) (v : CinchSt) : (k.setCinch q v).btop = k.btop := rfl
@[simp] theorem Core.setCinch_margin (k : Core) (q : SeqId) (v : CinchSt) : (k.setCinch q v).margin = k.margin := rfl
@[simp] theorem Core.setCinch_qreq (k : Core) (q : SeqId) (v : CinchSt) : (k.setCinch q v).qreq = k.qreq := rfl
@[simp] theorem Core.setCinch_guar (k : Core) (q : SeqId) (v : CinchSt) : (k.setCinch q v).guar = k.guar := rfl
@[simp] theorem Core.setCinch_bstepEff (k : Core) (q : SeqId) (v : CinchSt) : (k.setCinch q v).bstepEff = k.bstepEff := rfl
@[simp] theorem Core.setCinch_settle (k : Core) (q : SeqId) (v : CinchSt) : (k.setCinch q v).settle = k.settle := rfl
@[simp] theorem Core.setCinch_esc (k : Core) (q : SeqId) (v : CinchSt) : (k.setCinch q v).esc = k.esc := rfl
@[simp] theorem Core.setCinch_count (k : Core) (q : SeqId) (v : CinchSt) : (k.setCinch q v).count = k.count := rfl
@[simp] theorem Core.setCinch_limit (k : Core) (q : SeqId) (v : CinchSt) : (k.setCinch q v).limit = k.limit := rfl
@[simp] theorem Core.setCinch_overran (k : Core) (q : SeqId) (v : CinchSt) : (k.setCinch q v).overran = k.overran := rfl
@[simp] theorem Core.setCinch_repWin (k : Core) (q : SeqId) (v : CinchSt) : (k.setCinch q v).repWin = k.repWin := rfl
@[simp] theorem Core.setCinch_escal (k : Core) (q : SeqId) (v : CinchSt) : (k.setCinch q v).escal = k.escal := rfl
@[simp] theorem Core.setCinch_qtag (k : Core) (q : SeqId) (v : CinchSt) : (k.setCinch q v).qtag = k.qtag := rfl
@[simp] theorem Core.setCinch_vth (k : Core) (q : SeqId) (v : CinchSt) : (k.setCinch q v).vth = k.vth := rfl
@[simp] theorem Core.setCinch_stepth (k : Core) (q : SeqId) (v : CinchSt) : (k.setCinch q v).stepth = k.stepth := rfl
@[simp] theorem Core.setCinch_wakes (k : Core) (q : SeqId) (v : CinchSt) : (k.setCinch q v).wakes = k.wakes := rfl
@[simp] theorem Core.setCinch_lastBeat (k : Core) (q : SeqId) (v : CinchSt) : (k.setCinch q v).lastBeat = k.lastBeat := rfl
@[simp] theorem Core.setCinch_lastUnit (k : Core) (q : SeqId) (v : CinchSt) : (k.setCinch q v).lastUnit = k.lastUnit := rfl
@[simp] theorem Core.setCinch_rrq (k : Core) (q : SeqId) (v : CinchSt) : (k.setCinch q v).rrq = k.rrq := rfl
@[simp] theorem Core.setCinch_mons (k : Core) (q : SeqId) (v : CinchSt) : (k.setCinch q v).mons = k.mons := rfl
@[simp] theorem Core.setCinch_tiles (k : Core) (q : SeqId) (v : CinchSt) : (k.setCinch q v).tiles = k.tiles := rfl
@[simp] theorem Core.setCinch_spad (k : Core) (q : SeqId) (v : CinchSt) : (k.setCinch q v).spad = k.spad := rfl
@[simp] theorem Core.setCinch_rings (k : Core) (q : SeqId) (v : CinchSt) : (k.setCinch q v).rings = k.rings := rfl
@[simp] theorem Core.setCinch_acs (k : Core) (q : SeqId) (v : CinchSt) : (k.setCinch q v).acs = k.acs := rfl
@[simp] theorem Core.setCinch_bars (k : Core) (q : SeqId) (v : CinchSt) : (k.setCinch q v).bars = k.bars := rfl
@[simp] theorem Core.setCinch_tags (k : Core) (q : SeqId) (v : CinchSt) : (k.setCinch q v).tags = k.tags := rfl
@[simp] theorem Core.setCinch_tagPtr (k : Core) (q : SeqId) (v : CinchSt) : (k.setCinch q v).tagPtr = k.tagPtr := rfl
@[simp] theorem Core.setCinch_tagWays (k : Core) (q : SeqId) (v : CinchSt) : (k.setCinch q v).tagWays = k.tagWays := rfl
@[simp] theorem Core.setCinch_cinchN (k : Core) (q : SeqId) (v : CinchSt) : (k.setCinch q v).cinchN = k.cinchN := rfl
@[simp] theorem Core.setCinch_cinchH (k : Core) (q : SeqId) (v : CinchSt) : (k.setCinch q v).cinchH = k.cinchH := rfl
@[simp] theorem Core.setCinch_cinchAt (k : Core) (q : SeqId) (v : CinchSt) : (k.setCinch q v).cinchAt = k.cinchAt := rfl
@[simp] theorem Core.setCinch_cinchWant (k : Core) (q : SeqId) (v : CinchSt) : (k.setCinch q v).cinchWant = k.cinchWant := rfl
@[simp] theorem Core.setCinch_cinchOthers (k : Core) (q : SeqId) (v : CinchSt) : (k.setCinch q v).cinchOthers = k.cinchOthers := rfl
@[simp] theorem Core.setCinch_front (k : Core) (q : SeqId) (v : CinchSt) : (k.setCinch q v).front = k.front := rfl
@[simp] theorem Core.setCinch_shadow (k : Core) (q : SeqId) (v : CinchSt) : (k.setCinch q v).shadow = k.shadow := rfl
@[simp] theorem Core.setCinch_mserial (k : Core) (q : SeqId) (v : CinchSt) : (k.setCinch q v).mserial = k.mserial := rfl
@[simp] theorem Core.setCinch_mbegan (k : Core) (q : SeqId) (v : CinchSt) : (k.setCinch q v).mbegan = k.mbegan := rfl
@[simp] theorem Core.setCinch_mheld (k : Core) (q : SeqId) (v : CinchSt) : (k.setCinch q v).mheld = k.mheld := rfl
@[simp] theorem Core.setCinch_cqs (k : Core) (q : SeqId) (v : CinchSt) : (k.setCinch q v).cqs = k.cqs := rfl
@[simp] theorem Core.setCinch_qfences (k : Core) (q : SeqId) (v : CinchSt) : (k.setCinch q v).qfences = k.qfences := rfl
@[simp] theorem Core.setCinch_imem (k : Core) (q : SeqId) (v : CinchSt) : (k.setCinch q v).imem = k.imem := rfl
@[simp] theorem Core.setCinch_tlb (k : Core) (q : SeqId) (v : CinchSt) : (k.setCinch q v).tlb = k.tlb := rfl
@[simp] theorem Core.setCinch_descs (k : Core) (q : SeqId) (v : CinchSt) : (k.setCinch q v).descs = k.descs := rfl
@[simp] theorem Core.setCinch_seqs (k : Core) (q : SeqId) (v : CinchSt) : (k.setCinch q v).seqs = k.seqs := rfl

@[simp] theorem Core.seq_setSeq (k : Core) (q : SeqId) (x : Seq) : (k.setSeq q x).seq q = x := by
  simp [Core.seq, Core.setSeq]
theorem Core.seq_setSeq_ne (k : Core) {q r : SeqId} (x : Seq) (h : r ≠ q) : (k.setSeq q x).seq r = k.seq r := by
  have : q.val ≠ r.val := fun x => h (Fin.ext x.symm)
  simp [Core.seq, Core.setSeq, this]
@[simp] theorem Core.setSeq_seq (k : Core) (q : SeqId) : k.setSeq q (k.seq q) = k := by
  simp [Core.seq, Core.setSeq]
@[simp] theorem Core.setSeq_setSeq (k : Core) (q : SeqId) (x y : Seq) : (k.setSeq q x).setSeq q y = k.setSeq q y := by
  simp [Core.setSeq]
@[simp] theorem Core.seq_monitorK (k : Core) (src wk v : Nat) (q : SeqId) : (k.monitorK src wk v).seq q = k.seq q := rfl
@[simp] theorem Core.seq_monitor (k : Core) (src v : Nat) (q : SeqId) : (k.monitor src v).seq q = k.seq q := rfl
@[simp] theorem Core.seq_addWake (k : Core) (u : Nat) (q : SeqId) : (k.addWake u).seq q = k.seq q := by
  unfold Core.addWake; split <;> rfl
@[simp] theorem Core.cq_setCq (k : Core) (n : CqId) (x : CopyQ) : (k.setCq n x).cq n = x := by simp [Core.cq, Core.setCq]
theorem Core.cq_setCq_ne (k : Core) {n m : CqId} (x : CopyQ) (h : m ≠ n) : (k.setCq n x).cq m = k.cq m := by
  have : n.val ≠ m.val := fun x => h (Fin.ext x.symm)
  simp [Core.cq, Core.setCq, this]
@[simp] theorem State.seq_setSeq (s : State) (c : CoreId) (q : SeqId) (x : Seq) : (s.setSeq c q x).seq c q = x := by
  simp [State.seq, State.setSeq]
@[simp] theorem State.strm_modStrm (s : State) (c : CoreId) (q : SeqId) (st : Strm) (f : Stream → Stream) :
    (s.modStrm c q st f).strm c q st = f (s.strm c q st) := by
  cases st <;> simp [State.strm, State.modStrm_eq, Seq.strm, Seq.setStrm]

/-! ## One sequencer -/

@[simp] theorem Seq.setStrm_st (x : Seq) (st : Strm) (y : Stream) : (x.setStrm st y).st = x.st := by cases st <;> rfl
@[simp] theorem Seq.setStrm_rcd (x : Seq) (st : Strm) (y : Stream) : (x.setStrm st y).rcd = x.rcd := by cases st <;> rfl
@[simp] theorem Seq.setStrm_popg (x : Seq) (st : Strm) (y : Stream) : (x.setStrm st y).popg = x.popg := by cases st <;> rfl
@[simp] theorem Seq.setStrm_deadln (x : Seq) (st : Strm) (y : Stream) : (x.setStrm st y).deadln = x.deadln := by cases st <;> rfl
@[simp] theorem Seq.setStrm_grpid (x : Seq) (st : Strm) (y : Stream) : (x.setStrm st y).grpid = x.grpid := by cases st <;> rfl
@[simp] theorem Seq.setStrm_frame (x : Seq) (st : Strm) (y : Stream) : (x.setStrm st y).frame = x.frame := by cases st <;> rfl
@[simp] theorem Seq.setStrm_v (x : Seq) (st : Strm) (y : Stream) : (x.setStrm st y).v = x.v := by cases st <;> rfl
@[simp] theorem Seq.setStrm_k (x : Seq) (st : Strm) (y : Stream) : (x.setStrm st y).k = x.k := by cases st <;> rfl
@[simp] theorem Seq.setStrm_flags (x : Seq) (st : Strm) (y : Stream) : (x.setStrm st y).flags = x.flags := by cases st <;> rfl
@[simp] theorem Seq.setStrm_flagsHist (x : Seq) (st : Strm) (y : Stream) : (x.setStrm st y).flagsHist = x.flagsHist := by cases st <;> rfl
@[simp] theorem Seq.setStrm_slip (x : Seq) (st : Strm) (y : Stream) : (x.setStrm st y).slip = x.slip := by cases st <;> rfl
@[simp] theorem Seq.setStrm_dq (x : Seq) (st : Strm) (y : Stream) : (x.setStrm st y).dq = x.dq := by cases st <;> rfl
@[simp] theorem Seq.setStrm_bq (x : Seq) (st : Strm) (y : Stream) : (x.setStrm st y).bq = x.bq := by cases st <;> rfl
@[simp] theorem Seq.setStrm_fq (x : Seq) (st : Strm) (y : Stream) : (x.setStrm st y).fq = x.fq := by cases st <;> rfl
@[simp] theorem Seq.setStrm_alt (x : Seq) (st : Strm) (y : Stream) : (x.setStrm st y).alt = x.alt := by cases st <;> rfl
@[simp] theorem Seq.setStrm_held (x : Seq) (st : Strm) (y : Stream) : (x.setStrm st y).held = x.held := by cases st <;> rfl
@[simp] theorem Seq.setStrm_bubble (x : Seq) (st : Strm) (y : Stream) : (x.setStrm st y).bubble = x.bubble := by cases st <;> rfl
@[simp] theorem Seq.setStrm_lastIssue (x : Seq) (st : Strm) (y : Stream) : (x.setStrm st y).lastIssue = x.lastIssue := by cases st <;> rfl
@[simp] theorem Seq.setStrm_lastVec (x : Seq) (st : Strm) (y : Stream) : (x.setStrm st y).lastVec = x.lastVec := by cases st <;> rfl
@[simp] theorem Seq.setStrm_lanes (x : Seq) (st : Strm) (y : Stream) : (x.setStrm st y).lanes = x.lanes := by cases st <;> rfl
@[simp] theorem Seq.setStrm_wins (x : Seq) (st : Strm) (y : Stream) : (x.setStrm st y).wins = x.wins := by cases st <;> rfl
@[simp] theorem Seq.setStrm_wno (x : Seq) (st : Strm) (y : Stream) : (x.setStrm st y).wno = x.wno := by cases st <;> rfl
@[simp] theorem Seq.setStrm_resident (x : Seq) (st : Strm) (y : Stream) : (x.setStrm st y).resident = x.resident := by cases st <;> rfl
@[simp] theorem Seq.setV_st (x : Seq) (n : Fin 640) (v : VWord) : (x.setV n v).st = x.st := rfl
@[simp] theorem Seq.setV_rcd (x : Seq) (n : Fin 640) (v : VWord) : (x.setV n v).rcd = x.rcd := rfl
@[simp] theorem Seq.setV_popg (x : Seq) (n : Fin 640) (v : VWord) : (x.setV n v).popg = x.popg := rfl
@[simp] theorem Seq.setV_deadln (x : Seq) (n : Fin 640) (v : VWord) : (x.setV n v).deadln = x.deadln := rfl
@[simp] theorem Seq.setV_grpid (x : Seq) (n : Fin 640) (v : VWord) : (x.setV n v).grpid = x.grpid := rfl
@[simp] theorem Seq.setV_frame (x : Seq) (n : Fin 640) (v : VWord) : (x.setV n v).frame = x.frame := rfl
@[simp] theorem Seq.setV_k (x : Seq) (n : Fin 640) (v : VWord) : (x.setV n v).k = x.k := rfl
@[simp] theorem Seq.setV_flags (x : Seq) (n : Fin 640) (v : VWord) : (x.setV n v).flags = x.flags := rfl
@[simp] theorem Seq.setV_flagsHist (x : Seq) (n : Fin 640) (v : VWord) : (x.setV n v).flagsHist = x.flagsHist := rfl
@[simp] theorem Seq.setV_slip (x : Seq) (n : Fin 640) (v : VWord) : (x.setV n v).slip = x.slip := rfl
@[simp] theorem Seq.setV_dq (x : Seq) (n : Fin 640) (v : VWord) : (x.setV n v).dq = x.dq := rfl
@[simp] theorem Seq.setV_bq (x : Seq) (n : Fin 640) (v : VWord) : (x.setV n v).bq = x.bq := rfl
@[simp] theorem Seq.setV_fq (x : Seq) (n : Fin 640) (v : VWord) : (x.setV n v).fq = x.fq := rfl
@[simp] theorem Seq.setV_alt (x : Seq) (n : Fin 640) (v : VWord) : (x.setV n v).alt = x.alt := rfl
@[simp] theorem Seq.setV_held (x : Seq) (n : Fin 640) (v : VWord) : (x.setV n v).held = x.held := rfl
@[simp] theorem Seq.setV_bubble (x : Seq) (n : Fin 640) (v : VWord) : (x.setV n v).bubble = x.bubble := rfl
@[simp] theorem Seq.setV_lastIssue (x : Seq) (n : Fin 640) (v : VWord) : (x.setV n v).lastIssue = x.lastIssue := rfl
@[simp] theorem Seq.setV_lastVec (x : Seq) (n : Fin 640) (v : VWord) : (x.setV n v).lastVec = x.lastVec := rfl
@[simp] theorem Seq.setV_lanes (x : Seq) (n : Fin 640) (v : VWord) : (x.setV n v).lanes = x.lanes := rfl
@[simp] theorem Seq.setV_wins (x : Seq) (n : Fin 640) (v : VWord) : (x.setV n v).wins = x.wins := rfl
@[simp] theorem Seq.setV_wno (x : Seq) (n : Fin 640) (v : VWord) : (x.setV n v).wno = x.wno := rfl
@[simp] theorem Seq.setV_resident (x : Seq) (n : Fin 640) (v : VWord) : (x.setV n v).resident = x.resident := rfl
@[simp] theorem Seq.setV_a (x : Seq) (n : Fin 640) (v : VWord) : (x.setV n v).a = x.a := rfl
@[simp] theorem Seq.setV_c (x : Seq) (n : Fin 640) (v : VWord) : (x.setV n v).c = x.c := rfl
@[simp] theorem Seq.setK_st (x : Seq) (n : Fin 16) (v : BitVec 32) : (x.setK n v).st = x.st := by unfold Seq.setK; split <;> rfl
@[simp] theorem Seq.setK_rcd (x : Seq) (n : Fin 16) (v : BitVec 32) : (x.setK n v).rcd = x.rcd := by unfold Seq.setK; split <;> rfl
@[simp] theorem Seq.setK_popg (x : Seq) (n : Fin 16) (v : BitVec 32) : (x.setK n v).popg = x.popg := by unfold Seq.setK; split <;> rfl
@[simp] theorem Seq.setK_deadln (x : Seq) (n : Fin 16) (v : BitVec 32) : (x.setK n v).deadln = x.deadln := by unfold Seq.setK; split <;> rfl
@[simp] theorem Seq.setK_grpid (x : Seq) (n : Fin 16) (v : BitVec 32) : (x.setK n v).grpid = x.grpid := by unfold Seq.setK; split <;> rfl
@[simp] theorem Seq.setK_frame (x : Seq) (n : Fin 16) (v : BitVec 32) : (x.setK n v).frame = x.frame := by unfold Seq.setK; split <;> rfl
@[simp] theorem Seq.setK_v (x : Seq) (n : Fin 16) (v : BitVec 32) : (x.setK n v).v = x.v := by unfold Seq.setK; split <;> rfl
@[simp] theorem Seq.setK_flags (x : Seq) (n : Fin 16) (v : BitVec 32) : (x.setK n v).flags = x.flags := by unfold Seq.setK; split <;> rfl
@[simp] theorem Seq.setK_flagsHist (x : Seq) (n : Fin 16) (v : BitVec 32) : (x.setK n v).flagsHist = x.flagsHist := by unfold Seq.setK; split <;> rfl
@[simp] theorem Seq.setK_slip (x : Seq) (n : Fin 16) (v : BitVec 32) : (x.setK n v).slip = x.slip := by unfold Seq.setK; split <;> rfl
@[simp] theorem Seq.setK_dq (x : Seq) (n : Fin 16) (v : BitVec 32) : (x.setK n v).dq = x.dq := by unfold Seq.setK; split <;> rfl
@[simp] theorem Seq.setK_bq (x : Seq) (n : Fin 16) (v : BitVec 32) : (x.setK n v).bq = x.bq := by unfold Seq.setK; split <;> rfl
@[simp] theorem Seq.setK_fq (x : Seq) (n : Fin 16) (v : BitVec 32) : (x.setK n v).fq = x.fq := by unfold Seq.setK; split <;> rfl
@[simp] theorem Seq.setK_alt (x : Seq) (n : Fin 16) (v : BitVec 32) : (x.setK n v).alt = x.alt := by unfold Seq.setK; split <;> rfl
@[simp] theorem Seq.setK_held (x : Seq) (n : Fin 16) (v : BitVec 32) : (x.setK n v).held = x.held := by unfold Seq.setK; split <;> rfl
@[simp] theorem Seq.setK_bubble (x : Seq) (n : Fin 16) (v : BitVec 32) : (x.setK n v).bubble = x.bubble := by unfold Seq.setK; split <;> rfl
@[simp] theorem Seq.setK_lastIssue (x : Seq) (n : Fin 16) (v : BitVec 32) : (x.setK n v).lastIssue = x.lastIssue := by unfold Seq.setK; split <;> rfl
@[simp] theorem Seq.setK_lastVec (x : Seq) (n : Fin 16) (v : BitVec 32) : (x.setK n v).lastVec = x.lastVec := by unfold Seq.setK; split <;> rfl
@[simp] theorem Seq.setK_lanes (x : Seq) (n : Fin 16) (v : BitVec 32) : (x.setK n v).lanes = x.lanes := by unfold Seq.setK; split <;> rfl
@[simp] theorem Seq.setK_wins (x : Seq) (n : Fin 16) (v : BitVec 32) : (x.setK n v).wins = x.wins := by unfold Seq.setK; split <;> rfl
@[simp] theorem Seq.setK_wno (x : Seq) (n : Fin 16) (v : BitVec 32) : (x.setK n v).wno = x.wno := by unfold Seq.setK; split <;> rfl
@[simp] theorem Seq.setK_resident (x : Seq) (n : Fin 16) (v : BitVec 32) : (x.setK n v).resident = x.resident := by unfold Seq.setK; split <;> rfl
@[simp] theorem Seq.setK_a (x : Seq) (n : Fin 16) (v : BitVec 32) : (x.setK n v).a = x.a := by unfold Seq.setK; split <;> rfl
@[simp] theorem Seq.setK_c (x : Seq) (n : Fin 16) (v : BitVec 32) : (x.setK n v).c = x.c := by unfold Seq.setK; split <;> rfl
@[simp] theorem Seq.setFlags_st (x : Seq) (v : BitVec 5) : (x.setFlags v).st = x.st := by unfold Seq.setFlags; (try split) <;> rfl
@[simp] theorem Seq.setFlags_rcd (x : Seq) (v : BitVec 5) : (x.setFlags v).rcd = x.rcd := by unfold Seq.setFlags; (try split) <;> rfl
@[simp] theorem Seq.setFlags_popg (x : Seq) (v : BitVec 5) : (x.setFlags v).popg = x.popg := by unfold Seq.setFlags; (try split) <;> rfl
@[simp] theorem Seq.setFlags_deadln (x : Seq) (v : BitVec 5) : (x.setFlags v).deadln = x.deadln := by unfold Seq.setFlags; (try split) <;> rfl
@[simp] theorem Seq.setFlags_grpid (x : Seq) (v : BitVec 5) : (x.setFlags v).grpid = x.grpid := by unfold Seq.setFlags; (try split) <;> rfl
@[simp] theorem Seq.setFlags_frame (x : Seq) (v : BitVec 5) : (x.setFlags v).frame = x.frame := by unfold Seq.setFlags; (try split) <;> rfl
@[simp] theorem Seq.setFlags_v (x : Seq) (v : BitVec 5) : (x.setFlags v).v = x.v := by unfold Seq.setFlags; (try split) <;> rfl
@[simp] theorem Seq.setFlags_k (x : Seq) (v : BitVec 5) : (x.setFlags v).k = x.k := by unfold Seq.setFlags; (try split) <;> rfl
@[simp] theorem Seq.setFlags_slip (x : Seq) (v : BitVec 5) : (x.setFlags v).slip = x.slip := by unfold Seq.setFlags; (try split) <;> rfl
@[simp] theorem Seq.setFlags_dq (x : Seq) (v : BitVec 5) : (x.setFlags v).dq = x.dq := by unfold Seq.setFlags; (try split) <;> rfl
@[simp] theorem Seq.setFlags_bq (x : Seq) (v : BitVec 5) : (x.setFlags v).bq = x.bq := by unfold Seq.setFlags; (try split) <;> rfl
@[simp] theorem Seq.setFlags_fq (x : Seq) (v : BitVec 5) : (x.setFlags v).fq = x.fq := by unfold Seq.setFlags; (try split) <;> rfl
@[simp] theorem Seq.setFlags_alt (x : Seq) (v : BitVec 5) : (x.setFlags v).alt = x.alt := by unfold Seq.setFlags; (try split) <;> rfl
@[simp] theorem Seq.setFlags_held (x : Seq) (v : BitVec 5) : (x.setFlags v).held = x.held := by unfold Seq.setFlags; (try split) <;> rfl
@[simp] theorem Seq.setFlags_bubble (x : Seq) (v : BitVec 5) : (x.setFlags v).bubble = x.bubble := by unfold Seq.setFlags; (try split) <;> rfl
@[simp] theorem Seq.setFlags_lastIssue (x : Seq) (v : BitVec 5) : (x.setFlags v).lastIssue = x.lastIssue := by unfold Seq.setFlags; (try split) <;> rfl
@[simp] theorem Seq.setFlags_lastVec (x : Seq) (v : BitVec 5) : (x.setFlags v).lastVec = x.lastVec := by unfold Seq.setFlags; (try split) <;> rfl
@[simp] theorem Seq.setFlags_lanes (x : Seq) (v : BitVec 5) : (x.setFlags v).lanes = x.lanes := by unfold Seq.setFlags; (try split) <;> rfl
@[simp] theorem Seq.setFlags_wins (x : Seq) (v : BitVec 5) : (x.setFlags v).wins = x.wins := by unfold Seq.setFlags; (try split) <;> rfl
@[simp] theorem Seq.setFlags_wno (x : Seq) (v : BitVec 5) : (x.setFlags v).wno = x.wno := by unfold Seq.setFlags; (try split) <;> rfl
@[simp] theorem Seq.setFlags_resident (x : Seq) (v : BitVec 5) : (x.setFlags v).resident = x.resident := by unfold Seq.setFlags; (try split) <;> rfl
@[simp] theorem Seq.setFlags_a (x : Seq) (v : BitVec 5) : (x.setFlags v).a = x.a := by unfold Seq.setFlags; (try split) <;> rfl
@[simp] theorem Seq.setFlags_c (x : Seq) (v : BitVec 5) : (x.setFlags v).c = x.c := by unfold Seq.setFlags; (try split) <;> rfl
@[simp] theorem Seq.orFlags_st (x : Seq) (v : BitVec 5) : (x.orFlags v).st = x.st := by unfold Seq.orFlags Seq.setFlags; (try split) <;> rfl
@[simp] theorem Seq.orFlags_rcd (x : Seq) (v : BitVec 5) : (x.orFlags v).rcd = x.rcd := by unfold Seq.orFlags Seq.setFlags; (try split) <;> rfl
@[simp] theorem Seq.orFlags_popg (x : Seq) (v : BitVec 5) : (x.orFlags v).popg = x.popg := by unfold Seq.orFlags Seq.setFlags; (try split) <;> rfl
@[simp] theorem Seq.orFlags_deadln (x : Seq) (v : BitVec 5) : (x.orFlags v).deadln = x.deadln := by unfold Seq.orFlags Seq.setFlags; (try split) <;> rfl
@[simp] theorem Seq.orFlags_grpid (x : Seq) (v : BitVec 5) : (x.orFlags v).grpid = x.grpid := by unfold Seq.orFlags Seq.setFlags; (try split) <;> rfl
@[simp] theorem Seq.orFlags_frame (x : Seq) (v : BitVec 5) : (x.orFlags v).frame = x.frame := by unfold Seq.orFlags Seq.setFlags; (try split) <;> rfl
@[simp] theorem Seq.orFlags_v (x : Seq) (v : BitVec 5) : (x.orFlags v).v = x.v := by unfold Seq.orFlags Seq.setFlags; (try split) <;> rfl
@[simp] theorem Seq.orFlags_k (x : Seq) (v : BitVec 5) : (x.orFlags v).k = x.k := by unfold Seq.orFlags Seq.setFlags; (try split) <;> rfl
@[simp] theorem Seq.orFlags_slip (x : Seq) (v : BitVec 5) : (x.orFlags v).slip = x.slip := by unfold Seq.orFlags Seq.setFlags; (try split) <;> rfl
@[simp] theorem Seq.orFlags_dq (x : Seq) (v : BitVec 5) : (x.orFlags v).dq = x.dq := by unfold Seq.orFlags Seq.setFlags; (try split) <;> rfl
@[simp] theorem Seq.orFlags_bq (x : Seq) (v : BitVec 5) : (x.orFlags v).bq = x.bq := by unfold Seq.orFlags Seq.setFlags; (try split) <;> rfl
@[simp] theorem Seq.orFlags_fq (x : Seq) (v : BitVec 5) : (x.orFlags v).fq = x.fq := by unfold Seq.orFlags Seq.setFlags; (try split) <;> rfl
@[simp] theorem Seq.orFlags_alt (x : Seq) (v : BitVec 5) : (x.orFlags v).alt = x.alt := by unfold Seq.orFlags Seq.setFlags; (try split) <;> rfl
@[simp] theorem Seq.orFlags_held (x : Seq) (v : BitVec 5) : (x.orFlags v).held = x.held := by unfold Seq.orFlags Seq.setFlags; (try split) <;> rfl
@[simp] theorem Seq.orFlags_bubble (x : Seq) (v : BitVec 5) : (x.orFlags v).bubble = x.bubble := by unfold Seq.orFlags Seq.setFlags; (try split) <;> rfl
@[simp] theorem Seq.orFlags_lastIssue (x : Seq) (v : BitVec 5) : (x.orFlags v).lastIssue = x.lastIssue := by unfold Seq.orFlags Seq.setFlags; (try split) <;> rfl
@[simp] theorem Seq.orFlags_lastVec (x : Seq) (v : BitVec 5) : (x.orFlags v).lastVec = x.lastVec := by unfold Seq.orFlags Seq.setFlags; (try split) <;> rfl
@[simp] theorem Seq.orFlags_lanes (x : Seq) (v : BitVec 5) : (x.orFlags v).lanes = x.lanes := by unfold Seq.orFlags Seq.setFlags; (try split) <;> rfl
@[simp] theorem Seq.orFlags_wins (x : Seq) (v : BitVec 5) : (x.orFlags v).wins = x.wins := by unfold Seq.orFlags Seq.setFlags; (try split) <;> rfl
@[simp] theorem Seq.orFlags_wno (x : Seq) (v : BitVec 5) : (x.orFlags v).wno = x.wno := by unfold Seq.orFlags Seq.setFlags; (try split) <;> rfl
@[simp] theorem Seq.orFlags_resident (x : Seq) (v : BitVec 5) : (x.orFlags v).resident = x.resident := by unfold Seq.orFlags Seq.setFlags; (try split) <;> rfl
@[simp] theorem Seq.orFlags_a (x : Seq) (v : BitVec 5) : (x.orFlags v).a = x.a := by unfold Seq.orFlags Seq.setFlags; (try split) <;> rfl
@[simp] theorem Seq.orFlags_c (x : Seq) (v : BitVec 5) : (x.orFlags v).c = x.c := by unfold Seq.orFlags Seq.setFlags; (try split) <;> rfl

@[simp] theorem Seq.strm_setStrm (x : Seq) (st : Strm) (y : Stream) : (x.setStrm st y).strm st = y := by cases st <;> rfl
@[simp] theorem Seq.strm_setStrm_sibling (x : Seq) (st : Strm) (y : Stream) : (x.setStrm st y).strm st.sibling = x.strm st.sibling := by
  cases st <;> rfl
@[simp] theorem Seq.setStrm_strm (x : Seq) (st : Strm) : x.setStrm st (x.strm st) = x := by cases st <;> rfl
@[simp] theorem Seq.setStrm_setStrm (x : Seq) (st : Strm) (y z : Stream) : (x.setStrm st y).setStrm st z = x.setStrm st z := by
  cases st <;> rfl
@[simp] theorem Seq.strm_setV (x : Seq) (n : Fin 640) (v : VWord) (st : Strm) : (x.setV n v).strm st = x.strm st := by cases st <;> rfl
@[simp] theorem Seq.strm_setK (x : Seq) (n : Fin 16) (v : BitVec 32) (st : Strm) : (x.setK n v).strm st = x.strm st := by
  cases st <;> simp [Seq.strm]
@[simp] theorem Seq.strm_orFlags (x : Seq) (v : BitVec 5) (st : Strm) : (x.orFlags v).strm st = x.strm st := by
  cases st <;> simp [Seq.strm]
@[simp] theorem Seq.getV_setStrm (x : Seq) (st : Strm) (y : Stream) (n : Fin 640) : (x.setStrm st y).getV n = x.getV n := by cases st <;> rfl
@[simp] theorem Seq.getK_setStrm (x : Seq) (st : Strm) (y : Stream) (n : Fin 16) : (x.setStrm st y).getK n = x.getK n := by cases st <;> rfl
/-- K0 reads as all ones (R88). -/
@[simp] theorem Seq.getK_zero (x : Seq) : x.getK 0 = BitVec.allOnes 32 := rfl
theorem Seq.getK_setK (x : Seq) (n m : Fin 16) (v : BitVec 32) :
    (x.setK n v).getK m = if m = n ∧ n ≠ 0 then v else x.getK m := by
  unfold Seq.setK Seq.getK
  by_cases hn : n = 0
  · simp [hn]
  · by_cases hm : m = 0
    · simp [hm, hn]; intro h; exact absurd h.symm hn
    · simp only [hn, hm, if_false, ne_eq, not_false_eq_true, and_true]
      rw [Vector.getElem_set]
      by_cases h : m = n
      · simp [h]
      · have : n.val ≠ m.val := fun x => h (Fin.ext x.symm)
        simp [h, this]

/-! ## One stream -/

@[simp] theorem Stream.setX_st (y : Stream) (n : Fin 64) (v : Word) : (y.setX n v).st = y.st := rfl
@[simp] theorem Stream.setX_hdr (y : Stream) (n : Fin 64) (v : Word) : (y.setX n v).hdr = y.hdr := rfl
@[simp] theorem Stream.setX_len (y : Stream) (n : Fin 64) (v : Word) : (y.setX n v).len = y.len := rfl
@[simp] theorem Stream.setX_sec (y : Stream) (n : Fin 64) (v : Word) : (y.setX n v).sec = y.sec := rfl
@[simp] theorem Stream.setX_last (y : Stream) (n : Fin 64) (v : Word) : (y.setX n v).last = y.last := rfl
@[simp] theorem Stream.setX_word (y : Stream) (n : Fin 64) (v : Word) : (y.setX n v).word = y.word := rfl
@[simp] theorem Stream.setX_stall (y : Stream) (n : Fin 64) (v : Word) : (y.setX n v).stall = y.stall := rfl
@[simp] theorem Stream.setX_lod (y : Stream) (n : Fin 64) (v : Word) : (y.setX n v).lod = y.lod := rfl
@[simp] theorem Stream.setX_ne (y : Stream) (n : Fin 64) (v : Word) : (y.setX n v).ne = y.ne := rfl
@[simp] theorem Stream.setX_nr (y : Stream) (n : Fin 64) (v : Word) : (y.setX n v).nr = y.nr := rfl
@[simp] theorem Stream.setX_rsec (y : Stream) (n : Fin 64) (v : Word) : (y.setX n v).rsec = y.rsec := rfl
@[simp] theorem Stream.setX_rv (y : Stream) (n : Fin 64) (v : Word) : (y.setX n v).rv = y.rv := rfl
@[simp] theorem Stream.setX_insts (y : Stream) (n : Fin 64) (v : Word) : (y.setX n v).insts = y.insts := rfl
@[simp] theorem Stream.setX_pwdist (y : Stream) (n : Fin 64) (v : Word) : (y.setX n v).pwdist = y.pwdist := rfl
@[simp] theorem Stream.setX_arr (y : Stream) (n : Fin 64) (v : Word) : (y.setX n v).arr = y.arr := rfl
@[simp] theorem Stream.setX_ports (y : Stream) (n : Fin 64) (v : Word) : (y.setX n v).ports = y.ports := rfl
@[simp] theorem Stream.setX_park (y : Stream) (n : Fin 64) (v : Word) : (y.setX n v).park = y.park := rfl
@[simp] theorem Stream.setX_loads (y : Stream) (n : Fin 64) (v : Word) : (y.setX n v).loads = y.loads := rfl
@[simp] theorem Stream.setX_acq (y : Stream) (n : Fin 64) (v : Word) : (y.setX n v).acq = y.acq := rfl
@[simp] theorem Stream.setX_deps (y : Stream) (n : Fin 64) (v : Word) : (y.setX n v).deps = y.deps := rfl
@[simp] theorem Stream.setX_fdeps (y : Stream) (n : Fin 64) (v : Word) : (y.setX n v).fdeps = y.fdeps := rfl
@[simp] theorem Stream.setX_qf (y : Stream) (n : Fin 64) (v : Word) : (y.setX n v).qf = y.qf := rfl
@[simp] theorem Stream.setX_pre (y : Stream) (n : Fin 64) (v : Word) : (y.setX n v).pre = y.pre := rfl

theorem Stream.getX_setX (y : Stream) (n m : Fin 64) (v : Word) : (y.setX n v).getX m = if m = n then v else y.getX m := by
  unfold Stream.setX Stream.getX
  rw [Vector.getElem_set]
  by_cases h : m = n
  · simp [h]
  · have : n.val ≠ m.val := fun x => h (Fin.ext x.symm)
    simp [h, this]
@[simp] theorem Stream.getX_setX_same (y : Stream) (n : Fin 64) (v : Word) : (y.setX n v).getX n = v := by simp [Stream.getX_setX]

end Sys2Proof.Machine
end

