-- ==== Sys2Proof/Laws/Issue.lean ====
section
/-!
SUPPORT. What issuing a word can do: one lemma for each way a word comes out, and what its effect leaves in the registers, the
flags, the held effects, the program counter, and everything else.
-/
namespace Sys2Proof.Machine

/-! ## Ways a word comes out -/

variable {s t : State} {u : Uses} {f : State → List Word → List VWord → Res × State} {r : Ret}

/-- A word that may issue and whose own conditions hold issues with its effect. -/
theorem issueWord_go (h : s.canIssue u)
    (hf : f s (s.curSeq.srcVals s.cur.strm u.src) (s.curSeq.vsrcVals u.vsrc) = (.go r, t)) :
    s.issueWord u f = t.doRet s.cur.core s.cur.seq s.cur.strm u r := by
  unfold State.curSeq at hf
  simp only [State.issueWord, h.1, h.2, hf, Bool.not_true, Bool.false_eq_true, if_false]

/-- The same when the word's own conditions change nothing. -/
theorem issueWord_issues (h : s.canIssue u)
    (hf : f s (s.curSeq.srcVals s.cur.strm u.src) (s.curSeq.vsrcVals u.vsrc) = (.go r, s)) :
    s.issueWord u f = s.issues u r := issueWord_go h hf

/-- A word that may issue but whose own conditions do not hold yet stalls. -/
theorem issueWord_stall {row : Nat} (h : s.canIssue u)
    (hf : f s (s.curSeq.srcVals s.cur.strm u.src) (s.curSeq.vsrcVals u.vsrc) = (.stall row, t)) :
    s.issueWord u f = t.stallStream s.cur.core s.cur.seq s.cur.strm (waitKind u.wait) row := by
  unfold State.curSeq at hf
  simp only [State.issueWord, h.1, h.2, hf, Bool.not_true, Bool.false_eq_true, if_false]

/-- A word that may issue and whose own conditions trap freezes its context. -/
theorem issueWord_trap {i : TrapInfo} (h : s.canIssue u)
    (hf : f s (s.curSeq.srcVals s.cur.strm u.src) (s.curSeq.vsrcVals u.vsrc) = (.trap i, t)) :
    s.issueWord u f = t.trapStream s.cur.core s.cur.seq s.cur.strm i
      ((t.curWord s.cur.core (t.strm s.cur.core s.cur.seq s.cur.strm)).getD 0) := by
  unfold State.curSeq at hf
  simp only [State.issueWord, h.1, h.2, hf, Bool.not_true, Bool.false_eq_true, if_false]

/-- A word whose access faults parks its stream once every older word of it has retired (R80). -/
theorem issueWord_park {g : AccFault} (h : s.canIssue u)
    (hf : f s (s.curSeq.srcVals s.cur.strm u.src) (s.curSeq.vsrcVals u.vsrc) = (.park g, t)) :
    s.issueWord u f = if (t.seq s.cur.core s.cur.seq).streamIdle s.cur.strm then t.parkStream s.cur.core s.cur.seq s.cur.strm g
      else t.stallStream s.cur.core s.cur.seq s.cur.strm (waitKind u.wait) 0 := by
  unfold State.curSeq at hf
  simp only [State.issueWord, h.1, h.2, hf, Bool.not_true, Bool.false_eq_true, if_false]

/-- What a word that may issue answers: the outcome of its own conditions. -/
theorem issueWord_answers {res : Res} (h : s.canIssue u)
    (hf : f s (s.curSeq.srcVals s.cur.strm u.src) (s.curSeq.vsrcVals u.vsrc) = (res, t)) :
    Host.Outcome.next (s.issueWord u f) = s.answers t u res := by
  cases res with
  | go r => exact congrArg _ (issueWord_go h hf)
  | stall row => exact congrArg _ (issueWord_stall h hf)
  | trap i => exact congrArg _ (issueWord_trap h hf)
  | park g =>
    rw [issueWord_park h hf]
    simp only [State.answers, State.parksIn, State.waitsIn]
    split <;> rfl

/-- An access that fails ends its word as R207 and R213 say. -/
theorem answers_failsIn (s t : State) (u : Uses) (e : AErr) : s.answers t u e.res = s.failsIn t u.wait e := by
  cases e <;> rfl

/-- A word that is held back stalls. -/
theorem issueWord_blocked {row : Nat} (h : s.atWord s.cur.core s.cur.seq s.cur.strm = true)
    (hb : s.blocked s.cur.core s.cur.seq s.cur.strm u = some (.stall row)) :
    s.issueWord u f = s.stallStream s.cur.core s.cur.seq s.cur.strm (waitKind u.wait) row := by
  simp only [State.issueWord, h, hb, Bool.not_true, Bool.false_eq_true, if_false]

/-- A stream that stands at no word does nothing. -/
theorem issueWord_idle (h : s.atWord s.cur.core s.cur.seq s.cur.strm = false) : s.issueWord u f = s := by
  simp only [State.issueWord, h, Bool.not_false, if_true]

/-- A scalar word gives its destination its result. -/
theorem scalarWord_gives {w : Wait} {d : SOp} {src : List SOp} {g : List Word → Word} (h : s.canIssue (scalarUses w d src)) :
    s.scalarWord w d src g = s.issues (scalarUses w d src) (retDst s.curSeq d (g (s.curSeq.srcVals s.cur.strm src)) {}) :=
  issueWord_issues h rfl

/-! ## What the issue of a word leaves -/

@[simp] theorem Core.monitorK_seqs' (k : Core) (src wk v : Nat) : (k.monitorK src wk v).seqs = k.seqs := rfl

theorem stallEnd_mons (k : Core) (y : Stream) (wk : Nat) : ∃ m, k.stallEnd y wk = { k with mons := m } := by
  unfold Core.stallEnd
  split
  · exact ⟨_, rfl⟩
  · exact ⟨_, rfl⟩
  · exact ⟨_, rfl⟩
  · split
    · exact ⟨_, rfl⟩
    · exact ⟨k.mons, rfl⟩
  · exact ⟨k.mons, rfl⟩

theorem lodEvents_mons (k : Core) (v n : Nat) : ∃ m, k.lodEvents v n = { k with mons := m } := by
  induction n generalizing k v with
  | zero => exact ⟨k.mons, rfl⟩
  | succ n ih => obtain ⟨m, h⟩ := ih (k.monitor 7 v) 0; exact ⟨m, by rw [Core.lodEvents, h]; rfl⟩

theorem addWake_wakes (k : Core) (n : Nat) : ∃ w, k.addWake n = { k with wakes := w } := by
  unfold Core.addWake
  split
  · exact ⟨k.wakes, rfl⟩
  · exact ⟨_, rfl⟩

/-- What a group whose streams have ended makes of its core as it gives up the Cinch; nothing while one of them goes on. -/
theorem endedCinch_eq (k : Core) (q : SeqId) : ∃ h t, k.endedCinch q = { k with cinch := h, cinchAt := t } ∧
    (∀ r, r ≠ q → h[r.val] = k.cinch[r.val]) ∧
    (((k.seq q).a.st ≠ .ended ∨ (k.seq q).c.st ≠ .ended) → h = k.cinch ∧ t = k.cinchAt) := by
  unfold Core.endedCinch
  simp only []
  split
  · rename_i h
    refine ⟨k.cinch.set q.val .free, k.cyc, ?_, fun r hr => ?_, fun hne => ?_⟩
    · simp [Core.dropCinch, h.1, Core.setCinch]
    · exact Vector.getElem_set_ne _ _ (fun e => hr (Fin.ext e.symm))
    · rcases hne with e | e <;> simp_all
  · exact ⟨k.cinch, k.cinchAt, rfl, fun _ _ => rfl, fun _ => ⟨rfl, rfl⟩⟩

/-- An issue changes its core's monitors, its wake units and one sequencer: the sequencer as its issue leaves it, up to the lanes and
the cycle of its last vector word; then a group that has ended gives up the Cinch. -/
theorem doRet_eq (s : State) (c : CoreId) (q : SeqId) (st : Strm) (u : Uses) (r : Ret) :
    ∃ m w l v word len covs, 4 ≤ len ∧ s.doRet c q st u r =
      s.setCore c ((({ s.core c with mons := m, wakes := w } : Core).setSeq q
        (Seq.doRet { s.seq c q with lanes := l, lastVec := v } st u r word (s.core c).cyc len covs)).endedCinch q) := by
  unfold State.doRet
  obtain ⟨m, hm⟩ := stallEnd_mons (s.core c) (s.strm c q st) (waitKind u.wait)
  simp only [hm]
  obtain ⟨m', hm'⟩ := lodEvents_mons ({ s.core c with mons := m } : Core) ((s.strm c q st).lodCycles (s.core c).cyc) (u.lodPops st)
  simp only [hm']
  cases u.vec with
  | none =>
    obtain ⟨w, hw⟩ := addWake_wakes ({ s.core c with mons := m' } : Core) 0
    exact ⟨_, w, (s.seq c q).lanes, (s.seq c q).lastVec, _, _, _, Nat.le_max_left _ _, by simp only [hw]; rfl⟩
  | some v =>
    simp only [Seq.wakeLanes]
    generalize hn : List.length _ = n
    obtain ⟨w, hw⟩ := addWake_wakes ({ s.core c with mons := m' } : Core) n
    exact ⟨_, w, _, _, _, _, _, Nat.le_max_left _ _, by rw [hw]; rfl⟩

/-- Nothing but the issuing sequencer, and what its core notes of it, differs. -/
theorem doRet_sameBut (s : State) (c : CoreId) (q : SeqId) (st : Strm) (u : Uses) (r : Ret) :
    s.sameBut (s.doRet c q st u r) c q := by
  obtain ⟨m, w, l, v, word, len, covs, hlen, h⟩ := doRet_eq s c q st u r
  obtain ⟨ci, ca, he, hr, hn⟩ := endedCinch_eq ((({ s.core c with mons := m, wakes := w } : Core).setSeq q
        (Seq.doRet { s.seq c q with lanes := l, lastVec := v } st u r word (s.core c).cyc len covs))) q
  rw [h, he]
  refine ⟨by simp [Core.setSeq], fun n hne => ⟨?_, ?_⟩, fun hh => ?_⟩
  · simp only [State.seq, State.core_setCore]
    exact Core.seq_setSeq_ne _ _ hne
  · simp only [State.core_setCore]
    exact hr n hne
  · simp only [State.seq, State.core_setCore] at hh ⊢
    exact hn hh

/-- What differs by no more than a sequencer reads the same bytes everywhere. -/
theorem sameBut_sameBytes {c : CoreId} {q : SeqId} (h : s.sameBut t c q) : s.sameBytes t := by
  have e := h.1
  refine ⟨fun d a => ?_, fun n a => ?_, fun p a => ?_⟩
  · rw [e]; rfl
  · unfold State.spadAt
    by_cases hn : n = c
    · subst hn; rw [e]; simp
    · rw [e, State.core_setCore_ne _ _ hn]
  · rw [e]; rfl

theorem sameBut_other {c d : CoreId} {q : SeqId} (h : s.sameBut t c q) (hd : d ≠ c) : t.core d = s.core d := by
  rw [h.1, State.core_setCore_ne _ _ hd]

theorem doRet_sameBytes (s : State) (c : CoreId) (q : SeqId) (st : Strm) (u : Uses) (r : Ret) :
    s.sameBytes (s.doRet c q st u r) := sameBut_sameBytes (doRet_sameBut s c q st u r)

/-! ## The issuing sequencer -/

@[simp] theorem retireFrom_x (y : Stream) (b : BitVec 32 → Bool) (l : List Inst) : (y.retireFrom b l).x = y.x := by
  induction l generalizing y with
  | nil => rfl
  | cons i l ih => unfold Stream.retireFrom; split <;> simp [ih]

@[simp] theorem retireFrom_word (y : Stream) (b : BitVec 32 → Bool) (l : List Inst) :
    (y.retireFrom b l).word = y.word ∧ (y.retireFrom b l).hdr = y.hdr ∧ (y.retireFrom b l).st = y.st := by
  induction l generalizing y with
  | nil => exact ⟨rfl, rfl, rfl⟩
  | cons i l ih => unfold Stream.retireFrom; split <;> simp [ih]

theorem leave_fields (y : Stream) : y.leave.x = y.x ∧ y.leave.hdr = y.hdr ∧ y.leave.st = y.st := ⟨rfl, rfl, rfl⟩

@[simp] theorem goto_x (y : Stream) (c : Ctl) : (y.goto c).x = y.x := by
  unfold Stream.goto
  cases c with
  | next => cases y.word <;> simp only [] <;> repeat' (first | rfl | split)
  | word t => rfl
  | header a => rfl
  | ended => rfl

@[simp] theorem setVs_strm (x : Seq) (l : List (Fin 640 × VWord)) (st : Strm) : (x.setVs l).strm st = x.strm st := by
  induction l generalizing x with
  | nil => rfl
  | cons p l ih => simp [Seq.setVs, ih]
@[simp] theorem setKs_strm (x : Seq) (l : List (Fin 16 × BitVec 32)) (st : Strm) : (x.setKs l).strm st = x.strm st := by
  induction l generalizing x with
  | nil => rfl
  | cons p l ih => simp [Seq.setKs, ih]

@[simp] theorem setXs_fields (y : Stream) (l : List (Fin 64 × Word)) :
    (y.setXs l).st = y.st ∧ (y.setXs l).hdr = y.hdr ∧ (y.setXs l).word = y.word ∧ (y.setXs l).len = y.len ∧ (y.setXs l).last = y.last ∧
    (y.setXs l).sec = y.sec ∧ (y.setXs l).ne = y.ne ∧ (y.setXs l).pwdist = y.pwdist ∧ (y.setXs l).arr = y.arr ∧
    (y.setXs l).ports = y.ports ∧ (y.setXs l).park = y.park ∧ (y.setXs l).fdeps = y.fdeps ∧ (y.setXs l).loads = y.loads := by
  induction l generalizing y with
  | nil => simp [Stream.setXs]
  | cons p l ih => simp [Stream.setXs, ih]

@[simp] theorem retireFrom_fields (y : Stream) (b : BitVec 32 → Bool) (l : List Inst) :
    (y.retireFrom b l).len = y.len ∧ (y.retireFrom b l).sec = y.sec ∧ (y.retireFrom b l).last = y.last ∧
    (y.retireFrom b l).ne = y.ne ∧ (y.retireFrom b l).pwdist = y.pwdist ∧ (y.retireFrom b l).arr = y.arr ∧
    (y.retireFrom b l).ports = y.ports ∧ (y.retireFrom b l).park = y.park ∧ (y.retireFrom b l).fdeps = y.fdeps ∧
    (y.retireFrom b l).loads = y.loads := by
  induction l generalizing y with
  | nil => simp [Stream.retireFrom]
  | cons i l ih => unfold Stream.retireFrom; split <;> simp [ih]

theorem goto_fields (y : Stream) (c : Ctl) :
    (y.goto c).len = y.len ∧ (y.goto c).sec = y.sec ∧ (y.goto c).last = y.last ∧ (y.goto c).ne = y.ne ∧ (y.goto c).pwdist = y.pwdist ∧
    (y.goto c).arr = y.arr ∧ (y.goto c).ports = y.ports ∧ (y.goto c).park = y.park ∧ (y.goto c).fdeps = y.fdeps ∧
    (y.goto c).loads = y.loads := by
  unfold Stream.goto
  cases c with
  | next => cases y.word <;> simp only [] <;> repeat' (first | (split) | simp [Stream.leave])
  | word t => simp
  | header a => simp [Stream.leave]
  | ended => simp [Stream.leave]

theorem reserveQ_rest (x : Seq) (q : QCode) (id : Nat) : ∃ bq dq fq, x.reserveQ q id = { x with bq := bq, dq := dq, fq := fq } := by
  cases q <;> exact ⟨_, _, _, rfl⟩

/-- A load reserves at most an entry of a queue, and is outstanding in its stream. -/
theorem addLoad_eq (x : Seq) (st : Strm) (l : Load) : ∃ bq dq fq, x.addLoad st l =
    ({ x with bq := bq, dq := dq, fq := fq } : Seq).setStrm st { x.strm st with loads := (x.strm st).loads ++ [l] } := by
  unfold Seq.addLoad
  split
  · rename_i n _ _
    split
    · exact ⟨_, _, _, rfl⟩
    · obtain ⟨b, d, f, h⟩ := reserveQ_rest x n l.id
      rw [h]; cases st <;> exact ⟨b, d, f, rfl⟩
  · rename_i n _
    split
    · exact ⟨_, _, _, rfl⟩
    · obtain ⟨b, d, f, h⟩ := reserveQ_rest x (.dq n) l.id
      rw [h]; cases st <;> exact ⟨b, d, f, rfl⟩
  · exact ⟨_, _, _, rfl⟩

theorem addLoad_strm (x : Seq) (st : Strm) (l : Load) :
    (x.addLoad st l).strm st = { x.strm st with loads := (x.strm st).loads ++ [l] } ∧
      (x.addLoad st l).strm st.sibling = x.strm st.sibling := by
  obtain ⟨b, d, f, h⟩ := addLoad_eq x st l
  rw [h]
  cases st <;> exact ⟨rfl, rfl⟩

theorem addLoads_strm (x : Seq) (st : Strm) (ls : List Load) :
    (x.addLoads st ls).strm st = { x.strm st with loads := (x.strm st).loads ++ ls } ∧
      (x.addLoads st ls).strm st.sibling = x.strm st.sibling := by
  induction ls generalizing x with
  | nil => simp [Seq.addLoads]
  | cons l ls ih => simp [Seq.addLoads, ih, addLoad_strm]

/-- A load changes of its sequencer only the queue it reserves an entry of, and its stream. -/
theorem addLoad_rest (x : Seq) (st : Strm) (l : Load) : ∃ bq dq fq a c,
    x.addLoad st l = { x with bq := bq, dq := dq, fq := fq, a := a, c := c } := by
  obtain ⟨b, d, f, h⟩ := addLoad_eq x st l
  rw [h]
  cases st <;> exact ⟨_, _, _, _, _, rfl⟩

theorem addLoads_rest (x : Seq) (st : Strm) (ls : List Load) : ∃ bq dq fq a c,
    x.addLoads st ls = { x with bq := bq, dq := dq, fq := fq, a := a, c := c } := by
  induction ls generalizing x with
  | nil => exact ⟨_, _, _, _, _, rfl⟩
  | cons l ls ih =>
    obtain ⟨b, d, f, a, c, h⟩ := addLoad_rest x st l
    obtain ⟨b', d', f', a', c', h'⟩ := ih (x.addLoad st l)
    exact ⟨b', d', f', a', c', by rw [Seq.addLoads, h', h]⟩

theorem setVs_rest (x : Seq) (l : List (Fin 640 × VWord)) : ∃ v, x.setVs l = { x with v := v } := by
  induction l generalizing x with
  | nil => exact ⟨_, rfl⟩
  | cons p l ih => obtain ⟨v, h⟩ := ih (x.setV p.1 p.2); exact ⟨v, by rw [Seq.setVs, h]; rfl⟩

theorem setKs_rest (x : Seq) (l : List (Fin 16 × BitVec 32)) : ∃ k, x.setKs l = { x with k := k } := by
  induction l generalizing x with
  | nil => exact ⟨_, rfl⟩
  | cons p l ih =>
    obtain ⟨v, h⟩ := ih (x.setK p.1 p.2)
    refine ⟨v, ?_⟩
    rw [Seq.setKs, h]
    unfold Seq.setK
    split <;> rfl

theorem orFlags_rest (x : Seq) (f : BitVec 5) : ∃ h, x.orFlags f = { x with flags := x.flags ||| f, flagsHist := h } := by
  unfold Seq.orFlags Seq.setFlags
  split
  · rename_i h; exact ⟨x.flagsHist, by rw [h]⟩
  · exact ⟨_, rfl⟩

theorem mem_of_mem_liveFrom {x : Seq} {cyc : Nat} {w : Win} {l : List Win} :
    ∀ {a c : Bool}, w ∈ x.liveFrom cyc a c l → w ∈ l := by
  induction l with
  | nil => exact fun h => h
  | cons v l ih =>
    intro a c h
    unfold Seq.liveFrom at h
    dsimp only at h
    split at h <;> split at h
    all_goals first
      | exact List.mem_cons_of_mem _ (ih h)
      | rcases List.mem_cons.mp h with e | e
        · exact e ▸ List.mem_cons_self
        · exact List.mem_cons_of_mem _ (ih e)

/-- What an issue makes of its sequencer: V, K and FLAGS as the word writes them, one more held word when it has held effects, its
loads outstanding, its stream with new registers and control moved; then section instances retire. -/
theorem seqDoRet_eq (x : Seq) (st : Strm) (u : Uses) (r : Ret) (word : IWord) (cyc len : Nat) (covs : List Nat) :
    ∃ hist held bq dq fq wins, ∃ (a c : Stream), x.doRet st u r word cyc len covs =
        { x with
            v := (x.setVs r.v).v
            k := (x.setKs r.k).k
            flags := x.flags ||| r.fl
            flagsHist := hist, held := held, bq := bq, dq := dq, fq := fq, a := a, c := c
            lastIssue := some cyc, wins := wins, wno := x.wno + 1 } ∧
      (∃ ws, wins = ws ++ [⟨x.wno, st, cyc, len, 0, word, r.wx, false, u.vec.map (laneMask x)⟩] ∧ ∀ w ∈ ws, w ∈ x.wins) ∧
      (u.allEffs r = [] → held = x.held) ∧
      (u.allEffs r ≠ [] → ∃ h, held = x.held ++ [h] ∧ h.strm = st ∧ h.effs = u.allEffs r ∧ h.rel = r.rel ∧ h.no = x.wno ∧ h.ar = r.ar) ∧
      (r.load = [] → bq = x.bq ∧ dq = x.dq ∧ fq = x.fq) ∧
      (x.doRet st u r word cyc len covs).strm st.sibling = x.strm st.sibling ∧
      ∃ (y : Stream) (b : BitVec 32 → Bool), y.x = ((x.strm st).setXs r.x).x ∧ y.st = (x.strm st).st ∧ y.word = (x.strm st).word ∧ y.hdr = (x.strm st).hdr ∧
        y.len = (x.strm st).len ∧ y.last = (x.strm st).last ∧ y.sec = (x.strm st).sec ∧ y.ne = (x.strm st).ne ∧
        y.pwdist = (x.strm st).pwdist ∧ y.arr = (x.strm st).arr ∧ y.ports = (x.strm st).ports ∧ y.park = (x.strm st).park ∧
        (∃ more, y.fdeps = (x.strm st).fdeps ++ more) ∧ y.loads = (x.strm st).loads ++ r.load ∧ y.stall = none ∧
        (x.doRet st u r word cyc len covs).strm st = (y.goto r.ctl).retireFrom b (y.goto r.ctl).insts := by
  obtain ⟨v, hv⟩ := setVs_rest x r.v
  obtain ⟨k, hk⟩ := setKs_rest (x.setVs r.v) r.k
  have hkv : (x.setKs r.k).k = k := by
    have : ∀ (l : List (Fin 16 × BitVec 32)) (x y : Seq), x.k = y.k → (x.setKs l).k = (y.setKs l).k := by
      intro l
      induction l with
      | nil => exact fun x y h => h
      | cons p l ih =>
        intro x y h
        refine ih _ _ ?_
        unfold Seq.setK
        split
        · exact h
        · simp [h]
    rw [this r.k x (x.setVs r.v) (by rw [hv]), hk]
  have h1 : ∃ hist, (if r.fl = 0 then (x.setVs r.v).setKs r.k else ((x.setVs r.v).setKs r.k).orFlags r.fl) =
      { x with v := v, k := k, flags := x.flags ||| r.fl, flagsHist := hist } := by
    rw [hk, hv]
    split
    · rename_i hf; exact ⟨x.flagsHist, by simp [hf]⟩
    · obtain ⟨hh, e⟩ := orFlags_rest { x with v := v, k := k } r.fl
      exact ⟨hh, by rw [e]⟩
  obtain ⟨hist, h1⟩ := h1
  have hvv : (x.setVs r.v).v = v := by rw [hv]
  unfold Seq.doRet
  simp only [h1]
  generalize hx3 : (if (u.allEffs r).isEmpty = true then _ else _ : Seq) = x3
  have h3 : ∃ held, x3 = { x with v := v, k := k, flags := x.flags ||| r.fl, flagsHist := hist, held := held } ∧
      (u.allEffs r = [] → held = x.held) ∧
      (u.allEffs r ≠ [] → ∃ h, held = x.held ++ [h] ∧ h.strm = st ∧ h.effs = u.allEffs r ∧ h.rel = r.rel ∧ h.no = x.wno ∧ h.ar = r.ar) := by
    rw [← hx3]
    split
    · rename_i he
      exact ⟨x.held, rfl, fun _ => rfl, fun h => absurd (by simpa using he) h⟩
    · rename_i he
      exact ⟨_, rfl, fun h => absurd (by simp [h]) he, fun _ => ⟨_, rfl, rfl, rfl, rfl, rfl, rfl⟩⟩
  obtain ⟨held, e3, hh1, hh2⟩ := h3
  subst e3
  clear hx3
  generalize hy : ({ (Seq.strm { x with v := v, k := k, flags := x.flags ||| r.fl, flagsHist := hist, held := held } st).setXs r.x with
      stall := none
      lod := 0
      qf := r.qf
      pre := []
      acq := _
      deps := _
      fdeps := _ } : Stream) = y
  have hyf : y.x = ((x.strm st).setXs r.x).x ∧ y.st = (x.strm st).st ∧ y.word = (x.strm st).word ∧ y.hdr = (x.strm st).hdr ∧
        y.len = (x.strm st).len ∧ y.last = (x.strm st).last ∧ y.sec = (x.strm st).sec ∧ y.ne = (x.strm st).ne ∧
        y.pwdist = (x.strm st).pwdist ∧ y.arr = (x.strm st).arr ∧ y.ports = (x.strm st).ports ∧ y.park = (x.strm st).park ∧
        (∃ more, y.fdeps = (x.strm st).fdeps ++ more) ∧ y.loads = (x.strm st).loads ∧ y.stall = none := by
    rw [← hy]
    have e : Seq.strm { x with v := v, k := k, flags := x.flags ||| r.fl, flagsHist := hist, held := held } st = x.strm st := by
      cases st <;> rfl
    rw [e]
    simp [List.append_assoc]
  clear hy
  obtain ⟨bq, dq, fq, a, c, h5⟩ := addLoads_rest (Seq.setStrm { x with v := v, k := k, flags := x.flags ||| r.fl, flagsHist := hist, held := held } st y) st r.load
  have h5s := addLoads_strm (Seq.setStrm { x with v := v, k := k, flags := x.flags ||| r.fl, flagsHist := hist, held := held } st y) st r.load
  rw [Seq.strm_setStrm, Seq.strm_setStrm_sibling] at h5s
  have hb : r.load = [] → bq = x.bq ∧ dq = x.dq ∧ fq = x.fq := by
    intro hl
    rw [hl] at h5
    simp only [Seq.addLoads] at h5
    refine ⟨?_, ?_, ?_⟩
    · have := congrArg Seq.bq h5; simpa using this.symm
    · have := congrArg Seq.dq h5; simpa using this.symm
    · have := congrArg Seq.fq h5; simpa using this.symm
  generalize Seq.addLoads _ st r.load = x5 at h5 h5s
  generalize hz : Seq.retire _ st = z
  have hq : ∃ b, z.strm st = (({ y with loads := (x.strm st).loads ++ r.load } : Stream).goto r.ctl).retireFrom b
      (({ y with loads := (x.strm st).loads ++ r.load } : Stream).goto r.ctl).insts := by
    rw [show ({ y with loads := (x.strm st).loads ++ r.load } : Stream) = x5.strm st by
      rw [h5s.1, hyf.2.2.2.2.2.2.2.2.2.2.2.2.2.1], ← hz]
    cases st <;> exact ⟨_, rfl⟩
  obtain ⟨b, hq⟩ := hq
  have hw : ∃ ws, z.wins = ws ++ [⟨x.wno, st, cyc, len, 0, word, r.wx, false, u.vec.map (laneMask x)⟩] ∧ ∀ w ∈ ws, w ∈ x.wins := by
    rw [← hz]
    refine ⟨(x5.setStrm st ((x5.strm st).goto r.ctl)).liveWins cyc, ?_, fun w hw => ?_⟩
    · rw [h5]; cases st <;> rfl
    · have := mem_of_mem_liveFrom hw
      rw [h5] at this
      cases st <;> exact this
  refine ⟨hist, held, bq, dq, fq, z.wins, z.a, z.c, ?_, hw, hh1, hh2, hb, ?_, { y with loads := (x.strm st).loads ++ r.load }, b,
    hyf.1, hyf.2.1, hyf.2.2.1, hyf.2.2.2.1, hyf.2.2.2.2.1, hyf.2.2.2.2.2.1, hyf.2.2.2.2.2.2.1, hyf.2.2.2.2.2.2.2.1,
    hyf.2.2.2.2.2.2.2.2.1, hyf.2.2.2.2.2.2.2.2.2.1, hyf.2.2.2.2.2.2.2.2.2.2.1, hyf.2.2.2.2.2.2.2.2.2.2.2.1,
    hyf.2.2.2.2.2.2.2.2.2.2.2.2.1, rfl, hyf.2.2.2.2.2.2.2.2.2.2.2.2.2.2, hq⟩
  · rw [← hz, hkv, hvv, h5]
    cases st <;> rfl
  · rw [← hz]
    cases st <;> exact h5s.2

/-! ## The running sequencer after an issue -/

/-- The running sequencer after an issue. -/
theorem issues_seq (s : State) (u : Uses) (r : Ret) : ∃ l v word len covs, 4 ≤ len ∧
    (s.issues u r).curSeq = Seq.doRet { s.curSeq with lanes := l, lastVec := v } s.cur.strm u r word (s.core s.cur.core).cyc len covs ∧
    (s.issues u r).cur = s.cur := by
  obtain ⟨m, w, l, v, word, len, covs, hlen, h⟩ := doRet_eq s s.cur.core s.cur.seq s.cur.strm u r
  refine ⟨l, v, word, len, covs, hlen, ?_, ?_⟩
  · unfold State.curSeq State.issues
    rw [h]
    obtain ⟨ci, ca, he, -, -⟩ := endedCinch_eq ((({ s.core s.cur.core with mons := m, wakes := w } : Core).setSeq s.cur.seq
      (Seq.doRet { s.seq s.cur.core s.cur.seq with lanes := l, lastVec := v } s.cur.strm u r word (s.core s.cur.core).cyc len covs))) s.cur.seq
    rw [he]
    show ((s.setCore s.cur.core _).core s.cur.core).seq s.cur.seq = _
    rw [State.core_setCore]
    exact Core.seq_setSeq _ _ _
  · unfold State.issues; rw [h]; rfl

theorem setXs_getX (y : Stream) (l : List (Fin 64 × Word)) (n : Fin 64) (h : ∀ p ∈ l, p.1 ≠ n) : (y.setXs l).getX n = y.getX n := by
  induction l generalizing y with
  | nil => rfl
  | cons p l ih =>
    simp only [Stream.setXs]
    rw [ih _ (fun q hq => h q (List.mem_cons_of_mem _ hq)), Stream.getX_setX, if_neg]
    exact fun e => h p (List.mem_cons_self) e.symm

theorem setVs_getV (x : Seq) (hw : tblWf 0 x.v = true) (l : List (Fin 640 × VWord)) (n : Fin 640) (h : ∀ p ∈ l, p.1 ≠ n) : (x.setVs l).getV n = x.getV n := by
  induction l generalizing x with
  | nil => rfl
  | cons p l ih =>
    simp only [Seq.setVs]
    rw [ih (x.setV p.1 p.2) (tblWf_tblSet hw) (fun q hq => h q (List.mem_cons_of_mem _ hq))]
    simp only [Seq.getV, Seq.setV, tblGet_tblSet hw]
    rw [if_neg]
    exact fun e => h p (List.mem_cons_self) (Fin.ext e.symm)

theorem setKs_getK (x : Seq) (l : List (Fin 16 × BitVec 32)) (n : Fin 16) (h : ∀ p ∈ l, p.1 ≠ n) : (x.setKs l).getK n = x.getK n := by
  induction l generalizing x with
  | nil => rfl
  | cons p l ih =>
    simp only [Seq.setKs]
    rw [ih _ (fun q hq => h q (List.mem_cons_of_mem _ hq)), Seq.getK_setK, if_neg]
    exact fun e => h p (List.mem_cons_self) e.1.symm

end Sys2Proof.Machine
end

