-- ==== Sys2Proof/Laws/Memory.lean ====
section
/-!
SUPPORT. Memory: what a byte reads as after each memory operation, that every memory operation keeps the canonical form, and that the
memories after reset have it.
-/
namespace Sys2Proof.Machine

/-! ## Bytes laid into a table -/

/-- Laying bytes into a view keeps its canonical form. -/
theorem viewPut_wf (bs : List (Option Byte)) (m : Memory) (a : Nat) (h : Memory.wf m = true) : Memory.wf (viewPut m a bs) = true := by
  induction bs generalizing m a with
  | nil => exact h
  | cons b t ih => cases b <;> exact ih _ _ (by first | exact h | exact tblWf_tblSet h)

/-- What a byte of a view reads as once bytes are laid into it: the byte laid there, or what it held. -/
theorem viewPut_get (bs : List (Option Byte)) (m : Memory) (a i : Nat) (h : Memory.wf m = true) :
    tblGet 0 (viewPut m a bs) i = if i < a then tblGet 0 m i else (bs.getD (i - a) none).getD (tblGet 0 m i) := by
  induction bs generalizing m a with
  | nil => simp [viewPut]
  | cons b t ih =>
    have key : ∀ m', tblGet 0 m' i = (if i = a then b.getD (tblGet 0 m i) else tblGet 0 m i) → Memory.wf m' = true →
        tblGet 0 (viewPut m' (a + 1) t) i = if i < a then tblGet 0 m i else ((b :: t).getD (i - a) none).getD (tblGet 0 m i) := by
      intro m' hg hw
      rw [ih _ _ hw, hg]
      rcases Nat.lt_trichotomy i a with hi | hi | hi
      · simp [hi, Nat.lt_succ_of_lt hi, Nat.ne_of_lt hi]
      · subst hi; simp
      · obtain ⟨k, rfl⟩ : ∃ k, i = a + 1 + k := ⟨i - (a + 1), by omega⟩
        have h1 : ¬ a + 1 + k < a + 1 := by omega
        have h2 : ¬ a + 1 + k < a := by omega
        have h3 : a + 1 + k ≠ a := by omega
        have h4 : a + 1 + k - (a + 1) = k := by omega
        have h5 : a + 1 + k - a = k + 1 := by omega
        simp [h1, h2, h3, h4, h5]
    cases b with
    | none => exact key m (by simp) h
    | some v => exact key _ (tblGet_tblSet h) (tblWf_tblSet h)

/-- Host memory takes bytes as device memory does. -/
theorem bytesPut_eq (bs : List (Option Byte)) (m : Memory) (a : Nat) : bytesPut m a bs = viewPut m a bs := by
  induction bs generalizing m a with
  | nil => rfl
  | cons b t ih => cases b <;> exact ih _ _

/-- Laying bytes into a scratchpad keeps its canonical form. -/
theorem spadPut_wf (bs : List (Option Byte)) (m : Memory) (a : Nat) (h : Memory.wf m = true) : Memory.wf (spadPut m a bs) = true := by
  induction bs generalizing m a with
  | nil => exact h
  | cons b t ih => cases b <;> exact ih _ _ (by first | exact h | exact tblWf_tblSet h)

/-- A byte of a scratchpad that no byte is laid on stays as it was. -/
theorem spadPut_frame (bs : List (Option Byte)) (m : Memory) (a i : Nat) (h : Memory.wf m = true)
    (hi : ∀ j, j < bs.length → i ≠ (a + j) % 2 ^ 22) : tblGet 0 (spadPut m a bs) i = tblGet 0 m i := by
  induction bs generalizing m a with
  | nil => rfl
  | cons b t ih =>
    have h0 : i ≠ a % 2 ^ 22 := by simpa using hi 0 (by simp)
    have hr : ∀ j, j < t.length → i ≠ (a + 1 + j) % 2 ^ 22 := fun j hj => by
      have := hi (j + 1) (by simpa using hj)
      rwa [show a + (j + 1) = a + 1 + j by omega] at this
    cases b with
    | none => exact ih _ _ h hr
    | some v =>
      rw [spadPut, ih _ _ (tblWf_tblSet h) hr]
      exact (tblGet_tblSet h).trans (if_neg h0)

/-! ## The memories of a core -/

theorem setV_wf (x : Seq) (n : Fin 640) (v : VWord) (h : tblWf 0 x.v = true) : tblWf 0 (x.setV n v).v = true := tblWf_tblSet h

theorem setVs_wf (l : List (Fin 640 × VWord)) (x : Seq) (h : tblWf 0 x.v = true) : tblWf 0 (x.setVs l).v = true := by
  induction l generalizing x with
  | nil => exact h
  | cons p t ih => exact ih _ (setV_wf x p.1 p.2 h)

/-- Writes of tile elements keep the canonical form of the tiles. -/
theorem tileWrites_wf {β : Type} (l : List β) (f : β → List (Nat × Acc) → List (Nat × Acc)) (t : List (Nat × Acc))
    (hf : ∀ p m, tblWf 0 m = true → tblWf 0 (f p m) = true) (h : tblWf 0 t = true) : tblWf 0 (l.foldl (fun t p => f p t) t) = true := by
  induction l generalizing t with
  | nil => exact h
  | cons p l ih => exact ih _ (hf p t h)

theorem setTile_tiles_wf (k : Core) (t : Fin 32) (vs : List Acc) (h : tblWf 0 k.tiles = true) : tblWf 0 (k.setTile t vs).tiles = true :=
  tblWf_tblSetRun _ h

theorem writeWorked_tiles_wf (k : Core) (m : MCmd) (h : tblWf 0 k.tiles = true) : tblWf 0 (k.writeWorked m).tiles = true :=
  tileWrites_wf m.work (fun p t => tblSet 0 t (tileKey m.atd 0 0 + p.1) p.2) k.tiles (fun _ _ h => tblWf_tblSet h) h

theorem writeResult_tiles_wf (k : Core) (m : MCmd) (h : tblWf 0 k.tiles = true) : tblWf 0 (k.writeResult m).tiles = true := by
  have key : ∀ (f : List (Nat × Acc) → Nat × Nat → List (Nat × Acc)), (∀ t p, tblWf 0 t = true → tblWf 0 (f t p) = true) →
      ∀ (l : List (Nat × Nat)) t, tblWf 0 t = true → tblWf 0 (l.foldl f t) = true := by
    intro f hf l
    induction l with
    | nil => exact fun _ h => h
    | cons p l ih => exact fun t ht => ih _ (hf t p ht)
  unfold Core.writeResult
  generalize allCells = l
  refine key _ (fun t p ht => ?_) _ _ h
  split
  · exact ht
  · exact tblWf_tblSet ht

theorem memOk_core {k : Core} :
    k.memOk = true ↔ Memory.wf k.spad = true ∧ tblWf 0 k.tiles = true ∧ ∀ q : SeqId, tblWf 0 (k.seq q).v = true := by
  simp only [Core.memOk, Bool.and_eq_true, List.all_eq_true, and_assoc]
  refine and_congr_right fun _ => and_congr_right fun _ => ⟨fun h q => h _ ?_, fun h x hx => ?_⟩
  · simp [Core.seq]
  · obtain ⟨n, hn, rfl⟩ := List.getElem_of_mem hx
    have hn' : n < 4 := by simpa using hn
    simpa [Core.seq] using h ⟨n, hn'⟩

/-- A core of the same memories is as sound. -/
theorem Core.memOk_congr {k l : Core} (h : k.memOk = true) (h1 : l.spad = k.spad) (h2 : l.tiles = k.tiles)
    (h3 : ∀ q : SeqId, (l.seq q).v = (k.seq q).v) : l.memOk = true := by
  rw [memOk_core] at h ⊢
  exact ⟨h1 ▸ h.1, h2 ▸ h.2.1, fun q => (h3 q).symm ▸ h.2.2 q⟩

theorem spadWrite_memOk (k : Core) (off : Nat) (bs : List (Option Byte)) (h : k.memOk = true) : (k.spadWrite off bs).memOk = true := by
  rw [memOk_core] at h ⊢
  exact ⟨spadPut_wf bs k.spad off h.1, h.2⟩

theorem setTile_memOk (k : Core) (t : Fin 32) (vs : List Acc) (h : k.memOk = true) : (k.setTile t vs).memOk = true := by
  rw [memOk_core] at h ⊢
  exact ⟨h.1, setTile_tiles_wf k t vs h.2.1, h.2.2⟩

/-! ## The memories of the package -/

theorem memOk_iff {s : State} : s.memOk = true ↔
    (∀ d, Memory.wf (s.die d).view = true) ∧ Memory.wf s.hostMem = true ∧ ∀ c, (s.core c).memOk = true := by
  simp only [State.memOk, Bool.and_eq_true, List.all_eq_true, and_assoc]
  refine and_congr ⟨fun h d => h _ ?_, fun h x hx => ?_⟩ (and_congr_right fun _ => ⟨fun h c => h _ ?_, fun h x hx => ?_⟩)
  · simp [State.die]
  · obtain ⟨n, hn, rfl⟩ := List.getElem_of_mem hx
    have hn' : n < 4 := by simpa using hn
    simpa [State.die] using h ⟨n, hn'⟩
  · simp [State.core]
  · obtain ⟨n, hn, rfl⟩ := List.getElem_of_mem hx
    have hn' : n < 64 := by simpa using hn
    simpa [State.core] using h ⟨n, hn'⟩

/-- A state of the same dies, host memory and cores is as sound. -/
theorem State.memOk_congr {s t : State} (h : s.memOk = true) (h1 : t.dies = s.dies) (h2 : t.hostMem = s.hostMem) (h3 : t.cores = s.cores) :
    t.memOk = true := by
  simpa only [State.memOk, h1, h2, h3] using h

theorem setCore_memOk (s : State) (c : CoreId) (k : Core) (h : s.memOk = true) (hk : k.memOk = true) : (s.setCore c k).memOk = true := by
  rw [memOk_iff] at h ⊢
  refine ⟨h.1, h.2.1, fun d => ?_⟩
  by_cases hd : d = c
  · subst hd; simpa [State.core, State.setCore] using hk
  · have : (s.setCore c k).core d = s.core d := by
      simp only [State.core, State.setCore]
      exact Vector.getElem_set_ne _ _ (fun hh => hd (Fin.ext hh.symm))
    rw [this]; exact h.2.2 d

theorem modCore_memOk (s : State) (c : CoreId) (f : Core → Core) (h : s.memOk = true) (hf : (s.core c).memOk = true → (f (s.core c)).memOk = true) :
    (s.modCore c f).memOk = true := setCore_memOk s c _ h (hf ((memOk_iff.mp h).2.2 c))

theorem setDie_memOk (s : State) (d : DieId) (x : Die) (h : s.memOk = true) (hx : Memory.wf x.view = true) : (s.setDie d x).memOk = true := by
  rw [memOk_iff] at h ⊢
  refine ⟨fun e => ?_, h.2⟩
  by_cases he : e = d
  · subst he; simpa [State.die, State.setDie] using hx
  · have : (s.setDie d x).die e = s.die e := by
      simp only [State.die, State.setDie]
      exact Vector.getElem_set_ne _ _ (fun hh => he (Fin.ext hh.symm))
    rw [this]; exact h.1 e

/-- A write that reaches a die leaves its view canonical. -/
theorem apply_memOk (s : State) (d : DieId) (pa : Nat) (bs : List (Option Byte)) (vc : VClock) (h : s.memOk = true) :
    (s.setDie d ((s.die d).apply pa bs vc)).memOk = true := setDie_memOk s d _ h (viewPut_wf bs _ pa ((memOk_iff.mp h).1 d))

/-- A write to host memory keeps it canonical. -/
theorem hostPut_memOk (s : State) (f : FnId) (addr : Nat) (bs : List (Option Byte)) (h : s.memOk = true) :
    (s.hostPut f addr bs).memOk = true := by
  have h' := memOk_iff.mp h
  refine memOk_iff.mpr ⟨h'.1, ?_, h'.2.2⟩
  simpa only [State.hostPut, bytesPut_eq] using viewPut_wf bs _ (hostKey f addr) h'.2.1

/-- Every frame that is cleared reads as nothing listed. -/
theorem clear_wf (m : Memory) (lo hi : Nat) (h : Memory.wf m = true) : Memory.wf (tblClear m lo hi) = true := tblWf_tblClear h

/-- The memories after reset are in canonical form. -/
theorem reset_memOk : State.reset.memOk = true := by decide +kernel

end Sys2Proof.Machine
end

