-- ==== Sys2Proof/Tests/Slice0.lean ====
section
/-!
SUPPORT. The author's tests: words of the spec's worked encodings and what they decode to, an ill-formed term for each check of WellFormed,
single steps with the results of the spec's worked examples, and for each statement a state and operands that meet its hypotheses.
-/
open Sys2Proof Sys2Proof.Machine

namespace Sys2Proof.Tests

set_option Elab.async false

/-! ## Decoding: each word is a worked encoding of the rule named -/

/-- R8: NOP. -/
theorem test_decode_nop : decodeTableWord 96 0x000B1C000000000000000000 =
    some (.nop .none) := by decide
/-- R123: MMA. -/
theorem test_decode_mma : decodeTableWord 96 0xA05808A28580040000000000 =
    some (.mma ⟨.idle 5, 5, .x 10, .x 11, 0x04, false⟩) := by decide
/-- R333: MMAS.z. -/
theorem test_decode_mmas_z : decodeTableWord 96 0x00080C02858C040400000000 =
    some (.mmas ⟨.none, 0, .x 10, .x 11, 0x04, true⟩ (.x 12)) := by decide
/-- R106: VFADD. -/
theorem test_decode_vfadd : decodeTableWord 96 0x2075000A02E82FFCC4800000 =
    some (.vfadd ⟨.filled 7, 10, .v 11, .dq 2, 3, .bf16⟩ (.fixed .rtz)) := by decide
/-- R366: VDOT. -/
theorem test_decode_vdot : decodeTableWord 96 0x00053C01008030100C00C000 =
    some (.vdot ⟨.none, 1, .v 2, .v 3, 0, .e4m3⟩ (some (.v 4)) 0 .e5m2 .rne) := by decide
/-- R187: FENCE.p. -/
theorem test_decode_fence_p : decodeTableWord 96 0x000A50000000000060000000 =
    some (.fence .none .p) := by decide
/-- R190: QFENCE. -/
theorem test_decode_qfence : decodeTableWord 96 0x000A0C000000004060000000 =
    some (.qfence .none 0x03 false true) := by decide
/-- R322: KSET. -/
theorem test_decode_kset : decodeTableWord 96 0x000A3C000070000060000000 =
    some (.kset .none 3 (.x 7)) := by decide
/-- R342: QPUSH. -/
theorem test_decode_qpush : decodeTableWord 96 0x000A00000050005040000000 =
    some (.qpush .none (.dq 2) (.x 5)) := by decide
/-- R170: XCOPY. -/
theorem test_decode_xcopy : decodeTableWord 96 0x000901081228006000000000 =
    some (.xcopy ⟨.none, 2, .x 8, .x 9, .x 10, some 3⟩) := by decide
/-- R401: XACC.fadd. -/
theorem test_decode_xacc_fadd : decodeTableWord 96 0x00090688122800E200000000 =
    some (.xacc ⟨.none, 5, .x 8, .x 9, .x 10, some 7⟩ .fadd .f32) := by decide
/-- R404: XORI. -/
theorem test_decode_xori : decodeTableWord 96 0x000114183FFFFFFFF0000000 =
    some (.xori ⟨.none, .x 3, .x 3, 0xffffffff⟩) := by decide
/-- R153: RTAKE. -/
theorem test_decode_rtake : decodeTableWord 96 0x203A180C2800000000000000 =
    some (.rtake ⟨.filled 3, 3, .x 5⟩) := by decide
/-- R380: VGATHER. -/
theorem test_decode_vgather : decodeTableWord 96 0x00040C0A1800000014000000 =
    some (.vgather ⟨.none, 5, .x 12, 0x00000, .i32, 0⟩) := by decide
/-- R385: VLD. -/
theorem test_decode_vld : decodeTableWord 96 0x0004028329FC002000000000 =
    some (.vld ⟨.none, .dq 3, .x 20, .xz, 0x00080, .f32, .plain, .s, 0⟩) := by decide
/-- R335: MRD. -/
theorem test_decode_mrd : decodeTableWord 96 0x000818433F80000000000000 =
    some (.mrd ⟨.none, 2, .x 12⟩ .xz .f32 .rne) := by decide
/-- R297: ACSET. -/
theorem test_decode_acset : decodeTableWord 96 0x000A210C008FE00000000000 =
    some (.acset .none 3 (.x 8) .xz) := by decide
/-- R357: ST.d.rel.p. -/
theorem test_decode_st_d_rel_p : decodeTableWord 96 0x0003041415FC00020D300000 =
    some (.st ⟨.none, .x 20, .x 10, .xz, 0x00008, .d, .rel, .p⟩) := by decide
/-- R360: TSR. -/
theorem test_decode_tsr : decodeTableWord 96 0x000B08205000000000000000 =
    some (.tsr .none (.x 4) (.x 5)) := by decide
/-- R348: RFILL. -/
theorem test_decode_rfill : decodeTableWord 96 0x603A14140060000000000000 =
    some (.rfill ⟨.reached 3, 5, .x 6⟩) := by decide
/-- R358: TLOOK. -/
theorem test_decode_tlook : decodeTableWord 96 0x000A2C002840000000000000 =
    some (.tlook .none (.x 5) (.x 4)) := by decide
/-- R355: SPAWN. -/
theorem test_decode_spawn : decodeTableWord 96 0x000B0C009000000000000000 =
    some (.spawn .none (.x 9)) := by decide
/-- R308: DLCHK. -/
theorem test_decode_dlchk : decodeTableWord 96 0x000B18380000000000000000 =
    some (.dlchk .none (.x 7)) := by decide
/-- R346: QPOP.fd. -/
theorem test_decode_qpop_fd : decodeTableWord 96 0xE02A07084000000000800000 =
    some (.qpopFd (.fed 2) 2 8) := by decide
/-- R331: MTS. -/
theorem test_decode_mts : decodeTableWord 96 0x000B0407F003000000000000 =
    some (.mts .none .xz 0x003) := by decide
/-- R399: WAIT. -/
theorem test_decode_wait : decodeTableWord 96 0x000A54000000000000000000 =
    some (.wait .none) := by decide
/-- R359: TRAP. -/
theorem test_decode_trap : decodeTableWord 96 0x00021C00000000000A800000 =
    some (.trap .none 0x0000002a) := by decide
/-- R300: B.ne.lk. -/
theorem test_decode_b_ne_lk : decodeTableWord 96 0x00020027F17FFFFFFE400000 =
    some (.b ⟨.none, .x 4, .xz, .ne, .lk, 0xfffffff9⟩) := by decide
/-- R328: LOOP.lk. -/
theorem test_decode_loop_lk : decodeTableWord 96 0x00020830007FFFFFFF000000 =
    some (.loop .none 6 .lk 0xfffffffc) := by decide
/-- R315: IMULH. -/
theorem test_decode_imulh : decodeTableWord 96 0x00000C48A160020000000000 =
    some (.imulh ⟨.none, .x 9, .x 10, .x 11⟩ .su) := by decide
/-- R371: VFCVT. -/
theorem test_decode_vfcvt : decodeTableWord 96 0x0005340A02FFF02406A00000 =
    some (.vfcvt ⟨.none, 10, .v 11, 0, .bf16⟩ .f32 (.sr false (.v 9) 0x08)) := by decide

/-- R223: ADDI S2, S1, -1, from the field table. -/
theorem test_decode_script_addi : decodeTableWord 32 0x5447FFFF = some (.scriptAddi 2 1 0x7FFFF) := by decide
/-- R223: JFW.ltu S1, S2, 3, from the field table. -/
theorem test_decode_script_jfw : decodeTableWord 32 0xC0520003 = some (.scriptJfw 1 2 2 3) := by decide
/-- R223: a word of END with a bit set is refused. -/
theorem test_decode_script_end_refused : decodeTableWord 32 0x00000001 = none := by decide
/-- R121: OPC 0x300 fails check 1, a vector word in the A-stream check 3, IMULH with SUB 3 check 4, NOP with a body bit check 5,
KSET K0 check 6, FENCE with scope 5 check 7, +fed outside a resident group check 8. -/
theorem test_decode_causes :
    decode .c true 0x000C00000000000000000000 = .error 1 ∧ decode .a true 0x2075000A02E82FFCC4800000 = .error 3 ∧
    decode .c true 0x00000C48A160030000000000 = .error 4 ∧ decode .c true 0x000B1C000000000000000001 = .error 5 ∧
    decode .c true 0x000A3C000070000000000000 = .error 6 ∧ decode .c true 0x000A500000000000A0000000 = .error 7 ∧
    decode .c false 0xE02A07084000000000800000 = .error 8 := ⟨rfl, rfl, rfl, rfl, rfl, rfl, rfl⟩

/-! ## Well-formedness: a term that breaks each check is refused -/

theorem test_ill_formed_wait_fed : Instr.wf .c false (.nop (.fed 2)) = false := by decide
theorem test_ill_formed_source_bq_in_c : Instr.wf .c true (.iadd ⟨.none, .x 1, .bq 0, .x 2⟩) = false := by decide
theorem test_ill_formed_source_fq : Instr.wf .a true (.mov ⟨.none, .x 1, .fq⟩) = false := by decide
theorem test_ill_formed_destination_bq_in_a : Instr.wf .a true (.mov ⟨.none, .bq 0, .x 1⟩) = false := by decide
theorem test_ill_formed_load_release : Instr.wf .c true (.ld ⟨.none, .x 1, .x 2, .xz, 0, .d, .rel, .p⟩) = false := by decide
theorem test_ill_formed_store_acquire : Instr.wf .c true (.st ⟨.none, .x 1, .x 2, .xz, 0, .d, .acq, .p⟩) = false := by decide
theorem test_ill_formed_store_sign_size : Instr.wf .c true (.st ⟨.none, .x 1, .x 2, .xz, 0, .sb, .plain, .s⟩) = false := by decide
theorem test_ill_formed_scope_of_plain : Instr.wf .c true (.ld ⟨.none, .x 1, .x 2, .xz, 0, .d, .plain, .p⟩) = false := by decide
theorem test_ill_formed_vector_load_v_in_a : Instr.wf .a true (.vld ⟨.none, .v 1, .x 2, .xz, 0, .f32, .plain, .s, 0⟩) = false := by decide
theorem test_ill_formed_vector_load_mask_to_dq : Instr.wf .a true (.vld ⟨.none, .dq 1, .x 2, .xz, 0, .f32, .plain, .s, 3⟩) = false := by decide
theorem test_ill_formed_vector_in_a : Instr.wf .a true (.vand ⟨.none, 1, .v 2, .v 3, 0, .i32⟩) = false := by decide
theorem test_ill_formed_float_type : Instr.wf .c true (.vfadd ⟨.none, 1, .v 2, .v 3, 0, .i32⟩ (.fixed .rne)) = false := by decide
theorem test_ill_formed_random_bits : Instr.wf .c true (.vfadd ⟨.none, 1, .v 2, .v 3, 0, .f32⟩ (.sr false (.v 4) 0)) = false := by decide
theorem test_ill_formed_convert_integers : Instr.wf .c true (.vfcvt ⟨.none, 1, .v 2, 0, .i32⟩ .i16 (.fixed .rne)) = false := by decide
theorem test_ill_formed_mask_destination_k0 : Instr.wf .c true (.vfcmp ⟨.none, 0, .v 2, .v 3, 0, .f32⟩ .lt) = false := by decide
theorem test_ill_formed_dot_type : Instr.wf .c true (.vdot ⟨.none, 1, .v 2, .v 3, 0, .f32⟩ none 0 .none .rne) = false := by decide
theorem test_ill_formed_dot_scale : Instr.wf .c true (.vdot ⟨.none, 1, .v 2, .v 3, 0, .e4m3⟩ none 0 .e8m0 .rne) = false := by decide
theorem test_ill_formed_reduce_rounding : Instr.wf .c true (.vred ⟨.none, 1, .v 2, 0, .f32⟩ .min (.fixed .rtz)) = false := by decide
theorem test_ill_formed_integer_type : Instr.wf .c true (.viadd ⟨.none, 1, .v 2, .v 3, 0, .bf16⟩ false) = false := by decide
theorem test_ill_formed_integer_condition : Instr.wf .c true (.vicmp ⟨.none, 1, .v 2, .v 3, 0, .i32⟩ .ltu) = false := by decide
theorem test_ill_formed_compress_count : Instr.wf .c true (.vcmpr ⟨.none, 1, .v 2, 0, .f32⟩ 33) = false := by decide
theorem test_ill_formed_bq_branch_in_c : Instr.wf .c true (.bq .none 0 .xz .eq .none 0) = false := by decide
theorem test_ill_formed_tile_rows : Instr.wf .c true (.mma ⟨.none, 0, .x 1, .x 2, 0, false⟩) = false := by decide
theorem test_ill_formed_accumulate_type : Instr.wf .c true (.xacc ⟨.none, 0, .x 1, .x 2, .x 3, none⟩ .fadd .i32) = false := by decide
theorem test_ill_formed_swap_type : Instr.wf .c true (.xswap ⟨.none, 0, .x 1, .x 2, .x 3, none⟩ .f32) = false := by decide
theorem test_ill_formed_push_dq_in_c : Instr.wf .c true (.qpush .none (.dq 0) (.x 1)) = false := by decide
theorem test_ill_formed_pop_fq : Instr.wf .c true (.qpop .none .fq (.x 1)) = false := by decide
theorem test_ill_formed_fence_of_nothing : Instr.wf .c true (.qfence .none 0 false false) = false := by decide
theorem test_ill_formed_special_register : Instr.wf .c true (.mfs .none (.x 1) 0x00D) = false := by decide
theorem test_ill_formed_tsr_one_register : Instr.wf .c true (.tsr .none (.x 4) (.x 4)) = false := by decide
theorem test_ill_formed_kset_k0 : Instr.wf .c true (.kset .none 0 (.x 7)) = false := by decide

/-! ## Single steps -/

/-- Core 0 runs context 0 of slice 0; the stream named stands at a word and the other has ended. -/
def ready (st : Strm) : State := { State.reset.placeWord st 0 with agenda := [], cur := ⟨0, 0, st, 0, ⟨0, 0⟩⟩ }

/-- The running stream with a value in a register. -/
def setX (s : State) (n : Fin 64) (v : Word) : State := s.modStrm s.cur.core s.cur.seq s.cur.strm (·.setX n v)

/-- Registers X2, X3, X4 of a C-stream hold three values. -/
def three (a b c : Word) : State := setX (setX (setX (ready .c) 2 a) 3 b) 4 c

/-- X1 of the running stream after an instruction. -/
def x1 (i : Instr) (s : State) : Option Word :=
  match exec i s with
  | .next t => some (t.curStrm.getX 1)
  | _ => none

/-- What is true of the state after an instruction. -/
def after (i : Instr) (s : State) (p : State → Bool) : Bool :=
  match exec i s with
  | .next t => p t
  | _ => false

/-- Two sources X2 and X3, destination X1. -/
def abc : Sc3 := ⟨.none, .x 1, .x 2, .x 3⟩

/-- R404: XORI X3, X3, -1 as the first instruction after reset inverts X3. -/
theorem test_step_xori : (match step (State.reset.withFetchWord 96 0x000114183FFFFFFFF0000000) with
    | .next t => decide ((t.strm 0 0 .c).getX 3 = BitVec.allOnes 64)
    | _ => false) = true := by decide +kernel
/-- R314: the table's line -7 by 2. -/
theorem test_idiv : x1 (.idiv abc false) (three (-7) 2 0) = some (-3) ∧ x1 (.irem abc false) (three (-7) 2 0) = some (-1) := by decide +kernel
/-- R314: the table's lines 9 by 0 and -2^63 by -1. -/
theorem test_idiv_corners : x1 (.idiv abc false) (three 9 0 0) = some (-1) ∧ x1 (.irem abc true) (three 9 0 0) = some 9 ∧
    x1 (.idiv abc false) (three (BitVec.ofNat 64 (2 ^ 63)) (-1) 0) = some (BitVec.ofNat 64 (2 ^ 63)) := by decide +kernel
/-- R315: the table's first line. -/
theorem test_imulh : x1 (.imul abc) (three (-2) 3 0) = some (-6) ∧ x1 (.imulh abc .ss) (three (-2) 3 0) = some (-1) ∧
    x1 (.imulh abc .uu) (three (-2) 3 0) = some 2 := by decide +kernel
/-- R347, R353: ROT of 0xF1 by 4, SHRA by 4, SHR by 64, SHL by 63. -/
theorem test_shifts : x1 (.rot abc) (three 0xF1 4 0) = some 0x100000000000000F ∧
    x1 (.shra abc) (three 0xFFFFFFFFFFFFFF00 4 0) = some 0xFFFFFFFFFFFFFFF0 ∧ x1 (.shr abc) (three 0xFFFFFFFFFFFFFF00 64 0) = some 0 ∧
    x1 (.shl abc) (three 1 63 0) = some 0x8000000000000000 := by decide +kernel
/-- R329, R307, R339: MIN and MIN.n of -1 and 5, CLZ of 0x10000, POPC of 0xF0F0000000000001. -/
theorem test_min_clz_popc : x1 (.min abc false) (three (-1) 5 0) = some (-1) ∧ x1 (.min abc true) (three (-1) 5 0) = some 5 ∧
    x1 (.clz ⟨.none, .x 1, .x 2⟩) (three 0x10000 0 0) = some 47 ∧
    x1 (.popc ⟨.none, .x 1, .x 2⟩) (three 0xF0F0000000000001 0 0) = some 9 := by decide +kernel
/-- R302: a field that reaches past bit 63 is cut there; the sign is that of the field. -/
theorem test_bfx : x1 (.bfx ⟨.none, .x 1, .x 2, .x 3, .x 4⟩ true) (three 0xF000000000000000 60 8) = some (-1) ∧
    x1 (.bfx ⟨.none, .x 1, .x 2, .x 3, .x 4⟩ false) (three 0xF000000000000000 60 8) = some 0xF := by decide +kernel
/-- R313: ICMPI.ltu with -1 is 1 of every value but the greatest. -/
theorem test_icmpi : x1 (.icmpi ⟨.none, .x 1, .x 2, 0xFFFFFFFF⟩ .ltu) (three 5 0 0) = some 1 ∧
    x1 (.icmpi ⟨.none, .x 1, .x 2, 0xFFFFFFFF⟩ .ltu) (three (-1) 0 0) = some 0 := by decide +kernel
/-- R327: LI.hi keeps the low half. -/
theorem test_li_hi : x1 (.liHi .none (.x 1) 0x40) (setX (ready .c) 1 0xFFFFFFFFFFFFFFFF) = some 0x00000040FFFFFFFF := by decide +kernel
/-- R359: TRAP 0x2A freezes the context with kind 14 and cause 0x2A, 64 ticks on. -/
theorem test_trap : after (.trap .none 0x2A) (ready .c) (fun t => match (t.ctx? ⟨0, 0⟩).bind (·.freeze) with
    | some f => decide (f.kind = 14 ∧ f.cause = 0x2A ∧ f.f = 64)
    | none => false) = true := by decide +kernel
/-- R311: HALT ends its stream. -/
theorem test_halt : after (.halt .none) (ready .c) (fun t => decide (t.curStrm.st = .ended)) = true := by decide +kernel
/-- R322: KSET writes the low 32 bits; KFIRST of an empty mask is 32. -/
theorem test_masks : after (.kset .none 3 (.x 2)) (three 0x1FFFFFFFE 0 0) (fun t => decide (t.curSeq.getK 3 = 0xFFFFFFFE)) = true ∧
    x1 (.kfirst .none (.x 1) 3) (ready .c) = some 32 ∧ x1 (.kpopc .none (.x 1) 0) (ready .c) = some 32 := by decide +kernel
/-- R300: B.ne to word -7 of a section of one word is no word of it: kind 2, cause 6. -/
theorem test_branch_outside : after (.b ⟨.none, .x 2, .xz, .ne, .lk, 0xFFFFFFF9⟩) (three 1 0 0) (fun t =>
    match (t.ctx? ⟨0, 0⟩).bind (·.freeze) with
    | some f => decide (f.kind = 2 ∧ f.cause = 6)
    | none => false) = true := by decide +kernel
/-- R324, R142: a load of a scratchpad byte that nothing has written, through the window. -/
theorem test_ld_window : x1 (.ld ⟨.none, .x 1, .x 2, .xz, 0, .d, .plain, .s⟩) (three 0xFFFFFFFFFFC00000 0 0) = some 0 := by decide +kernel

/-! ## Witnesses: for each statement with hypotheses, states and operands that meet them, clause by clause -/

/-- Device memory of one page that the context may read and write: page 0 is its own table at every level of both stages. -/
def paged (s : State) : State :=
  { s with
    girthOn := true
    alloc := [(0, allocMk 1 false 0 127)]
    keys := [(127, 1)]
    frameGen := [(0, 1)]
    dies := s.dies.map fun x => { x with view := tblSet 0 x.view 0 0x1D } }

/-- Bytes laid into page 0 on every die. -/
def laid (s : State) (a : Nat) (bs : List Byte) : State :=
  { s with dies := s.dies.map fun x => { x with view := tblSetRun 0 x.view a bs } }

def core0 (s : State) (f : Core → Core) : State := s.modCore 0 f
def seq0 (s : State) (f : Seq → Seq) : State := s.modSeq 0 0 f
def strm0 (s : State) (f : Stream → Stream) : State := s.modStrm 0 0 s.cur.strm f

/-- A held store of one scratchpad byte, and a copy command that holds row 0 of the scratchpad. -/
def heldSt : HeldWord := ⟨0, .c, 1, 0, 0, none, [], [.stSpad 0 [some 1]], 0, 0, 0, none⟩
/-- An older word of the stream holds an effect; a load of one byte at a device address is outstanding. -/
def holding (e : Eff) (s : State) : State := seq0 s fun x => { x with held := [{ heldSt with effs := [e] }] }
def loadOut (pa : Nat) (s : State) : State :=
  strm0 s fun y => { y with loads := [⟨3, 1, .x 9 .b, [0], [⟨0, pa, 1, 127, 0x1000⟩], [], none, [], 0, 0x1000, [], 0, 0, 0, none⟩] }
/-- The line at 0x1000 cannot be corrected: its tag is of another generation than its key. -/
def badLine (s : State) : State := { s with lineGen := [(32, 2)] }
def copyCmd : CopyCmd := ⟨.copy, .add, .f32, none, 0, 0, 0, 0, 0, 0, none, [], none, [(0, 1)]⟩
def rowHeld (s : State) : State := core0 s fun k => { k with cqs := k.cqs.set 0 ⟨[.cmd copyCmd], none⟩ }
/-- The C-stream has a write in flight, a held word or a load outstanding. -/
def busy : State := seq0 (ready .c) fun x => { x with held := [heldSt] }

theorem witness_IssueRegisters : tblWf 0 (ready .c).curSeq.v = true ∧
    (let r : Ret := { x := [(0, 5), (63, 6)], v := [(3, 7), (639, 8)], k := [(0, 1), (15, 9)] }
     (∀ p ∈ r.x, p.1 ≠ 2) ∧ (r.x.map (·.1)).Nodup ∧ (63, 6) ∈ r.x ∧ (∀ p ∈ r.v, p.1 ≠ 0) ∧ (r.v.map (·.1)).Nodup ∧ (639, 8) ∈ r.v ∧
       (∀ p ∈ r.k, p.1 ≠ 2) ∧ (r.k.map (·.1)).Nodup ∧ (15, 9) ∈ r.k ∧ (15 : Fin 16) ≠ 0) :=
  ⟨by decide +kernel, by simp⟩

theorem witness_IssueControl :
    let s := ready .c
    let t := strm0 (ready .c) fun y => { y with last := false }
    s.curStrm.word = some 0 ∧ s.curStrm.last = true ∧ t.curStrm.word = some 0 ∧ t.curStrm.len ≤ 0 + 1 ∧ t.curStrm.last = false ∧
      ({} : Ret).ctl = .next ∧ ({ ctl := .word 0 } : Ret).ctl = .word 0 ∧ ({ ctl := .header 16 } : Ret).ctl = .header 16 ∧
      ({ ctl := .ended } : Ret).ctl = .ended := by decide

/-- A window of an older word that is open, and one whose word is to issue again. -/
def winState (again : Bool) : State := seq0 (ready .c) fun x => { x with wins := [⟨0, .c, 0, 3, 0, 0, [], again, none⟩] }

theorem witness_IssueHeldEffects_windows :
    (∃ w ∈ (winState false).curSeq.wins, ((winState false).core 0).cyc ≤ w.cyc + w.len) ∧ ∃ w ∈ (winState true).curSeq.wins, w.again = true :=
  ⟨⟨_, List.mem_singleton.mpr rfl, by decide⟩, ⟨_, List.mem_singleton.mpr rfl, rfl⟩⟩

theorem witness_IssueHeldEffects :
    (let u : Uses := { src := [.x 1] }
     u.pops.map Eff.pop ++ ({} : Ret).effs = [] ∧ ({} : Ret).load = []) ∧
    (let u : Uses := { src := [.bq 0] }
     u.pops.map Eff.pop ++ ({} : Ret).effs ≠ []) := by decide

theorem witness_IssueFrame : ((ready .c).issues { src := [.x 1] } {}).seq 0 0 ≠ (ready .c).seq 0 0 ∧ (1 : SeqId) ≠ 0 ∧
    ((strm0 (ready .c) fun y => { y with last := false }).issues {} {}).curSeq.c.st ≠ .ended := by decide +kernel

theorem witness_ScalarTwoSources : (ready .c).canIssue (scalarUses .none (.x 1) [.x 2, .x 3]) ∧
    (ready .c).canIssue (scalarUses .none .xz [.xz, .x 63]) ∧ (ready .c).canIssue (scalarUses .none .fq [.x 2, .x 2]) := by
  and_intros <;> first | decide +kernel | rfl

theorem witness_ScalarOneSource : (ready .c).canIssue (scalarUses .none (.x 1) [.x 2]) ∧ (ready .c).canIssue (scalarUses .none (.x 1) []) ∧
    (ready .c).canIssue (scalarUses .none (XReg.x 1).sop [(XReg.x 1).sop]) ∧
    (ready .c).canIssue (scalarUses .none (.x 1) [.x 2, .x 3, .x 4]) ∧
    (ready .c).canIssue (scalarUses .none XReg.xz.sop [.x 2, .x 3, .x 4, XReg.xz.sop]) := by
  and_intros <;> first | decide +kernel | rfl

theorem witness_LanesOfResult : ∀ i j : Nat, ((fun _ _ => (1, 0) : Nat → Nat → Nat × BitVec 5) i j).1 < 2 ^ ET.f32.bits := fun _ _ => by
  show 1 < 2 ^ ET.f32.bits
  decide

theorem witness_VectorFloatRounding :
    (ready .c).canIssue (vecUses .none 0 (.v 1 :: .v 639 :: rndSrc (.sr true (.v 4) 8)) 3 false true) ∧
    (ready .c).canIssue (vecUses .none 0 (.v 1 :: .v 2 :: rndSrc (.fixed .rne)) 0 false true) ∧
    (ready .c).canIssue (vecUses .none 0 [.v 1, .v 2, .v 3] 0 false true) ∧ (ready .c).canIssue (vecUses .none 0 [.v 1] 0 false true) ∧
    (ready .c).canIssue (vecUses .none 0 (.v 1 :: rndSrc (.fixed .rtz)) 15 false true) := by
  and_intros <;> first | decide +kernel | rfl

theorem witness_VectorConvertDotReduce :
    (ready .c).canIssue (vecUses .none 0 (.v 1 :: rndSrc (.fixed .rne)) 0 false true) ∧
    (ready .c).canIssue (vecUses .none 1 (.v 2 :: .v 3 :: (some (.v 4)).toList) 0 false true) ∧
    (ready .c).canIssue (vecUses .none 1 (.v 2 :: .v 3 :: (none : Option VOp).toList) 0 false true) ∧
    (ready .c).canIssue (vecUses .none 0 (.v 1 :: rndSrc (.fixed .rne)) 0 true true) := by
  and_intros <;> first | decide +kernel | rfl

theorem witness_VectorCodes :
    (ready .c).canIssue (vecUses .none 0 [.v 1, .v 2] 0 false false) ∧ (ready .c).canIssue (vecUses .none 0 [.v 1] 0 false false) ∧
    (ready .c).canIssue (vecUses .none 0 [.v 1, .v 2, .v 3] 0 false false) := by
  and_intros <;> first | decide +kernel | rfl

theorem witness_VectorMoves :
    (ready .c).canIssue (vecUses .none 0 [.v 1, .v 2] 0 false false) ∧ (ready .c).canIssue (vecUses .none 639 [.v 1] 0 false false) ∧
    (ready .c).canIssue (vecUses .none 0 [] 0 false false) ∧
    (ready .c).canIssue { wait := .none, vsrc := [.v 1, .v 2], vdst := [.v (pairLo 319), .v (pairHi 319)], vec := some (0, false) } ∧
    (ready .c).canIssue (vecUses .none 0 [.v 1] 0 true false) ∧
    (ready .c).canIssue (vecUses .none 0 (.v 1 :: .v 2 :: rndSrc (.fixed .rne)) 0 true true) ∧
    (ready .c).canIssue (vecUses .none 0 [.v 1] 0 true true) := by
  and_intros <;> first | decide +kernel | rfl

theorem witness_CompareAndMaskWords :
    (ready .c).canIssue { wait := .none, vsrc := [.v 1, .v 2], vec := some (3, false) } ∧
    (ready .c).canIssue { wait := .none, vsrc := [.v 1], vec := some (0, false) } ∧
    (ready .c).canIssue { wait := .none, src := [(XReg.x 7).sop] } ∧ (ready .c).canIssue { wait := .none } ∧
    (ready .c).canIssue { wait := .none, dst := [.x 1] } ∧ ((ready .c).curSeq.getK 1).toNat = 0 ∧ ((ready .c).curSeq.getK 0).toNat ≠ 0 := by
  and_intros <;> first | decide +kernel | rfl

/-- The A-stream with one landed entry of BQ0. -/
def popReady : State := seq0 (ready .a) fun x => { x with bq := x.bq.set 0 [.val 5] }

theorem witness_BranchesAndJumps :
    (ready .c).curStrm.word = some 0 ∧ (0 : Int) + (0 : BitVec 32).toInt < ((ready .c).curStrm.len : Int) ∧
    ((ready .c).curSec 0 (ready .c).curStrm).isSome = true ∧ (popReady.curSec 0 popReady.curStrm).isSome = true ∧
    ((three 2 1 0).curSec 0 (three 2 1 0).curStrm).isSome = true ∧
    (ready .c).canIssue { wait := .none, src := [(XReg.x 2).sop, XReg.xz.sop] } ∧
    branchHolds .eq ((ready .c).src [(XReg.x 2).sop, XReg.xz.sop] 0) ((ready .c).src [(XReg.x 2).sop, XReg.xz.sop] 1) = true ∧
    branchHolds .ne ((ready .c).src [(XReg.x 2).sop, XReg.xz.sop] 0) ((ready .c).src [(XReg.x 2).sop, XReg.xz.sop] 1) = false ∧
    popReady.canIssue { wait := .none, src := [.bq 0, XReg.xz.sop] } ∧
    branchHolds .ne (popReady.src [.bq 0, XReg.xz.sop] 0) (popReady.src [.bq 0, XReg.xz.sop] 1) = true ∧
    branchHolds .eq (popReady.src [.bq 0, XReg.xz.sop] 0) (popReady.src [.bq 0, XReg.xz.sop] 1) = false ∧
    (three 2 1 0).canIssue { wait := .none, src := [.x 2] } ∧ 1 < ((three 2 1 0).src [.x 2] 0).toNat ∧
    ((three 2 1 0).src [.x 3] 0).toNat ≤ 1 ∧
    (((0 : Int) + (-1 : BitVec 32).toInt < 0) ∧ ((ready .c).curStrm.len : Int) ≤ (0 : Int) + (1 : BitVec 32).toInt) ∧
    (ready .c).canIssue { wait := .none, src := [(XReg.x 2).sop] } ∧
    (ready .c).canIssue { wait := .none, src := [XReg.xz.sop], dst := [(XReg.x 9).sop] } := by
  and_intros <;> first | decide +kernel | rfl

theorem witness_HaltNopWaitFenceTrap :
    (ready .c).canIssue { wait := .none } ∧ (ready .c).curSeq.streamIdle .c = true ∧ (ready .c).seqDrained 0 0 = true ∧
    busy.canIssue { wait := .none } ∧ busy.curSeq.streamIdle .c = false ∧ busy.seqDrained 0 0 = false ∧
    (ready .c).canIssue { wait := .none } ∧ (ready .c).fenced 0 0 .c .p = true ∧
    busy.canIssue { wait := .none } ∧ busy.fenced 0 0 .c .p = false := by
  and_intros <;> first | decide +kernel | rfl

/-- A context whose first trap stands: of agent 4 of logical core 0, at Girth count g. -/
def frozen (g : Nat) : State := ((ready .c).trapStream 0 0 .c ⟨14, 1, 1, 0⟩ 0).modCtx ⟨0, 0⟩ fun x =>
  { x with freeze := x.freeze.map fun f => { f with g := g } }

theorem witness_TrapFreezes : ((ready .c).core 0).ctxId = some ⟨0, 0⟩ ∧ (∃ x, (ready .c).ctx? ⟨0, 0⟩ = some x ∧ x.freeze = none) ∧
    ((frozen 0).core 0).ctxId = some ⟨0, 0⟩ ∧
    ((frozen 0).ctx? ⟨0, 0⟩).any (fun x => x.freeze.any fun f => decide (f.g = (frozen 0).girth ∧ ((frozen 0).core 0).lcore = f.lcore ∧ 0 < f.agent)) = true ∧
    ((frozen 7).ctx? ⟨0, 0⟩).any (fun x => x.freeze.any fun f => decide (f.g ≠ (frozen 7).girth)) = true ∧
    (⟨1, 0⟩ : CtxId) ≠ ⟨0, 0⟩ ∧ (1 : CoreId) ≠ 0 :=
  ⟨rfl, ⟨_, rfl, rfl⟩, by decide +kernel, by decide +kernel, by decide +kernel, by decide, by decide⟩

/-- A fault of the A-stream of sequencer 0 at core 0 that has no number, of a cause. -/
def newFault (cause : Nat) : Desc := ⟨⟨0, 0⟩, 0, 0, 0x5000, 0, 0, cause, false, false, false, false, 0x7000, 0, 0, none⟩
def unnumbered (cause : Nat) (s : State) : State :=
  (core0 s fun k => { k with descs := [newFault cause] }).modStrm 0 0 .a fun y => { y with park := some ⟨0, cause, 0x5000, 0x7000⟩ }

theorem witness_FaultParks : ((ready .c).core 0).ctxId = some ⟨0, 0⟩ ∧
    (∃ x, (unnumbered 3 (ready .c)).ctx? (newFault 3).ctx = some x ∧ x.freeze = none) ∧ (newFault 3).cause = 3 ∧ (newFault 1).cause ≠ 3 ∧
    (newFault 1).cause ≠ 4 ∧ ((frozen 0).ctx? (newFault 1).ctx).any (·.freeze.isSome) = true ∧
    ((unnumbered 1 (ready .c)).strm 0 0 .a).park = some ⟨0, 1, 0x5000, 0x7000⟩ ∧ (newFault 1).agent = (0 : SeqId).val ∧
    ((unnumbered 1 (ready .c)).newDescs).length = 1 :=
  ⟨rfl, ⟨_, rfl, rfl⟩, rfl, by decide, by decide, by decide +kernel, by decide +kernel, rfl, by decide +kernel⟩

/-- A fault of the C-stream, and one of copy queue 7, whose head command is parked on it; neither has a number. -/
def parkedAtC : State := (core0 (ready .c) fun k => { k with descs := [{ newFault 1 with agent := 4 }] }).modStrm 0 0 .c fun y =>
  { y with park := some ⟨0, 1, 0x5000, 0x7000⟩ }
def parkedAtCopy : State := core0 (ready .c) fun k =>
  { k with descs := [{ newFault 1 with agent := 15 }], cqs := k.cqs.set 7 ⟨[.cmd { copyCmd with park := some ⟨0, 1, 0x5000, 0x7000⟩ }], none⟩ }

theorem witness_FaultParks_agents :
    (parkedAtC.strm 0 0 .c).park = some ⟨0, 1, 0x5000, 0x7000⟩ ∧ ({ newFault 1 with agent := 4 } : Desc).agent = 4 + (0 : SeqId).val ∧
    (parkedAtCopy.core 0).ctxId = some ⟨0, 0⟩ ∧
    ((parkedAtCopy.core 0).cq 7).items = [.cmd { copyCmd with park := some ⟨0, 1, 0x5000, 0x7000⟩ }] ∧
    ({ newFault 1 with agent := 15 } : Desc).agent = 8 + (7 : CqId).val ∧
    ((parkedAtCopy.ctx? ⟨0, 0⟩).any fun x => x.freeze.isNone) = true := by
  and_intros <;> first | decide +kernel | rfl

/-- AC0 has a target that is not reached; the word waits for it since cycle 3. -/
def unreached (st : Option (Nat × Nat)) : State :=
  core0 (strm0 (ready .c) fun y => { y with stall := st }) fun k => { k with acs := k.acs.set 0 ⟨1, 0, []⟩ }

theorem witness_HeldBackStalls :
    (unreached none).atWord 0 0 .c = true ∧ (unreached none).blocked 0 0 .c { wait := .reached 0 } = some (.stall 1) ∧
    (unreached none).curStrm.stall = none ∧
    (unreached (some (1, 3))).blocked 0 0 .c { wait := .reached 0 } = some (.stall 1) ∧
    (unreached (some (1, 3))).curStrm.stall = some (1, 3) ∧
    (unreached (some (4, 3))).blocked 0 0 .c { wait := .reached 0 } = some (.stall 1) ∧
    (unreached (some (4, 3))).curStrm.stall = some (4, 3) := by
  and_intros <;> rfl

/-- What earlier held effects of the C-stream own, and whether the running word meets them. -/
def mine (s : State) (os : List Obj) : Bool := clashes os (s.curSeq.heldObjs (s.core 0).tagWays .c)
def ring3 (r : Ring) : State := core0 (ready .c) fun k => { k with rings := k.rings.set 3 r }
def noResident : State := seq0 (ready .c) fun x => { x with resident := false }
def emptyFeed : State := (ready .c).modCtx ⟨0, 0⟩ fun x => { x with fds := x.fds.set 2 (some ⟨0x100, 0, 0x2000, 4, 7, 7⟩) }
def shut : State := strm0 (ready .c) fun y => { y with arr := y.arr.set 1 (.gen 0) }

/-- HeldBackStalls, the wait slot: each premise at a state. -/
theorem witness_HeldBackStalls_slot :
    mine (holding (.rfill 3 0 0) (ready .c)) (waitObj (.filled 3)) = true ∧ mine (ready .c) (waitObj (.filled 3)) = false ∧
    ((ready .c).core 0).ring 3 = Ring.reset ∧ Ring.reset.nslot = 0 ∧
    ((ring3 ⟨1, 1, 1, 0, 4, 1, 0, [.taken], []⟩).core 0).ring 3 = ⟨1, 1, 1, 0, 4, 1, 0, [.taken], []⟩ ∧
    ((ring3 ⟨2, 0, 0, 0xFFFFFFFE, 4, 1, 0, [], []⟩).core 0).ring 3 = ⟨2, 0, 0, 0xFFFFFFFE, 4, 1, 0, [], []⟩ ∧
    4 ≤ ((2 : BitVec 32) - 0xFFFFFFFE).toNat ∧ shut.barOpen 0 0 .c (.ba 1) = false ∧ mine shut (waitObj (.openBA 1)) = false ∧
    (strm0 (ready .c) fun y => { y with arr := y.arr.set 24 (.gen 0) }).barOpen 0 0 .c (.db 8) = false ∧
    noResident.curSeq.resident = false ∧ mine noResident (waitObj (.fed 2)) = false ∧ emptyFeed.curSeq.resident = true ∧
    emptyFeed.feed ⟨0, 0⟩ 2 = some ⟨0x100, 0, 0x2000, 4, 7, 7⟩ ∧ (⟨0x100, 0, 0x2000, 4, 7, 7⟩ : Feed).count = 0 := by
  and_intros <;> first | decide +kernel | rfl

/-- An acquire load outstanding; a held store with .ar; an acquire whose writes are not performed; a QFENCE with SELF open. -/
def acquiring : State := strm0 (ready .c) fun y => { y with loads := [⟨3, 1, .x 9 .b, [0], [], [], some .c, [], 0, 0x1000, [], 0, 0, 0, none⟩] }
def arHeld : State := seq0 (ready .c) fun x => { x with held := [{ heldSt with ar := some .p }] }
def fenceSelf : State := core0 (strm0 (ready .c) fun y => { y with qf := some 5 }) fun k => { k with qfences := [⟨5, 0, none, some (0, .c)⟩] }
/-- Another sequencer holds a claim of ring 5. -/
def claiming : State := (ready .c).modSeq 0 1 fun x => { x with held := [{ heldSt with effs := [.rclaim 5] }] }
def lockUses : Uses := { shared := [.ringLock 5], lock := 101 }

/-- HeldBackStalls, what an issue has to wait for: each premise at a state. -/
theorem witness_HeldBackStalls_open :
    (ready .c).waitCond 0 0 .c .none = .ok true ∧ (∃ l ∈ acquiring.curStrm.loads, l.acq ≠ none) ∧ (∃ h ∈ arHeld.curSeq.held, h.strm = .c ∧ h.ar ≠ none) ∧
    (fenceSelf.curStrm.qf = some 5 ∧ ∃ f ∈ (fenceSelf.core 0).qfences, f.id = 5) ∧
    ({ src := [.x 9] } : Uses).regsFree acquiring.curStrm = false ∧
    mine (holding (.push .fq 5) (ready .c)) [.queue .fq] = true ∧ clashes lockUses.shared (claiming.core 0).heldObjs = true ∧
    mine claiming (lockUses.own ++ (lockUses.pops ++ lockUses.pushes).map Obj.queue) = false ∧ claiming.waitCond 0 0 .c .none = .ok true ∧
    lockUses.regsFree claiming.curStrm = true := by
  and_intros <;> first | decide +kernel | rfl | exact ⟨_, List.mem_singleton.mpr rfl, by decide⟩

/-- HeldBackStalls, queues: an empty one whose writer still runs, an orphan, a full one whose reader runs, and the pace of vector words. -/
def emptyBq : State := seq0 (ready .a) fun x => { x with c := { x.c with st := .run } }
def fullBq : State := seq0 (ready .c) fun x => { x with bq := x.bq.set 0 (List.replicate 16 (.val 0)), a := { x.a with st := .run } }
/-- A vector word of this sequencer issued in this very cycle. -/
def slowed : State := seq0 (ready .c) fun x => { x with lastVec := some 0 }

theorem witness_HeldBackStalls_queues :
    emptyBq.blocked 0 0 .a { src := [.bq 0] } = some (.stall 4) ∧ (ready .a).blocked 0 0 .a { src := [.bq 0] } = some (.trap ⟨6, qcodeNo (.bq 0), 0, 0⟩) ∧
    slowed.vecPace 0 0 = false ∧ (ready .c).vecPace 0 0 = true ∧
    fullBq.blocked 0 0 .c { dst := [.bq 0] } = some (.stall 4) ∧ (ready .c).blocked 0 0 .c { dst := [.bq 0] } = none := by
  and_intros <;> rfl

/-! ### Memory, matrix and copy words -/

/-- X2 at the first byte of the window, X3 at its last; X2 in page 0 of device memory; X2 in a page that has no entry; X2 at a page
whose table line cannot be corrected, or may not be read yet. -/
def atWindow : State := three 0xFFFFFFFFFFC00000 (-1) 0
def atPage : State := paged (three 0x1000 0 0)
def atHole : State := paged (three 0x10000000000 0 0)
def atBad : State := { atPage with lineGen := [(0, 2)] }
/-- Stage 2 has its root on die 1, whose clock die 0 has not reached. -/
def atWait : State := ((atPage.modSlice 0 fun x => { x with s2root := 0x2000000000 }).modDie 1 fun x => { x with vc := #v[0, 1, 0, 0] })

def runs (r : Except AErr (List VSeg × List Nat) × State) (p : List VSeg → State → Bool) : Bool :=
  match r with
  | (.ok (gs, _), t) => p gs t
  | _ => false
def faults (r : Except AErr (List VSeg × List Nat) × State) : Bool :=
  match r with
  | (.error (.fault _), _) => true
  | _ => false

/-- Uses of a load and of a store at X2. -/
def ldUses : Uses := { wait := .none, src := [(XReg.x 2).sop, XReg.xz.sop], dst := [.x 1] }
def stUses : Uses := { wait := .none, src := [.x 4, (XReg.x 2).sop, XReg.xz.sop] }
/-- A translated access of the running stream at X2 meets its older work, or does not. -/
def meetsOwn (s : State) : Bool :=
  runs (s.transAccess 0 (s.via (.x 2)) ⟨0, 0⟩ .r 0x1000 8) fun gs t => t.ownClash (gs.map (segObj (t.portOfCtx ⟨0, 0⟩)))
def storing (s : State) (bad meets : Bool) : Bool :=
  runs (s.transAccess 0 (s.via (.x 2)) ⟨0, 0⟩ .w 0x1000 8) fun gs t =>
    (t.badStore (dieOfCore 0) gs).isSome == bad && segsMeetLoads (t.strm 0 0 .c) gs == meets
/-- A held store of the byte at device address 0x1000. -/
def devStore : Eff := .stDev [⟨0x1000, 127, [some 1], none⟩] [] none

/-- An A-stream with the window's first byte in X2, its load owning PWDIST. -/
def windowA : State := setX (ready .a) 2 0xFFFFFFFFFFC00000

theorem witness_ScratchpadScalar_ports : atWindow.portUse = [] ∧ atPage.portUse = [] ∧ windowA.portUse = [.spr 2] ∧
    windowA.canIssue { ldUses with own := windowA.portUse } ∧ windowA.canIssue { stUses with own := windowA.portUse } ∧
    windowA.canIssue { wait := .none, src := [(XReg.x 2).sop, XReg.xz.sop], vdst := [.dq 1], own := windowA.portUse } := by
  and_intros <;> rfl

theorem witness_ScratchpadScalar :
    atWindow.canIssue ldUses ∧ inWindow (0xFFFFFFFFFFC00000 : Word).toNat = true ∧ inWindow (-1 : Word).toNat = true ∧
    (atWindow.core 0).sbHit 0 8 = false ∧ atWindow.ownClash [.spad 0 8] = false ∧
    (rowHeld atWindow).canIssue ldUses ∧ ((rowHeld atWindow).core 0).sbHit 0 8 = true ∧ ((rowHeld atWindow).core 0).sbHit (2 ^ 22 - 1) 8 = true ∧
    (holding (.stSpad 0 [some 1]) atWindow).canIssue ldUses ∧ (holding (.stSpad 0 [some 1]) atWindow).ownClash [.spad 0 8] = true ∧
    ((holding (.stSpad 0 [some 1]) atWindow).core 0).sbHit 0 8 = false ∧
    (loadOut 0x2000 atWindow).canIssue ldUses ∧ (loadOut 0x2000 atWindow).fenced 0 0 .c .p = false ∧
    atWindow.canIssue stUses ∧ (rowHeld atWindow).canIssue stUses ∧ (holding (.stSpad 0 [some 1]) atWindow).canIssue stUses := by
  and_intros <;> first | decide +kernel | rfl

theorem witness_TranslatedScalar : (atPage.core 0).ctxId = some ⟨0, 0⟩ ∧ inWindow 0x1000 = false ∧ inWindow 0x10000000000 = false ∧
    atPage.canIssue ldUses ∧ atPage.fenced 0 0 .c .p = true ∧ meetsOwn atPage = false ∧
    (holding devStore atPage).canIssue ldUses ∧ meetsOwn (holding devStore atPage) = true ∧
    atHole.canIssue ldUses ∧ faults (atHole.transAccess 0 (atHole.via (.x 2)) ⟨0, 0⟩ .r 0x10000000000 8) = true ∧
    atPage.canIssue stUses ∧ storing atPage false false = true ∧
    (badLine atPage).canIssue stUses ∧ storing (badLine atPage) true false = true ∧
    (loadOut 0x1000 atPage).canIssue stUses ∧ storing (loadOut 0x1000 atPage) false true = true ∧
    atHole.canIssue stUses ∧ faults (atHole.transAccess 0 (atHole.via (.x 2)) ⟨0, 0⟩ .w 0x10000000000 8) = true := by
  and_intros <;> first | decide +kernel | rfl

/-- Page 0 is in the TLB. -/
def inTlb : State := core0 (three 0x1000 0 0) fun k => { k with tlb := [⟨⟨0, 0⟩, 0, 1, 1, ⟨.dev, 32, true, true, true, 0, 0, 127, false⟩⟩] }
def walked (s : State) (va : Nat) (p : Except TErr Walked → Bool) : Bool := p (s.walkFill 0 ⟨0, 0⟩ va).1

/-- A page in the TLB that grants fetches only, and a walk that ends at such a page. -/
def fetchOnly : State := core0 (three 0x1000 0 0) fun k =>
  { k with tlb := [⟨⟨0, 0⟩, 0, 1, 1, ⟨.dev, 32, false, false, true, 0, 0, 127, false⟩⟩] }
def noLoads : State :=
  { paged (three 0x1000 0 0) with dies := (paged (three 0x1000 0 0)).dies.map fun x => { x with view := tblSet 0 x.view 0 0x11 } }

theorem witness_ProbeAnswers_refused :
    ((fetchOnly.core 0).tlbFind ⟨0, 0⟩ 0x1000).map (fun t => (t.r, t.w)) = some (false, false) ∧ fetchOnly.canIssue ldUses ∧
    noLoads.canIssue ldUses ∧ (noLoads.core 0).tlbFind ⟨0, 0⟩ 0x1000 = none ∧
    walked noLoads 0x1000 (fun | .ok p => !(bitOf p.e1 2 && bitOf p.l.e 2) && !p.t.w | _ => false) = true := by
  and_intros <;> first | decide +kernel | rfl

theorem witness_ProbeAnswers :
    atWindow.canIssue ldUses ∧ inTlb.canIssue ldUses ∧ atPage.canIssue ldUses ∧ atHole.canIssue ldUses ∧ atBad.canIssue ldUses ∧
    atWait.canIssue ldUses ∧
    0xFFFFFFFFFFC00000 ≤ (0xFFFFFFFFFFC00000 : Word).toNat ∧ 0xFFFFFFFFE0000000 ≤ 0xFFFFFFFFEFFFFFFF ∧
    2 ^ 52 < 0xFFFFFFFFE0000000 ∧ 0xFFFFFFFFF0000000 < 0xFFFFFFFFFFC00000 ∧ 0x10000000000 < 2 ^ 52 ∧
    (inTlb.core 0).ctxId = some ⟨0, 0⟩ ∧ ((inTlb.core 0).tlbFind ⟨0, 0⟩ 0x1000).isSome = true ∧
    (atHole.core 0).tlbFind ⟨0, 0⟩ 0x10000000000 = none ∧
    walked atPage 0x1000 (fun | .ok _ => true | _ => false) = true ∧
    walked atHole 0x10000000000 (fun | .error (.fault _ _) => true | _ => false) = true ∧
    walked atWait 0x1000 (fun | .error .wait => true | _ => false) = true ∧
    walked atBad 0x1000 (fun | .error .bad => true | _ => false) = true := by
  and_intros <;> first | decide +kernel | rfl

/-- Uses of a vector load and of a vector store at X2. -/
def vldUses : Uses := { wait := .none, src := [(XReg.x 2).sop, XReg.xz.sop], vdst := [.v 1] }
def vstUses : Uses := { wait := .none, src := [(XReg.x 2).sop, XReg.xz.sop], vsrc := [.v 1] }
def laneSpads (s : State) : List Obj := (lanesOf (s.curSeq.getK 0)).map fun i => .spad ((0 + 4 * i) % 2 ^ 22) 4

theorem witness_ScratchpadVector :
    atWindow.canIssue vldUses ∧ inWindow (0xFFFFFFFFFFC00000 : Word).toNat = true ∧
    (∀ i, i < 32 → (atWindow.curSeq.getK 0).getLsbD i = true → (atWindow.core 0).sbHit ((0 + 4 * i) % 2 ^ 22) 4 = false) ∧
    atWindow.ownClash (laneSpads atWindow) = false ∧
    (rowHeld atWindow).canIssue vldUses ∧ ((rowHeld atWindow).curSeq.getK 0).getLsbD 31 = true ∧
    ((rowHeld atWindow).core 0).sbHit (4 * 31) 4 = true ∧
    (holding (.stSpad 0 [some 1]) atWindow).canIssue vldUses ∧ (holding (.stSpad 0 [some 1]) atWindow).ownClash (laneSpads atWindow) = true ∧
    atWindow.canIssue vstUses ∧ (rowHeld atWindow).canIssue vstUses ∧ (holding (.stSpad 0 [some 1]) atWindow).canIssue vstUses := by
  and_intros <;> first | decide +kernel | rfl

/-- The lanes of a vector access at an address, and what the lanes come to. -/
def lanesAt (s : State) (n : Need) (ea : Nat) : LaneTrans × State :=
  s.transLanes 0 (s.via (.x 2)) ⟨0, 0⟩ n ((lanesOf (s.curSeq.getK 0)).map fun i => (i, ea + 4 * i))
def laneRuns (p : LaneTrans × State) : List VSeg := p.1.segs.map (·.2)
def lanesMeet (p : LaneTrans × State) : Bool := p.2.ownClash (p.1.segs.map fun g => segObj (p.2.portOfCtx ⟨0, 0⟩) g.2)
def vstoring (p : LaneTrans × State) (bad meets : Bool) : Bool :=
  p.1.errs.isEmpty && !p.1.segs.isEmpty && (p.2.badStore (dieOfCore 0) (laneRuns p)).isSome == bad &&
    segsMeetLoads (p.2.strm 0 0 .c) (laneRuns p) == meets

theorem witness_TranslatedVector : (atPage.core 0).ctxId = some ⟨0, 0⟩ ∧ atPage.curSeq.getK 0 ≠ 0 ∧ inWindow 0x1000 = false ∧
    atPage.canIssue vldUses ∧ (lanesAt atPage .r 0x1000).1.errs = [] ∧ (lanesAt atPage .r 0x1000).1.segs ≠ [] ∧
    lanesMeet (lanesAt atPage .r 0x1000) = false ∧
    (holding devStore atPage).canIssue vldUses ∧ lanesMeet (lanesAt (holding devStore atPage) .r 0x1000) = true ∧
    atHole.canIssue vldUses ∧ (laneFail (lanesAt atHole .r 0x10000000000).1.errs).isSome = true ∧
    (lanesAt atHole .r 0x10000000000).1.segs = [] ∧
    (lanesAt atHole .r 0x10000000000).1.errs.filter (fun e => !(decide (e.2.cause = 1) || decide (e.2.cause = 2) || decide (e.2.cause = 5))) = [] ∧
    atPage.canIssue vstUses ∧ vstoring (lanesAt atPage .w 0x1000) false false = true ∧
    (badLine atPage).canIssue vstUses ∧ vstoring (lanesAt (badLine atPage) .w 0x1000) true false = true ∧
    (loadOut 0x1000 atPage).canIssue vstUses ∧ vstoring (lanesAt (loadOut 0x1000 atPage) .w 0x1000) false true = true ∧
    atHole.canIssue vstUses ∧ (laneFail (lanesAt atHole .w 0x10000000000).1.errs).isSome = true := by
  and_intros <;> first | decide +kernel | rfl

/-- Uses of a gather and of a scatter at X2 over the pair 5. -/
def gatUses : Uses := { wait := .none, src := [(XReg.x 2).sop], vsrc := [.v (pairHi 5)], vdst := [.v (pairLo 5)] }
def scaUses : Uses := { wait := .none, src := [(XReg.x 2).sop], vsrc := [.v (pairLo 5), .v (pairHi 5)] }
def lanePlaceOf (s : State) (base : Word) (i : Nat) : Word :=
  base + (BitVec.ofNat 32 (elemOf 32 i (s.curSeq.getV (pairHi 5)).toNat)).signExtend 64
def allLanes (s : State) (base : Word) : List Obj :=
  (lanesOf (s.curSeq.getK 0)).map fun i => .spad ((lanePlaceOf s base i).toNat % 2 ^ 22) 4
/-- The lanes of the pair all lie at X2, which is no place of the window. -/
def gatAt (s : State) (n : Need) (ea : Nat) : LaneTrans × State :=
  s.transLanes 0 .tlb ⟨0, 0⟩ n ((lanesOf (s.curSeq.getK 0)).map fun i => (i, ea))

theorem witness_ScratchpadGather :
    atWindow.canIssue gatUses ∧ atWindow.canIssue scaUses ∧
    (∀ i, i < 32 → (atWindow.curSeq.getK 0).getLsbD i = true → inWindow (lanePlaceOf atWindow 0xFFFFFFFFFFC00000 i).toNat = true ∧
      (atWindow.core 0).sbHit ((lanePlaceOf atWindow 0xFFFFFFFFFFC00000 i).toNat % 2 ^ 22) 4 = false) ∧
    atWindow.ownClash (allLanes atWindow 0xFFFFFFFFFFC00000) = false ∧
    (rowHeld atWindow).canIssue gatUses ∧ (rowHeld atWindow).canIssue scaUses ∧ ((rowHeld atWindow).core 0).sbHit 0 4 = true ∧
    (holding (.stSpad 0 [some 1]) atWindow).canIssue gatUses ∧ (holding (.stSpad 0 [some 1]) atWindow).canIssue scaUses ∧
    (holding (.stSpad 0 [some 1]) atWindow).ownClash (allLanes atWindow 0xFFFFFFFFFFC00000) = true ∧
    atPage.canIssue gatUses ∧ inWindow (lanePlaceOf atPage 0x1000 0).toNat = false ∧ (gatAt atPage .r 0x1000).1.errs = [] ∧
    (gatAt atPage .r 0x1000).1.segs ≠ [] ∧ lanesMeet (gatAt atPage .r 0x1000) = false ∧
    (holding devStore atPage).canIssue gatUses ∧ lanesMeet (gatAt (holding devStore atPage) .r 0x1000) = true ∧
    atHole.canIssue gatUses ∧ (pickErr ((gatAt atHole .r 0x10000000000).1.errs.map (·.2))).isSome = true := by
  and_intros <;> first | decide +kernel | rfl

theorem witness_ScratchpadGather_scatter :
    atPage.canIssue scaUses ∧ vstoring (gatAt atPage .w 0x1000) false false = true ∧
    (badLine atPage).canIssue scaUses ∧ vstoring (gatAt (badLine atPage) .w 0x1000) true false = true ∧
    (loadOut 0x1000 atPage).canIssue scaUses ∧ vstoring (gatAt (loadOut 0x1000 atPage) .w 0x1000) false true = true ∧
    atHole.canIssue scaUses ∧ (pickErr ((gatAt atHole .w 0x10000000000).1.errs.map (·.2))).isSome = true := by
  and_intros <;> first | decide +kernel | rfl

/-- A command of tile 0 in the front slot; a load that will write tile 0; a sequencer that holds the Cinch. -/
def mcmd : MCmd := ⟨1, 0, 0, 0, 1, false, 0x1100, [⟨0, 63, 32⟩], 0, 0, [], 0, [], none, [], [], false⟩
def inFront (s : State) : State := core0 s fun k => { k with front := some mcmd }
def tileHeld (s : State) : State := holding (.tile 0 []) s
def holder (n : Nat) (fq : List (QEnt Word)) : State :=
  core0 (seq0 (three 0 0 0) fun x => { x with fq := fq }) fun k => { k.setCinch 0 .hold with cinchN := n }
def slotsFull : State := core0 (holder 2 []) fun k => { k with front := some mcmd, shadow := some mcmd }

/-- Uses of the words that move a whole tile. -/
def mwrUses : Uses := { wait := .none, src := [(XReg.x 2).sop], shared := [.tile 0] }
def mrdUses : Uses := { wait := .none, src := [(XReg.x 2).sop, XReg.xz.sop], own := [.tile 0, .spr 3] }
def saveUses : Uses := { wait := .none, src := [(XReg.x 2).sop], own := [.tile 0] }

theorem witness_CinchAndTileWords :
    (ready .c).canIssue { wait := .none } ∧
    Core.reset.cinchOf 0 = .free ∧ (Core.reset.setCinch 0 .hold).cinchOf 0 ≠ .free ∧ (1 : SeqId) ≠ 0 ∧
    (ready .c).canIssue { wait := .none, shared := [.tile 31] } ∧ ((ready .c).core 0).tileIdle 31 = true ∧
    (inFront (ready .c)).canIssue { wait := .none, shared := [.tile 0] } ∧ ((inFront (ready .c)).core 0).tileIdle 0 = false ∧
    ((ready .c).core 0).tileOwned 0 = false ∧ (inFront (ready .c)).canIssue { wait := .none } ∧ ((inFront (ready .c)).core 0).tileOwned 0 = true ∧
    (ready .c).canIssue (scalarUses .none .fq [(XReg.x 2).sop]) := by
  and_intros <;> first | decide +kernel | rfl

theorem witness_CinchAndTileWords_moves :
    atWindow.canIssue mwrUses ∧ (atWindow.core 0).tileIdle 0 = true ∧ (atWindow.core 0).sbHit 0 16384 = false ∧
    atWindow.ownClash [.spad 0 16384] = false ∧ (inFront atWindow).canIssue mwrUses ∧ ((inFront atWindow).core 0).tileIdle 0 = false ∧
    (rowHeld atWindow).canIssue mwrUses ∧ ((rowHeld atWindow).core 0).sbHit 0 16384 = true ∧ ((rowHeld atWindow).core 0).tileIdle 0 = true ∧
    (holding (.stSpad 0 [some 1]) atWindow).canIssue mwrUses ∧ (holding (.stSpad 0 [some 1]) atWindow).ownClash [.spad 0 16384] = true ∧
    atWindow.canIssue mrdUses ∧ (atWindow.core 0).tileBusy 0 = false ∧ (atWindow.core 0).tileOwned 0 = false ∧
    ((tileHeld atWindow).core 0).tileBusy 0 = true ∧ (rowHeld atWindow).canIssue mrdUses ∧ ((rowHeld atWindow).core 0).tileBusy 0 = false ∧
    (holding (.stSpad 0 [some 1]) atWindow).canIssue mrdUses ∧
    (inFront atWindow).canIssue mrdUses ∧ ((inFront atWindow).core 0).tileOwned 0 = true ∧ ((inFront atWindow).core 0).tileBusy 0 = false := by
  and_intros <;> first | decide +kernel | rfl

/-- A shape record of one segment, rows 0 to 63 of length 32, at offset 0. -/
def shaped : State := core0 (holder 2 [.val 0x1100]) fun k => { k with spad := [(0, 1), (9, 63), (10, 32)] }
def mmaUses : Uses := { wait := .none, src := [(XReg.x 2).sop, (XReg.x 3).sop], own := [.queue .fq, .cinch] }
def mmasUses : Uses := { wait := .none, src := [(XReg.x 2).sop, (XReg.x 3).sop, (XReg.x 4).sop], own := [.queue .fq, .cinch] }
/-- A load of the C-stream whose value will be pushed into FQ. -/
def fqOnItsWay : State := seq0 (holder 2 [.rsv 3]) fun x => { x with c := { x.c with
  loads := [⟨3, 1, .q .fq .d, [0], [], [], none, [], 0, 0x1000, [], 0, 0, 0, none⟩] } }

/-- An A-stream push of FQ that is held. -/
def fqHeld : State := seq0 (holder 2 []) fun x => { x with held := [{ heldSt with strm := .a, effs := [.push .fq 5] }] }
/-- A command of no beats: its rows have length 0. -/
def noBeats : MCmd := { mcmd with shape := [⟨0, 63, 0⟩] }

theorem witness_TileCommands_noBeats :
    ((holder 2 []).core 0).cinchOf noBeats.seq = .hold ∧ ((holder 2 []).core 0).front = none ∧ ((holder 2 []).core 0).shadow = none ∧
    noBeats.beats = 0 ∧ noBeats.work = [] ∧ ((holder 2 []).core 0).qfences = [] ∧ ((holder 2 []).core 0).tileBusy noBeats.atd = false ∧
    tblWf 0 ((holder 2 []).core 0).tiles = true ∧ ((ready .c).core 0).cinchOf 0 ≠ .hold ∧ (ready .c).mayIssue 0 = true := by
  and_intros <;> first | decide +kernel | rfl

theorem witness_TileCommands :
    (ready .c).canIssue mmaUses ∧ (ready .c).canIssue mmasUses ∧ ((ready .c).core 0).cinchOf 0 ≠ .hold ∧
    (holder 0 []).canIssue mmaUses ∧ ((holder 0 []).core 0).cinchOf 0 = .hold ∧ ((holder 0 []).core 0).cinchN = 0 ∧
    slotsFull.canIssue mmaUses ∧ slotsFull.canIssue mmasUses ∧ 2 ≤ (slotsFull.core 0).slotsUsed ∧ 0 < (slotsFull.core 0).cinchN ∧
    (holder 2 []).canIssue mmaUses ∧ (holder 2 []).canIssue mmasUses ∧ ((holder 2 []).core 0).slotsUsed < 2 ∧
    (holder 2 []).curSeq.fq = [] ∧ (holder 2 []).curSeq.held = [] ∧
    (holder 2 [.val 0]).canIssue mmaUses ∧ frontVals (holder 2 [.val 0]).curSeq.fq = [0] ∧ fwCause 0 ≠ 0 ∧
    (holder 2 [.val 0x1100]).canIssue mmaUses ∧ frontVals (holder 2 [.val 0x1100]).curSeq.fq = [0x1100] ∧ fwCause 0x1100 = 0 := by
  and_intros <;> first | decide +kernel | rfl

theorem witness_TileCommands_record :
    fqOnItsWay.canIssue mmaUses ∧ frontVals fqOnItsWay.curSeq.fq = [] ∧ fqOnItsWay.curSeq.fq ≠ [] ∧
    fqHeld.canIssue mmaUses ∧ frontVals fqHeld.curSeq.fq = [] ∧ (∃ h ∈ fqHeld.curSeq.held, ∃ e ∈ h.effs, .queue .fq ∈ e.objs 0) ∧
    shaped.canIssue mmasUses ∧ (shaped.core 0).shapeHeld 0 = false ∧ shaped.ownClash [.spad 0 ((shaped.core 0).shapeLen 0)] = false ∧
    (rowHeld shaped).canIssue mmasUses ∧ ((rowHeld shaped).core 0).shapeHeld 0 = true ∧
    (holding (.stSpad 0 [some 1]) shaped).canIssue mmasUses ∧
    (holding (.stSpad 0 [some 1]) shaped).ownClash [.spad 0 ((shaped.core 0).shapeLen 0)] = true ∧
    mcmd.xs = none ∧ ({ mcmd with xs := some 0 } : MCmd).xs = some 0 ∧
    ((shaped.modSeq 0 0 (·.popQ .fq)).core 0).shapeRec 0 = some [⟨0, 63, 32⟩] ∧ (((holder 2 []).modSeq 0 0 (·.popQ .fq)).core 0).shapeRec 0 = none ∧
    (shaped.core 0).cinchOf mcmd.seq = .hold ∧ (shaped.core 0).front = none ∧ 0 < mcmd.beats ∧
    ((inFront shaped).core 0).front = some mcmd := by
  and_intros <;> first | decide +kernel | rfl

theorem witness_ShapeRecords : (shaped.core 0).shapeRec 0 = some [⟨0, 63, 32⟩] := by decide +kernel

/-- Page 0 is in the TLB as a page of host memory. -/
def hostPage : State := core0 (three 0x1000 0 0) fun k => { k with tlb := [⟨⟨0, 0⟩, 0, 1, 1, ⟨.host, 32, true, true, true, 0, 0, 0, false⟩⟩] }
def saving (s : State) (bad meets : Bool) : Bool :=
  runs (s.transAccess 0 .tlb ⟨0, 0⟩ .w 0x1000 32768) fun gs t =>
    (t.badStore (dieOfCore 0) gs).isSome == bad && segsMeetLoads (t.strm 0 0 .c) gs == meets
def loadingTile (s : State) (meets : Bool) : Bool :=
  runs (s.transAccess 0 .tlb ⟨0, 0⟩ .r 0x1000 32768) fun gs t => t.ownClash (gs.map (segObj (t.portOfCtx ⟨0, 0⟩))) == meets

theorem witness_TileSaveLoad :
    atWindow.canIssue saveUses ∧ (atWindow.core 0).tileBusy 0 = false ∧ (atWindow.core 0).tileOwned 0 = false ∧
    ((tileHeld atWindow).core 0).tileBusy 0 = true ∧ (inFront atWindow).canIssue saveUses ∧ ((inFront atWindow).core 0).tileBusy 0 = false ∧
    ((inFront atWindow).core 0).tileOwned 0 = true ∧ inWindow (0xFFFFFFFFFFC00000 : Word).toNat = true ∧ inWindow 0x1000 = false ∧
    (atWindow.core 0).sbHit 0 32768 = false ∧ atWindow.ownClash [.spad 0 32768] = false ∧
    (rowHeld atWindow).canIssue saveUses ∧ ((rowHeld atWindow).core 0).sbHit 0 32768 = true ∧
    (holding (.stSpad 0 [some 1]) atWindow).canIssue saveUses ∧ (holding (.stSpad 0 [some 1]) atWindow).ownClash [.spad 0 32768] = true ∧
    hostPage.canIssue saveUses ∧ (hostPage.core 0).ctxId = some ⟨0, 0⟩ ∧ saving hostPage false false = true ∧
    atPage.canIssue saveUses ∧ (loadOut 0x1000 inTlb).canIssue saveUses ∧
    faults (atHole.transAccess 0 .tlb ⟨0, 0⟩ .w 0x10000000000 32768) = true := by
  and_intros <;> first | decide +kernel | rfl

/-- A reader whose key slot is empty sees every byte. -/
theorem readBytes_noKey (s : State) (d : DieId) (key : Nat) (h : s.keyGen key = none) (n pa : Nat) : (s.readBytes d key pa n).isSome = true := by
  induction n generalizing pa with
  | zero => rfl
  | succ n ih =>
    have hb : ∃ b, s.readByte d key pa = some b := by
      unfold State.readByte
      split
      · exact ⟨_, rfl⟩
      · rw [h]; exact ⟨_, rfl⟩
    obtain ⟨b, hb⟩ := hb
    obtain ⟨bs, hbs⟩ := Option.isSome_iff_exists.mp (ih (pa + 1))
    simp only [State.readBytes, hb, hbs, Option.isSome_some]

/-- A page of device memory whose bytes an older load of the stream still reads. -/
def savePage : VSeg := ⟨0x1000, 32768, ⟨.dev, 0, true, true, true, 0, 0, 127, true⟩⟩
theorem witness_TileSaveLoad_meets :
    (loadOut 0x1000 inTlb).transAccess 0 .tlb ⟨0, 0⟩ .w 0x1000 32768 = (.ok ([savePage], []), loadOut 0x1000 inTlb) ∧
      segsMeetLoads ((loadOut 0x1000 inTlb).strm 0 0 .c) [savePage] = true := ⟨rfl, by decide +kernel⟩
theorem witness_TileSaveLoad_meets_good : (loadOut 0x1000 inTlb).badStore (dieOfCore 0) [savePage] = none := by
  have h := readBytes_noKey (loadOut 0x1000 inTlb) (dieOfCore 0) savePage.t.keyId rfl savePage.n savePage.addr
  unfold State.badStore
  rw [List.find?_cons_of_neg]
  · rfl
  · revert h
    cases (loadOut 0x1000 inTlb).readBytes (dieOfCore 0) savePage.t.keyId savePage.addr savePage.n with
    | none => intro h; cases h
    | some b => intro _; simp

/-- A copy of 128 bytes within the scratchpad, one with a length that has a bit above 31, and a full queue. -/
def copies : State := three 0xFFFFFFFFFFC00000 0xFFFFFFFFFFC01000 128
def queueFull : State := core0 copies fun k => { k with cqs := k.cqs.set 2 ⟨List.replicate 32 (.cmd { copyCmd with rows := [] }), none⟩ }

theorem witness_CopyWords :
    (let u : Uses := { wait := .none, src := [(XReg.x 2).sop, (XReg.x 3).sop, (XReg.x 4).sop, XReg.xz.sop] }
     copies.canIssue u ∧ queueFull.canIssue u) ∧
    (let m (n : Word) : CopyCmd := ⟨.copy, .add, .f32, none, 0, 0xFFFFFFFFFFC00000, 0xFFFFFFFFFFC01000, n, 0, 0, none, [], none, []⟩
     copies.copyCause 0 (m 0x100000080) ≠ 0 ∧ copies.copyCause 0 (m 128) = 0 ∧
     (copies.core 0).copyRoom 2 (!(copies.copyRows 0 (m 128)).isEmpty) = true ∧
     queueFull.copyCause 0 (m 128) = 0 ∧ (queueFull.core 0).copyRoom 2 (!(queueFull.copyRows 0 (m 128)).isEmpty) = false) :=
  ⟨⟨⟨rfl, rfl⟩, ⟨rfl, rfl⟩⟩, by decide +kernel, by decide +kernel, by decide +kernel, by decide +kernel, by decide +kernel⟩

/-! ### Queue, ring, counter, tag and system words -/

/-- DQ0 of a C-stream's group has a landed entry. -/
def popDq : State := seq0 (ready .c) fun x => { x with dq := x.dq.set 0 [.val 7] }
/-- A feed queue of four records at 0x2000 with two indices; the head record's deadline and launch counter. -/
def fed (fw fr : Nat) (dl launch : Byte) : State :=
  (laid (laid (paged (three 0x1000 0 0)) 0x2020 [dl]) 0x2030 [0, launch]).modCtx ⟨0, 0⟩ fun x =>
    { x with fds := x.fds.set 2 (some ⟨0x100, 0, 0x2000, 4, fw, fr⟩) }
/-- Another core of the context holds a pop of the feed queue. -/
def fedLocked : State := holding (.feedPop 2) (fed 1 0 0 0)

theorem witness_QueueAndFeedWords :
    (ready .c).canIssue (scalarUses .none (.bq 3) [(XReg.x 5).sop]) ∧ (ready .c).canIssue (scalarUses .none .fq [XReg.xz.sop]) ∧
    (ready .a).canIssue { wait := .none, src := [(XReg.x 5).sop], vdst := [.dq 7] } ∧
    popReady.canIssue (scalarUses .none (XReg.x 5).sop [.bq 0]) ∧
    popDq.canIssue { wait := .none, vsrc := [.dq 0], dst := [(XReg.x 5).sop] } ∧
    (ready .c).canIssue { wait := .none, dst := [(XReg.x 5).sop], own := [.queue .fq] } ∧
    (ready .c).canIssue { wait := .none, own := ((List.finRange 8).filter fun n => (0x81 : BitVec 8).getLsbD n.val).map Obj.cq ++ [.cinch] } := by
  and_intros <;> first | decide +kernel | rfl

def feedRead (s : State) (p : Except Res (List Byte) → Bool) : Bool := p (s.wordRead .tlb ⟨0, 0⟩ 0x1000 64).1
def popUses : Uses := { wait := .none, dst := (List.range 8).map fun i => .x (Fin.ofNat 64 (56 + i)), own := [.feed 2] }

theorem witness_QueueAndFeedWords_feed :
    (fed 1 0 0 0).canIssue { wait := .none, src := [(XReg.x 2).sop] } ∧ (fed 1 0 0 0).curFeed 3 = none ∧
    (fed 1 0 0 0).curFeed 2 = some (⟨0, 0⟩, ⟨0x100, 0, 0x2000, 4, 1, 0⟩) ∧ (⟨0x100, 0, 0x2000, 4, 1, 0⟩ : Feed).count < 4 ∧
    (fed 4 0 0 0).curFeed 2 = some (⟨0, 0⟩, ⟨0x100, 0, 0x2000, 4, 4, 0⟩) ∧ 4 ≤ (⟨0x100, 0, 0x2000, 4, 4, 0⟩ : Feed).count ∧
    feedRead (fed 1 0 0 0) (fun | .ok _ => true | _ => false) = true ∧
    feedRead ((fed 1 0 0 0).modCtx ⟨0, 0⟩ fun x => { x with root := 0x8000 }) (fun | .error _ => true | _ => false) = true ∧
    (fed 1 0 0 0).canIssue popUses ∧ (fed 1 0 0 0).feedLocked ⟨0, 0⟩ 2 = false ∧ fedLocked.feedLocked ⟨0, 0⟩ 2 = true ∧
    ((fed 0 0 0 0).feedLive ⟨0, 0⟩ 2 1).1 = none ∧ ((fed 1 0 0 0).feedLive ⟨0, 0⟩ 2 2).1.isSome = true ∧
    (fed 1 0 0 0).canIssue { wait := .none, dst := [(XReg.x 5).sop] } := by
  and_intros <;> first | decide +kernel | rfl

/-- The head record of the feed queue is late, with a launch counter or none. -/
def lateHead (launch : Byte) : State := { fed 1 0 1 launch with girth := 1 }
def headOf (s : State) (p : List Byte → Bool) : Bool :=
  match s.feedHead ⟨0, 0⟩ ⟨0x100, 0, 0x2000, 4, 1, 0⟩ with
  | .ok bs => p bs
  | _ => false

theorem witness_QueueAndFeedWords_late :
    (lateHead 0x10).feed ⟨0, 0⟩ 2 = some ⟨0x100, 0, 0x2000, 4, 1, 0⟩ ∧ (fed 0 0 0 0).feed ⟨0, 0⟩ 2 = some ⟨0x100, 0, 0x2000, 4, 0, 0⟩ ∧
    headOf (lateHead 0x10) (fun bs => decide (wordAt bs 0x20 ≠ 0 ∧ wordAt bs 0x20 ≤ ((lateHead 0x10).ctxGirth ⟨0, 0⟩).toNat ∧ wordAt bs 0x30 ≠ 0)) = true ∧
    headOf (lateHead 0) (fun bs => decide (wordAt bs 0x30 = 0)) = true ∧
    headOf (fed 1 0 1 0) (fun bs => decide ((((fed 1 0 1 0).ctxGirth ⟨0, 0⟩).toNat < wordAt bs 0x20))) = true ∧
    (match (lateHead 0x10).feedTake ⟨0, 0⟩ 2 ⟨0x100, 0, 0x2000, 4, 1, 0⟩ with | (.ok _, _) => true | _ => false) = true := by decide +kernel

/-- RG5 with four slots of two rows at row 512, its indices and the states of its slots; X2 names slot 0, X3 no address of it. -/
def ringed (r : Ring) : State := core0 (three 0xFFFFFFFFFFC10000 0 0) fun k => { k with rings := k.rings.set 5 r }
def ringOf (clm pub tkn fre : BitVec 32) (st : List SlotSt) : Ring := ⟨clm, pub, tkn, fre, 4, 2, 512, st, []⟩
def claimUses (kind : Nat) : Uses := { wait := .none, dst := [(XReg.x 1).sop], own := [.ring 5], shared := [.ringLock 5], lock := 100 + kind }

/-- Only the A-stream holds effects, a fill of ring 5 among them: the C-stream sees neither ring nor tags of them. -/
def siblingHolds : State := seq0 (ringed (ringOf 1 0 0 0 [.claimed])) fun x => { x with held := [{ heldSt with strm := .a, effs := [.rfill 5 0 0] }] }

theorem witness_RingWords_sibling : siblingHolds.cur.strm = .c ∧ siblingHolds.curSeq.held ≠ [] ∧
    (∀ h ∈ siblingHolds.curSeq.held, h.strm ≠ siblingHolds.cur.strm) ∧ (siblingHolds.core 0).ring 5 = ringOf 1 0 0 0 [.claimed] := by
  and_intros <;> first | decide +kernel | rfl

theorem witness_RingWords :
    (ready .c).canIssue (claimUses 2) ∧ (ready .c).canIssue (claimUses 1) ∧ (ringed (ringOf 0 0 0 0 [])).canIssue (claimUses 2) ∧
    (ringed (ringOf 0 0 0 0 [])).ringSeen 5 = ringOf 0 0 0 0 [] ∧ (ready .c).curSeq.held = [] ∧
    Ring.reset.nslot = 0 ∧ (ringOf 0 0 0 0 []).nslot ≠ 0 ∧ (ringOf 4 0 0 0 []).nslot ≤ ((4 : BitVec 32) - 0).toNat ∧
    ((3 : BitVec 32) - 0).toNat < (ringOf 3 0 0 0 []).nslot ∧ (ringOf 1 1 1 0 []).pub = (ringOf 1 1 1 0 []).tkn ∧
    (ringOf 1 1 0 0 []).pub ≠ (ringOf 1 1 0 0 []).tkn ∧ (ringed (ringOf 1 0 0 0 [.claimed])).canIssue { wait := .none, src := [(XReg.x 2).sop] } ∧
    (ringOf 1 0 0 0 [.claimed]).locate 0xFFFFFFFFFFC10000 = some 0 ∧ (ringOf 1 0 0 0 [.claimed]).locate 0xFFFFFFFFFFC103FF = some 3 ∧
    (ringOf 1 0 0 0 [.claimed]).locate 0xFFFFFFFFFFC10400 = none ∧ (ringOf 1 0 0 0 [.claimed]).state 0 = .claimed ∧
    (ringOf 1 1 1 0 [.taken]).state 0 = .taken := by
  and_intros <;> first | decide +kernel | rfl

theorem witness_RingIndicesStayInOrder :
    (let r := ringOf 2 1 1 0xFFFFFFFF [.claimed, .claimed]
     (r.clm - r.fre).toNat ≤ r.nslot ∧ (r.pub - r.fre).toNat ≤ (r.clm - r.fre).toNat ∧ (r.tkn - r.fre).toNat ≤ (r.pub - r.fre).toNat ∧
       r.nslot ≤ 256 ∧ r.free = true ∧ 3 < r.nslot) ∧
    (ringOf 1 1 0 0 [.filled]).filled = true := by decide

theorem witness_CounterAndBarrierWords :
    (ready .c).canIssue { wait := .none, src := [(XReg.x 8).sop, XReg.xz.sop] } ∧ (ready .c).canIssue { wait := .none } ∧
    (ready .c).canIssue { wait := .none, src := [(XReg.x 8).sop] } ∧ (ready .c).canIssue { wait := .none, own := [.bar (.ba 1)] } ∧
    (ready .c).barOpen 0 0 .c (.ba 1) = true ∧
    (let s := strm0 (ready .c) fun y => { y with arr := y.arr.set 1 (.gen 0) }
     s.canIssue { wait := .none, own := [.bar (.ba 1)] } ∧ s.barOpen 0 0 .c (.ba 1) = false) ∧
    (let b : Barrier := ⟨0, 2, 4, []⟩
     b.arr < b.n ∧ b.arr + 1 < b.n ∧ b.arr < 4 ∧ 2 ≤ b.arr) ∧
    (let b : Barrier := ⟨0, 3, 4, []⟩
     b.arr < b.n ∧ b.arr + 1 = b.n) :=
  ⟨⟨rfl, rfl⟩, ⟨rfl, rfl⟩, ⟨rfl, rfl⟩, ⟨rfl, rfl⟩, by decide, ⟨⟨rfl, rfl⟩, by decide⟩, by decide, by decide⟩

/-- Key 5 with slot 9 in the tag table, whose sets have one way; another sequencer's TEVC on the set of key 5. -/
def tagged (a b : Word) : State := core0 (three a b 0) fun k => k.tagInsert 5 9
def tagLocked : State := (three 5 9 0).modSeq 0 1 fun x => { x with held := [{ heldSt with effs := [.tevc (tagSetOf 1 5) 0] }] }
def tagUses : Uses := { wait := .none, src := [(XReg.x 2).sop], dst := [.x 1] }
def insUses : Uses := { wait := .none, src := [(XReg.x 2).sop, (XReg.x 3).sop] }
/-- A key that shares the set of key 5. -/
def twin : BitVec 48 := 5 + 0x1001000

theorem witness_TagWords :
    (three 5 9 0).curSeq.held = [] ∧ (tagged 5 9).canIssue tagUses ∧ (three 5 9 0).canIssue tagUses ∧ tagLocked.canIssue tagUses ∧
    ((tagged 5 9).tagSeen.tagFind 5).isSome = true ∧ (three 5 9 0).tagSeen.tagFind 5 = none ∧
    (tagged 5 9).tagLocked 5 = false ∧ tagLocked.tagLocked 5 = true ∧
    (three 5 9 0).tagSeen.tagFree (tagSetOf 1 5) ≠ none ∧ (tagged 5 9).tagSeen.tagFree (tagSetOf 1 5) = none ∧
    (mapGet (tagged 5 9).tagSeen.tagPtr (tagSetOf 1 5)).getD 0 = 0 ∧ (mapGet (tagged 5 9).tagSeen.tags (tagSetOf 1 5 * 1 + 0)).isSome = true ∧
    (three 5 0xFFFF 0).canIssue insUses ∧ (three 5 9 0).canIssue insUses ∧ (tagged (twin.setWidth 64) 9).canIssue insUses ∧
    tagSetOf 1 twin = tagSetOf 1 5 ∧ (tagged (twin.setWidth 64) 9).tagSeen.tagFind twin = none ∧
    (three 5 9 0).canIssue { wait := .none, src := [(XReg.x 2).sop] } ∧ (three 5 9 0).canIssue { wait := .none } := by
  and_intros <;> first | decide +kernel | rfl

/-- A set of two ways that is full and whose victim has been taken away: no entry stands where its pointer does. -/
theorem witness_TagWords_gap :
    (let k : Core := { (tagged 5 9).tagSeen with tagPtr := [(tagSetOf 1 5, 1)] }
     k.tagFree (tagSetOf 1 5) = none ∧ (mapGet k.tagPtr (tagSetOf 1 5)).getD 0 = 1 ∧ mapGet k.tags (tagSetOf 1 5 * 1 + 1) = none) := by decide +kernel

theorem witness_TagTable : (((tagged 5 9).core 0).tagFind 5 ≠ none) ∧ (((three 5 9 0).core 0).tagFree (tagSetOf 1 5) ≠ none) ∧
    (0xFFFFFFFFFFFF : BitVec 48) ≠ 5 := by decide +kernel

theorem witness_SpecialRegisterWords :
    (ready .c).canIssue { wait := .none, dst := [.x 1], own := [.spr (0x10 : BitVec 12).toNat] } ∧
    (ready .c).canIssue { wait := .none, dst := [.fq], own := [.spr (0x2F : BitVec 12).toNat] } ∧
    (ready .c).canIssue { wait := .none, src := [.x 1] } ∧ (ready .a).canIssue { wait := .none, dst := [.x 1], own := [.spr 3] } ∧
    (ready .a).cur.strm = .a ∧ ((ready .c).core 0).ctxId = some ⟨0, 0⟩ ∧ ((ready .c).ctx? ⟨0, 0⟩).isSome = true ∧
    (ready .c).canIssue { wait := .none, dst := [(XReg.x 4).sop, (XReg.x 5).sop] } := by
  and_intros <;> first | decide +kernel | rfl

theorem witness_SpecialRegisterWrites : (1 : Nat) ≠ 2 ∧ ¬ (0x20 ≤ 1 ∧ 1 ≤ 0x2F ∧ 2 / 2 = 1 / 2) ∧
    (0x20 : Nat) ≠ 0x23 ∧ ¬ (0x20 ≤ 0x20 ∧ 0x20 ≤ 0x2F ∧ 0x23 / 2 = 0x20 / 2) ∧ (7 : Fin 8) ≠ 0 := by decide

/-- A group whose record names a counter, at 0x1000, at a level; the counter's status bytes and its parent. -/
def launched (level status parent : Byte) : State :=
  seq0 (laid (laid atPage 0x1004 [status]) 0x1020 [0, parent]) fun x =>
    { x with rcd := ⟨#v[0, 0, 0, 0, 0, BitVec.ofNat 64 level.toNat <<< 48, 0x1000, 0], 0⟩ }
/-- A 64-byte block translates to a page of device memory or not. -/
def blockAt (s : State) (a : Nat) (kind : PageKind) : Bool :=
  runs (s.transAccess 0 .tlb ⟨0, 0⟩ .rw a 64) fun gs _ => match gs with | g :: _ => decide (g.t.kind = kind) | [] => false
def climbs (s : State) (n : Nat) (v : Word) (p : Except Res (Option Word) → Bool) : Bool := p (s.climb ⟨0, 0⟩ n v).1
def chain (s : State) (n : Nat) (a : Word) (p : Except Res Bool → Bool) : Bool := p (s.chainCancelled ⟨0, 0⟩ n a).1

theorem witness_RecordWords : (atPage.core 0).ctxId = some ⟨0, 0⟩ ∧ atPage.canIssue { wait := .none, src := [(XReg.x 2).sop] } ∧
    blockAt atPage 0x1000 .dev = true ∧ hostPage.canIssue { wait := .none, src := [(XReg.x 2).sop] } ∧ blockAt hostPage 0x1000 .host = true ∧
    atHole.canIssue { wait := .none, src := [(XReg.x 2).sop] } ∧ faults (atHole.transAccess 0 .tlb ⟨0, 0⟩ .rw 0x10000000000 64) = true ∧
    atPage.canIssue tagUses ∧ ((0x1000 : Word) &&& ~~~63) ≠ 0 ∧ (three 63 0 0).canIssue tagUses ∧ ((63 : Word) &&& ~~~63) = 0 ∧
    atPage.canIssue { wait := .none, dst := [.x 1] } := by
  and_intros <;> first | decide +kernel | rfl

/-- The pages of an 8-byte read of a counter are all of device memory, or not. -/
def counterPages (s : State) (dev : Bool) : Bool :=
  runs (s.transAccess 0 .tlb ⟨0, 0⟩ .r 0x1000 8) fun gs _ => gs.all (fun g => decide (g.t.kind = .dev)) == dev

theorem witness_RecordWords_kind : inWindow (0x1000 : Word).toNat = false ∧ counterPages atPage true = true ∧ counterPages hostPage false = true ∧
    (0x1000 : Word) ≠ 0 := by decide +kernel

theorem witness_RecordWords_chain :
    (0x1000 : Word) ≠ 0 ∧ (atPage.curSeq.rcd.launch = 0) ∧ (launched 1 0 0).curSeq.rcd.launch ≠ 0 ∧
    (launched 1 0 0).curSeq.rcd.level ≤ 1 ∧ (launched 2 0 0).curSeq.rcd.level = 2 ∧ 1 < (launched 2 0 0).curSeq.rcd.level ∧
    climbs (launched 1 0 0) 1 0x1000 (fun | .ok none => true | _ => false) = true ∧
    climbs (launched 1 0 0x30) 1 0x1000 (fun | .ok (some a) => decide (a = 0x3000) | _ => false) = true ∧
    climbs (launched 1 0 0) 1 0x10000000000 (fun | .error _ => true | _ => false) = true ∧
    chain (launched 1 0 0) 4 0x1000 (fun | .ok b => !b | _ => false) = true ∧
    chain (launched 1 2 0) 4 0x1000 (fun | .ok b => b | _ => false) = true ∧ chain (launched 1 0 0) 1 0x1000 (fun | .ok b => !b | _ => false) = true ∧
    chain (launched 1 0 0x30) 2 0x1000 (fun | .ok b => !b | _ => false) = true ∧
    chain (launched 1 0 0) 4 0x10000000000 (fun | .error _ => true | _ => false) = true := by decide +kernel

/-- Runs of die 0: one at a word, with S1, S2, the JOIN field of its record buffer, and its outstanding writes. -/
def runOf (s1 s2 join : Word) (outs : List Nat) : Run :=
  let z : Vector Word 8 := Vector.replicate 8 0
  { t := 0, queue := 0, slot := 0, len := 0, body := [], script := [], s := (z.set 1 s1).set 2 s2, buf := (z.set 6 0x1000).set 3 join, pc := 0
    loop := none, emits := 0, steps := 0, started := true, outs := outs }
def scripted (s1 s2 join : Word) (outs : List Nat) : State :=
  { (paged State.reset.withCtx).modDie 0 fun d => { d with runs := [(0, [runOf s1 s2 join outs])] } with cur := ⟨0, 0, .c, 0, ⟨0, 0⟩⟩ }
def emitsTo (s : State) (n : Nat) (d : DieId) : Bool :=
  (s.slice? 0).any fun sl => match (sl.mapAt 0)[n]? with | some c => decide (dieOfCore c = d) | none => false

theorem witness_ScriptWords : (scripted 1 2 0 []).runsOf 0 ⟨0, 0⟩ = [runOf 1 2 0 []] ∧ (runOf 1 2 0 []).started = true ∧
    (scripted 0 0 0 []).allDone [] = true ∧ ((scripted 1 2 0 []).slice? 0).isSome = true ∧ ((scripted 1 2 0 []).ctx? ⟨0, 0⟩).isSome = true ∧
    emitsTo (scripted 1 2 0 []) 0 0 = true ∧
    emitsTo ((scripted 1 2 0 []).modSlice 0 fun x => { x with cores := [16], maps := [] }) 0 1 = true ∧
    (⟨(runOf 1 2 0 []).buf, 0⟩ : Rec).join = 0 ∧ ((scripted 1 2 0 []).die 0).readyList ⟨0, 0⟩ 0 = [] ∧
    (⟨(runOf 1 0x2000 0x40 []).buf, 0⟩ : Rec).join ≠ 0 ∧
    (match (scripted 1 0x2000 0x40 []).engPut 0 ⟨0, 0⟩ 0x2000 (List.replicate 64 0) with | (.ok _, _) => true | _ => false) = true ∧
    (match (scripted 1 0x2000 0x40 []).engPut 0 ⟨0, 0⟩ 0x10000000000 (List.replicate 64 0) with | (.fail, _) => true | _ => false) = true := by
  decide +kernel

theorem witness_ScriptWords_jumps : (3 : BitVec 3) = 3 ∧ (0 : Word).toNat ≤ (0 : Word).toNat ∧ (0 : Word) = 0 ∧ (1 : Word) ≠ 0 ∧
    (0 : Word).toNat < (1 : Word).toNat ∧ ¬ ((0 : BitVec 3) = 0 ∧ (1 : Word) = 0 ∨ (0 : BitVec 3) = 4) := by decide

theorem witness_ScriptWords_goto :
    (let r : Run := { runOf 0 0 0 [] with pc := 2, loop := some (1, 2, 3, 0) }
     r.loop = some (1, 2, 3, 0) ∧ 2 < 1 + 2 ∧ 1 + 2 ≤ 3 ∧ 0 + 1 < 3 ∧ 3 ≤ 2 + 1 ∧ (runOf 0 0 0 []).loop = none) := by decide

/-! ### The host's commands and accesses -/

/-- A write in flight named 5. -/
def flying (s : State) : State :=
  { s with transit := [⟨5, 5, ⟨1, 0⟩, 0, 0, 0, 0x1000, 1, .bytes [], [], false, false, none, none, 0, .drop, false⟩] }

/-- A function block whose command is in progress, with its argument words. -/
def fnCmd (code : Nat) (args : List Word) : FnBlk :=
  { FnBlk.reset with
    busy := true
    held := Vector.ofFn fun i =>
      if i.val = 0 then BitVec.ofNat 8 code
      else if i.val < 8 then 0
      else BitVec.ofNat 8 (((args[(i.val - 8) / 8]?).getD 0).toNat / 256 ^ (i.val % 8)) }

def vf : FnId := ⟨0, 1⟩
def pf : FnId := ⟨0, 0⟩
/-- Slice 0 takes accesses of its virtual function, which has a command. -/
def hosted (code : Nat) (args : List Word) : State :=
  ({ (paged (ready .c)).modSlice 0 (fun x => { x with accept := true }) with linksUp := true, pfVisible := true }).setFn vf (fnCmd code args)
def vfWaits (ids : List Nat) (s : State) : State := s.modFn vf fun x => { x with waits := ids }
/-- Page 0 is not translated; its stage 2 lies on die 1, whose clock die 0 has not reached. -/
def noRoot (s : State) : State := s.modCtx ⟨0, 0⟩ fun x => { x with root := 0x8000 }
def farRoot (s : State) : State :=
  (s.modSlice 0 fun x => { x with s2root := 0x2000000000 }).modDie 1 fun x => { x with vc := #v[0, 1, 0, 0] }

def oks {α : Type} (p : α → Bool) : Ans α → Bool
  | .ok a => p a
  | _ => false
def waits {α : Type} : Ans α → Bool
  | .wait => true
  | _ => false
def fails {α : Type} : Ans α → Bool
  | .fail => true
  | _ => false
def any {α : Type} (_ : α) : Bool := true

/-- A descriptor of weight 1 with its script at the last word of its page, which is given; the next page is not there. -/
def queued (w : Byte) : State := laid (laid (hosted 3 [0, 15, 0x100]) 0x108 [1]) 0x128 [0xFC, 0xFF] |> fun s => laid s 0xFFFC [w]
def descOk (s : State) : Bool :=
  oks (fun bs => decide (1 ≤ wordAt bs 8 ∧ wordAt bs 8 ≤ 16 ∧ wordAt bs 0x38 = 0 ∧ wordAt bs 0x28 = 0xFFFC)) (s.regRead 0 ⟨0, 0⟩ 0x100 64)
def scripted' (s : State) (good : Bool) : Bool :=
  oks (fun ws => match verifyScript ws with | .ok _ => good | .error _ => !good) (s.regWords 0 ⟨0, 0⟩ 256 0xFFFC 0 ⟨0, 0⟩)

/-- Die 2, of port 1, holds the lines of the table and the descriptor, and may not read the script's yet. -/
def farScript : State := ((queued 0).modDie 0 fun x => { x with vc := #v[1, 0, 0, 0] }).modDie 2 fun x =>
  { x with cache := [⟨0, 127, false, 0⟩, ⟨2, 127, false, 0⟩] }

theorem witness_HostContextCommands :
    ((hosted 2 [8]).fnSlice vf).any (fun p => decide (p.1 = 0)) = true ∧
    (State.reset.fnSlice vf).isNone = true ∧ ((hosted 2 [8]).fn vf).busy = true ∧ ((hosted 2 [8]).fn vf).code = 2 ∧
    8 ≤ (((hosted 2 [8]).fn vf).arg 0).toNat ∧
    (((hosted 2 [7]).fn vf).arg 0).toNat < 8 ∧ ((hosted 2 [7]).ctx? ⟨0, 7⟩).isNone = true ∧ ((hosted 2 [7]).fn vf).code ≠ 3 ∧
    (let b := (hosted 1 [1, 0x40000, 0x1000, 0x2000, 4, 2]).fn vf
     b.code = 1 ∧ (b.arg 0).toNat < 8 ∧ (b.arg 2).toNat % 64 = 0 ∧ 4 ≤ (b.arg 4).toNat % 16 ∧ (b.arg 4).toNat % 16 ≤ 12 ∧
       (b.arg 5).toNat % 4 ≤ 2 ∧ ((hosted 1 [1, 0x40000, 0x1000, 0x2000, 4, 2]).ctx? ⟨0, 1⟩).isNone = true) ∧
    ¬ 4 ≤ (((hosted 1 [1, 0, 0, 0, 3]).fn vf).arg 4).toNat % 16 ∧ ((hosted 1 [0]).ctx? ⟨0, 0⟩).isSome = true ∧
    (hosted 2 [0]).ctxGone ⟨0, 0⟩ = false ∧ (core0 (hosted 2 [0]) fun k => { k with ctx := none }).ctxGone ⟨0, 0⟩ = true := by
  decide +kernel

theorem witness_HostContextCommands_queues :
    descOk (queued 0) = true ∧ scripted' (queued 0) true = true ∧ scripted' (queued 1) false = true ∧
    fails ((hosted 3 [0, 15, 0xFFFF]).regRead 0 ⟨0, 0⟩ 0xFFFF 64) = true ∧ waits ((farRoot (queued 0)).regRead 0 ⟨0, 0⟩ 0x100 64) = true ∧
    oks (fun bs => decide (wordAt bs 8 = 0)) ((hosted 3 [0, 15, 0x100]).regRead 0 ⟨0, 0⟩ 0x100 64) = true ∧
    oks any (farScript.regRead 2 ⟨0, 0⟩ 0x100 64) = true ∧ waits (farScript.regWords 2 ⟨0, 0⟩ 256 0xFFFC 0 ⟨0, 0⟩) = true ∧
    63 < (((hosted 4 [0, 64]).fn vf).arg 1).toNat ∧ (((hosted 4 [0, 63]).fn vf).arg 1).toNat ≤ 63 ∧
    oks any ((hosted 4 [0, 63, 0x100]).devAddr 0 ⟨0, 0⟩ 0x100 .r) = true ∧ fails ((noRoot (hosted 4 [0, 63])).devAddr 0 ⟨0, 0⟩ 0x100 .r) = true ∧
    waits ((farRoot (hosted 4 [0, 63])).devAddr 0 ⟨0, 0⟩ 0x100 .r) = true ∧
    oks (fun bs => decide (bitsOf (wordAt bs 8) 3 0 = 12)) ((laid (hosted 4 [0, 63, 0x100]) 0x108 [12]).regRead 0 ⟨0, 0⟩ 0x100 64) = true ∧
    oks (fun bs => decide (12 < bitsOf (wordAt bs 8) 3 0)) ((laid (hosted 4 [0, 63, 0x100]) 0x108 [13]).regRead 0 ⟨0, 0⟩ 0x100 64) = true := by
  decide +kernel

/-- The C-stream is parked with fault number 9; a saved stream of the context is. -/
def parkedC (cause : Nat) (fid : BitVec 32) (s : State) : State :=
  strm0 s fun y => { y with st := .parked, park := some ⟨fid, cause, 0x1000, 0x5000⟩ }
def aSave : Saved := ⟨0x3000, 1, 0, [⟨0, 0, 0, #v[0, 0, 0, 0], [(4, ⟨9, 1, 0, 0⟩)], [], [], [], [], []⟩], 0, none⟩
def kept (s : State) : State := s.modCtx ⟨0, 0⟩ fun x => { x with saved := [aSave] }
def dropped (id : Nat) (s : State) : State := { s with invals := [⟨id, 0, none, [], []⟩] }

theorem witness_HostContextCommands_rest :
    ((hosted 5 [0, 0x10000, 1]).fn vf).waits = [] ∧ ((vfWaits [4] (hosted 5 [0])).fn vf).waits = [4] ∧
    (dropped 4 (hosted 5 [0])).invals.any (fun v => decide (v.id = 4)) = true ∧
    (dropped 3 (hosted 5 [0])).invals.all (fun v => decide (v.id ≠ 4)) = true ∧
    ((parkedC 1 9 (hosted 6 [0, 9])).findFid ⟨0, 0⟩ 9).isSome = true ∧ (((hosted 6 [0, 0]).fn vf).arg 1).toNat = 0 ∧
    2 ^ 32 ≤ (((hosted 6 [0, 0x100000000]).fn vf).arg 1).toNat ∧ (kept (hosted 6 [0, 9])).findFid ⟨0, 0⟩ 9 = none ∧
    ((kept (hosted 6 [0, 9])).ctx? ⟨0, 0⟩).any (fun y => y.saved.any fun v => v.cores.any fun c => c.parks.any fun p => decide (p.2.fid = 9)) = true ∧
    ((hosted 6 [0, 9]).ctx? ⟨0, 0⟩).any (fun y => y.saved.isEmpty) = true ∧ (hosted 6 [0, 9]).findFid ⟨0, 0⟩ 9 = none ∧
    ((hosted 8 [0]).fn vf).code = 8 ∧
    ((hosted 7 [0x1000, 0]).fn vf).arg 1 = BitVec.ofNat 64 (0 : Fin 8).val ∧ ((hosted 7 [0x1000, 0]).fn vf).waits = [] ∧
    oks any ((hosted 7 [0x1000, 0]).engAtom 0 ⟨0, 0⟩ 0x1000 8 .setCancelled .drop).1 = true ∧
    waits ((farRoot (hosted 7 [0x1000, 0])).engAtom 0 ⟨0, 0⟩ 0x1000 8 .setCancelled .drop).1 = true ∧
    fails ((noRoot (hosted 7 [0x1000, 0])).engAtom 0 ⟨0, 0⟩ 0x1000 8 .setCancelled .drop).1 = true ∧
    (hosted 7 [0x1000, 0]).allDone [4] = true ∧ (flying (hosted 7 [0x1000, 0])).allDone [5] = false := by decide +kernel

/-- The physical function has a command; a grant of core 1 with a row of frames for slice 1. -/
def master (code : Nat) (args : List Word) : State := (hosted 0 []).setFn pf (fnCmd code args)
def grant1 : Grant := ⟨[1], 5, (List.range 16).map (· + 1024), [(1, [1])], [], [], 0, [], [], []⟩
def sliceArgs : List Word := [1, 1, 1, 1, 650]
/-- Slice 0 is at a step of its release, with core 0 taken from its context; an invalidation of it is under way. -/
def letting (i : Nat) : State := (core0 (master 0x21 [0]) fun k => { k with ctx := none }).modSlice 0 fun y => { y with freeing := i }
def step0 (s : State) (p : Slice → Bool) : Bool := (s.slice? 0).any p

theorem witness_HostSliceCommands :
    (let s := master 0x20 sliceArgs
     let b := s.fn pf
     b.busy = true ∧ b.code = 0x20 ∧ sliceBitsOk b = true ∧ sliceRangesOk b = true ∧ (s.slice? 1).isNone = true ∧ s.grantCoresOk b grant1 = true ∧
       s.grantSharesOk 1 b.args grant1 = true ∧ grantFramesOk b grant1 = true ∧ s.keyFree grant1.keyId = true ∧
       (s.assignFrames 1 5 grant1.frames).isSome = true ∧
       s.grantCoresOk b { grant1 with cores := [0] } = false) ∧
    sliceBitsOk ((master 0x20 [1, 0x20]).fn pf) = false ∧ sliceRangesOk ((master 0x20 [1, 1, 1, 1, 901]).fn pf) = false ∧
    32 ≤ (((master 0x21 [32]).fn pf).arg 0).toNat ∧ (((master 0x21 [31]).fn pf).arg 0).toNat < 32 ∧ ((master 0x21 [31]).slice? 31).isNone = true ∧
    step0 (master 0x21 [0]) (fun x => !((master 0x21 [0]).freeStep 0 x).2) = true ∧ step0 (letting 7) (fun x => ((letting 7).freeStep 0 x).2) = true ∧
    vf.fn ≠ 0 ∧ step0 (master 0 []) (fun x => decide (x.port = vf.port)) = true ∧ ((master 0 []).slice? 4).isNone = true := by
  decide +kernel

theorem witness_HostSliceCommands_steps :
    step0 (master 0x21 [0]) (fun x => decide (x.freeing ≤ 1) && !(master 0x21 [0]).sliceStill 0 x) = true ∧
    step0 (letting 1) (fun x => decide (x.freeing ≤ 1) && (letting 1).sliceStill 0 x) = true ∧
    step0 (letting 2) (fun x => decide (x.freeing = 2) && (letting 2).sliceStill 0 x) = true ∧
    ((letting 2).fn ⟨0, 1⟩).hostOut = [] ∧ ((letting 2).fn ⟨0, 1⟩).hostQ = [] ∧
    (((letting 2).modFn vf fun x => { x with hostOut := [5] }).fn ⟨0, 1⟩).hostOut ≠ [] ∧
    step0 (letting 3) (fun x => decide (x.freeing = 3)) = true ∧ (letting 3).invals = [] ∧
    (dropped 4 (letting 3)).invals.any (fun v => decide (v.slice = 0)) = true ∧
    step0 (letting 4) (fun x => decide (x.freeing = 4)) = true ∧ step0 (letting 5) (fun x => decide (x.freeing = 5)) = true ∧
    step0 (letting 6) (fun x => decide (x.freeing = 6)) = true := by decide +kernel

/-- Slice 0 moves to package 9, at a step, with the frames of the round and S. -/
def moving (i : Nat) (pages : Option (List Nat)) (at_ : Nat) (s : State) : State := s.setMoving 0 ⟨.package 9, i, pages, at_⟩

theorem witness_HostSliceCommands_migrate :
    256 ≤ (((master 0x22 [0, 256]).fn pf).arg 1).toNat ∧ (((master 0x22 [0, 255]).fn pf).arg 1).toNat < 256 ∧
    mapGet (master 0x22 [0, 255]).migrating 0 = none ∧
    mapGet (((master 0x22 [0, 9]).setMoving 0 ⟨.here grant1, 0, none, 0⟩).migrating) 0 = some ⟨.here grant1, 0, none, 0⟩ ∧
    (let m := moving 15 none 0 (master 0x22 [0, 9])
     mapGet m.migrating 0 = some ⟨.package 9, 15, none, 0⟩ ∧ m.invals = [] ∧
       (dropped 4 m).invals.any (fun v => decide (v.slice = 0)) = true) ∧
    mapGet (moving 15 (some [0]) 0 (master 0x22 [0, 9])).migrating 0 = some ⟨.package 9, 15, some [0], 0⟩ ∧
    (let m := moving 16 none 1 { letting 0 with girth := 1 }
     mapGet m.migrating 0 = some ⟨.package 9, 16, none, 1⟩ ∧ 1 ≤ m.girth ∧ step0 m (m.sliceStill 0) = true) ∧
    (let m := moving 16 none 0 (master 0x22 [0, 9])
     mapGet m.migrating 0 = some ⟨.package 9, 16, none, 0⟩ ∧ step0 m (fun x => !m.sliceStill 0 x) = true) ∧
    mapGet (moving 16 none 257 (master 0x22 [0, 9])).migrating 0 = some ⟨.package 9, 16, none, 257⟩ ∧
    mapGet (moving 17 none 1 (letting 7)).migrating 0 = some ⟨.package 9, 17, none, 1⟩ ∧
    step0 (moving 17 none 1 (letting 7)) (fun x => ((moving 17 none 1 (letting 7)).freeStep 0 x).2) = true ∧
    step0 (moving 17 none 1 (letting 6)) (fun x => !((moving 17 none 1 (letting 6)).freeStep 0 x).2) = true := by decide +kernel

/-- A slice that arrives with the grant. -/
def incoming : Incoming := ⟨0, 1, Vector.ofFn fun i => ((sliceArgs)[i.val]?).getD 0, grant1, [⟨0, 0, 1000, 16, #v[0, 0, 0, 0]⟩], [], []⟩

theorem witness_HostSliceCommands_incoming :
    (let s := master 0 []
     (s.slice? 1).isNone = true ∧ s.keyFree grant1.keyId = true ∧ s.grantSharesOk 1 incoming.args grant1 = true ∧ wholeRows grant1.frames = true ∧
       incoming.src.length = grant1.cores.length ∧
       ((incoming.src.zip grant1.cores).all fun p => decide (p.1.mclass ≤ (s.core p.2).mclass) &&
         ((incoming.src.zip grant1.cores).all fun q => decide (p.1.die = q.1.die) == decide (dieOfCore p.2 = dieOfCore q.2))) = true ∧
       grant1.cores.Nodup ∧ (grant1.cores.all fun c => decide ((s.core c).bind = none ∧ (s.core c).escal ≠ .quar ∧ s.dieIn (dieOfCore c) = true)) = true ∧
       (s.makeSlice 1 0 incoming.args grant1).isSome = true ∧ s.keyFree 127 = false ∧
       (s.makeSlice 1 0 incoming.args { grant1 with frames := [0] }).isNone = true ∧ wholeRows (List.range 16) = true ∧
       (s.makeSlice 1 0 incoming.args { grant1 with frames := List.range 16 }).isNone = true) := by decide +kernel

theorem witness_HostAccessesAndBringUp :
    State.reset.fnVisible vf = false ∧ (hosted 0 []).fnVisible vf = true ∧
    (let runs (s : State) := (s.winRun vf .w 0x1000 [1, 2]).1
     oks any (runs (hosted 0 [])) = true ∧ waits (runs (farRoot (hosted 0 []))) = true ∧ fails (runs (noRoot (hosted 0 []))) = true) ∧
    ((hosted 0 []).fn vf).hostOut = [] ∧ ((hosted 0 []).fn vf).hostQ = [] ∧
    (((hosted 0 []).modFn vf fun x => { x with hostOut := [5] }).fn vf).hostOut ≠ [] ∧
    (let reads (s : State) := s.winRun vf .r 0x1000 (List.replicate 4 0)
     let comes (s : State) := match reads s with | (.ok p, t) => t.winRead vf p.1 | _ => .fail
     oks any (comes (hosted 0 [])) = true ∧ waits (reads (farRoot (hosted 0 []))).1 = true ∧ fails (reads (noRoot (hosted 0 []))).1 = true ∧
       oks any (reads { hosted 0 [] with lineGen := [(32, 2)] }).1 = true ∧ fails (comes { hosted 0 [] with lineGen := [(32, 2)] }) = true) ∧
    (let adds (s : State) := (s.winRun vf .rw 0x1000 (List.replicate 8 0)).1
     oks (fun p => match p.1 with | [.dev _ _ _] => true | _ => false) (adds (hosted 0 [])) = true ∧ waits (adds (farRoot (hosted 0 []))) = true ∧
       fails (adds (noRoot (hosted 0 []))) = true) ∧
    (0x1000 : BitVec 32).toNat % 8 = 0 ∧ (0x1004 : BitVec 32).toNat % 8 ≠ 0 ∧ pf.fn = 0 ∧ ((hosted 0 []).fnSlice vf).isSome = true ∧
    allocOwner ((hosted 0 []).allocAt 0 0) ≠ 32 ∧
    (let e := ({ hosted 0 [] with alloc := [(0, allocMk 1 false 32 127)] } : State).allocAt 0 0
     allocState e = 1 ∧ allocOwner e = 32) := by decide +kernel

/-- The first table write of D waits: page 0 is clean and writable, so a window write has a D bit to set first (R200). -/
def cleanPage : State :=
  { hosted 0 [] with dies := (hosted 0 []).dies.map fun x => { x with view := tblSet 0 x.view 0 0x1D } }
theorem witness_HostAccessesAndBringUp_dBit : oks (fun p => !p.2.isEmpty) (cleanPage.winRun vf .w 0x1000 [1, 2]).1 = true ∧
    (match cleanPage.winRun vf .w 0x1000 [1, 2] with | (.ok p, t) => !(t.stillOut p.2).isEmpty | _ => false) = true := by decide +kernel

/-- Register writes: the bytes each covers, at the edges of what R284 lists. -/
theorem witness_HostAccessesAndBringUp_registers :
    (0x3F ≤ (63 : Fin 64).val ∧ (63 : Fin 64).val < 0x3F + (1 : Fin 9).val) ∧ ¬ (0x40 ≤ (63 : Fin 64).val) ∧
    (8 : Fin 9).val = 8 ∧ (0x41 ≤ 0x41 ∧ 0x41 < 0x41 + (1 : Fin 9).val) ∧ (∀ a, 0xC00 ≤ a ∧ a < 0xC00 + (8 : Fin 9).val → 0xC00 ≤ a) ∧
    (∀ a, 0x60 ≤ a ∧ a < 0x60 + (8 : Fin 9).val → 0x60 ≤ a ∧ a < 0x400) ∧
    (1 : Word).getLsbD 0 = true ∧ (fnCmd 2 [0]).busy = true ∧ FnBlk.reset.busy = false ∧
    (0x20 ≤ 0x22 ∧ 0x22 ≤ 0x22) ∧ ¬ (0x20 ≤ 0x23 ∧ 0x23 ≤ 0x22) ∧ (1 ≤ 8 ∧ 8 ≤ 8) ∧ ¬ (1 ≤ 9 ∧ 9 ≤ 8) := by
  and_intros <;> first | decide | omega

/-- The boot mailbox of logical core 0 with its control word, in a slice whose sequencers are idle or not. -/
def booting (idle : Bool) (ctl : Word) : State :=
  let s := (hosted 0 []).modFn vf fun x => x.setBoot 0 ⟨0x1000, 0, ctl, if ctl.getLsbD 0 then some ⟨0, 0x1000, 0⟩ else none⟩
  if idle then seq0 s fun x => { x with st := .idle } else s
/-- The image's header, with its number of ring records at 0x1024 and their place at 0x1020. -/
def imaged (bs : List Byte) : State := laid (laid (booting true 1) 0x1000 [0x46, 0x4C, 0x46, 0x54, 1]) 0x1020 bs
def bootHead (s : State) (p : List Byte → Bool) : Bool := oks p (s.loaderRead 0 ⟨0, 0⟩ 2 0x1000 64)
def magic (bs : List Byte) : Bool := decide (wordAt bs 0 % 2 ^ 32 = 0x54464C46 ∧ half bs 4 = 1)

theorem witness_HostAccessesAndBringUp_boot :
    ((booting true 1).fn vf |>.boot 0).start = some ⟨0, 0x1000, 0⟩ ∧ ((booting true 0).fn vf |>.boot 0).start = none ∧ (1 : Word).getLsbD 0 = true ∧
    ((booting true 1).ctx? ⟨0, 0⟩).any (fun y => (booting true 1).bootIdle 0 0 0 y) = true ∧
    ((booting false 1).ctx? ⟨0, 0⟩).any (fun y => !(booting false 1).bootIdle 0 0 0 y) = true ∧
    ((booting true 1).fnSlice vf).any (fun p => decide (p.2.cores[0]? = some 0)) = true ∧
    ((booting true 1).fnSlice vf).any (fun p => decide (p.2.cores[1]? = none)) = true ∧
    ((booting true 1).ctx? ⟨0, Fin.ofNat 8 (bitsOf ((booting true 1).fn vf |>.boot 0).ctl.toNat 10 8)⟩).any (fun y => !y.savedCore 0) = true ∧
    ((booting true 1).core 0).seqs.toList.all (fun q => decide (q.st = .idle)) = true ∧ (((booting false 1).core 0).seq 0).st ≠ .idle ∧
    ((booting true 1).core 0).bind = some (0, 0) ∧ ((core0 (booting true 1) fun k => { k with bind := none }).core 0).bind = none ∧
    ((kept (booting true 1)).ctx? ⟨0, 0⟩).any (fun y => y.savedCore 0) = true ∧
    ((booting true 1).core 0).ctx = some 0 ∧ ((core0 (booting true 1) fun k => { k with ctx := some 3 }).core 0).ctx = some 3 ∧
    (3 : Fin 8) ≠ 0 ∧
    ((State.reset.modFn vf fun x => x.setBoot 0 ⟨0, 0, 1, some ⟨0, 0, 0⟩⟩).fnSlice vf).isNone = true ∧
    bootHead (imaged []) magic = true ∧ bootHead (booting true 1) (fun bs => !magic bs) = true ∧
    waits ((farRoot (booting true 1)).loaderRead 0 ⟨0, 0⟩ 2 0x1000 64) = true ∧
    fails ((noRoot (booting true 1)).loaderRead 0 ⟨0, 0⟩ 2 0x1000 64) = true ∧
    (let recs (s : State) (n : Nat) := s.ringRecs 0 ⟨0, 0⟩ n 0x1040
     oks (fun r => match r with | .ok _ => true | _ => false) (recs (imaged []) 0) = true ∧
       oks (fun r => match r with | .error 2 => true | _ => false) (recs (imaged []) 1) = true ∧
       oks (fun r => match r with | .error 3 => true | _ => false) (recs (noRoot (imaged [])) 1) = true ∧
       waits (recs (farRoot (imaged [])) 1) = true) := by decide +kernel

/-- An image with a signature, and Thefort with a key to whose root the signature leads under a seed. -/
def offer (sig : List Byte) (fails : Option (Fin 5)) : FwOffer := ⟨[1], sig, fails⟩
def keyed (seed sig : List Byte) (s : State) : State :=
  { s with thefort := { s.thefort with key := toBytes 32 (Config.xmssRoot seed [1] sig) ++ seed } }
theorem accepts_keyed (s : State) (seed sig : List Byte) (fails : Option (Fin 5)) (v : Nat) (hs : sig.length = 2820)
    (hv : s.thefort.fused ≤ v) (hu : s.thefort.used = []) : (keyed seed sig s).thefort.accepts 0 v (offer sig fails) = true := by
  have h : (toBytes 32 (Config.xmssRoot seed [1] sig)).length = 32 := by simp [toBytes]
  simp only [Thefort.accepts, keyed, offer, hs, List.drop_left' h, List.take_left' h, hv, hu, decide_true, Bool.true_and, List.contains_nil,
    Bool.not_false]

theorem witness_HostAccessesAndBringUp_power (seed : List Byte) :
    (let sig : List Byte := List.replicate 2820 0
     let k := keyed seed sig
     (k State.reset).girthOn = false ∧ (k State.reset).thefort.recovery = false ∧ (k State.reset).thefort.accepts 0 1 (offer sig none) = true ∧
       (k State.reset).thefort.accepts 0 1 (offer sig (some 4)) = true ∧ (k (hosted 0 [])).girthOn = true ∧
       (k (hosted 0 [])).thefort.recovery = false ∧ (k (hosted 0 [])).thefort.accepts 0 2 (offer sig none) = true ∧
       (k { State.reset with thefort := { State.reset.thefort with recovery := true } }).thefort.accepts 0 1 (offer sig none) = true) := by
  have hs : (List.replicate 2820 (0 : Byte)).length = 2820 := List.length_replicate ..
  exact ⟨rfl, rfl, accepts_keyed _ _ _ _ _ hs (by decide) rfl, accepts_keyed _ _ _ _ _ hs (by decide) rfl, rfl, rfl,
    accepts_keyed _ _ _ _ _ hs (by decide) rfl, accepts_keyed _ _ _ _ _ hs (by decide) rfl⟩

theorem witness_HostAccessesAndBringUp_refused :
    State.reset.thefort.accepts 0 1 ⟨[], [], none⟩ = false ∧ State.reset.girthOn = false ∧ State.reset.thefort.recovery = false ∧
    State.reset.thefort.failed = none ∧ ({ State.reset with thefort := State.reset.thefort.reject } : State).thefort.failed ≠ none ∧
    (4 : Fin 5).val + 2 = 6 ∧ ¬ (4 : Fin 5).val < 3 ∧ (2 : Fin 5).val < 3 ∧ 3 < 4 := by
  and_intros <;> first | decide | rfl

/-! ### Submission, groups and held effects -/

/-- Launch queues 0 and 1 with their descriptor at 0x100 and four slots at 0x2000; the packet at RIDX has a type, a length and a first
word; feed queue 2 of two records. -/
def lq0 (run : Bool) : LaunchQ := ⟨0x100, [0], 0, run, []⟩
def front (run : Bool) (typ len : Byte) (w0 : Byte) : State :=
  let s := laid (laid (paged (ready .c)) 0x100 [0, 0x20, 0, 0, 0, 0, 0, 0, 2]) 0x2000 [0, 0, 0, 0, typ, len, 0, 0, w0]
  s.modCtx ⟨0, 0⟩ fun x =>
    { x with lqs := (x.lqs.set 0 (some (lq0 run))).set 1 (some (lq0 true)), fds := x.fds.set 2 (some ⟨0x300, 0, 0x3000, 2, 0, 0⟩) }

def found (s : State) (p : Packet → Bool) : Bool :=
  match s.frontLook ⟨0, 0⟩ (lq0 true) with
  | .packet x => p x
  | _ => false

/-- The slots of the queue lie on die 1, whose clock die 0 has not reached; stage 2 has tables of its own in frames 1 to 3. -/
def behind : State :=
  let s := (front true 0 0 0).modSlice 0 fun x => { x with s2root := 0x10000 }
  let s := laid (laid (laid (laid (laid s 8 [0x1D, 0, 1]) 0x10000 [0x1D, 0, 2]) 0x20000 [0x1D, 0, 3]) 0x30000 [0x1D]) 0x30008 [0x1D, 0, 0, 0, 0x20]
  let s := laid s 0x100 [0, 0, 1]
  ({ s with
     alloc := [(0, allocMk 1 false 0 127), (0x200000, allocMk 1 false 0 127)]
     frameGen := [(0, 1), (1, 1), (2, 1), (3, 1), (0x200000, 1)] }).modDie 1 fun x => { x with vc := #v[0, 1, 0, 0] }

theorem witness_SubmissionEvents_front :
    (front false 1 0 0).lq ⟨0, 0⟩ 0 = some (lq0 false) ∧ (front true 1 0 0).lq ⟨0, 0⟩ 0 = some (lq0 true) ∧
    (front true 1 0 64).frontTurn ⟨0, 0⟩ 0 = true ∧ (front true 1 0 64).frontTurn ⟨0, 0⟩ 1 = false ∧
    behind.frontLook ⟨0, 0⟩ (lq0 true) = .wait ∧ (front true 0 0 0).frontLook ⟨0, 0⟩ (lq0 true) = .none ∧
    (noRoot (front true 0 0 0)).frontLook ⟨0, 0⟩ (lq0 true) = .fail ∧
    found (front true 4 0 0) (fun p => decide (p.cause ≠ 0) && oks any ((front true 4 0 0).skipBad ⟨0, 0⟩ 0 (lq0 true) p)) = true ∧
    found (front true 1 0 64) (fun p => decide (p.cause = 0 ∧ p.typ = 1) && oks any ((front true 1 0 64).launch ⟨0, 0⟩ 0 (lq0 true) p)) = true ∧
    found (front true 3 0 0) (fun p => decide (p.cause = 0 ∧ p.typ = 3) && oks any ((front true 3 0 0).raiseRidx ⟨0, 0⟩ 0 (lq0 true) p)) = true := by
  decide +kernel

/-- A write has been performed that may be a doorbell of queue 0: over its doorbell word, or elsewhere. -/
def rungAt (pa : Nat) (s : State) : State := s.modLq ⟨0, 0⟩ 0 fun q => { q with rung := [(pa, 8)] }

theorem witness_SubmissionEvents_bells :
    ((front true 1 0 64).hearBells ⟨0, 0⟩ 0).lq ⟨0, 0⟩ 0 = some (lq0 true) ∧ ((front false 1 0 64).hearBells ⟨0, 0⟩ 0).lq ⟨0, 0⟩ 0 = some (lq0 false) ∧
    ((front true 1 0 64).hearBells ⟨0, 0⟩ 0).frontTurn ⟨0, 0⟩ 0 = true ∧ (paged (ready .c)).lq ⟨0, 0⟩ 0 = none ∧
    ((rungAt 0x120 (front false 1 0 64)).lq ⟨0, 0⟩ 0) = some { lq0 false with rung := [(0x120, 8)] } ∧
    oks (fun p => decide (p.1 = 0x120)) ((rungAt 0x120 (front false 1 0 64)).devAddr (homeOf 0x120) ⟨0, 0⟩ ((lq0 false).desc.toNat + 0x20) .r) = true ∧
    waits ((farRoot (rungAt 0x120 (front false 1 0 64))).devAddr (homeOf 0x120) ⟨0, 0⟩ 0x120 .r) = true ∧
    fails ((noRoot (rungAt 0x120 (front false 1 0 64))).devAddr (homeOf 0x120) ⟨0, 0⟩ 0x120 .r) = true ∧
    ((rungAt 0x120 (front false 1 0 64)).hearBells ⟨0, 0⟩ 0).lq ⟨0, 0⟩ 0 = some (lq0 true) ∧
    ((rungAt 0x128 (front false 1 0 64)).hearBells ⟨0, 0⟩ 0).lq ⟨0, 0⟩ 0 = some (lq0 false) := by decide +kernel

/-- A packet whose counter's page may not be written or cannot be reached yet. -/
def aPacket (w0 : Byte) : Packet := ⟨0, 2 ^ 32, 0, w0 :: List.replicate 55 0⟩

theorem witness_SubmissionEvents_fails :
    fails ((noRoot (front true 1 0 64)).launch ⟨0, 0⟩ 0 (lq0 true) (aPacket 64)) = true ∧
    waits ((farRoot (front true 1 0 64)).launch ⟨0, 0⟩ 0 (lq0 true) (aPacket 64)) = true ∧
    fails ((noRoot (front true 4 0 0)).skipBad ⟨0, 0⟩ 0 (lq0 true) (aPacket 0)) = true ∧
    waits ((farRoot (front true 4 0 0)).skipBad ⟨0, 0⟩ 0 (lq0 true) (aPacket 0)) = true ∧
    (let puts (s : State) := (s.engPut 0 ⟨0, 0⟩ ((lq0 true).desc.toNat + 0x18) (toBytes 8 1)).1
     oks any (puts (front true 3 0 0)) = true ∧ waits (puts (farRoot (front true 3 0 0))) = true ∧ fails (puts (noRoot (front true 3 0 0))) = true) := by
  decide +kernel

theorem witness_SubmissionEvents_feed :
    (let fed' (s : State) (p : Packet → Feed → Bool) := found s fun x =>
       decide (x.cause = 0 ∧ x.typ = 2) && (s.feed ⟨0, 0⟩ (Fin.ofNat 64 (x.word 0).toNat)).any (p x)
     fed' (front true 2 3 2) (fun p f => decide (f.room < p.len)) = true ∧
       fed' (front true 2 2 2) (fun p f => decide (p.len ≤ f.room) && oks any ((front true 2 2 2).feedIn ⟨0, 0⟩ 0 (lq0 true) p f)) = true ∧
       found (front true 2 1 3) (fun p => decide (p.cause = 0 ∧ p.typ = 2 ∧ (front true 2 1 3).feed ⟨0, 0⟩ (Fin.ofNat 64 (p.word 0).toNat) = none)) = true) ∧
    waits ((farRoot (front true 2 1 2)).feedIn ⟨0, 0⟩ 0 (lq0 true) (aPacket 2) ⟨0x300, 0, 0x3000, 2, 0, 0⟩) = true ∧
    fails ((noRoot (front true 2 1 2)).feedIn ⟨0, 0⟩ 0 (lq0 true) (aPacket 2) ⟨0x300, 0, 0x3000, 2, 0, 0⟩) = true := by decide +kernel

/-- Die 0 has a run that has not started, with a start tick; and work of its completion engine. -/
def waitingRun (t : Nat) : Run := { runOf 0 0 0 [] with t := t, script := [0], started := false }
def working (ws : List CWork) (rs : List Run) : State :=
  (paged (ready .c)).modDie 0 fun d => { d with cwork := [(0, ws)], runs := [(0, rs)] }
def stepJob : CJob := .step 0x1000 .ok false false

theorem witness_SubmissionEvents_rest :
    (paged (ready .c)).girthOn = true ∧ (paged (ready .c)).girth % 65536 = 0 ∧ State.reset.girthOn = false ∧
    (working [] [waitingRun 0]).runsOf 0 ⟨0, 0⟩ = [waitingRun 0] ∧ (waitingRun 0).started = false ∧
    (waitingRun 0).t ≤ (working [] []).girth ∧ (working [] []).allDone (waitingRun 0).outs = true ∧
    (working [] []).girth < (waitingRun 1).t ∧
    (working [⟨.push Rec.zero, none, none⟩] []).jobs 0 ⟨0, 0⟩ = [⟨.push Rec.zero, none, none⟩] ∧
    ((working [] []).die 0).readyList ⟨0, 0⟩ 0 = [] ∧
    (working [⟨stepJob, none, none⟩] []).jobs 0 ⟨0, 0⟩ = [⟨stepJob, none, none⟩] ∧ stepJob.atom = some (0x1000, 64, .credit .ok false) ∧
    oks any ((working [] []).engAtom 0 ⟨0, 0⟩ 0x1000 64 (.credit .ok false) .reply).1 = true ∧
    waits ((farRoot (working [] [])).engAtom 0 ⟨0, 0⟩ 0x1000 64 (.credit .ok false) .reply).1 = true ∧
    mapGet (([(5, List.replicate 64 0)] : List (Nat × List Byte))) 5 = some (List.replicate 64 0) ∧
    (flying (working [] [])).inFlight 5 = true ∧ (working [] []).inFlight 5 = false ∧
    ((working [] []).stepDone 0 ⟨0, 0⟩ stepJob (List.replicate 64 0)).isSome = true ∧
    ((noRoot (working [] [])).stepDone 0 ⟨0, 0⟩ (.wake 0x1000) [1, 0, 0, 0]).isNone = true := by decide +kernel

/-- A ready list that is full. -/
theorem witness_full_list : 32768 ≤ (List.replicate 32768 Rec.zero).length := Nat.le_of_eq List.length_replicate.symm

theorem witness_CompletionCredit : (List.replicate 64 (0 : Byte)).length = 64 ∧ wordAt (List.replicate 64 0) 0 % 2 ^ 32 = 0 ∧
    wordAt (1 :: List.replicate 63 0) 0 % 2 ^ 32 = 1 ∧ 2 ≤ wordAt (2 :: List.replicate 63 0) 0 % 2 ^ 32 := by decide +kernel

/-- Sequencer 0 is idle and its die has a record at priority 0, with a deadline and a counter; a counter whose chain is cancelled. -/
def popping (launch deadline : Word) (girth : Nat) : State :=
  let s := seq0 (paged (ready .c)) fun x => { x with st := .idle }
  let s := laid s 0x1000 [0, 0, 0, 0, 2]
  { s.modDie 0 fun d => { d with ready := [(0, [⟨#v[0, 0, 0, 0, deadline, 0, launch, 0], 0⟩])] } with girth := girth }

/-- The context's freeze count has passed. -/
def halted : State := { frozen 0 with girth := 256 }

theorem witness_GroupAndSectionEvents_pop :
    ((popping 0 0 0).core 0).ctxId = some ⟨0, 0⟩ ∧ ((popping 0 0 0).seq 0 0).st = .idle ∧ (popping 0 0 0).mayPop 0 = true ∧ (ready .c).mayPop 0 = true ∧
    (halted.mayPop 0 = false) ∧
    ((popping 0 0 0).die 0).topList ⟨0, 0⟩ = some 0 ∧
    (farRoot (popping 0x1000 0 0)).popChain 0 ⟨0, 0⟩ 4 0x1000 = none ∧ ((ready .c).die 0).topList ⟨0, 0⟩ = none ∧
    (popping 0 0 0).popChain 0 ⟨0, 0⟩ 4 0 = some false ∧ (popping 0x1000 0 0).popChain 0 ⟨0, 0⟩ 4 0x1000 = some true ∧
    (match ((popping 0 5 5).die 0).readyList ⟨0, 0⟩ 0 with
     | r :: _ => decide (r.deadline ≠ 0 ∧ r.deadline.toNat ≤ ((popping 0 5 5).ctxGirth ⟨0, 0⟩).toNat)
     | [] => false) = true ∧
    (match ((popping 0 5 4).die 0).readyList ⟨0, 0⟩ 0 with
     | r :: _ => decide (r.deadline ≠ 0 ∧ r.deadline.toNat ≤ ((popping 0 5 4).ctxGirth ⟨0, 0⟩).toNat)
     | [] => true) = false ∧
    ((ready .c).seq 0 0).st ≠ .idle := by decide +kernel

/-- The C-stream stands at a header; the section there, when it is in instruction memory, has a header word. -/
def atHeader (st : SeqSt) (hdr : Word) (head : Option Word) : State :=
  core0 (seq0 (paged (ready .c)) fun x => { x with st := st, c := { x.c with word := none, hdr := hdr } }) fun k =>
    { k with imem := match head with | some h => [⟨⟨0, 0⟩, hdr, h, [some 0], []⟩] | none => [] }
/-- A header of one word of the C-stream, SEC 1, DEP as given. -/
def headWith (dep : Word) : Word := 0xC900100100040000 + dep * 0x100000

/-- The C-stream's header is not aligned: its bytes are fetched, cannot be yet, cannot be read, or its page faults. -/
def oddAt (st : SeqSt) : State := atHeader st 0x1002 none
def oddFetch (s : State) : Fetch :=
  (({ s with cur := ⟨0, 0, .c, dieOfCore 0, s.cur.ctx⟩ } : State).fetch 0 ⟨0, 0⟩ (s.strm 0 0 .c).hdr.toNat 8).1
def fetched (f : Fetch) : Bool := match f with | .ok _ => true | _ => false
def struck (f : Fetch) : Bool := match f with | .fault _ => true | _ => false
def spoilt (f : Fetch) : Bool := match f with | .bad _ => true | _ => false

theorem witness_GroupAndSectionEvents_start :
    ((atHeader .load 0x1000 (some (headWith 0xFFF))).seq 0 0).st = .load ∧ (atHeader .load 0x1000 none).mayIssue 0 = true ∧
    halted.mayIssue 0 = false ∧
    ((atHeader .load 0x1000 none).strm 0 0 .a).st = .ended ∧ ((atHeader .load 0x1000 none).strm 0 0 .c).st = .run ∧
    (0x1000 : Word).toNat % 4 = 0 ∧ (0x1002 : Word).toNat % 4 ≠ 0 ∧ headCause (headWith 0xFFF) .c = 0 ∧ headCause 0 .c ≠ 0 ∧
    ((atHeader .load 0x1000 (some (headWith 0xFFF))).curSec 0 ((atHeader .load 0x1000 (some (headWith 0xFFF))).strm 0 0 .c)).isSome = true ∧
    ((atHeader .load 0x1000 none).curSec 0 ((atHeader .load 0x1000 none).strm 0 0 .c)).isNone = true ∧
    (let s := seq0 (ready .a) fun x => { x with st := .load, a := { x.a with hdr := 2 } }
     (s.seq 0 0).st = .load ∧ s.mayIssue 0 = true ∧ ((s.seq 0 0).strm .a).st = .run ∧ ((s.seq 0 0).strm .a).hdr.toNat % 4 ≠ 0) ∧
    (let s := atHeader .load 0x1000 (some 0)
     (s.curSec 0 (s.strm 0 0 .c)).any fun e => decide (headCause e.head .c ≠ 0)) = true ∧
    ((seq0 (ready .c) fun x => { x with c := { x.c with st := .ended } }).groupDone 0 0 = true) ∧ (ready .c).groupDone 0 0 = false := by
  decide +kernel

theorem witness_GroupAndSectionEvents_odd :
    ((oddAt .load).core 0).ctxId = some ⟨0, 0⟩ ∧ fetched (oddFetch (oddAt .load)) = true ∧ oddFetch (farRoot (oddAt .run)) = .wait ∧
    struck (oddFetch (noRoot (oddAt .run))) = true ∧ spoilt (oddFetch (badLine (oddAt .run))) = true := by decide +kernel

/-- The A-stream stands at a header, NE and NR as given, with a write of SLIP held or not. -/
def slipping (ne nr : BitVec 32) (held : Bool) : State :=
  seq0 (ready .a) fun x => { x with
    a := { x.a with word := none, ne := ne }, c := { x.c with st := .run, nr := nr }
    held := if held then [{ heldSt with strm := .a, effs := [.mts 1 3] }] else [] }

theorem witness_GroupAndSectionEvents_enter :
    ((atHeader .run 0x1000 none).seq 0 0).st = .run ∧ ((atHeader .run 0x1000 none).strm 0 0 .c).word = none ∧ (2 : Word).toNat % 4 ≠ 0 ∧
    ((atHeader .run 0x1000 none).curSec 0 ((atHeader .run 0x1000 none).strm 0 0 .c)).isNone = true ∧ (ready .c).curStrm.word = some 0 ∧
    headCause 0 .c ≠ 0 ∧ headCause (headWith 0) .c = 0 ∧ (headWith 0xFFF).toNat / 2 ^ 20 % 4096 = 0xFFF ∧
    (let s := seq0 (atHeader .run 0x1000 (some (headWith 1))) fun x => { x with a := { x.a with st := .run, rv := false } }
     ¬ (1 = 0xFFF ∨ ((s.seq 0 0).strm .a).st = .ended ∨ (((s.seq 0 0).strm .a).rv = true ∧
       (((s.seq 0 0).strm .a).rsec.toNat + 4096 - 1) % 4096 < 2048))) ∧
    (let s := seq0 (atHeader .run 0x1000 (some (headWith 1))) fun x => { x with a := { x.a with st := .run, rv := true, rsec := 1 } }
     ((s.seq 0 0).strm .a).rv = true ∧ (((s.seq 0 0).strm .a).rsec.toNat + 4096 - 1) % 4096 < 2048) ∧
    (((slipping 0 0 true).seq 0 0).held.any fun h => h.effs.any fun e => decide (e = .mts 1 3)) = true ∧
    ¬ (((slipping 8 0 false).seq 0 0).c.st = .ended ∨
      (((slipping 8 0 false).seq 0 0).a.ne - ((slipping 8 0 false).seq 0 0).c.nr).toInt < ((slipping 8 0 false).seq 0 0).slip.toNat) ∧
    (((slipping 0 1 false).seq 0 0).a.ne - ((slipping 0 1 false).seq 0 0).c.nr).toInt < ((slipping 0 1 false).seq 0 0).slip.toNat := by
  decide +kernel

/-- The C-stream is in a section of two words, at one, and the words there are in instruction memory or are not, or could not be fetched. -/
def failing (w : Nat) (ws : List (Option IWord)) (fs : List (Nat × FetchFail)) : State :=
  core0 (strm0 (paged (ready .c)) fun y => { y with hdr := 0x1000, word := some w, len := 2 }) fun k =>
    { k with imem := [⟨⟨0, 0⟩, 0x1000, headWith 0xFFF, ws, fs⟩] }
def inSec (w : Nat) (ws : List (Option IWord)) : State := failing w ws []
def refetched (s : State) : List (Option IWord) × List (Nat × FetchFail) :=
  ((({ s with cur := ⟨0, 0, .c, dieOfCore 0, s.cur.ctx⟩ } : State).modStrm 0 0 .c (·.refetch (headWith 0xFFF))).fetchWords 0 ⟨0, 0⟩ 0x1000
    (((s.core 0).imem.flatMap (·.fails))) (((s.core 0).imem.flatMap (·.words))) 0).1
/-- The context's units wait to restart: for the C-stream of sequencer 0 of logical core 0, or for none. -/
def waking (left : List (Nat × Nat)) (s : State) : State := s.modCtx ⟨0, 0⟩ fun x => { x with waking := 1, toFetch := left }

theorem witness_GroupAndSectionEvents_fetch :
    fetched (oddFetch (atHeader .run 0x1000 none)) = true ∧ struck (oddFetch (noRoot (atHeader .run 0x1000 none))) = true ∧
    ((inSec 0 [some 0, some 0]).curSec 0 ((inSec 0 [some 0, some 0]).strm 0 0 .c)).any (fun e => e.words.all (·.isSome)) = true ∧
    ((inSec 0 [none, none]).curSec 0 ((inSec 0 [none, none]).strm 0 0 .c)).any (fun e => e.words.contains none) = true ∧
    (refetched (inSec 0 [none, none])).1.all (·.isSome) = true ∧ (refetched (noRoot (inSec 1 [some 0, none]))).1[1]? = some none ∧
    (noRoot (inSec 1 [some 0, none])).curStrm.word = some 1 ∧ (mapGet (refetched (noRoot (inSec 1 [some 0, none]))).2 1).isSome = true ∧
    mapGet (refetched (noRoot (inSec 0 [some 0, none]))).2 0 = none ∧ (noRoot (inSec 0 [some 0, none])).curStrm.word = some 0 ∧
    (mapGet ([(1, .bad 0x1000)] : List (Nat × FetchFail)) 1).isSome = true ∧ mapGet ([(1, .bad 0x1000)] : List (Nat × FetchFail)) 0 = none ∧
    (paged (ready .c)).mayFetch 0 = true ∧ (ready .c).ctx? ⟨0, 0⟩ ≠ none ∧
    ((waking [(0, 4)] (inSec 0 [none, none])).ctx? ⟨0, 0⟩).any (fun x => decide (x.waking ≠ 0 ∧ x.toFetch = [(0, 4)])) = true ∧
    (waking [(0, 4)] (inSec 0 [none, none])).awaitsSec ⟨0, 0⟩ (0, 4) = true ∧ (waking [(0, 4)] (inSec 0 [some 0, some 0])).awaitsSec ⟨0, 0⟩ (0, 4) = false ∧
    ((ready .c).ctx? ⟨0, 0⟩).any (fun x => decide (x.waking = 0)) = true ∧
    (ready .c).curSeq.streamIdle .c = true ∧ busy.curSeq.streamIdle .c = false := by decide +kernel

/-- A word of sequencer 0 with its window from cycle 0 on; its effects, and the cycle it is. -/
def commits (e : Eff) (cyc : Nat) : State :=
  core0 (seq0 (ready .c) fun x => { x with
    held := [{ heldSt with effs := [e] }], wins := [⟨0, .c, 0, 4, 0, 0, [], false, none⟩] }) fun k => { k with cyc := cyc }
def effect (s : State) (e : Eff) (p : Except TrapInfo (List Eff) → Bool) : Bool :=
  p (({ s with cur := ⟨0, 0, .c, dieOfCore 0, s.cur.ctx⟩ } : State).applyEffs 0 0 { heldSt with effs := [e] } ⟨0, 0⟩ [e]).1

theorem witness_HeldEffectCommit :
    ((commits (.stSpad 0x3FFFFF [some 1, none]) 5).seq 0 0).held = [{ heldSt with effs := [.stSpad 0x3FFFFF [some 1, none]] }] ∧
    ((commits .uncinch 5).core 0).ctxId = some ⟨0, 0⟩ ∧ (commits .uncinch 5).alive 0 = true ∧
    (((commits .uncinch 5).seq 0 0).wins.all fun w => decide (w.cyc + w.len < ((commits .uncinch 5).core 0).cyc)) = true ∧
    (((commits .uncinch 4).seq 0 0).wins.all fun w => decide (w.cyc + w.len < ((commits .uncinch 4).core 0).cyc)) = false ∧
    (commits .uncinch 5).released 0 0 heldSt = true ∧
    effect (commits .uncinch 5) .uncinch (fun | .ok [] => true | _ => false) = true ∧
    effect (flying (commits .uncinch 5)) (.stHost 0 0 0 [] [5]) (fun | .ok [.stHost 0 0 0 [] [5]] => true | _ => false) = true ∧
    effect (core0 (commits .uncinch 5) fun k => { k with front := none }) (.pop .fq) (fun | .error _ => true | _ => false) = false ∧
    [some (1 : Byte), none].length ≤ 2 ^ 22 ∧ tblWf 0 ((commits .uncinch 5).core 0).spad = true ∧
    (flying (ready .c)).allDone [5] = false ∧ (ready .c).allDone [] = true ∧ tblWf 0 (ready .c).hostMem = true := by decide +kernel

/-- A word whose effects are two stores that overlap, a pop and two pushes. -/
def several : List Eff := [.stSpad 0x3FFFFF [some 1, some 2], .stSpad 0 [some 3], .pop .fq, .push (.bq 3) 5, .pushDq 7 9]
def commitsAll (cyc : Nat) : State :=
  core0 (seq0 (ready .c) fun x => { x with held := [{ heldSt with effs := several }] }) fun k => { k with cyc := cyc }

theorem witness_HeldEffectCommit_several :
    ((commitsAll 5).seq 0 0).held = [{ heldSt with effs := several }] ∧ ((commitsAll 5).core 0).ctxId = some ⟨0, 0⟩ ∧ (commitsAll 5).alive 0 = true ∧
    ((commitsAll 5).seq 0 0).wins = [] ∧ (commitsAll 5).released 0 0 { heldSt with effs := several } = true ∧
    tblWf 0 ((commitsAll 5).core 0).spad = true ∧ ([some 1, some 2] : List (Option Byte))[1]? = some (some 2) ∧ (0x3FFFFF + 1) % 2 ^ 22 = 0 ∧
    ((ready .c).strm 0 0 .a).st = .ended ∧ ((ready .c).strm 0 0 .c).st ≠ .ended ∧ ((ready .a).strm 0 0 .a).st ≠ .ended ∧
    ((ready .a).strm 0 0 .c).st = .ended ∧ (QCode.bq 3).reader = .a ∧ QCode.fq.reader = .c := by
  and_intros <;> first | decide +kernel | rfl

theorem witness_HeldEffectCommit_effect :
    (∀ off bs, Eff.uncinch ≠ .stSpad off bs) ∧ (∀ a b x bs ws, Eff.uncinch ≠ .stHost a b x bs ws) ∧
    (∀ b, (Eff.uncinch = .barr b ∨ ∃ v, Eff.uncinch = .barrCfg b v) → (commits .uncinch 5).switchedOut 0 b = none) ∧
    ∃ t, (commits .uncinch 5).applyEff 0 0 heldSt ⟨0, 0⟩ .uncinch = .done t := ⟨by simp, by simp, by simp, _, rfl⟩

/-! ### Margin, rail and heat -/

/-- Core 0 at a cycle with something else changed; two words of the C-stream and one of the A-stream have windows from cycle 0 on, and
the first of them holds an effect; the number of strikes in a row of it. -/
def margin0 (cyc : Nat) (f : Core → Core) : State := core0 busy fun k => f { k with cyc := cyc }
def windows (n : Nat) : List Win := [⟨0, .c, 0, 4, n, 0, [], false, none⟩, ⟨1, .a, 0, 4, 0, 0, [], false, none⟩, ⟨2, .c, 1, 4, n, 0, [], false, none⟩]
def struckAt (cyc n : Nat) : State := seq0 (margin0 cyc id) fun x => { x with wins := windows n }
def openAt (s : State) (n : Nat) : Option Win :=
  ((s.seq 0 0).wins.filter fun w => !w.again && decide (w.cyc ≤ (s.core 0).cyc) && decide ((s.core 0).cyc ≤ w.cyc + w.len))[n]?

theorem witness_MarginEvents_replay :
    openAt (struckAt 4 14) 0 = some ⟨0, .c, 0, 4, 14, 0, [], false, none⟩ ∧ openAt (struckAt 4 15) 0 = some ⟨0, .c, 0, 4, 15, 0, [], false, none⟩ ∧
    openAt (struckAt 4 15) 2 = some ⟨2, .c, 1, 4, 15, 0, [], false, none⟩ ∧ openAt (struckAt 5 15) 0 = some ⟨2, .c, 1, 4, 15, 0, [], false, none⟩ ∧
    openAt (struckAt 5 15) 1 = none ∧ openAt (struckAt 6 15) 0 = none ∧
    (((struckAt 4 15).seq 0 0).held.find? fun h => decide (h.no = 0)) = some heldSt ∧
    (((struckAt 4 15).seq 0 0).held.all fun h => decide (h.no ≠ 2)) = true ∧
    ((margin0 4 fun k => { k with lastBeat := some 0 }).core 0).lastBeat = some 0 ∧
    ((margin0 5 fun k => { k with lastBeat := some 0 }).core 0).lastBeat = some 0 ∧ 0 + 4 < 5 ∧ ((margin0 4 id).core 0).lastBeat = none := by
  decide +kernel

theorem witness_MarginEvents_reissue : (windows 0)[0]? = some ⟨0, .c, 0, 4, 0, 0, [], false, none⟩ ∧ (0 : Nat) < 2 ∧ Strm.a ≠ Strm.c ∧
    (0 : Nat) < 1 ∧
    (let x := (struckAt 5 0).seq 0 0
     x.wins = [] ++ ⟨0, .c, 0, 4, 0, 0, [], false, none⟩ :: [⟨1, .a, 0, 4, 0, 0, [], false, none⟩, ⟨2, .c, 1, 4, 0, 0, [], false, none⟩] ∧
       (∃ h ∈ x.held, h.no = 0) ∧ ((struckAt 5 0).core 0).cyc ≤ 1 + 4) := by
  and_intros <;> first | decide +kernel | rfl | exact ⟨_, List.mem_singleton.mpr rfl, rfl⟩

theorem witness_MarginEvents :
    ((margin0 0x100000 id).core 0).cyc / 2 ^ 20 ≠ ((margin0 0x100000 id).core 0).repWin ∧
    ((margin0 0xFFFFF id).core 0).cyc / 2 ^ 20 = ((margin0 0xFFFFF id).core 0).repWin ∧
    (let k := (margin0 0 fun k => { k with btop := 3 }).core 0
     min ((0x50000 : Word).toNat / 2 ^ 16 % 16) 3 ≠ k.bstep ∧ min ((0xF000 : Word).toNat / 2 ^ 16 % 16) 15 = k.bstep) ∧
    (let k := (margin0 0 id).core 0
     k.vth ≤ (30 : BitVec 8).toNat ∧ k.vth ≠ 0 ∧ k.phase = .normal ∧ k.trig ≠ some k.cyc ∧
       ¬ ((k.vth ≠ 0 ∧ k.vth ≤ (29 : BitVec 8).toNat) ∨ (k.stepth ≠ 0 ∧ k.stepth ≤ k.activity))) ∧
    ((margin0 0 fun k => { k with trig := some 0 }).core 0).trig = some ((margin0 0 id).core 0).cyc ∧
    ((margin0 6 fun k => { k with phase := .stretch 0 }).core 0).phase = .stretch 0 ∧ ((margin0 6 id).core 0).cyc ≤ 0 + 6 ∧
    0 + 6 < ((margin0 7 id).core 0).cyc ∧
    0 + 7 ≤ ((margin0 7 fun k => { k with phase := .stretch 0 }).core 0).cyc ∧ ((margin0 71 fun k => { k with phase := .halved 0 }).core 0).phase = .halved 0 ∧
    0 + 71 ≤ ((margin0 71 id).core 0).cyc ∧ ((margin0 70 id).core 0).cyc < 0 + 71 ∧
    ((margin0 0 id).core 0).qtag = none ∧
    ((margin0 0 fun k => { k with qtag := some 9 }).core 0).qtag = some 9 ∧ ((margin0 0 id).core 0).ctxId = some ⟨0, 0⟩ ∧
    ((margin0 0 fun k => { k with qtag := some 9, bind := none }).core 0).ctxId = none ∧
    ((margin0 0 fun k => { k with qtag := some 9, ctx := none }).core 0).ctxId = none ∧
    ((margin0 0 fun k => { k with qtag := some 9, ctx := none }).core 0).bind = some (0, 0) ∧
    ((margin0 0 fun k => { k with qtag := some 9, ctx := none }).slice? 0).isSome = true := by decide +kernel

/-- The Girth count runs; die 0 is as given. -/
def railed (girth : Nat) (f : Die → Die) : State := { (ready .c).modDie 0 f with girth := girth, girthOn := true }
def atRail (girth mv setp : Nat) (r : RailSt) : State := railed girth fun d => { d with railMv := mv, rail := r, setp := setp }
def railIs (s : State) (p : Nat → Nat → Nat → RailSt → Bool) : Bool :=
  !(s.die 0).offline && p (s.die 0).railMv (s.setPoint 0) (s.die 0).setp (s.die 0).rail

theorem witness_RailAndHeatEvents_rise :
    ((railed 0 fun d => { d with offline := true }).die 0).offline = true ∧
    railIs (atRail 0 649 650 .steady) (fun mv sp _ r => decide (mv < sp) && decide (r = .steady)) = true ∧
    railIs (atRail 399 649 650 (.rise 400)) (fun mv sp _ r => decide (mv < sp) && decide (r = .rise 400)) = true ∧ (atRail 399 649 650 .steady).girth < 400 ∧
    railIs (atRail 400 640 650 (.rise 400)) (fun mv sp _ _ => decide (mv < sp) && decide (sp ≤ mv + 10)) = true ∧ 400 ≤ (atRail 400 640 650 .steady).girth ∧
    railIs (atRail 400 639 650 (.rise 400)) (fun mv sp _ _ => decide (mv + 10 < sp)) = true ∧
    railIs (atRail 0 650 660 (.rise 400)) (fun mv sp x _ => decide (sp ≤ mv) && decide (sp < x)) = true ∧
    railIs (atRail 0 650 650 (.rise 400)) (fun mv sp x _ => decide (sp ≤ mv) && decide (x ≤ sp)) = true ∧
    railIs (atRail 0 660 660 .steady) (fun mv sp x _ => decide (sp ≤ mv) && decide (sp < x)) = true ∧
    railIs (atRail 0 650 650 .stopped) (fun mv sp x r => decide (sp ≤ mv) && decide (x ≤ sp) && decide (r = .stopped)) = true := by decide +kernel

/-- The highest voter, slice 5, has left: the set point is to come down from 660 mV. -/
def exited (s : State) : State := s.modDie 0 fun d => { d with tops := [5], setp := 660 }
def exits (s : State) : Bool := (s.die 0).tops.any fun n => !(s.voters 0).contains n

theorem witness_RailAndHeatEvents_exits :
    (let x := exited (atRail 0 660 660 (.hold 8000 false))
     (x.die 0).offline = false ∧ (x.die 0).rail = .hold 8000 false ∧ exits x = true ∧ x.setPoint 0 < (x.die 0).setp ∧
       x.setPoint 0 ≤ (x.die 0).railMv) ∧
    (let x := exited (atRail 0 660 660 (.fall 8000 true))
     (x.die 0).rail = .fall 8000 true ∧ exits x = true ∧ x.setPoint 0 < (x.die 0).setp) ∧
    exits (atRail 0 660 650 (.hold 8000 false)) = false ∧ exits (atRail 0 660 650 (.fall 800 true)) = false := by decide +kernel

theorem witness_RailAndHeatEvents_fall :
    railIs (atRail 0 660 650 (.hold 8000 false)) (fun mv sp _ r => decide (sp ≤ mv) && decide (r = .hold 8000 false)) = true ∧
    railIs (atRail 0 659 650 (.fall 800 true)) (fun mv sp _ _ => decide (sp ≤ mv) && decide (mv < sp + 10)) = true ∧
    railIs (atRail 799 660 650 (.fall 800 true)) (fun mv sp _ _ => decide (sp + 10 ≤ mv)) = true ∧ (atRail 799 660 650 .steady).girth < 800 ∧
    railIs (atRail 800 669 650 (.fall 800 true)) (fun mv sp _ _ => decide (sp + 10 ≤ mv) && decide (mv < sp + 20)) = true ∧
    railIs (atRail 800 670 650 (.fall 800 true)) (fun mv sp _ _ => decide (sp + 20 ≤ mv)) = true ∧ 800 ≤ (atRail 800 670 650 .steady).girth ∧
    railIs (atRail 8000 660 650 (.hold 8000 false)) (fun mv _ x _ => decide (x + 10 ≤ mv)) = true ∧
    (let s := atRail 8000 660 650 (.hold 8000 false)
     8000 ≤ s.girth ∧ ∀ c ∈ s.dieCores 0, (s.core c).bstep < (s.core c).btop) ∧
    (let s := core0 (atRail 7900 660 650 (.fall 8000 false)) fun k => { k with btop := 0 }
     (s.die 0).rail = .fall 8000 false ∧ 8000 ≤ s.girth + 100 ∧ 0 ∈ s.dieCores 0 ∧ (s.core 0).btop ≤ (s.core 0).bstep) ∧
    (railed 7899 id).girth + 100 < 8000 ∧ ((atRail 0 659 650 (.fall 0 false)).die 0).railMv < ((atRail 0 659 650 (.fall 0 false)).die 0).setp + 10 ∧
    16 ∉ (atRail 0 650 650 .steady).dieCores 0 ∧ ((atRail 0 650 650 .steady).die 0).rail = .steady := by
  and_intros <;> decide +kernel

theorem witness_RailAndHeatEvents_heat :
    (ready .c).girth % 8192 = 0 ∧ (railed 8191 id).girth % 8192 ≠ 0 ∧ (railed 8192 id).girthOn = true ∧ (railed 8192 id).girth % 8192 = 0 ∧
    State.reset.girthOn = false ∧
    85 ≤ (85 : BitVec 8).toNat ∧ (84 : BitVec 8).toNat < 85 ∧
    (let s := railed 8000000 fun d => { d with coolSince := some 0, offline := true }
     (s.die 0).coolSince = some 0 ∧ (s.die 0).offline = true ∧ 0 + 8000000 ≤ s.girth) ∧
    (railed 7999999 id).girth < 0 + 8000000 ∧ (railed 0 id).dieIn 0 = true ∧ ((railed 0 id).die 0).coolSince = none ∧
    (let s := (railed 0 fun d => d).modDie 3 fun d => { d with emptying := true }
     s.dieIn 3 = false ∧ (s.die 3).emptying = true ∧ (s.die 3).offline = false ∧ s.ctxsOn 3 = [] ∧ (s.die 3).readAt = none) ∧
    (let s := (railed 0 fun d => d).modDie 3 fun d => { d with emptying := true }
     (s.slice? 0).any fun y => !s.owesDie 3 0 y) = true ∧
    ((railed 0 fun d => { d with emptying := true }).ctxsOn 0).isEmpty = false ∧ (paged (ready .c)).framesAt 1 0 = [] ∧
    (paged (ready .c)).roomFor 0 = true ∧ ((paged (ready .c)).framesAt 0 0).isEmpty = false ∧
    ((railed 0 fun d => { d with emptying := true, readAt := some 0 }).die 0).readAt = some 0 ∧
    (railed 0 fun d => { d with emptying := true, readAt := some 0 }).dieIn 0 = false := by decide +kernel

/-! ### The array and the copy engines -/

/-- The Cinch of core 0 at a cycle, with its states, its lease and since when its holder keeps another waiting. -/
def cinched (cyc : Nat) (v : Vector CinchSt 4) (n : Nat) (since : Option Nat) : State :=
  core0 (ready .c) fun k =>
    { k with cyc := cyc, cinch := v, cinchAt := 0, cinchWant := Vector.replicate 4 0, cinchN := n, cinchOthers := since }

theorem witness_EngineEvents_cinch :
    (let k := (cinched 1 #v[.want, .free, .free, .want] 0 none).core 0
     k.cinchHolder = none ∧ k.cinchAt < k.cyc ∧ k.cinchOf 0 = .want ∧ k.cinchWant[(0 : SeqId).val] < k.cyc ∧
       ∀ r : SeqId, (r.val + 3 - k.cinchH.val) % 4 < ((0 : SeqId).val + 3 - k.cinchH.val) % 4 → k.cinchOf r ≠ .want) ∧
    ((cinched 1 #v[.hold, .want, .free, .free] 3 none).core 0).cinchHolder = some 0 ∧ (3 : Nat) ≠ 0 ∧
    ((cinched 1 #v[.hold, .want, .free, .free] 3 none).core 0).cinchOf 1 = .want ∧
    (let k := (cinched 1 #v[.hold, .free, .free, .free] 0 none).core 0
     k.cinchN = 0 ∧ ∀ r : SeqId, k.cinchOf r ≠ .want) ∧
    (let k := (cinched 256 #v[.hold, .want, .free, .free] 3 (some 0)).core 0
     k.cinchHolder = some 0 ∧ k.cinchOthers = some 0 ∧ max 0 k.cinchAt + 256 ≤ k.cyc ∧ k.cinchOf 1 = .want) ∧
    (let k := (cinched 255 #v[.hold, .want, .free, .free] 3 (some 0)).core 0
     k.cyc < max 0 k.cinchAt + 256) ∧
    ((cinched 256 #v[.hold, .want, .free, .free] 3 none).core 0).cinchOthers = none := by decide +kernel

/-- A command in the front slot, some beats on; one of no blocks. -/
def front0 (c : Nat) : State := core0 (ready .c) fun k => { k with front := some { mcmd with c := c }, cyc := 4 }
def empty0 : MCmd := { mcmd with kb := 0 }

theorem witness_EngineEvents_beats :
    ((front0 0).sweep 0).arrayRuns 0 = true ∧ (((front0 0).sweep 0).core 0).beat.isSome = true ∧ (front0 0).arrayRuns 0 = true ∧
    ((core0 (front0 0) fun k => { k with front := none }).sweep 0 |>.core 0).beat.isNone = true ∧
    ((core0 (front0 0) fun k => { k with bind := none }).sweep 0).arrayRuns 0 = false ∧
    (((rowHeld (front0 0)).sweep 0).core 0).beat.isNone = true ∧ (((rowHeld (front0 0)).sweep 0).core 0).arrayHeld = true ∧
    (((rowHeld (front0 0)).sweep 0).core 0).mheld = none ∧
    ((front0 0).core 0).front = some mcmd ∧ mcmd.c < mcmd.beats ∧
    ((front0 5000).core 0).front = some { mcmd with c := 5000 } ∧ ({ mcmd with c := 5000 } : MCmd).beats ≤ 5000 ∧ 0 < mcmd.beats ∧
    empty0.beats = 0 ∧ ((front0 0).core 0).mayBegin empty0 = true ∧ ((core0 (front0 0) fun k => { k with front := none }).core 0).front = none ∧
    tblWf 0 ((front0 5000).core 0).tiles = true := by decide +kernel

/-- A command with its beats done, behind it one that has beats or has none. -/
def behindIt (n : MCmd) : State := core0 (front0 5000) fun k => { k with shadow := some n }
theorem witness_EngineEvents_shadow : ((behindIt mcmd).core 0).shadow = some mcmd ∧ 0 < mcmd.beats ∧ ((behindIt empty0).core 0).shadow = some empty0 ∧
    (behindIt mcmd).arrayRuns 0 = true ∧ mcmd.kbRow 0 ≠ none ∧ (0 : Fin 32) ≠ 1 := by
  and_intros <;> first | decide +kernel | rfl

/-- A unit of a command, of some bytes, and pages of its destination by kind. -/
def fillCmd : CopyCmd := { copyCmd with op := .fill, ac := some 63, src := 0x0102030405060708, dst := 0xFFFFFFFFFFC01000, len := 128, rows := [] }
def accCmd (op : CopyOp) : CopyCmd := { copyCmd with op := op, et := .i32, ac := some 0, dst := 0x1000, src := 0xFFFFFFFFFFC00000, len := 128 }
def pageTo (k : PageKind) : VSeg := ⟨0x1000, 8, ⟨k, 0, true, true, true, 2, 3, 127, true⟩⟩
def readAs (bs : List Byte) : List ((Loc × Nat) × List Byte) := [((.spad 0 0, 8), bs), ((.spad 0 64, 8), bs)]

theorem witness_EngineEvents_unit :
    fillCmd.op = .fill ∧ (ready .c).unitDst 0 fillCmd ⟨0, 0, 128⟩ = .spad 0 0x1000 ∧ (fillCmd.unitBytes ⟨0, 0, 128⟩ [] (.spad 0 0)).length ≤ 2 ^ 22 ∧
    tblWf 0 ((ready .c).core 0).spad = true ∧ (ready .c).unitDst 0 (accCmd .acc) ⟨0, 0, 8⟩ = .mem 0x1000 ∧
    (ready .c).unitDst 0 { accCmd .copy with op := .copy } ⟨0, 0, 8⟩ = .mem 0x1000 ∧ (pageTo .host).t.kind = .host ∧ tblWf 0 (ready .c).hostMem = true ∧
    (paged (ready .c)).keyGen 127 ≠ none ∧ (pageTo .fab).t.kind = .fab ∧ (accCmd .swap).op = .swap ∧ (accCmd .cas).op = .cas ∧
    ((accCmd .acc).steps (List.replicate 8 1) [])[1]? = some (.acc .add .i32 (List.replicate 4 1)) ∧
    1 < (List.replicate 8 (1 : Byte)).length / ((accCmd .acc).et.bits / 8) ∧
    (ready .c).unitDst 0 { accCmd .swap with dst := 0xFFFFFFFFFFC01000 } ⟨0, 0, 8⟩ = .spad 0 0x1000 := by
  and_intros <;> first | decide +kernel | rfl

theorem witness_EngineEvents_elements :
    (4 ≤ 2 ^ 22 ∧ (stepElem (.swap [1, 2, 3, 4]) [0, 0, 0, 0]).length = 4 ∧ (∀ e, tblWf 0 ((ready .c).core e).spad = true)) ∧
    (some ((0 : CoreId), 0x3FFFFF) = some (0, 0x3FFFFF) ∧ (0x3FFFFF + 3) % 2 ^ 22 = 2) ∧
    (∃ b sg, etNum .i32 = .int b sg) ∧ (∃ F, etNum .bf16 = .flt F) ∧ ([1] : List Byte) ≠ [2] := by
  refine ⟨⟨by decide, by decide, fun e => ?_⟩, by decide, ⟨_, _, rfl⟩, ⟨_, rfl⟩, by decide⟩
  revert e
  decide +kernel

/-- A copy of 128 bytes in the scratchpad stands first in queue 1. -/
def copying (f : CopyCmd → CopyCmd) : State :=
  core0 (ready .c) fun k => { k with cqs := k.cqs.set 1 ⟨[.cmd (f { copyCmd with src := 0xFFFFFFFFFFC00000, dst := 0xFFFFFFFFFFC01000, len := 128, rows := [] })], none⟩, cyc := 9 }
def swept (s : State) : State := { (s.sweep 0) with cur := ⟨0, 0, .c, dieOfCore 0, ⟨0, 0⟩⟩ }
def headIs (s : State) (p : CopyCmd → Bool) : Bool := (((swept s).core 0).cq 1).head.any p

theorem witness_EngineEvents_copy :
    headIs (copying id) (fun m => decide (m.park = none ∧ m.offset < m.total ∧ m.unit = none) && ((swept (copying id)).core 0).copyPace 1 m) = true ∧
    ((swept (copying id)).core 0).ctxId = some ⟨0, 0⟩ ∧ (swept (copying id)).mayIssue 0 = true ∧ (((swept (ready .c)).core 0).cq 1).head = none ∧
    (let s := copying fun m => { m with unit := some ⟨[], [], []⟩ }
     headIs s (fun m =>
       let p := (swept s).unitTokens 0 1 ⟨0, 0⟩ ⟨[], [], []⟩
       p.2.unitReady { m with unit := some p.1 } && p.2.queueTurn 0 1 && decide ((p.2.core 0).lastUnit[(engOf 1).val] ≠ some (p.2.core 0).cyc))) = true ∧
    (let s := copying fun m => { m with unit := some ⟨[], [(3, 0)], []⟩ }
     headIs s (fun m => (s.sweep 0).unitReady m)) = false ∧
    (let s := copying fun m => { m with offset := 128 }
     headIs s (fun m => decide (m.park = none ∧ m.total ≤ m.offset ∧ m.total ≠ 0) && !(s.sweep 0).copyOut m.outs) = true ∧ (s.sweep 0).alive 0 = true) ∧
    (let s := copying fun m => { m with len := 0 }
     headIs s (fun m => decide (m.total = 0) && ((swept s).core 0).copyPace 1 m) = true) ∧
    (flying (copying id)).copyOut [(5, 0)] = true := by decide +kernel

/-- A fill of the scratchpad is translated at once, whole and in reach. -/
def fillFirst : State := core0 (ready .c) fun k => { k with cqs := k.cqs.set 1 ⟨[.cmd fillCmd], none⟩, cyc := 9 }
theorem witness_EngineEvents_performs :
    fillFirst.unitReads 0 fillCmd (fillFirst.unitAt 0 fillCmd) = [] ∧ fillFirst.transRuns 0 ⟨0, 0⟩ .r [] = (.ok ([], []), fillFirst) ∧
    fillFirst.transRuns 0 ⟨0, 0⟩ .w [(.spad 0 0x1000, 128)] = (.ok ([], []), fillFirst) ∧ fillFirst.allDone [] = true ∧
    fillFirst.unitFetch 0 [] [] [] = some [] ∧ fillFirst.badStore (dieOfCore 0) [] = none ∧ ((fillFirst.core 0).cq 1).head = some fillCmd := by
  and_intros <;> first | rfl | decide +kernel

/-! ### Memory and writes -/

/-- Channel 0 at the start of slot 0 of rotation 1, as given; a request bound to it, and one for a later slot. -/
def slot0 (x : Channel) : State := { (ready .c).setChan 0 x with girthOn := true, girth := 320 }
def request (write : Bool) : HReq := ⟨7, 0, ⟨0, 0⟩, 0, 0, write, false, 0, 0, 320, false, some 320⟩
def dueAt (s : State) : Option HReq :=
  (s.chan 0).reqs.find? fun r => r.boundTo 320 && r.reached 320 && !(s.chan 0).owesBackoff r && !s.behindFill 0 0 r
def calm (reqs : List HReq) : Channel := { Channel.reset with refRot := 2, reqs := reqs }

theorem witness_MemoryEvents_slot :
    (railed 256 id).girthOn = true ∧ (railed 256 id).girth % 256 = 0 ∧ ((railed 256 id).die 0).refilled[(0 : Fin 8).val] ≠ some 256 ∧
    (railed 255 id).girth % 256 ≠ 0 ∧ chanNo 0 0 = 0 ∧ ((slot0 Channel.reset).chan 0).lastSlot ≠ some 320 ∧
    ((slot0 { Channel.reset with lastSlot := some 320 }).chan 0).lastSlot = some 320 ∧ ((slot0 Channel.reset).die 0).offline = false ∧ 320 % 5 = 0 ∧
    ({ Channel.reset with refRot := 1 } : Channel).voids 0 1 = true ∧ (calm []).voids 0 1 = false ∧ (calm []).rfmOf 0 = none ∧
    (calm []).ownerOf 0 = 0 ∧ ((calm []).setOwner 0 127).ownerOf 0 = 127 ∧ (slot0 (calm [])).fillOn 0 0 0 = false ∧
    ({ slot0 (calm []) with fills := [(0, (0, 0))] } : State).fillOn 0 0 0 = true ∧
    dueAt (slot0 (calm [])) = none ∧ dueAt (slot0 (calm [request false])) = some (request false) ∧
    dueAt (slot0 (calm [request true])) = some (request true) ∧
    dueAt (slot0 { calm [request true] with backoff := [⟨0, 0, 0, 321⟩] }) = none ∧
    dueAt { slot0 (calm [request true]) with fills := [(0, (0, 0))] } = none ∧
    allocClr ((slot0 (calm [request true])).allocGet 0) = true ∧ mapGet (slot0 (calm [request true])).fills 0 = none ∧
    ({ calm [] with rfm := [⟨0, 1, 2, 2⟩] } : Channel).rfmOf 0 = some ⟨0, 1, 2, 2⟩ ∧
    ({ calm [] with rfm := [⟨0, 1, 2, 1⟩] } : Channel).rfmOf 0 = some ⟨0, 1, 2, 1⟩ ∧
    (slot0 { Channel.reset with refRot := 1 }).girth / 320 = 1 ∧ (slot0 { Channel.reset with refRot := 2 }).girth / 320 < 2 := by decide +kernel

/-- A load of one byte that waits for its line. -/
def loading (pa tick : Nat) (lines : List LineReq) : State :=
  strm0 (paged (ready .c)) fun y => { y with
    loads := [⟨3, 1, .x 1 .b, [0], [⟨0, pa, 1, 127, 0⟩], [], none, lines, tick, 0x1000, [], 0, 0, 0, none⟩] }
def loadReadyAt (s : State) : Bool :=
  match (s.strm 0 0 .c).loads[0]? with
  | some l =>
    let p := s.retryTokens 0 ⟨0, 0⟩ l.lines
    let l' := { l with lines := p.1 }
    p.2.alive 0 && p.1.all p.2.lineReady && !p.2.extOpen l' && !loadBehind l' (s.strm 0 0 .c).loads &&
      l'.segs.all (fun g => p.2.readableRun (dieOfCore 0) g.keyId g.pa g.n)
  | none => false

theorem witness_MemoryEvents_load : ((loading 0 0 []).core 0).ctxId = some ⟨0, 0⟩ ∧ ((loading 0 0 []).strm 0 0 .c).loads.length = 1 ∧
    ((ready .c).strm 0 0 .c).loads[0]?.isNone = true ∧
    loadReadyAt (loading 0x1000 0 []) = true ∧ ((loading 0x1000 0 []).loadBytes 0 [0] [⟨0, 0x1000, 1, 127, 0⟩]).isSome = true ∧
    ((badLine (loading 0x1000 0 [])).loadBytes 0 [0] [⟨0, 0x1000, 1, 127, 0⟩]).isNone = true ∧ loadReadyAt (badLine (loading 0x1000 0 [])) = true ∧
    loadReadyAt (loading 0x1000 0 [⟨64, 127, false, false, some 9, 0, 0, 0, 0⟩]) = false ∧
    ((loading 0x1000 0 []).strm 0 0 .c).st ≠ .trapped := by decide +kernel

/-- A fill of frame 0 in core 0's slots: none of its bursts is written, or all but the first of channel 0; it stands at slot 0. -/
def filling (set : Nat) (g : Nat) : State :=
  { (paged (ready .c)).setChan 0 { Channel.reset with refRot := 2 } with fills := [(0, (set, 0))], girthOn := true, girth := g }

theorem witness_MemoryEvents_frames :
    mapGet (ready .c).fills 0 = none ∧ mapGet (filling 0 321).fills 0 = some (0, 0) ∧
    ((filling 0 321).fillSlot 0 0 (List.range 32) 0).1 ≠ allBursts ∧
    ((filling (allBursts - 1) 320).fillSlot 0 0 (List.range 32) (allBursts - 1)).1 = allBursts ∧
    State.reset.allocOk 7 0 = true ∧ State.reset.allocOk 7 (allocMk 3 false 0 0) = false ∧
    ({ ready .c with alloc := [(0, allocMk 1 false 0 0)] } : State).inPartition 0 = true ∧ State.reset.inPartition 7 = false ∧
    ((ready .c).modSlice 0 fun x => { x with unreturned := [7] }).unreturned 7 = true ∧ State.reset.unreturned 7 = false ∧
    allocState 0 ≠ 1 ∧ allocState (State.reset.allocGet 7) = 0 ∧ allocState ((paged (ready .c)).allocGet 0) ≠ 0 ∧
    ({ slot0 ((calm []).setOwner 0 127) with scrub := [(7, 1)] } : State).slotOpen (burstChan 7 1) 127 = true ∧
    (1 : Nat).testBit 0 = true ∧ (1 : Nat).testBit 1 = false ∧
    (slot0 (calm [])).slotOpen (burstChan 7 1) 127 = false := by decide +kernel

theorem witness_MemoryEvents_registers :
    (State.reset.die 0).rateFits 0 ⟨0, 0⟩ 256 = true ∧
    ((State.reset.die 0).setBucket 0 ⟨0, 1⟩ ⟨0, 1, 0⟩).rateFits 0 ⟨0, 0⟩ 256 = false ∧
    (State.reset.fabPort 0).shareFits 0 255 = true ∧ (⟨[(1, ⟨0, 2, 0, 0, 0, 0⟩)], 0, []⟩ : FabPort).shareFits 0 255 = false := by decide +kernel

/-- A write of one byte at an address, from die 0, that belongs to a home and has entered its die or not. -/
def aWrite (home : DieId) (entered : Bool) (stamp : Option VClock) : WriteRec :=
  ⟨5, 5, ⟨0, 0⟩, 0, 0, home, 0x1000, 1, .bytes [some 9], [], false, entered, some #v[0, 0, 0, 0], stamp, 0, .drop, false⟩
def pended (home : DieId) (entered : Bool) : State := (paged (ready .c)).modDie 0 fun d => { d with pend := [aWrite home entered none] }
def toEnter (s : State) (home : DieId) : Option WriteRec := (s.die 0).pend.find? fun w => decide (w.home = home) && !w.entered
def cameAt (s : State) : Option WriteRec :=
  s.transit.find? fun w => decide (w.src = 0) && decide (w.home = 1) && w.stamp.isNone
def carried (w : WriteRec) : State := { paged (ready .c) with transit := [w] }
/-- A step on four bytes at home 0 or 1, whose old value is credited, or goes to the scratchpad. -/
def aStep (home : DieId) (op : AtomOp) (old : OldTo) : WriteRec := { aWrite home true none with pay := .atom 4 op, old := old }
/-- What leaves die 0 together: the first write of two groups; one of the first group stays behind an older write of its line. -/
def pendOf (ws : List WriteRec) : State := (paged (ready .c)).modDie 0 fun d => { d with pend := ws }
def torn2 : State := pendOf [aWrite 1 true none, { aWrite 1 true none with id := 6, waits := [5] }]

theorem witness_WriteEvents :
    toEnter (pended 0 false) 0 = some (aWrite 0 false none) ∧ toEnter (pended 0 true) 0 = none ∧
    (pended 0 true).splitPend 0 [] ((pended 0 true).die 0).pend = ([aWrite 0 true none], []) ∧
    (paged (ready .c)).splitPend 0 [] ((paged (ready .c)).die 0).pend = ([], []) ∧
    (pended 0 true).keyLives (aWrite 0 true none).gen = true ∧ tblWf 0 ((pended 0 true).die 0).view = true ∧
    (1 : DieId) ≠ 0 ∧ (pended 1 true).splitPend 1 [] ((pended 1 true).die 0).pend = ([aWrite 1 true none], []) ∧
    cameAt (paged (ready .c)) = none ∧ cameAt (carried (aWrite 1 true none)) = some (aWrite 1 true none) ∧
    VClock.le #v[0, 0, 0, 0] ((paged (ready .c)).die 1).vc = true ∧ VClock.le #v[1, 0, 0, 0] ((paged (ready .c)).die 1).vc = false ∧
    (let s := carried (aWrite 1 true (some #v[0, 1, 0, 0]))
     let next (s : State) := s.transit.find? fun w => decide (w.home = 1) && !w.seen.getLsbD (0 : DieId).val && match w.stamp with
        | some st => stampNext st (s.die 0).vc 1
        | none => false
     next s = some (aWrite 1 true (some #v[0, 1, 0, 0])) ∧ next (carried (aWrite 1 true (some #v[0, 2, 0, 0]))) = none) := by decide +kernel

/-- Element steps of each form, with their old values credited, given to the scratchpad, or on their way back there; a group of which one write
stays behind. -/
theorem witness_WriteEvents_steps :
    ([(.acc .add .i32 [1, 0, 0, 0]), .swap [1, 2, 3, 4], .cas [0, 0, 0, 0] [1, 2, 3, 4]].all fun op =>
      let w := aStep 0 op (.credit 0 63 4)
      let s := pendOf [w]
      decide (s.splitPend 0 [] (s.die 0).pend = ([w], [])) && decide (toEnter s 0 = none) && s.keyLives w.gen && decide (w.src = 0)) = true ∧
    ((pendOf [aStep 0 (.swap [1, 2, 3, 4]) (.spad 0 0x3FFFFE (some 63))]).splitPend 0 [] [aStep 0 (.swap [1, 2, 3, 4]) (.spad 0 0x3FFFFE (some 63))]).1 =
      [aStep 0 (.swap [1, 2, 3, 4]) (.spad 0 0x3FFFFE (some 63))] ∧ tblWf 0 ((pendOf []).core 0).spad = true ∧ [1, 2, 3, (4 : Byte)].length ≤ 2 ^ 22 ∧
    cameAt (carried (aStep 1 (.swap [1, 2, 3, 4]) .drop)) = some (aStep 1 (.swap [1, 2, 3, 4]) .drop) ∧
    ([OldTo.credit 0 63 1, .back 0 0x3FFFFE (some 63) [1, 2, 3, 4]].all fun o =>
      let w : WriteRec := { aWrite 1 true (some #v[0, 1, 0, 0]) with old := o }
      decide (((carried w).transit.find? fun w => decide (w.home = 1) && !w.seen.getLsbD (0 : DieId).val && match w.stamp with
        | some st => stampNext st ((carried w).die 0).vc 1
        | none => false) = some w) && decide (w.src = 0)) = true ∧
    torn2.splitPend 1 [] (torn2.die 0).pend = ([aWrite 1 true none], [{ aWrite 1 true none with id := 6, waits := [5] }]) := by decide +kernel

/-! ### Translation, stops, the fabric and the host port -/

/-- A fault of context 0 at core 0 that waits to be written into the queue at 0x100, whose WIDX and RIDX are given. -/
def aFault (sent : Option Nat) : Desc := { newFault 1 with fid := 1, sent := sent }
def faulted (widx ridx : Byte) (stuck : Bool) (sent : Option Nat) : State :=
  let s := laid (paged (ready .c)) 0x100 [widx, 0, 0, 0, 0, 0, 0, 0, ridx]
  (core0 s fun k => { k with descs := [aFault sent] }).modCtx ⟨0, 0⟩ fun x =>
    { x with faultHdr := 0x100, faultLog2 := 4, fqStuck := stuck }
/-- Port 1 of the A-stream of sequencer 0 asks for page 0. -/
def windowed (hit : Bool) : State :=
  let s := (paged (ready .a)).modStrm 0 0 .a fun x => x.setPort 1 { x.port 1 with want := some 0 }
  core0 s fun k => { k with tlb := if hit then [⟨⟨0, 0⟩, 0, 1, 1, ⟨.dev, 32, true, true, true, 0, 0, 127, false⟩⟩] else [] }
def fills (s : State) (p : Except TErr Walked → Bool) : Bool := p (s.walkFill 0 ⟨0, 0⟩ (0 * 65536)).1

theorem witness_TranslationEvents_fill : ((windowed true).core 0).ctxId = some ⟨0, 0⟩ ∧ (0 : Word).toNat < 2 ^ 52 ∧ (State.reset.core 0).ctxId = none ∧
    2 ^ 52 ≤ (0x10000000000000 : Word).toNat ∧ (((ready .a).strm 0 0 .a).port 1).want = none ∧
    ((((windowed true).strm 0 0 .a).port 1).want = some 0) ∧ (((windowed true).core 0).tlbFind ⟨0, 0⟩ 0).isSome = true ∧
    ((windowed false).core 0).tlbFind ⟨0, 0⟩ (0 * 65536) = none ∧
    fills (windowed false) (fun | .ok _ => true | _ => false) = true ∧
    fills (noRoot (windowed false)) (fun | .error (.fault _ _) => true | _ => false) = true ∧
    fills (farRoot (windowed false)) (fun | .error .wait => true | _ => false) = true ∧
    fills { windowed false with lineGen := [(0, 2)] } (fun | .error .bad => true | _ => false) = true := by decide +kernel

def oldestOf (s : State) : Option Desc := ((s.ctx? ⟨0, 0⟩).bind fun x => oldestDesc x.nextFid (s.descsOf ⟨0, 0⟩)).map (·.2)
def queueDie (s : State) (p : Ans DieId → Bool) : Bool := (s.ctx? ⟨0, 0⟩).any fun x => p (s.faultDie ⟨0, 0⟩ x)

theorem witness_TranslationEvents_write :
    oldestOf (faulted 1 0 false none) = some (aFault none) ∧ (ready .c).descsOf ⟨0, 0⟩ = [] ∧
    ((faulted 0 0 true none).ctx? ⟨0, 0⟩).any (·.fqStuck) = true ∧ ((faulted 0 0 false none).ctx? ⟨0, 0⟩).any (fun x => !x.fqStuck && decide (x.faultLog2 = 4)) = true ∧
    queueDie (faulted 1 0 false none) (oks fun d => decide (d = 0)) = true ∧ queueDie (farRoot (faulted 1 0 false none)) waits = true ∧
    queueDie (noRoot (faulted 1 0 false none)) fails = true ∧
    (let head (s : State) := s.engGet 0 ⟨0, 0⟩ 0x100 16
     oks (fun bs => decide (wordAt bs 0 = 1 ∧ wordAt bs 8 = 0)) (head (faulted 1 0 false none)) = true ∧
       oks (fun bs => decide (2 ^ 4 ≤ (wordAt bs 0 + 2 ^ 64 - wordAt bs 8) % 2 ^ 64)) (head (faulted 16 0 false none)) = true ∧
       waits (head (farRoot (faulted 1 0 false none))) = true ∧ fails (head (noRoot (faulted 1 0 false none))) = true) ∧
    (let puts (s : State) := (s.engPut 0 ⟨0, 0⟩ (0x100 + 64 + 32) (List.replicate 32 0)).1
     oks any (puts (faulted 1 0 false none)) = true ∧ waits (puts (farRoot (faulted 1 0 false none))) = true ∧
       fails (puts (noRoot (faulted 1 0 false none))) = true) ∧
    (let puts (s : State) := (s.engPut 0 ⟨0, 0⟩ 0x100 (toBytes 8 2)).1
     oks any (puts (faulted 1 0 false none)) = true ∧ waits (puts (farRoot (faulted 1 0 false none))) = true ∧
       fails (puts (noRoot (faulted 1 0 false none))) = true) ∧
    oldestOf (faulted 1 0 false (some 5)) = some (aFault (some 5)) ∧ (faulted 1 0 false (some 5)).inFlight 5 = false ∧
    (flying (faulted 1 0 false (some 5))).inFlight 5 = true := by
  decide +kernel

/-- Tables of page 0, which is its own table at every level: entry 0 names the page itself, entry 1 is empty and entry 16 cannot be read. -/
def tables : State := { windowed false with lineGen := [(1, 2)] }
def isTable (e : Nat) : Bool := plainEntryOk e
def entry2 (e : Nat) : State := laid (windowed false) 16 (toBytes 8 e)
def owned1 : State := { windowed false with alloc := [(0, allocMk 1 false 1 127)] }
def inSlice (s : State) (p : Slice → Bool) : Bool := (s.slice? 0).any p
def isBad {α : Type} : Except TErr α → Bool
  | .error .bad => true
  | _ => false
def gives (r : Except TErr Nat) (n : Nat) : Bool :=
  match r with
  | .ok m => decide (m = n)
  | .error _ => false
def isFault {α : Type} (cause gpa : Nat) : Except TErr α → Bool
  | .error (.fault c g) => decide (c = cause ∧ g = gpa)
  | _ => false

theorem witness_TranslationEvents_tables :
    isTable 0x1D = true ∧ leaf2Ok 0x1D = true ∧ isTable 0 = false ∧ leaf2Ok 0 = false ∧
    gives (tables.tabEntry 0 127 0) 0x1D = true ∧ gives (tables.tabEntry 0 127 8) 0 = true ∧ isBad (tables.tabEntry 0 127 128) = true ∧
    inSlice tables (fun x => decide (x.s2root = 0) && gives (tables.tab1Entry 0 0 x 0) 0x1D && gives (tables.tab1Entry 0 0 x 8) 0 &&
      isBad (tables.tab1Entry 0 0 x 128)) = true ∧
    inSlice tables (fun x => isFault 3 0x10000000000 (tables.walk2 0 x 0x10000000000)) = true ∧
    inSlice owned1 (fun x => (match owned1.walk2 0 x 0 with | .ok l => !owned1.leafOwned 0 0 l | _ => false) && isFault 3 0 (owned1.tab1Entry 0 0 x 0)) = true ∧
    inSlice (entry2 0x1000000001D) (fun x => gives ((entry2 0x1000000001D).tab1Entry 0 0 x 16) 0x1000000001D &&
      isFault 3 0x10000000000 ((entry2 0x1000000001D).walk2 0 x 0x10000000000)) = true ∧
    isTable 0x1000000001D = true ∧
    inSlice (laid (entry2 0x1001D) 8 (toBytes 8 0x5001D)) (fun x =>
      match (laid (entry2 0x1001D) 8 (toBytes 8 0x5001D)).walk2 0 x 0x10000 with
      | .ok l => decide (l.e = 0x5001D) && !(laid (entry2 0x1001D) 8 (toBytes 8 0x5001D)).leafOwned 0 0 l
      | _ => false) = true := by decide +kernel

/-- A walked page whose two leaves have some bits. -/
def pageOf (e1 e2 : Nat) : Walked := ⟨e1, 0, ⟨e2, 0⟩, combine (windowed false) 0 e1 ⟨e2, 0⟩⟩
def walksTo (s : State) (va : Nat) (p : Walked → Bool) : Bool := match (s.walkFill 0 ⟨0, 0⟩ va).1 with | .ok w => p w | .error _ => false
/-- Entries 1 and 2 map pages 1 and 2 to themselves in both stages, with CONT. -/
def near12 : State :=
  let s := laid (laid (windowed false) 8 (toBytes 8 (0x1001D + 2 ^ 57))) 16 (toBytes 8 (0x2001D + 2 ^ 57))
  { s with alloc := [(0, allocMk 1 false 0 127), (1, allocMk 1 false 0 127), (2, allocMk 1 false 0 127)] }

theorem witness_TranslationEvents_walk :
    isFault 2 0 ((pageOf 0x11 0x1D).check .r) = true ∧ isFault 2 0 ((pageOf 0x15 0x1D).check .w) = true ∧ isFault 2 0 ((pageOf 0xD 0x1D).check .x) = true ∧
    isFault 2 0 ((pageOf 0x15 0x1D).check .rw) = true ∧ isFault 4 0 ((pageOf 0x1D 0x11).check .rw) = true ∧
    (match (pageOf 0x1D 0x1D).check .rw with | .ok t => decide (t = (pageOf 0x1D 0x1D).t) | .error _ => false) = true ∧
    walksTo (windowed false) 0 (fun w => (match w.check .w with | .ok g => !g.d | _ => false)) = true ∧ (windowed false).keyGen 127 = some 1 ∧
    walksTo (laid (windowed false) 8 [0x19]) 0x10000 (fun w => isFault 2 0 (w.check .r)) = true ∧
    walksTo (laid (entry2 0x1001D) 8 [0x5D]) 0x20000 (fun w => (match w.check .w with | .ok g => g.d | _ => false)) = true ∧
    walksTo near12 0x10000 (fun w => w.e1.testBit 57 && decide (w.t.page = 1) && inSlice near12 fun x =>
      gives (near12.tab1Entry 0 0 x (w.tab1 + 16)) (0x2001D + 2 ^ 57) && match near12.walk2 0 x 0x20000 with
        | .ok l => near12.leafOwned 0 0 l && decide (entryOa l.e = 2)
        | _ => false) = true := by decide +kernel

/-- Die 3 leaves service; a frame on it belongs to slice 0, and an entry at 0x40 of its table is to name a free frame of die 0. -/
def leaving : State :=
  let s := laid (paged (ready .c)) 0x40 (toBytes 8 (0x600000 * 65536 + 0x1D))
  ({ s with alloc := s.alloc ++ [(0x600000, allocMk 1 false 0 0)], keys := (0, 2) :: s.keys } : State).modDie 3 fun x => { x with emptying := true }
/-- Die 3 leaves service; a whole row of frames on it belongs to slice 0, which no entry maps. -/
def leavingRow : State :=
  ({ paged (ready .c) with
    alloc := (0, allocMk 1 false 0 127) :: (List.range 16).map fun i => (0x600000 + i, allocMk 1 false 0 0)
    keys := [(0, 2), (127, 1)] } : State).modDie 3 fun x => { x with emptying := true }
def rowTo (t : Nat) : List (Nat × Nat) := (List.range 16).map fun i => (0x600000 + i, t + i)
def mayChange (s : State) (ms : List (Nat × Nat)) : Bool := (s.slice? 0).any fun x => s.mayMove 0 x ⟨[], ms⟩
def moved : TabWrites := [(0x40, BitVec.ofNat 64 (0x10000 * 65536 + 0x1D))]

theorem witness_TranslationEvents_rest :
    (railed 65536 id).girthOn = true ∧ (railed 65536 id).girth % 65536 = 0 ∧ (railed 65535 id).girth % 65536 ≠ 0 ∧
    (parkedC 3 9 (ready .c)).parkOf 0 (.strm 0 .c) = some ⟨9, 3, 0x1000, 0x5000⟩ ∧ (ready .c).parkOf 0 (.strm 0 .c) = none ∧
    (parkedC 4 9 (ready .c)).parkOf 0 (.strm 0 .c) = some ⟨9, 4, 0x1000, 0x5000⟩ ∧
    (parkedC 1 9 (ready .c)).parkOf 0 (.strm 0 .c) = some ⟨9, 1, 0x1000, 0x5000⟩ ∧
    (ready .c).mayFreeze 0 ⟨9, 4, 0x1000, 0x5000⟩ = true ∧
    ((ready .c).modSlice 0 fun x => { x with gpas := [(0, 0x10000)] }).mayFreeze 0 ⟨9, 3, 0x1000, 0x5000⟩ = false ∧
    ((ready .c).slice? 5).isNone = true ∧ ((ready .c).slice? 0).any (fun x => decide (x.keyId = 0)) = true ∧
    (paged (ready .c)).tabMoves 0 ⟨[], []⟩ = [] ∧ leaving.tabMoves 0 ⟨moved, []⟩ = [(0x600000, 0x10000)] ∧
    leaving.accessesDone 0 = true ∧ leaving.frameQuiet 0x600000 = true ∧ leaving.dieIn (homeOf (0x10000 * 65536)) = true ∧
    (strm0 leaving fun y => { y with loads := (loadOut 0x2000 (ready .c)).curStrm.loads }).accessesDone 0 = false ∧
    leavingRow.tabMoves 0 ⟨[], rowTo 0x10000⟩ = rowTo 0x10000 ∧ mayChange leavingRow (rowTo 0x10000) = true ∧
    ((leavingRow.moveSaved 0 (rowTo 0x10000)).bind (·.moveFrames (rowTo 0x10000))).isSome = true ∧ mayChange leavingRow [(0x600000, 0x10000)] = false ∧
    mayChange leavingRow (rowTo 0) = true ∧ ((leavingRow.moveSaved 0 (rowTo 0)).bind (·.moveFrames (rowTo 0))).isNone = true := by decide +kernel

/-- A group of an estimate of 100,000 ticks runs, with a command in the array or not. -/
def working100k (array : Bool) : State :=
  let s := seq0 (ready .c) fun x => { x with rcd := ⟨#v[0, 0, 0, 0, 0, 100000, 0, 0], 0⟩ }
  if array then core0 s fun k => { k with front := some mcmd } else s

theorem witness_StopEvents_choice :
    (∀ g ∈ (ready .c).groupsOf ⟨0, 0⟩, g.rcd.prio < (1 : BitVec 8).toNat) ∧
    (∃ g ∈ (ready .c).groupsOf ⟨0, 0⟩, (0 : BitVec 8).toNat ≤ g.rcd.prio) ∧
    (let x := (ready .c).choice ⟨0, 0⟩ 1 0 0
     x.rem ≤ x.c ∧ (x.rem : Int) ≤ x.slack) := by decide +kernel

theorem witness_StopEvents_choice_by_slack :
    (let x := (working100k false).choice ⟨0, 0⟩ 1 20000 0
     ¬ (x.rem ≤ x.c ∧ (x.rem : Int) ≤ x.slack) ∧ ((x.c + x.tile : Nat) : Int) ≤ x.slack) ∧
    (let x := (working100k true).choice ⟨0, 0⟩ 1 14000 0
     x.slack < ((x.c + x.tile : Nat) : Int) ∧ (x.c : Int) ≤ x.slack) ∧
    (let x := (working100k false).choice ⟨0, 0⟩ 1 10000 0
     x.slack < ((x.c + x.tile : Nat) : Int) ∧ x.slack < (x.c : Int) ∧ x.vtok < (1 : BitVec 32).toNat ∧ (0 : BitVec 32).toNat ≤ x.vtok) := by decide +kernel

/-- A stop of context 0 that is at its count; the slice owns frames 0x10000 on, which no entry maps, for its area. -/
def aStop (act : StopAct) (halted : Bool) : Stop := ⟨0, false, 0, act, 1, 0, halted⟩
def stopping (act : StopAct) (halted : Bool) : State :=
  let s := (seq0 (paged (ready .c)) fun x => { x with st := .idle }).modCtx ⟨0, 0⟩ fun x => { x with stops := [aStop act halted] }
  { s with alloc := s.alloc ++ (List.range 90).map fun i => (0x10000 + i, allocMk 1 false 0 0) }
def saves (s : State) (p : Slice → Ctx → Stop → Bool) : Bool :=
  match s.slice? 0, s.ctx? ⟨0, 0⟩ with
  | some sl, some x => (x.stops.find? (s.quiescent ⟨0, 0⟩)).any (p sl x)
  | _, _ => false

theorem witness_StopEvents_stop :
    ((ready .c).ctx? ⟨0, 5⟩).isNone = true ∧ (aStop .drain true).halted = true ∧
    (aStop .kill false).s ≤ (stopping .kill false).girth ∧ (aStop .kill false).halted = false ∧ (aStop .checkpoint false).act ≠ .kill ∧
    (0 : CoreId) ∈ (stopping .drain false).coresIn ⟨0, 0⟩ 1 ∧ (1 : CoreId) ∉ (stopping .drain false).coresIn ⟨0, 0⟩ 1 ∧
    saves (stopping .drain true) (fun _ x p => decide (p = aStop .drain true) && decide (x.switched = 0)) = true ∧
    saves (stopping .drain false) (fun _ _ _ => true) = false ∧
    saves (stopping .drain true) (fun sl _ _ => (stopping .drain true).areaOk 0 sl 0x100000000 (saveSize 1)) = true ∧
    saves (stopping .drain true) (fun sl _ _ => (stopping .drain true).areaOk 0 sl 0 (saveSize 1)) = false := by decide +kernel

theorem witness_StopEvents_merge :
    ((1 : BitVec 64) &&& 2 = 0 ∧ (aStop .drain false).cores &&& (aStop .kill false).cores ≠ 0 ∧ (aStop .drain false).s ≤ (aStop .kill false).s) ∧
    (aStop .drain false).s < ({ aStop .kill false with s := 5 } : Stop).s ∧ ({ aStop .kill false with s := 5 } : Stop).halted = false ∧
    ((ready .c).core 0).escal ≠ .qpend ∧ ((core0 (ready .c) fun k => { k with escal := .qpend }).core 0).escal = .qpend := by decide +kernel

/-- Context 0 has left its core. -/
def away : State := core0 (seq0 (paged (ready .c)) fun x => { x with st := .idle }) fun k => { k with ctx := none }
def grant0 : Grant := ⟨[0], 0, [], [], [], [], 0, [], [], []⟩
def grant5 : Grant := { grant0 with keyId := 5 }
/-- The grant may place the context; the frames it would move. -/
def restores (s : State) (g : Grant) (p : Slice → List (Nat × Nat) → Bool) : Bool :=
  match s.slice? 0, s.ctx? ⟨0, 0⟩ with
  | some sl, some x => s.restorable ⟨0, 0⟩ sl x g && decide ((s.leavingFrames 0).length ≤ g.frames.length) && p sl ((s.leavingFrames 0).zip g.frames)
  | _, _ => false
/-- A whole row of frames of the slice lies on die 3, which leaves service. -/
def awayRow : State := core0 (seq0 leavingRow fun x => { x with st := .idle }) fun k => { k with ctx := none }
def rowGrant (t : Nat) : Grant := { grant0 with frames := (List.range 16).map (t + ·) }

theorem witness_StopEvents_restore :
    restores away grant0 (fun sl ms => decide (ms = []) && away.railsUp 0 sl.cores grant0.cores &&
      ((away.moveSaved 0 ms).bind (·.moveFrames ms)).isSome) = true ∧
    (away.ctx? ⟨0, 0⟩).any (fun x => x.saved.isEmpty) = true ∧ (away.core 0).ctx = none ∧
    restores (ready .c) grant0 (fun _ _ => true) = false ∧
    (let s := away.modDie 0 fun x => { x with votes := x.votes.set 0 900 }
     restores s grant0 (fun sl _ => !s.railsUp 0 sl.cores grant0.cores)) = true ∧
    mapGet (away.setMoving 0 ⟨.here grant5, 16, none, 1⟩).migrating 0 = some ⟨.here grant5, 16, none, 1⟩ := by decide +kernel

theorem witness_StopEvents_restore_frames :
    restores awayRow (rowGrant 0x10000) (fun _ ms => decide (ms = rowTo 0x10000) && (ms.all fun m => awayRow.frameQuiet m.1) && wholeRows (ms.map (·.2)) &&
      ((awayRow.moveSaved 0 ms).bind (·.moveFrames ms)).isSome) = true ∧
    restores awayRow (rowGrant 0) (fun _ ms => wholeRows (ms.map (·.2)) && ((awayRow.moveSaved 0 ms).bind (·.moveFrames ms)).isNone) = true := by
  decide +kernel

/-- Slice 0 moves onto key 5, at a step, with the frames of the round and S; nothing of it is mapped. -/
def shifting (i : Nat) (pages : Option (List Nat)) (at_ : Nat) (s : State) : State := s.setMoving 0 ⟨.here grant5, i, pages, at_⟩
def idle0 : State := { core0 (seq0 (ready .c) fun x => { x with st := .idle }) (fun k => { k with ctx := none }) with girth := 1 }
def atStep (s : State) (p : Slice → Moving → Bool) : Bool :=
  match s.slice? 0, mapGet s.migrating 0 with
  | some sl, some m => p sl m
  | _, _ => false

theorem witness_StopEvents_move :
    mapGet (ready .c).migrating 0 = none ∧ grant5.keyId ≠ 0 ∧ inSlice (ready .c) (fun x => decide (x.keyId = 0)) = true ∧
    atStep (moving 0 none 0 idle0) (fun _ m => match m.dest with | .package _ => true | .here _ => false) = true ∧
    atStep (shifting 15 none 0 idle0) (fun sl m => !((shifting 15 none 0 idle0).moveStep 0 sl m).2) = true ∧
    atStep (shifting 15 (some [0]) 0 idle0) (fun sl m => !((shifting 15 (some [0]) 0 idle0).moveStep 0 sl m).2) = true ∧
    (dropped 4 idle0).invals.any (fun v => decide (v.slice = 0)) = true ∧ idle0.invals = [] ∧
    atStep (shifting 16 none 0 idle0) (fun sl m => !((shifting 16 none 0 idle0).moveStep 0 sl m).2) = true ∧
    atStep (shifting 16 none 2 idle0) (fun sl m => decide (idle0.girth < m.s) && !((shifting 16 none 2 idle0).moveStep 0 sl m).2) = true ∧
    (let s := shifting 16 none 1 idle0
     atStep s (fun sl m => (s.moveStep 0 sl m).2 && s.sliceStill 0 sl && s.railsUp 0 sl.cores grant5.cores &&
       (s.ctx? ⟨0, 0⟩).any (fun x => s.restorable ⟨0, 0⟩ sl x grant5) && (s.switchKey 0 sl m grant5 grant5).isSome)) = true ∧
    (let s := shifting 16 none 1 { away with girth := 1 }
     atStep s (fun sl m => (s.moveStep 0 sl m).2 && (s.switchKey 0 sl m grant5 grant5).isNone)) = true := by decide +kernel

def bag (s : State) (p : Ans Unit → Bool) : Bool :=
  match s.slice? 0, s.ctx? ⟨0, 0⟩ with
  | some sl, some x => x.freeze.any fun f => p (s.writeBag ⟨0, 0⟩ sl x f).1
  | _, _ => false

/-- The Saddlebag lies in page 2, that is guest page 1, whose entry has its D bit set. -/
def dirtied : State :=
  let s := (laid (laid (paged halted) 8 [0x5D, 0, 1]) 16 [0x1D, 0, 1]).modCtx ⟨0, 0⟩ fun x => { x with saddlebag := 0x20000 }
  { s with alloc := s.alloc ++ [(1, allocMk 1 false 0 127)] }

theorem witness_StopEvents_freeze : ((ready .c).slice? 0).isSome = true ∧ ((ready .c).ctx? ⟨0, 0⟩).any (fun x => x.freeze.isNone) = true ∧
    ((frozen 0).ctx? ⟨0, 0⟩).any (fun x => x.freeze.any fun f => decide ((frozen 0).girth < f.f)) = true ∧
    (halted.ctx? ⟨0, 0⟩).any (fun x => x.freeze.any fun f => decide (f.f ≤ halted.girth)) = true ∧
    bag dirtied (oks any) = true ∧ bag (farRoot (paged halted)) waits = true ∧ bag (noRoot (paged halted)) fails = true := by decide +kernel

/-- A request of the fabric that waits at port 0 with some flits to go, or has left; the slice has a share of the port's slots or none. -/
def asking (r : FabReq) (n flits : Nat) (sent : Option Nat) (girth share : Nat) : State :=
  ({ ready .c with
    fabOuts := [⟨4, ⟨0, 0⟩, 0, 0, .c, none, none, 0, n, 3, 1, 0x1000, 0x1000, r, 0, flits, 0, sent, 0, 0, 0⟩]
    girth := girth } : State).setFabPort 0 ⟨[(0, ⟨1, share, 0, 0, 0, 0⟩), (1, ⟨0, 256 - share, 0, 0, 0, 0⟩)], 0, []⟩
def askIs (s : State) (p : FabOut → Bool) : Bool := (s.fabOut 4).any p
def swap4 : FabReq := .swap 0x1000 .f32 none [1, 2, 3, 4]

def readOf (n flits : Nat) (share : Nat) : State := asking (.read 0x1000 4) n flits none 0 share
def into (x : FabShare) (ms : List FabIn) (s : State) : State := s.setFabPort 0 ⟨[(0, x)], 0, ms⟩
def replied (flits : Nat) : FabIn := ⟨0, flits, .reply 4 [1, 2, 3, 4]⟩

/-- A slot of port 0: with nothing that moves; with a request that leaves and a reply that comes in with its last flit. -/
theorem witness_FabricAndHostPortEvents_slot :
    ((readOf 4 1 1).die 0).offline = false ∧ (((readOf 4 1 1).modDie 0 fun d => { d with offline := true }).die 0).offline = true ∧
    (((readOf 4 1 0).fabPort 0).pick false ((readOf 4 1 0).fabQueue 0)).isNone = true ∧
    (((readOf 4 1 1).fabPort 0).pick false ((readOf 4 1 1).fabQueue 0)).any (fun o => decide (o = (0, 4, false))) = true ∧
    (let s := into ⟨0, 1, 0, 0, 0, 0⟩ [replied 1] (asking (.read 0x1000 4) 4 0 (some 0) 5 1)
     let coming := ((s.fabPort 0).arriving.filter fun m => decide (m.flits ≠ 0)).map fun m => (m.slice, ())
     (s.fabPort 0).pick true coming = some (0, ()) ∧ flitIn 0 (s.fabPort 0).arriving = [replied 0] ∧
       (s.deliver 0 (replied 0)).isSome = true ∧ (s.deliverAll 0 [replied 0]).1 = [] ∧ (s.deliverAll 0 [replied 1]).1 = [replied 1]) := by
  decide +kernel

/-- Slices at a port: within its share, above it with the remainder and its burst left, with neither; the last slot of 256 and the one before. -/
theorem witness_FabricAndHostPortEvents_pick :
    (let p (x : FabShare) : FabPort := ⟨[(0, x)], 0, []⟩
     (p ⟨1, 1, 0, 0, 0, 0⟩).pick true [((0 : Fin 32), ())] = some (0, ()) ∧ (p ⟨1, 1, 0, 0, 1, 0⟩).pick true [((0 : Fin 32), ())] = some (0, ()) ∧
       (p ⟨1, 1, 0, 0, 1, 1⟩).pick true [((0 : Fin 32), ())] = none ∧ (p ⟨1, 256, 0, 0, 256, 0⟩).pick true [((0 : Fin 32), ())] = none ∧
       256 - (p ⟨1, 256, 0, 0, 256, 0⟩).shared ≤ (p ⟨1, 256, 0, 0, 256, 0⟩).above true ∧
       (p ⟨1, 1, 1, 0, 0, 0⟩).pick false [((0 : Fin 32), ())] = some (0, ()) ∧ (p ⟨1, 1, 1, 1, 0, 0⟩).pick false [((0 : Fin 32), ())] = none) ∧
    (let p (n : Nat) : FabPort := ⟨[(0, ⟨1, 1, 1, 0, 1, 0⟩)], n, []⟩
     ((p 254).next (some 0) none).slot = 255 ∧ mapGet ((p 254).next (some 0) none).shares 0 = some ⟨1, 1, 2, 1, 1, 0⟩ ∧
       ((p 255).next none (some 0)).slot = 0 ∧ mapGet ((p 255).next none (some 0)).shares 0 = some ⟨1, 1, 0, 0, 0, 1⟩) ∧
    flitIn 0 [replied 0, replied 2] = [replied 0, replied 1] := by decide +kernel

/-- A request with one flit to go, or two; a reply of ours with one, or two; the answers to a request that has left, of each form. -/
theorem witness_FabricAndHostPortEvents_messages :
    askIs (readOf 4 1 1) (fun r => decide (r.flits ≤ 1)) = true ∧ askIs (readOf 4 2 1) (fun r => decide (1 < r.flits)) = true ∧
    ((ready .c).fabAnswer 6 0 0 none).fabBack.any (fun y => decide (y.no = 6 ∧ y.flits ≤ 1)) = true ∧
    ((ready .c).fabAnswer 6 0 0 (some (List.replicate 4096 0))).fabBack.any (fun y => decide (y.no = 6 ∧ 1 < y.flits)) = true ∧
    (ready .c).fabOut 4 = none ∧ askIs (asking (.write 0x1000 [1]) 0 0 (some 0) 5 1) (fun r => decide (r.req = .write 0x1000 [1])) = true ∧
    askIs (asking (.atomic 0x1000 .add .f32 [1, 2, 3, 4]) 0 0 (some 0) 5 1) (fun r => decide (r.req = .atomic 0x1000 .add .f32 [1, 2, 3, 4])) = true ∧
    askIs (asking swap4 4 0 (some 0) 5 1) (fun r => decide (r.req = swap4)) = true ∧
    askIs (asking (.read 0x1000 4) 4 0 (some 0) (2 ^ 22) 1) (fun r => decide (r.sent = some 0 ∧ 0 + 2 ^ 22 ≤ 2 ^ 22)) = true ∧
    askIs (asking (.read 0x1000 4) 4 0 (some 0) 5 1) (fun r => decide (r.sent = some 0 ∧ 5 < 0 + 2 ^ 22 ∧ r.back = 4)) = true ∧
    (⟨[], 0, [replied 1]⟩ : FabPort).hasReply 4 = true ∧ (⟨[], 0, []⟩ : FabPort).hasReply 4 = false := by decide +kernel

/-- A peer asks slice 0, whose fabric addresses are here. -/
def peered (s : State) : State := { s.setFabPort 0 ⟨[(0, ⟨0, 8, 0, 0, 0, 0⟩)], 0, []⟩ with fabMap := [0] }

theorem witness_FabricAndHostPortEvents_peer :
    (0 : Fin 32) ∉ (ready .c).fabMap ∧ (0 : Fin 32) ∈ (peered (ready .c)).fabMap ∧ (peered (ready .c)).movedSlice 0 = false ∧
    (moving 16 none 1 { peered (ready .c) with girth := 1 }).movedSlice 0 = true ∧
    (Asker.mk 0 1).epoch ≠ (peered (ready .c)).ownEpoch ∧ (Asker.mk 0 0).epoch = (peered (ready .c)).ownEpoch ∧
    oks (fun p => decide (p.pa = 0x1000)) ((peered (paged (ready .c))).fabAddr 0 0x1000 .rw) = true ∧
    waits ((farRoot (peered (paged (ready .c)))).fabAddr 0 0x1000 .rw) = true ∧
    fails ((peered (paged (ready .c))).fabAddr 0 0x10000000000 .rw) = true ∧
    ((peered (ready .c)).die (Fin.ofNat 4 ((peered (ready .c)).askPort 0 ⟨0, 0⟩ swap4 / 6))).offline = false ∧
    (let s := (peered (ready .c)).modDie 0 fun d => { d with offline := true }
     (s.die (Fin.ofNat 4 (s.askPort 0 ⟨0, 0⟩ swap4 / 6))).offline = true) := by decide +kernel

def reading : State :=
  strm0 { ready .c with hostReads := [⟨4, vf, 0, 0, .c, 3, none, 0, 1, 0x1000, 0x1000⟩] } fun y => { y with
    loads := [⟨3, 1, .x 1 .b, [0], [], [4], none, [], 0, 0x1000, [], 0, 0, 0, none⟩] }

theorem witness_FabricAndHostPortEvents_host : (∀ r ∈ (ready .c).hostReads, r.id ≠ 4) ∧
    (reading.hostReads.find? fun r => decide (r.id = 4)) = some ⟨4, vf, 0, 0, .c, 3, none, 0, 1, 0x1000, 0x1000⟩ ∧ [(0 : Byte)].length = 1 ∧
    ([] : List Byte).length ≠ 1 ∧ (⟨4, vf, 0, 0, .c, 3, some 1, 0, 1, 0x1000, 0x1000⟩ : HostRead).queue = some 1 ∧
    ((ready .c).strm 0 0 .c).loads = [] ∧
    ((reading.strm 0 0 .c).loads.find? fun l => decide (l.id = 3)).isSome = true := by decide +kernel

/-! ### The whole machine -/

/-- A word of 96 bits at the A-stream or the C-stream of sequencer 0 at core 0, and the next act its issue. -/
def atAct (st : Strm) (w : Nat) : State := { State.reset.placeWord st w with agenda := [.issue 0 0] }
def bareAct (s : State) : State := ({ s with agenda := [] } : State).onIssue 0
/-- The other stream stands at the same word. -/
def bothAct (w : Nat) : State :=
  seq0 (atAct .c w) fun x => { x with a := { x.c with sec := x.a.sec } }

/-- The oldest held word of sequencer 0 has an operation code. -/
def heldOp (opc : Nat) : State := seq0 (ready .c) fun x => { x with held := [{ heldSt with word := BitVec.ofNat 96 (opc * 2 ^ 74) }] }
def heldIs (opc : Nat) : Bool := match ((heldOp opc).seq 0 0).held with | h :: _ => decide (h.word.toNat / 2 ^ 74 % 1024 = opc) | [] => false
/-- The next act is one word of the script of a run, which has started or not. -/
def scriptAct (started : Bool) (ws : List (BitVec 32)) : State :=
  { scripted 0 0 0 [] with agenda := [.script 0 ⟨0, 0⟩] }.modDie 0 fun d =>
    { d with runs := [(0, [{ runOf 0 0 0 [] with started := started, script := ws }])] }
def runNow (s : State) (p : Run → Bool) : Bool := match s.runsOf 0 ⟨0, 0⟩ with | r :: _ => p r | [] => false

theorem witness_StepRunsDecodedWord_acts :
    heldIs 0x206 = true ∧ heldIs 0x288 = true ∧ heldIs 0x201 = true ∧ heldIs 0x200 = true ∧ (0 : CqId).val < 4 ∧ 4 ≤ (7 : CqId).val ∧
    ({ State.reset with agenda := [] } : State).nextAct = (.tick, []) ∧
    ({ ready .c with agenda := [.ev (.nop .none)] } : State).nextAct = (.ev (.nop .none), []) ∧ Instr.isWord (.nop .none) = true ∧
    ({ ready .c with agenda := [.ev (.cinchGrant 63)] } : State).nextAct = (.ev (.cinchGrant 63), []) ∧ Instr.isWord (.cinchGrant 63) = false ∧
    (scriptAct true []).nextAct = (.script 0 ⟨0, 0⟩, []) ∧ (scriptAct true []).runsOf 0 ⟨0, 1⟩ = [] ∧
    runNow (scriptAct false [0]) (fun r => !r.started) = true ∧ runNow (scriptAct true []) (fun r => r.started && r.script[r.pc]?.isNone) = true ∧
    runNow (scriptAct true [0]) (fun r => r.started && r.script[r.pc]?.any fun w => (decodeScript w).isSome) = true ∧
    runNow (scriptAct true [0xFFFFFFFF]) (fun r => r.started && r.script[r.pc]?.any fun w => (decodeScript w).isNone) = true := by decide +kernel

/-- A struck word of the C-stream is to issue again. -/
theorem witness_StepRunsDecodedWord_again :
    ((winState true).seq 0 0).nextAgain .c ≠ none ∧ (winState true).canTry 0 0 .c = true ∧ ((winState false).seq 0 0).nextAgain .c = none ∧
    (winState true).alive 0 = true ∧ ((winState true).seq 0 0).st = .run := by decide +kernel

theorem witness_StepRunsDecodedWord :
    (atAct .c 0x000114183FFFFFFFF0000000).agenda = .issue 0 0 :: [] ∧ (atAct .c 0).nextAct = (.issue 0 0, []) ∧
    ({ State.reset with agenda := [] } : State).girthOn = false ∧
    (let z := bareAct (atAct .c 0x000114183FFFFFFFF0000000)
     z.issueOpen 0 0 = true ∧ z.atWord 0 0 .c = true ∧ z.atWord 0 0 .a = false ∧ z.curWord 0 (z.strm 0 0 .c) = some 0x000114183FFFFFFFF0000000 ∧
       (match decode .c (z.seq 0 0).resident 0x000114183FFFFFFFF0000000 with | .ok _ => true | .error _ => false) = true ∧
       (match decode .c (z.seq 0 0).resident 0xFFFFFFFFFFFFFFFFFFFFFFFF with | .ok _ => false | .error _ => true) = true) ∧
    (let z := bareAct (core0 (atAct .c 0) fun k => { k with imem := [] })
     z.issueOpen 0 0 = true ∧ z.atWord 0 0 .c = true ∧ z.curWord 0 (z.strm 0 0 .c) = none) ∧
    (let z := bareAct (seq0 (atAct .c 0) fun x => { x with c := { x.c with word := none } })
     z.issueOpen 0 0 = true ∧ z.atWord 0 0 .a = false ∧ z.atWord 0 0 .c = false) ∧
    (bareAct (seq0 (atAct .c 0) fun x => { x with bubble := 5 })).issueOpen 0 0 = false := by decide +kernel

def turns (wa wc : Nat) (p : Bool → Bool → Bool) : Bool :=
  let s := bothAct wc
  let s := seq0 s fun x => { x with a := { x.a with hdr := 0x2000 } }
  let s := core0 s fun k => { k with imem := k.imem ++ k.imem.map fun e => { e with hdr := 0x2000, words := [some (BitVec.ofNat 96 wa)] } }
  let z := bareAct s
  match z.curWord 0 (z.strm 0 0 .a), z.curWord 0 (z.strm 0 0 .c) with
  | some a, some c =>
    match decode .a (z.seq 0 0).resident a, decode .c (z.seq 0 0).resident c with
    | .ok ia, .ok ic => z.issueOpen 0 0 && z.atWord 0 0 .a && z.atWord 0 0 .c &&
        p (outReady (exec ia (z.asStream 0 0 .a)) 0 0 .a) (outReady (exec ic (z.asStream 0 0 .c)) 0 0 .c)
    | _, _ => false
  | _, _ => false

/-- Words that pop a queue, of the A-stream and of the C-stream. -/
def popA : Nat := ((encode (.mov ⟨.none, .x 1, .bq 0⟩)).getD 0).toNat
def popC : Nat := ((encode (.vmov ⟨.none, 1, .dq 0, 0, .i32⟩)).getD 0).toNat

/-- Both words could issue; only the A-stream's; only the C-stream's: the other pops a queue that is empty (R75). -/
theorem witness_StepRunsDecodedWord_both :
    turns 0x000114183FFFFFFFF0000000 0x000114183FFFFFFFF0000000 (fun a c => a && c) = true ∧
    turns 0x000114183FFFFFFFF0000000 popC (fun a c => a && !c) = true ∧
    turns popA 0x000114183FFFFFFFF0000000 (fun a c => !a && c) = true := by decide +kernel

theorem witness_DecodeEncode : Instr.inStream (.trap .none 42) = true ∧ Instr.wf .c true (.trap .none 42) = true ∧ encode (.trap .none 42) = some 0x00021C00000000000A800000 := by decide +kernel
theorem witness_EncodeDecode : decode .c true 0x00021C00000000000A800000 = .ok (.trap .none 42) := by rfl

theorem witness_MemoryStaysCanonical : State.reset.memOk = true ∧ ∃ t, step State.reset = .next t := ⟨reset_memOk, _, rfl⟩

/-- A script is not at rest while a write of its own is in flight. -/
theorem witness_ScriptWords_rest : (flying (scripted 0 0 0 [5])).allDone [5] = false ∧ (scripted 0 0 0 []).allDone [] = true := by decide +kernel

/-- A completion of the host brings another number of bytes than was asked for. -/
theorem witness_EverythingGoesOn : (reading.hostReads.any fun r => decide (r.id = 4 ∧ ([] : List Byte).length ≠ r.n)) = true := by decide +kernel

end Sys2Proof.Tests
end

section
/-!
PROOFS. What the scalar words of one source, of an immediate, of three sources and of a field give their destination (R298, R302, R307,
R312, R313, R327, R330, R339, R352, R404).
-/
open Sys2Proof Sys2Proof.Machine

namespace Sys2Proof.Proofs

/-! ## The value a scalar word gives, by the shape of its operands -/

section
variable {s : State}

theorem scalarWord_next_gives {w : Wait} {d : SOp} {src : List SOp} {g : List Word → Word} (h : s.canIssue (scalarUses w d src)) :
    Host.Outcome.next (s.scalarWord w d src g) = s.gives (scalarUses w d src) d (g (s.curSeq.srcVals s.cur.strm src)) :=
  congrArg _ (scalarWord_gives h)

theorem sc2_gives {a : Sc2} (h : s.canIssue (scalarUses a.w a.xd [a.xa])) (f : Word → Word) :
    sc2 a f s = s.gives (scalarUses a.w a.xd [a.xa]) a.xd (f (s.src [a.xa] 0)) :=
  scalarWord_next_gives h

theorem scI_gives {a : ScI} (h : s.canIssue (scalarUses a.w a.xd [a.xa])) (f : Word → Word → Word) :
    scI a f s = s.gives (scalarUses a.w a.xd [a.xa]) a.xd (f (s.src [a.xa] 0) (a.imm.signExtend 64)) :=
  scalarWord_next_gives h

theorem sc4_gives {a : Sc4} (h : s.canIssue (scalarUses a.w a.xd [a.xa, a.xb, a.xc])) (f : Word → Word → Word → Word) :
    sc4 a f s = s.gives (scalarUses a.w a.xd [a.xa, a.xb, a.xc]) a.xd
      (f (s.src [a.xa, a.xb, a.xc] 0) (s.src [a.xa, a.xb, a.xc] 1) (s.src [a.xa, a.xb, a.xc] 2)) :=
  scalarWord_next_gives h

/-! ## Integer conditions as words -/

theorem boolWord_decide (p : Prop) [Decidable p] : boolWord (decide p) = if p then 1 else 0 := by
  by_cases hp : p <;> simp [boolWord, hp]

theorem boolWord_condHolds_ne (x y : Word) : boolWord (condHolds .ne x y) = if x = y then 0 else 1 :=
  (boolWord_decide _).trans (ite_not ..)

theorem icmpi_gives {a : ScI} (h : s.canIssue (scalarUses a.w a.xd [a.xa])) {c : ICond} {v : Word}
    (hv : boolWord (condHolds c (s.src [a.xa] 0) (a.imm.signExtend 64)) = v) :
    exec (.icmpi a c) s = s.gives (scalarUses a.w a.xd [a.xa]) a.xd v :=
  hv ▸ scI_gives h fun x y => boolWord (condHolds c x y)

/-! ## Fields (R302) -/

/-- A value of w bits in two's complement: from the weight of its sign bit up it stands for 2^w less. -/
theorem ofInt_signedOf (w f : Nat) : BitVec.ofInt 64 (signedOf w f) =
    if 2 ^ (w - 1) ≤ f then BitVec.ofInt 64 ((f : Int) - 2 ^ w) else BitVec.ofNat 64 f := by
  unfold signedOf
  by_cases hs : 2 ^ (w - 1) ≤ f
  · rw [if_pos hs, if_neg (Nat.not_lt.mpr hs)]
    simp
  · rw [if_neg hs, if_pos (Nat.lt_of_not_le hs)]
    simp

/-- A field of width 0 is 0, so the zero-extended result needs no case for it. -/
theorem bfxWord_zeroExtended (x p n : Word) :
    bfxWord false x p n = BitVec.ofNat 64 (x.toNat / 2 ^ fieldPos p % 2 ^ fieldWidth p n) := by
  simp only [bfxWord, Nat.shiftRight_eq_div_pow]
  by_cases hw : fieldWidth p n = 0
  · simp [hw, Nat.mod_one]
  · simp [hw]

theorem bfxWord_signExtended (x p n : Word) :
    let w := fieldWidth p n
    let f := x.toNat / 2 ^ fieldPos p % 2 ^ w
    bfxWord true x p n =
      if w = 0 then 0 else if 2 ^ (w - 1) ≤ f then BitVec.ofInt 64 ((f : Int) - 2 ^ w) else BitVec.ofNat 64 f := by
  simp only [bfxWord, Nat.shiftRight_eq_div_pow, if_true, ofInt_signedOf]

theorem fieldMask_eq (p n : Word) : fieldMask p n = BitVec.ofNat 64 ((2 ^ fieldWidth p n - 1) * 2 ^ fieldPos p) := by
  rw [fieldMask, Nat.shiftLeft_eq]

theorem bfiWord_eq (base x p n : Word) :
    let m : Word := BitVec.ofNat 64 ((2 ^ fieldWidth p n - 1) * 2 ^ fieldPos p)
    bfiWord base x p n = (base &&& ~~~m) ||| ((x <<< fieldPos p) &&& m) := by
  simp only [bfiWord, fieldMask_eq]

theorem bfi_gives {w : Wait} {xd : XReg} {xa xb xc : SOp} {v : Word} (h : s.canIssue (scalarUses w xd.sop [xa, xb, xc, xd.sop]))
    (hv : bfiWord (s.src [xa, xb, xc, xd.sop] 3) (s.src [xa, xb, xc, xd.sop] 0) (s.src [xa, xb, xc, xd.sop] 1)
      (s.src [xa, xb, xc, xd.sop] 2) = v) :
    exec (.bfi w xd xa xb xc) s = s.gives (scalarUses w xd.sop [xa, xb, xc, xd.sop]) xd.sop v :=
  hv ▸ scalarWord_next_gives h

end

/-! ## The statement -/

/-- Settles O6: each word has one of the operand shapes above, and the value of its entry is that of the model's function. -/
theorem scalarOneSource : Obligations.ScalarOneSource := by
  unfold Obligations.ScalarOneSource
  refine ⟨⟨fun s a h => ?oneSource, fun s a h => ?immediate, fun s w xd imm h => ?li, fun s w xd imm h => ?liHi⟩,
    fun s a h => ?threeSources, fun s w xd xa xb xc h => ?bfi⟩
  case oneSource => exact ⟨sc2_gives h fun x => x, sc2_gives h popcWord, sc2_gives h clzWord⟩
  case immediate =>
    refine ⟨scI_gives h (· + ·), scI_gives h (· &&& ·), scI_gives h (· ||| ·), scI_gives h (· ^^^ ·), ?_, ?_, ?_, ?_, ?_, ?_⟩
    · exact icmpi_gives h (boolWord_decide _)
    · exact icmpi_gives h (boolWord_condHolds_ne _ _)
    · exact icmpi_gives h (boolWord_decide _)
    · exact icmpi_gives h (boolWord_decide _)
    · exact icmpi_gives h (boolWord_decide _)
    · exact icmpi_gives h (boolWord_decide _)
  case li => exact scalarWord_next_gives h
  case liHi => exact scalarWord_next_gives h
  case threeSources =>
    refine ⟨sc4_gives h fun x y z => if z = 0 then y else x, ?_, ?_⟩
    · exact (sc4_gives h (bfxWord false)).trans (congrArg _ (bfxWord_zeroExtended _ _ _))
    · exact (sc4_gives h (bfxWord true)).trans (congrArg _ (bfxWord_signExtended _ _ _))
  case bfi => exact bfi_gives h (bfiWord_eq _ _ _ _)

end Sys2Proof.Proofs
end

section
/-!
PROOFS. What the compares of vectors write into their mask register (R370, R382), and what the mask words compute (R321, R322).
-/
open Sys2Proof Sys2Proof.Machine

namespace Sys2Proof.Proofs

/-! ## Bits packed into a number -/

/-- Elements of width 1 that are bits: bit n of the number is the n-th of them. -/
theorem testBit_packElems_b2n {α : Type} (p : α → Bool) (l : List α) (n : Nat) :
    (packElems 1 (l.map fun a => b2n (p a))).testBit n = (l[n]?).any p := by
  induction l generalizing n with
  | nil => simp [packElems]
  | cons a l ih =>
    have hb : b2n (p a) < 2 ^ 1 := by cases p a <;> decide
    rw [List.map_cons, packElems, Nat.mod_eq_of_lt hb]
    cases n with
    | zero => cases h : p a <;> simp [b2n, Nat.testBit_zero, h]
    | succ n =>
      have hhalf : (b2n (p a) + 2 ^ 1 * packElems 1 (l.map fun a => b2n (p a))) / 2 =
          packElems 1 (l.map fun a => b2n (p a)) := by omega
      rw [Nat.testBit_succ, hhalf, ih, List.getElem?_cons_succ]

/-! ## Compares -/

/-- The mask that a compare writes: an unmasked lane's bit says whether every element of the lane passes, a lane turned off keeps its
bit. -/
def compareMask (t : ET) (m old : BitVec 32) (f : Nat → Nat → Bool) : BitVec 32 :=
  BitVec.ofNat 32 (packElems 1 ((List.range 32).map fun i =>
    b2n (if m.getLsbD i then (List.range t.per).all (f i) else old.getLsbD i)))

theorem getLsbD_compareMask (t : ET) (m old : BitVec 32) (f : Nat → Nat → Bool) {n : Nat} (hn : n < 32) :
    (compareMask t m old f).getLsbD n = true ↔
      if m.getLsbD n then ∀ j, j < t.per → f n j = true else old.getLsbD n = true := by
  rw [compareMask, BitVec.getLsbD_ofNat, testBit_packElems_b2n, List.getElem?_range hn]
  by_cases hm : m.getLsbD n <;> simp [hn, hm]

section
variable {s : State}

theorem maskWord_issues_compareMask {w : Wait} {kd km : Fin 16} {src : List VOp} {t : ET} {f : List VWord → Nat → Nat → Bool}
    (h : s.canIssue { wait := w, vsrc := src, vec := some (km, false) }) :
    s.maskWord w kd src km t f = s.issues { wait := w, vsrc := src, vec := some (km, false) }
      { k := [(kd, compareMask t (s.curSeq.getK km) (s.curSeq.getK kd) (f (s.curSeq.vsrcVals src)))] } :=
  issueWord_issues h rfl

/-- What every compare does, whatever its condition. -/
theorem maskWord_writes_laneBits {w : Wait} {kd km : Fin 16} {src : List VOp} {t : ET} (f : List VWord → Nat → Nat → Bool)
    (h : s.canIssue { wait := w, vsrc := src, vec := some (km, false) }) :
    ∃ v : BitVec 32, Host.Outcome.next (s.maskWord w kd src km t f) =
        (.next (s.issues { wait := w, vsrc := src, vec := some (km, false) } { k := [(kd, v)] }) : Out) ∧
      ∀ n, n < 32 → (v.getLsbD n = true ↔ if (s.curSeq.getK km).getLsbD n then
        ∀ j, j < t.per → f (s.curSeq.vsrcVals src) n j = true else (s.curSeq.getK kd).getLsbD n = true) :=
  ⟨_, congrArg _ (maskWord_issues_compareMask h), fun _ hn => getLsbD_compareMask _ _ _ _ hn⟩

/-! ## Mask words -/

theorem maskOp_issues {w : Wait} {kd : Fin 16} (h : s.canIssue { wait := w }) (f : Seq → BitVec 32) :
    Host.Outcome.next (s.maskOp w kd f) = (.next (s.issues { wait := w } { k := [(kd, f s.curSeq)] }) : Out) :=
  congrArg _ (issueWord_issues h rfl)

theorem maskCount_gives {w : Wait} {xd : SOp} {ka : Fin 16} (h : s.canIssue { wait := w, dst := [xd] }) (f : Nat → Nat) :
    Host.Outcome.next (s.maskCount w xd ka f) =
      s.gives { wait := w, dst := [xd] } xd (BitVec.ofNat 64 (f (s.curSeq.getK ka).toNat)) :=
  congrArg _ (issueWord_issues h rfl)

end

/-! ## The lowest 1 bit -/

theorem lowestBit_le (n x i : Nat) : lowestBit n x i ≤ i + n := by
  induction n generalizing i with
  | zero => exact Nat.le_refl i
  | succ n ih =>
    rw [lowestBit]
    split
    · omega
    · have := ih (i + 1)
      omega

theorem testBit_lowestBit {n x i : Nat} (h : lowestBit n x i < i + n) : x.testBit (lowestBit n x i) = true := by
  induction n generalizing i with
  | zero => exact absurd h (Nat.lt_irrefl i)
  | succ n ih =>
    rw [lowestBit] at h ⊢
    split
    · assumption
    · rw [if_neg ‹_›] at h
      exact ih (by omega)

theorem testBit_of_lt_lowestBit {n x i j : Nat} (hi : i ≤ j) (h : j < lowestBit n x i) : x.testBit j = false := by
  induction n generalizing i with
  | zero => exact absurd h (Nat.not_lt.mpr hi)
  | succ n ih =>
    rw [lowestBit] at h
    split at h
    · omega
    · rename_i hx
      rcases Nat.eq_or_lt_of_le hi with rfl | hlt
      · exact Bool.eq_false_iff.mpr hx
      · exact ih hlt h

theorem lowestBit_zero (n i : Nat) : lowestBit n 0 i = i + n := by
  refine Nat.le_antisymm (lowestBit_le n 0 i) (Nat.le_of_not_lt fun h => ?_)
  simpa using testBit_lowestBit h

/-- A number other than 0 of at most n bits has a 1 bit among its low n bits. -/
theorem lowestBit_lt {n x : Nat} (hx : x < 2 ^ n) (h0 : x ≠ 0) : lowestBit n x 0 < n := by
  obtain ⟨j, hj⟩ := Nat.exists_testBit_of_ne_zero h0
  have hjn : j < n := (Nat.pow_lt_pow_iff_right (by decide)).mp (Nat.lt_of_le_of_lt (Nat.ge_two_pow_of_testBit hj) hx)
  refine Nat.lt_of_not_le fun hle => ?_
  have hz : x.testBit j = false := testBit_of_lt_lowestBit (Nat.zero_le j) (Nat.lt_of_lt_of_le hjn hle)
  exact Bool.noConfusion (hj.symm.trans hz)

/-- R322: KFIRST's result, 32 for a mask without a 1 bit. -/
theorem lowestBit_word (m : BitVec 32) :
    let v : Word := BitVec.ofNat 64 (lowestBit 32 m.toNat 0)
    (m.toNat = 0 → v = 32) ∧ (m.toNat ≠ 0 →
      v.toNat < 32 ∧ m.toNat.testBit v.toNat = true ∧ ∀ i, i < v.toNat → m.toNat.testBit i = false) := by
  intro v
  have hv : v.toNat = lowestBit 32 m.toNat 0 :=
    Nat.mod_eq_of_lt (Nat.lt_of_le_of_lt (lowestBit_le 32 m.toNat 0) (by decide))
  refine ⟨fun h0 => ?_, fun h0 => ?_⟩
  · rw [h0, lowestBit_zero] at hv
    exact BitVec.eq_of_toNat_eq hv
  · rw [hv]
    have hlt := lowestBit_lt m.isLt h0
    exact ⟨hlt, testBit_lowestBit (by omega), fun i hi => testBit_of_lt_lowestBit (Nat.zero_le i) hi⟩

/-! ## The statement -/

/-- Settles O12: every compare is a mask word whose condition is its own, and the mask words have their table's functions. -/
theorem compareAndMaskWords : Obligations.CompareAndMaskWords := by
  unfold Obligations.CompareAndMaskWords
  refine ⟨fun s w kd km src t f i => ?compares, fun s w kd xa h => ?kset, fun s a h => ?logic, fun s w xd ka h => ?counts,
    ?worked⟩
  case compares =>
    intro u h hcmp
    rcases hcmp with ⟨va, vb, c, rfl, rfl, rfl⟩ | ⟨va, imm, c, rfl, rfl, rfl⟩ | ⟨va, vb, c, rfl, rfl, rfl⟩ | ⟨va, imm, c, rfl, rfl, rfl⟩
    · exact maskWord_writes_laneBits (fun vs i j => fcondHolds c (fvAt t i j (varg vs 0)) (fvAt t i j (varg vs 1))) h
    · exact maskWord_writes_laneBits (fun vs i j => fcondHolds c (fvAt t i j (varg vs 0)) (fvAt t i j (immVec t imm))) h
    · exact maskWord_writes_laneBits (fun vs i j => vicondHolds c t (elemAt t i j (varg vs 0)) (elemAt t i j (varg vs 1))) h
    · exact maskWord_writes_laneBits (fun vs i j => vicondHolds c t (elemAt t i j (varg vs 0)) (elemAt t i j (immVec t imm))) h
  case kset => exact congrArg _ (issueWord_issues h rfl)
  case logic =>
    exact ⟨maskOp_issues h fun x => x.getK a.ka &&& x.getK a.kb, maskOp_issues h fun x => x.getK a.ka ||| x.getK a.kb,
      maskOp_issues h fun x => x.getK a.ka ^^^ x.getK a.kb, maskOp_issues h fun x => x.getK a.ka &&& ~~~x.getK a.kb,
      maskOp_issues h fun x => ~~~x.getK a.ka⟩
  case counts =>
    exact ⟨maskCount_gives h (popCount 32), _, maskCount_gives h fun m => lowestBit 32 m 0, lowestBit_word _⟩
  case worked => rfl

end Sys2Proof.Proofs
end

section
/-!
PROOFS. What the scalar words of two sources give their destination (R298, R312 to R315, R327, R329, R347, R353).
-/
open Sys2Proof Sys2Proof.Machine

namespace Sys2Proof.Proofs

/-! ## The value a word of two sources gives -/

section
variable {s : State} {a : Sc3}

theorem sc3_gives (h : s.canIssue (scalarUses a.w a.xd [a.xa, a.xb])) (f : Word → Word → Word) :
    sc3 a f s = s.gives (scalarUses a.w a.xd [a.xa, a.xb]) a.xd (f (s.src [a.xa, a.xb] 0) (s.src [a.xa, a.xb] 1)) :=
  scalarWord_next_gives h

/-- The same of a function whose value at the sources the entry states in another form. -/
theorem sc3_gives_of_eq (h : s.canIssue (scalarUses a.w a.xd [a.xa, a.xb])) (f : Word → Word → Word) {v : Word}
    (hv : f (s.src [a.xa, a.xb] 0) (s.src [a.xa, a.xb] 1) = v) :
    sc3 a f s = s.gives (scalarUses a.w a.xd [a.xa, a.xb]) a.xd v :=
  hv ▸ sc3_gives h f

theorem icmp_gives (h : s.canIssue (scalarUses a.w a.xd [a.xa, a.xb])) {c : ICond} {v : Word}
    (hv : boolWord (condHolds c (s.src [a.xa, a.xb] 0) (s.src [a.xa, a.xb] 1)) = v) :
    exec (.icmp a c) s = s.gives (scalarUses a.w a.xd [a.xa, a.xb]) a.xd v :=
  sc3_gives_of_eq h (fun x y => boolWord (condHolds c x y)) hv

end

/-! ## Products and orders, signed and unsigned -/

/-- The model multiplies the unsigned sources as natural numbers. -/
theorem mulHigh_unsigned (x y : Word) : mulHigh .uu x y = BitVec.ofInt 64 ((x.toNat : Int) * (y.toNat : Int) / 2 ^ 64) := by
  simp only [mulHigh, Int.ofNat_eq_natCast, Int.natCast_mul]

theorem ite_leWord_signed (x y v w : Word) : (if leWord false x y then v else w) = if x.toInt ≤ y.toInt then v else w := by
  simp only [leWord, Bool.false_eq_true, if_false, decide_eq_true_eq]

theorem ite_leWord_unsigned (x y v w : Word) : (if leWord true x y then v else w) = if x.toNat ≤ y.toNat then v else w := by
  simp only [leWord, if_true, decide_eq_true_eq]

/-! ## The statement -/

/-- Settles O5: each word has two scalar sources, and the value of its entry is that of the model's function. -/
theorem scalarTwoSources : Obligations.ScalarTwoSources := by
  unfold Obligations.ScalarTwoSources
  intro s a h
  refine ⟨sc3_gives h (· + ·), sc3_gives h (· - ·), sc3_gives h (· * ·), sc3_gives h (mulHigh .ss), ?mulhUnsigned, sc3_gives h (mulHigh .su),
    sc3_gives h (divWord false), sc3_gives h (divWord true), sc3_gives h (remWord false), sc3_gives h (remWord true),
    sc3_gives h (· &&& ·), sc3_gives h fun x y => x &&& ~~~y, sc3_gives h (· ||| ·), sc3_gives h (· ^^^ ·),
    sc3_gives h shlWord, sc3_gives h shrWord, sc3_gives h shraWord, sc3_gives h rotWord,
    ?minSigned, ?minUnsigned, ?maxSigned, ?maxUnsigned, ?eq, ?ne, ?lt, ?le, ?ltu, ?leu⟩
  case mulhUnsigned => exact sc3_gives_of_eq h (mulHigh .uu) (mulHigh_unsigned _ _)
  case minSigned => exact sc3_gives_of_eq h (fun x y => if leWord false x y then x else y) (ite_leWord_signed _ _ _ _)
  case minUnsigned => exact sc3_gives_of_eq h (fun x y => if leWord true x y then x else y) (ite_leWord_unsigned _ _ _ _)
  case maxSigned => exact sc3_gives_of_eq h (fun x y => if leWord false x y then y else x) (ite_leWord_signed _ _ _ _)
  case maxUnsigned => exact sc3_gives_of_eq h (fun x y => if leWord true x y then y else x) (ite_leWord_unsigned _ _ _ _)
  case ne => exact icmp_gives h (boolWord_condHolds_ne _ _)
  case eq | lt | le | ltu | leu => exact icmp_gives h (boolWord_decide _)

end Sys2Proof.Proofs
end
